-- ==== Sys2Proof/Word.lean ====
section
/-! DEFINITION. The word types of the manual (R7, R12) and the number of a core (R2). -/
namespace Sys2Proof

/-- A 64-bit scalar register, doubleword or address (R110). -/
abbrev Word := BitVec 64

/-- One byte of memory (R7). -/
abbrev Byte := BitVec 8

/-- The number of one of the 256 cores (R2). -/
abbrev CoreId := BitVec 8

/-- A vector register or operand-queue entry of 2048 bits (R87, R140). -/
abbrev Vec := BitVec 2048

/-- A sparse table by number, ascending, no entry equal to the value an unlisted number has. -/
abbrev Tab (α : Type) := List (Nat × α)

end Sys2Proof
end

