-- ==== Sys2Proof/Syntax.lean ====
section
/-! DEFINITION. The abstract syntax: one constructor of Instr per row of the opcode table. The operand fields of a word are the
bits of its encoding under their table names (ignored fields included), so that a word can be rebuilt from its instruction. -/
namespace Sys2Proof

/-- The five instruction streams of a core (R8). -/
inductive Ctx where
  | k | l | c | s | f
  deriving DecidableEq, Repr

/-- The code sections (R47, R48): L and S share one decoding. -/
inductive Section where
  | kcode | ccode | tcode
  deriving DecidableEq, Repr

/-- The section a stream fetches from (R47); F decodes as `.kcode`. -/
def Ctx.sect : Ctx → Section
  | .k => .kcode
  | .f => .kcode
  | .c => .ccode
  | .l => .tcode
  | .s => .tcode

/-- A microword of the attention sequencer without its UOP (R370). -/
structure Micro where
  ra : BitVec 5
  rb : BitVec 5
  x : BitVec 4
  y : BitVec 4
  ctl : BitVec 8
  imm : BitVec 32
  deriving DecidableEq, Repr

/-- Who writes a RESET request: the driver, or F of a core (R432). -/
inductive Requester where
  | driver
  | firmware (n : CoreId)
  deriving DecidableEq, Repr

/-- The kinds of access a remote device makes (R407). -/
inductive RemoteKind where
  | load | store | amo (op : BitVec 4)
  deriving DecidableEq, Repr

/-- A request of another device to device memory here (R337, R407): `len` bytes at physical address `pa`; `fcsr` the issuer's, for
`amo.fadd` (R272). -/
structure RemoteReq where
  dev : BitVec 9
  kind : RemoteKind
  pa : Nat
  len : Nat
  data : List Byte
  cmp : Word
  fcsr : BitVec 17
  deriving DecidableEq, Repr

/-- A contribution to a reduction window arriving at a switch (R276): DST of its request and its block, and the cores of this device
whose blocks it holds; one core alone is a block that its collective engine sends now. -/
structure Contribution where
  sw : Nat
  port : BitVec 6
  addr : Nat
  blk : Nat
  fmt : BitVec 3
  scale : BitVec 8
  flags : BitVec 5
  elems : List (BitVec 64)
  cores : List CoreId
  deriving DecidableEq, Repr

/-- A plane arriving for a transfer (R411, R412). `plane` 0 is the head plane; `bad` says that its source could not be read (R420). -/
structure PlaneMsg where
  job : BitVec 8
  tag : BitVec 24
  tile : Nat
  plane : Nat
  bad : Bool
  bits : List Byte
  deriving DecidableEq, Repr

/-- An open of a transfer arriving from the parent device (R414). -/
structure OpenMsg where
  dev : BitVec 9
  job : BitVec 8
  tag : BitVec 24
  fmt : BitVec 3
  nt : Nat
  deriving DecidableEq, Repr

/-- A child's answer to an open (R414). -/
inductive OpenAns where
  | accept | notYet | mismatch
  deriving DecidableEq, Repr

/-- A prune of a tile arriving from a child device (R416). -/
structure PruneMsg where
  dev : BitVec 9
  job : BitVec 8
  tag : BitVec 24
  tile : Nat
  deriving DecidableEq, Repr

/-- The instructions and the other steps of the part, one constructor per row of the opcode table. -/
inductive Instr where
  -- Common words (R51, R52; effects R91 to R100).
  /-- Issues and retires, changing only the program counter (R98). -/
  | nop
  /-- Writes the 64-bit wrapping sum of two scalar registers (R91). -/
  | add (d : BitVec 5) (a : BitVec 5) (b : BitVec 5)
  /-- Writes the 64-bit wrapping difference of two scalar registers (R91). -/
  | sub (d : BitVec 5) (a : BitVec 5) (b : BitVec 5)
  /-- Writes the bitwise AND of two scalar registers (R91). -/
  | and (d : BitVec 5) (a : BitVec 5) (b : BitVec 5)
  /-- Writes the bitwise OR of two scalar registers (R91). -/
  | or (d : BitVec 5) (a : BitVec 5) (b : BitVec 5)
  /-- Writes the bitwise exclusive-or of two scalar registers (R91). -/
  | xor (d : BitVec 5) (a : BitVec 5) (b : BitVec 5)
  /-- Shifts a register left by the low six bits of another (R91). -/
  | shl (d : BitVec 5) (a : BitVec 5) (b : BitVec 5)
  /-- Shifts a register right logically by the low six bits of another (R91). -/
  | shr (d : BitVec 5) (a : BitVec 5) (b : BitVec 5)
  /-- Shifts a register right arithmetically by the low six bits of another (R91). -/
  | sra (d : BitVec 5) (a : BitVec 5) (b : BitVec 5)
  /-- Writes 1 if the first register is less than the second as signed integers (R91). -/
  | slt (d : BitVec 5) (a : BitVec 5) (b : BitVec 5)
  /-- Writes 1 if the first register is less than the second as natural numbers (R91). -/
  | sltn (d : BitVec 5) (a : BitVec 5) (b : BitVec 5)
  /-- Adds a signed 13-bit immediate to a register (R91). -/
  | addi (d : BitVec 5) (a : BitVec 5) (i : BitVec 13)
  /-- ANDs a register with a sign-extended immediate (R91). -/
  | andi (d : BitVec 5) (a : BitVec 5) (i : BitVec 13)
  /-- ORs a register with a sign-extended immediate (R91). -/
  | ori (d : BitVec 5) (a : BitVec 5) (i : BitVec 13)
  /-- Exclusive-ors a register with a sign-extended immediate (R91). -/
  | xori (d : BitVec 5) (a : BitVec 5) (i : BitVec 13)
  /-- Shifts a register left by an immediate amount (R91). -/
  | shli (d : BitVec 5) (a : BitVec 5) (s : BitVec 6)
  /-- Shifts a register right logically by an immediate amount (R91). -/
  | shri (d : BitVec 5) (a : BitVec 5) (s : BitVec 6)
  /-- Shifts a register right arithmetically by an immediate amount (R91). -/
  | srai (d : BitVec 5) (a : BitVec 5) (s : BitVec 6)
  /-- Writes the 13-bit immediate times 2^13 to a register (R92). -/
  | lui (d : BitVec 5) (i : BitVec 13)
  /-- Branches by a word offset when two registers are equal (R93). -/
  | beq (d : BitVec 5) (a : BitVec 5) (i : BitVec 13)
  /-- Branches when two registers differ (R93). -/
  | bne (d : BitVec 5) (a : BitVec 5) (i : BitVec 13)
  /-- Branches when the first register is signed-less than the second (R93). -/
  | blt (d : BitVec 5) (a : BitVec 5) (i : BitVec 13)
  /-- Branches when the first register is signed-greater or equal to the second (R93). -/
  | bge (d : BitVec 5) (a : BitVec 5) (i : BitVec 13)
  /-- Branches when the first register is naturally less than the second (R93). -/
  | bltn (d : BitVec 5) (a : BitVec 5) (i : BitVec 13)
  /-- Branches when the first register is naturally greater or equal to the second (R93). -/
  | bgen (d : BitVec 5) (a : BitVec 5) (i : BitVec 13)
  /-- Writes the link and jumps by an 18-bit signed word offset (R93). -/
  | jal (d : BitVec 5) (i : BitVec 18)
  /-- Writes the link and jumps to a register target, faulting when misaligned (R93). -/
  | jr (d : BitVec 5) (a : BitVec 5)
  /-- Pushes a zero-overhead loop of a body length and a register count onto the loop stack (R94). -/
  | loop (a : BitVec 5) (n : BitVec 13)
  /-- Pushes a scalar register into a data queue, waiting for a free entry (R95). -/
  | qpush (q : BitVec 5) (a : BitVec 5)
  /-- Pops the oldest visible entry of a data queue into a register, waiting while it is empty (R95). -/
  | qpop (d : BitVec 5) (q : BitVec 5)
  /-- Posts one token to a token queue (R96). -/
  | tkpost (t : BitVec 4)
  /-- Pops one token from a token queue, waiting while its count is 0 (R96). -/
  | tkwait (t : BitVec 4)
  /-- Sets the executing sequencer's wait and post masks (R97). -/
  | tkmask (p : BitVec 4) (w : BitVec 4)
  /-- Ends the sequencer's stream (L, C, S), the unit (K) or the activation (F), retiring once its drain conditions hold (R100). -/
  | halt
  -- K-words (R54 to R61).
  /-- Writes the sign-extended low product of two registers at a width (R120). -/
  | mul (d : BitVec 5) (a : BitVec 5) (b : BitVec 5) (w : BitVec 2)
  /-- Writes the high half of the signed product (R120). -/
  | mulh (d : BitVec 5) (a : BitVec 5) (b : BitVec 5) (w : BitVec 2)
  /-- Writes the high half of the natural product (R120). -/
  | mulhn (d : BitVec 5) (a : BitVec 5) (b : BitVec 5) (w : BitVec 2)
  /-- Writes the signed quotient rounded toward zero, with fixed results for zero divisors and overflow (R120). -/
  | div (d : BitVec 5) (a : BitVec 5) (b : BitVec 5) (w : BitVec 2)
  /-- Writes the natural quotient, all ones for a zero divisor (R120). -/
  | divn (d : BitVec 5) (a : BitVec 5) (b : BitVec 5) (w : BitVec 2)
  /-- Writes the signed remainder (R120). -/
  | rem (d : BitVec 5) (a : BitVec 5) (b : BitVec 5) (w : BitVec 2)
  /-- Writes the natural remainder (R120). -/
  | remn (d : BitVec 5) (a : BitVec 5) (b : BitVec 5) (w : BitVec 2)
  /-- Writes the signed minimum (R120). -/
  | min (d : BitVec 5) (a : BitVec 5) (b : BitVec 5) (w : BitVec 2)
  /-- Writes the signed maximum (R120). -/
  | max (d : BitVec 5) (a : BitVec 5) (b : BitVec 5) (w : BitVec 2)
  /-- Writes the natural minimum (R120). -/
  | minn (d : BitVec 5) (a : BitVec 5) (b : BitVec 5) (w : BitVec 2)
  /-- Writes the natural maximum (R120). -/
  | maxn (d : BitVec 5) (a : BitVec 5) (b : BitVec 5) (w : BitVec 2)
  /-- Writes the leading zero count at a width (R121). -/
  | clz (d : BitVec 5) (a : BitVec 5) (w : BitVec 2)
  /-- Writes the trailing zero count at a width (R121). -/
  | ctz (d : BitVec 5) (a : BitVec 5) (w : BitVec 2)
  /-- Writes the population count at a width (R121). -/
  | popc (d : BitVec 5) (a : BitVec 5) (w : BitVec 2)
  /-- Selects one of two registers by a predicate (R122). -/
  | sel (d : BitVec 5) (a : BitVec 5) (b : BitVec 5) (p : BitVec 4) (w : BitVec 2)
  /-- Compares two registers under a condition and writes a predicate (R123). -/
  | cmp (d : BitVec 5) (a : BitVec 5) (b : BitVec 5) (n : BitVec 1) (c : BitVec 4) (w : BitVec 2)
  /-- Writes the AND of two predicates (R123). -/
  | pand (d : BitVec 5) (a : BitVec 5) (b : BitVec 5)
  /-- Writes the OR of two predicates (R123). -/
  | por (d : BitVec 5) (a : BitVec 5) (b : BitVec 5)
  /-- Writes the negation of a predicate (R123). -/
  | pnot (d : BitVec 5) (a : BitVec 5)
  /-- Writes a base plus a shifted index (R124). -/
  | lea (d : BitVec 5) (a : BitVec 5) (b : BitVec 5) (s : BitVec 4)
  /-- Extracts a bit field given by a position and length register (R124). -/
  | bfx (d : BitVec 5) (a : BitVec 5) (b : BitVec 5) (w : BitVec 2)
  /-- Inserts a bit field into the destination register (R124). -/
  | bfi (d : BitVec 5) (a : BitVec 5) (b : BitVec 5) (w : BitVec 2)
  /-- Blocking load of one byte, zero-extended (R126). -/
  | ldB (d : BitVec 5) (a : BitVec 5) (i : BitVec 12)
  /-- Blocking load of a halfword, zero-extended (R126). -/
  | ldH (d : BitVec 5) (a : BitVec 5) (i : BitVec 12)
  /-- Blocking load of a word, zero-extended (R126). -/
  | ldW (d : BitVec 5) (a : BitVec 5) (i : BitVec 12)
  /-- Blocking load of a doubleword (R126). -/
  | ldD (d : BitVec 5) (a : BitVec 5) (i : BitVec 12)
  /-- Blocking load of a byte, sign-extended (R126). -/
  | ldsB (d : BitVec 5) (a : BitVec 5) (i : BitVec 12)
  /-- Blocking load of a halfword, sign-extended (R126). -/
  | ldsH (d : BitVec 5) (a : BitVec 5) (i : BitVec 12)
  /-- Blocking load of a word, sign-extended (R126). -/
  | ldsW (d : BitVec 5) (a : BitVec 5) (i : BitVec 12)
  /-- Stores one byte; retires after translation and protection (R126). -/
  | stB (d : BitVec 5) (a : BitVec 5) (i : BitVec 12)
  /-- Stores a halfword (R126). -/
  | stH (d : BitVec 5) (a : BitVec 5) (i : BitVec 12)
  /-- Stores a word (R126). -/
  | stW (d : BitVec 5) (a : BitVec 5) (i : BitVec 12)
  /-- Stores a doubleword (R126). -/
  | stD (d : BitVec 5) (a : BitVec 5) (i : BitVec 12)
  /-- Scalar floating-point addition with one rounding (R129). -/
  | fadd (p : BitVec 1) (d : BitVec 5) (a : BitVec 5) (b : BitVec 5) (r : BitVec 3)
  /-- Scalar floating-point subtraction (R129). -/
  | fsub (p : BitVec 1) (d : BitVec 5) (a : BitVec 5) (b : BitVec 5) (r : BitVec 3)
  /-- Scalar floating-point multiplication (R129). -/
  | fmul (p : BitVec 1) (d : BitVec 5) (a : BitVec 5) (b : BitVec 5) (r : BitVec 3)
  /-- Scalar floating-point division on the shared divider (R129). -/
  | fdiv (p : BitVec 1) (d : BitVec 5) (a : BitVec 5) (b : BitVec 5) (r : BitVec 3)
  /-- Scalar floating-point square root on the shared divider (R129). -/
  | fsqrt (p : BitVec 1) (d : BitVec 5) (a : BitVec 5) (r : BitVec 3)
  /-- Fused multiply-add into the destination with one rounding (R129). -/
  | fma (p : BitVec 1) (d : BitVec 5) (a : BitVec 5) (b : BitVec 5) (r : BitVec 3)
  /-- IEEE minimum, NaN-propagating (R130). -/
  | fmin (p : BitVec 1) (d : BitVec 5) (a : BitVec 5) (b : BitVec 5) (x : BitVec 3)
  /-- IEEE maximum, NaN-propagating (R130). -/
  | fmax (p : BitVec 1) (d : BitVec 5) (a : BitVec 5) (b : BitVec 5) (x : BitVec 3)
  /-- IEEE minimumNumber (R130). -/
  | fminn (p : BitVec 1) (d : BitVec 5) (a : BitVec 5) (b : BitVec 5) (x : BitVec 3)
  /-- IEEE maximumNumber (R130). -/
  | fmaxn (p : BitVec 1) (d : BitVec 5) (a : BitVec 5) (b : BitVec 5) (x : BitVec 3)
  /-- Floating-point comparison writing a predicate (R131). -/
  | fcmp (p : BitVec 1) (d : BitVec 5) (a : BitVec 5) (b : BitVec 5) (c : BitVec 4) (x : BitVec 3)
  /-- Writes the ten-bit one-hot class of a value (R131). -/
  | fclass (p : BitVec 1) (d : BitVec 5) (a : BitVec 5) (x : BitVec 3)
  /-- Converts between float and integer types with one rounding (R132). -/
  | fcvt (d : BitVec 5) (a : BitVec 5) (s : BitVec 4) (t : BitVec 4) (r : BitVec 3)
  /-- Writes a small signed integer immediate converted to float (R133). -/
  | fmvi (p : BitVec 1) (d : BitVec 5) (i : BitVec 12)
  /-- Copies a value with its sign bit replaced (R133). -/
  | fsgn (p : BitVec 1) (d : BitVec 5) (a : BitVec 5) (b : BitVec 5) (k : BitVec 4) (x : BitVec 3)
  /-- Writes a link and transfers to a pc- or register-relative target (R134). -/
  | call (d : BitVec 5) (a : BitVec 5) (i : BitVec 12)
  /-- Transfers to the address in a link register (R134). -/
  | ret (a : BitVec 5)
  /-- Reads a control register into a scalar register (R118). -/
  | csrr (d : BitVec 5) (c : BitVec 12)
  /-- Writes a control register, with the access and reserved-value checks of its map (R118). -/
  | csrw (a : BitVec 5) (c : BitVec 12)
  /-- Sets bits of a control register (R118). -/
  | csrs (a : BitVec 5) (c : BitVec 12)
  /-- Clears bits of a control register (R118). -/
  | csrc (a : BitVec 5) (c : BitVec 12)
  /-- Orders K's accesses with acquire, release or sequentially consistent kind at a scope (R135). -/
  | fence (s : BitVec 2) (k : BitVec 2)
  /-- Raises the cause coded in its immediate (R136). -/
  | trap (c : BitVec 12)
  /-- Checks and restores the trap state and resumes, or passes the trap on as fatal (R137). -/
  | tret
  /-- Waits for an incoming queue entry, token, trap or F event (R138). -/
  | wfi
  /-- Runs a macro inline in K or enters a macro request for L, C or S (R107). -/
  | mcall (p : BitVec 5) (q : BitVec 2) (m : BitVec 6)
  /-- Raises BREAKPOINT with its immediate in tval (R136). -/
  | brk (c : BitVec 12)
  /-- Fires the core's snapshot trigger when enabled (R139). -/
  | snap
  /-- Atomic add at the home, returning the old value (R272). -/
  | amoAdd (d : BitVec 5) (a : BitVec 5) (b : BitVec 5) (t : BitVec 1)
  /-- Atomic add without return (R272). -/
  | amoAddNr (a : BitVec 5) (b : BitVec 5) (t : BitVec 1)
  /-- Atomic AND returning the old value (R272). -/
  | amoAnd (d : BitVec 5) (a : BitVec 5) (b : BitVec 5) (t : BitVec 1)
  /-- Atomic AND without return (R272). -/
  | amoAndNr (a : BitVec 5) (b : BitVec 5) (t : BitVec 1)
  /-- Atomic OR returning the old value (R272). -/
  | amoOr (d : BitVec 5) (a : BitVec 5) (b : BitVec 5) (t : BitVec 1)
  /-- Atomic OR without return (R272). -/
  | amoOrNr (a : BitVec 5) (b : BitVec 5) (t : BitVec 1)
  /-- Atomic exclusive-or returning the old value (R272). -/
  | amoXor (d : BitVec 5) (a : BitVec 5) (b : BitVec 5) (t : BitVec 1)
  /-- Atomic exclusive-or without return (R272). -/
  | amoXorNr (a : BitVec 5) (b : BitVec 5) (t : BitVec 1)
  /-- Atomic signed minimum returning the old value (R272). -/
  | amoMin (d : BitVec 5) (a : BitVec 5) (b : BitVec 5) (t : BitVec 1)
  /-- Atomic signed minimum without return (R272). -/
  | amoMinNr (a : BitVec 5) (b : BitVec 5) (t : BitVec 1)
  /-- Atomic signed maximum returning the old value (R272). -/
  | amoMax (d : BitVec 5) (a : BitVec 5) (b : BitVec 5) (t : BitVec 1)
  /-- Atomic signed maximum without return (R272). -/
  | amoMaxNr (a : BitVec 5) (b : BitVec 5) (t : BitVec 1)
  /-- Atomic natural minimum returning the old value (R272). -/
  | amoMinn (d : BitVec 5) (a : BitVec 5) (b : BitVec 5) (t : BitVec 1)
  /-- Atomic natural minimum without return (R272). -/
  | amoMinnNr (a : BitVec 5) (b : BitVec 5) (t : BitVec 1)
  /-- Atomic natural maximum returning the old value (R272). -/
  | amoMaxn (d : BitVec 5) (a : BitVec 5) (b : BitVec 5) (t : BitVec 1)
  /-- Atomic natural maximum without return (R272). -/
  | amoMaxnNr (a : BitVec 5) (b : BitVec 5) (t : BitVec 1)
  /-- Atomic swap returning the old value (R272). -/
  | amoSwap (d : BitVec 5) (a : BitVec 5) (b : BitVec 5) (t : BitVec 1)
  /-- Atomic swap without return (R272). -/
  | amoSwapNr (a : BitVec 5) (b : BitVec 5) (t : BitVec 1)
  /-- Atomic compare-and-swap against rd, returning the old value (R272). -/
  | amoCas (d : BitVec 5) (a : BitVec 5) (b : BitVec 5) (t : BitVec 1)
  /-- Atomic compare-and-swap with rd only as compare value (R272). -/
  | amoCasNr (d : BitVec 5) (a : BitVec 5) (b : BitVec 5) (t : BitVec 1)
  /-- Atomic bounded increment returning the old value (R272). -/
  | amoInc (d : BitVec 5) (a : BitVec 5) (b : BitVec 5) (t : BitVec 1)
  /-- Atomic bounded increment without return (R272). -/
  | amoIncNr (a : BitVec 5) (b : BitVec 5) (t : BitVec 1)
  /-- Atomic floating-point add returning the old value (R272). -/
  | amoFadd (d : BitVec 5) (a : BitVec 5) (b : BitVec 5) (t : BitVec 1)
  /-- Atomic floating-point add without return (R272). -/
  | amoFaddNr (a : BitVec 5) (b : BitVec 5) (t : BitVec 1)
  /-- Atomic IEEE minimum returning the old value (R272). -/
  | amoFmin (d : BitVec 5) (a : BitVec 5) (b : BitVec 5) (t : BitVec 1)
  /-- Atomic IEEE minimum without return (R272). -/
  | amoFminNr (a : BitVec 5) (b : BitVec 5) (t : BitVec 1)
  /-- Atomic IEEE maximum returning the old value (R272). -/
  | amoFmax (d : BitVec 5) (a : BitVec 5) (b : BitVec 5) (t : BitVec 1)
  /-- Atomic IEEE maximum without return (R272). -/
  | amoFmaxNr (a : BitVec 5) (b : BitVec 5) (t : BitVec 1)
  /-- Opens K's commit group (R268). -/
  | grpOpen
  /-- Performs every captured write at one commit point and frees the lines (R268). -/
  | grpCommit (d : BitVec 5)
  /-- Discards every captured line and closes the group (R268). -/
  | grpAbort (d : BitVec 5)
  /-- Writes the group status word (R269). -/
  | grpStat (d : BitVec 5)
  /-- Checks a task and enters it into the pending-launch pool (R312). -/
  | spawn (a : BitVec 5) (m : BitVec 1)
  /-- Ends a one-unit launch as halt does and names an exit successor (R312). -/
  | texit (a : BitVec 5) (m : BitVec 1)
  /-- Atomically adds to a completion counter as a release (R313). -/
  | cntAdd (a : BitVec 5) (b : BitVec 5)
  /-- Waits until a counter reaches a value and returns it as an acquire (R313). -/
  | cntWait (d : BitVec 5) (a : BitVec 5) (b : BitVec 5)
  /-- Cancels a task or marks CANC in a graph, phase or job record (R314). -/
  | cancel (a : BitVec 5) (l : BitVec 2)
  /-- Arrives at the open episode of a quire barrier (R315). -/
  | barArrive (b : BitVec 2)
  /-- Waits for the episode to complete and writes its forfeit count (R315). -/
  | barWait (d : BitVec 5) (b : BitVec 2)
  /-- Reads the key-table entry of a key (R316). -/
  | keyq (d : BitVec 5) (a : BitVec 5)
  /-- Writes a ring register's base and control words and zeroes its state (R194). -/
  | rgSet (a : BitVec 5) (b : BitVec 5) (n : BitVec 5)
  /-- Reads a ring word or a transfer status, clearing chosen status bits (R194). -/
  | rgStat (d : BitVec 5) (a : BitVec 5) (s : BitVec 2) (n : BitVec 5)
  /-- Zeroes a ring's state word (R194). -/
  | rgReset (n : BitVec 5)
  /-- Allocates noise symbols on the executing die (R229). -/
  | symAlloc (d : BitVec 5) (a : BitVec 5)
  /-- Decrements the counts of a run of symbols (R230). -/
  | symFree (a : BitVec 5) (b : BitVec 5)
  /-- Increments the count of every symbol of a tensor (R231). -/
  | symRef (d : BitVec 5) (a : BitVec 5)
  /-- Decrements the count of every symbol of a tensor (R231). -/
  | symUnref (d : BitVec 5) (a : BitVec 5)
  /-- Returns a symbol count, live count, allowance or condensation word (R232). -/
  | symStat (d : BitVec 5) (a : BitVec 5) (s : BitVec 2)
  /-- Writes the core's condensation control word (R235). -/
  | condSet (a : BitVec 5)
  /-- Condenses a tensor to at most a given number of generators (R236). -/
  | condRun (d : BitVec 5) (a : BitVec 5) (b : BitVec 5)
  /-- Adds an error vector to a tensor by minting diagonal generators or into the remainder (R242). -/
  | afAdd (d : BitVec 5) (a : BitVec 5) (b : BitVec 5) (m : BitVec 1)
  /-- Returns the slot address of a stream position (R358). -/
  | kvSlot (d : BitVec 5) (a : BitVec 5) (b : BitVec 5)
  /-- Appends position G of a layer inside a bound commit group (R359). -/
  | kvAppend (d : BitVec 5) (a : BitVec 5) (b : BitVec 5)
  /-- Evicts survivor positions of a block and compacts it (R360). -/
  | kvEvict (d : BitVec 5) (a : BitVec 5) (b : BitVec 5)
  /-- Truncates a stream to a position (R361). -/
  | kvTrunc (d : BitVec 5) (a : BitVec 5) (b : BitVec 5)
  /-- Sets a stream up as a shared prefix of another (R362). -/
  | kvShare (d : BitVec 5) (a : BitVec 5) (b : BitVec 5)
  /-- Reads G or P, or advances the playback cursor and its stamp (R363). -/
  | dxCur (d : BitVec 5) (a : BitVec 5) (b : BitVec 5) (s : BitVec 2)
  /-- Truncates a stream to P and restores the recurrent state from a checkpoint (R366). -/
  | dxTrunc (d : BitVec 5) (a : BitVec 5)
  /-- Registers frames and takes the frame at FHEAD (R364). -/
  | dxFrame (d : BitVec 5) (a : BitVec 5)
  /-- Commits a token at G with its group, or supersedes it (R365). -/
  | dxEmit (d : BitVec 5) (a : BitVec 5) (b : BitVec 5)
  /-- Copies the recurrent state into the next checkpoint slot (R367). -/
  | dxCkpt (d : BitVec 5) (a : BitVec 5)
  /-- Reads a stream counter or cursor word (R368). -/
  | dxStat (d : BitVec 5) (a : BitVec 5) (s : BitVec 3)
  /-- Loads microwords into the attention control store (R372). -/
  | asLoad (a : BitVec 5) (b : BitVec 5)
  /-- Loads a start block and starts the attention sequencer (R372). -/
  | asGo (a : BitVec 5)
  /-- Waits for the attention sequencer and returns its status or its fault (R372). -/
  | asWait (d : BitVec 5) (n : BitVec 1)
  /-- Enters a plane-coded send request into the plane engine (R419). -/
  | bpSend (a : BitVec 5)
  /-- Posts a plane-coded receive and zero-fills its counters (R419). -/
  | bpRecv (a : BitVec 5)
  /-- Waits for a tile's counter to reach a plane count or be cancelled (R421). -/
  | bpWait (d : BitVec 5) (a : BitVec 5) (b : BitVec 5)
  /-- Cancels one tile or every tile of a posted receive (R422). -/
  | bpCancel (a : BitVec 5) (b : BitVec 5)
  /-- Reads the current D3 of a plane request (R422). -/
  | bpStat (d : BitVec 5) (a : BitVec 5)
  /-- Checks a reduction request and pushes it to the collective engine (R278). -/
  | collRed (a : BitVec 5)
  -- V-words (R62 to R65).
  /-- Writes shape bits 20:0 from its immediate (R150). -/
  | vshape (i : BitVec 21) (w : BitVec 1) (p : BitVec 1)
  /-- Lane-wise addition (R151). -/
  | vadd (d : BitVec 7) (a : BitVec 7) (b : BitVec 7) (w : BitVec 1) (p : BitVec 1) (r : BitVec 2)
  /-- Lane-wise subtraction (R151). -/
  | vsub (d : BitVec 7) (a : BitVec 7) (b : BitVec 7) (w : BitVec 1) (p : BitVec 1) (r : BitVec 2)
  /-- Lane-wise multiplication (R151). -/
  | vmul (d : BitVec 7) (a : BitVec 7) (b : BitVec 7) (w : BitVec 1) (p : BitVec 1) (r : BitVec 2)
  /-- Lane-wise fused multiply-add into vd (R151). -/
  | vfma (d : BitVec 7) (a : BitVec 7) (b : BitVec 7) (w : BitVec 1) (p : BitVec 1) (r : BitVec 2)
  /-- Lane-wise fused multiply-subtract of vd (R151). -/
  | vfms (d : BitVec 7) (a : BitVec 7) (b : BitVec 7) (w : BitVec 1) (p : BitVec 1) (r : BitVec 2)
  /-- Lane-wise division on the vector divider (R151). -/
  | vdiv (d : BitVec 7) (a : BitVec 7) (b : BitVec 7) (w : BitVec 1) (p : BitVec 1) (r : BitVec 2)
  /-- Lane-wise square root (R151). -/
  | vsqrt (d : BitVec 7) (a : BitVec 7) (w : BitVec 1) (p : BitVec 1) (r : BitVec 2)
  /-- Lane-wise reciprocal (R151). -/
  | vrcp (d : BitVec 7) (a : BitVec 7) (w : BitVec 1) (p : BitVec 1) (r : BitVec 2)
  /-- Lane-wise minimum (R153). -/
  | vmin (d : BitVec 7) (a : BitVec 7) (b : BitVec 7) (w : BitVec 1) (p : BitVec 1) (x : BitVec 2)
  /-- Lane-wise maximum (R153). -/
  | vmax (d : BitVec 7) (a : BitVec 7) (b : BitVec 7) (w : BitVec 1) (p : BitVec 1) (x : BitVec 2)
  /-- Lane-wise minimumNumber or natural minimum (R153). -/
  | vminn (d : BitVec 7) (a : BitVec 7) (b : BitVec 7) (w : BitVec 1) (p : BitVec 1) (x : BitVec 2)
  /-- Lane-wise maximumNumber or natural maximum (R153). -/
  | vmaxn (d : BitVec 7) (a : BitVec 7) (b : BitVec 7) (w : BitVec 1) (p : BitVec 1) (x : BitVec 2)
  /-- Lane-wise absolute value (R154). -/
  | vabs (d : BitVec 7) (a : BitVec 7) (w : BitVec 1) (p : BitVec 1) (x : BitVec 2)
  /-- Lane-wise negation (R154). -/
  | vneg (d : BitVec 7) (a : BitVec 7) (w : BitVec 1) (p : BitVec 1) (x : BitVec 2)
  /-- Lane-wise comparison writing a mask register (R155). -/
  | vcmp (m : BitVec 7) (a : BitVec 7) (b : BitVec 7) (w : BitVec 1) (p : BitVec 1) (c : BitVec 2)
  /-- Selects lanes of two operands by a mask (R156). -/
  | vsel (d : BitVec 7) (a : BitVec 7) (b : BitVec 7) (w : BitVec 1) (p : BitVec 1) (k : BitVec 2)
  /-- Lane-wise bitwise AND (R157). -/
  | vand (d : BitVec 7) (a : BitVec 7) (b : BitVec 7) (w : BitVec 1) (p : BitVec 1) (x : BitVec 2)
  /-- Lane-wise bitwise OR (R157). -/
  | vor (d : BitVec 7) (a : BitVec 7) (b : BitVec 7) (w : BitVec 1) (p : BitVec 1) (x : BitVec 2)
  /-- Lane-wise bitwise exclusive-or (R157). -/
  | vxor (d : BitVec 7) (a : BitVec 7) (b : BitVec 7) (w : BitVec 1) (p : BitVec 1) (x : BitVec 2)
  /-- Lane-wise bitwise NOT (R157). -/
  | vnot (d : BitVec 7) (a : BitVec 7) (w : BitVec 1) (p : BitVec 1) (x : BitVec 2)
  /-- Lane-wise left shift (R158). -/
  | vshl (d : BitVec 7) (a : BitVec 7) (b : BitVec 7) (w : BitVec 1) (p : BitVec 1) (x : BitVec 2)
  /-- Lane-wise logical right shift (R158). -/
  | vshr (d : BitVec 7) (a : BitVec 7) (b : BitVec 7) (w : BitVec 1) (p : BitVec 1) (x : BitVec 2)
  /-- Lane-wise arithmetic right shift (R158). -/
  | vsra (d : BitVec 7) (a : BitVec 7) (b : BitVec 7) (w : BitVec 1) (p : BitVec 1) (x : BitVec 2)
  /-- Converts lanes to a destination type, by lane part when widths differ (R159). -/
  | vcvt (d : BitVec 7) (a : BitVec 7) (t : BitVec 7) (w : BitVec 1) (p : BitVec 1) (r : BitVec 2)
  /-- Multiplies lanes by a power of two (R160). -/
  | vscale (d : BitVec 7) (a : BitVec 7) (b : BitVec 7) (w : BitVec 1) (p : BitVec 1) (r : BitVec 2)
  /-- Lane-wise 2^x on the exponent unit (R161). -/
  | vexp2 (d : BitVec 7) (a : BitVec 7) (w : BitVec 1) (p : BitVec 1) (r : BitVec 2)
  /-- Lane-wise log2 on the exponent unit (R161). -/
  | vlog2 (d : BitVec 7) (a : BitVec 7) (w : BitVec 1) (p : BitVec 1) (r : BitVec 2)
  /-- Reduces all lanes by the fixed pairwise tree (R162). -/
  | vsum (d : BitVec 7) (a : BitVec 7) (w : BitVec 1) (p : BitVec 1) (r : BitVec 2)
  /-- Reduces all lanes to their maximum (R162). -/
  | vmaxr (d : BitVec 7) (a : BitVec 7) (w : BitVec 1) (p : BitVec 1) (x : BitVec 2)
  /-- Permutes lanes by indices (R163). -/
  | vperm (d : BitVec 7) (a : BitVec 7) (b : BitVec 7) (w : BitVec 1) (p : BitVec 1) (x : BitVec 2)
  /-- Broadcasts lane 0 into every active lane (R163). -/
  | vbcast (d : BitVec 7) (a : BitVec 7) (w : BitVec 1) (p : BitVec 1) (x : BitVec 2)
  /-- Copies an operand (R163). -/
  | vmov (d : BitVec 7) (a : BitVec 7) (w : BitVec 1) (p : BitVec 1) (x : BitVec 2)
  /-- Writes a class code per lane (R164). -/
  | vclass (d : BitVec 7) (a : BitVec 7) (w : BitVec 1) (p : BitVec 1) (x : BitVec 2)
  /-- Writes the population count per lane (R164). -/
  | vpopc (d : BitVec 7) (a : BitVec 7) (w : BitVec 1) (p : BitVec 1) (x : BitVec 2)
  /-- Adds magnitudes into eb and returns the bound (R165). -/
  | vmagsum (d : BitVec 7) (a : BitVec 7) (w : BitVec 1) (p : BitVec 1) (r : BitVec 2)
  /-- Forms slope, intercept and error of a relaxation from the rule table (R240). -/
  | vrelax (d : BitVec 7) (a : BitVec 7) (b : BitVec 7) (w : BitVec 1) (p : BitVec 1) (x : BitVec 2)
  /-- Reads or replaces one slot of the rule table (R167). -/
  | vrule (d : BitVec 7) (a : BitVec 7) (b : BitVec 7) (w : BitVec 1) (p : BitVec 1) (x : BitVec 2)
  /-- Sets a tile configuration, clearing or keeping its storage (R168). -/
  | mcfg (t : BitVec 7) (c : BitVec 14) (w : BitVec 1) (p : BitVec 1) (k : BitVec 1)
  /-- Zeroes a tile (R169). -/
  | mzero (t : BitVec 7) (w : BitVec 1) (p : BitVec 1) (x : BitVec 2)
  /-- Transposes one tile into another (R169). -/
  | mtr (t : BitVec 7) (s : BitVec 7) (w : BitVec 1) (p : BitVec 1) (x : BitVec 2)
  -- M-words (R66 to R68).
  /-- Matrix step of the weight buffer by N ring columns into an accumulator (R211). -/
  | mma (b : BitVec 5) (n : BitVec 5) (c : BitVec 1) (f : BitVec 3) (s : BitVec 1) (w : BitVec 1) (p : BitVec 1) (u : BitVec 1)
  /-- Enclosure-mode matrix step that also accumulates the bound plane (R211). -/
  | mmaE (b : BitVec 5) (n : BitVec 5) (c : BitVec 1) (f : BitVec 3) (s : BitVec 1) (w : BitVec 1) (p : BitVec 1) (u : BitVec 1)
  /-- Affine product step forming linear and quadratic-bound terms of one symbol (R212). -/
  | mmaA (a : BitVec 5) (b : BitVec 5) (n : BitVec 5) (c : BitVec 1) (f : BitVec 3) (s : BitVec 1) (w : BitVec 1) (p : BitVec 1) (u : BitVec 1)
  /-- Matrix step with absolute weights (R211). -/
  | mabs (b : BitVec 5) (n : BitVec 5) (c : BitVec 1) (f : BitVec 3) (s : BitVec 1) (w : BitVec 1) (p : BitVec 1) (u : BitVec 1)
  /-- Enclosure-mode matrix step with absolute weights (R211). -/
  | mabsE (b : BitVec 5) (n : BitVec 5) (c : BitVec 1) (f : BitVec 3) (s : BitVec 1) (w : BitVec 1) (p : BitVec 1) (u : BitVec 1)
  /-- Fills a weight buffer from a ring entry (R215). -/
  | wld (a : BitVec 5) (f : BitVec 3) (w : BitVec 1) (p : BitVec 1) (u : BitVec 1)
  /-- Writes a weight buffer's image into a ring entry (R215). -/
  | wstr (a : BitVec 5) (f : BitVec 3) (w : BitVec 1) (p : BitVec 1) (u : BitVec 1)
  /-- Folds and reads out accumulator columns into a ring (R217). -/
  | accrd (a : BitVec 5) (n : BitVec 5) (c : BitVec 1) (f : BitVec 3) (w : BitVec 1) (p : BitVec 1) (r : BitVec 2)
  /-- Enclosure read-out writing values and radii into two rings (R217). -/
  | accrdE (a : BitVec 5) (b : BitVec 5) (n : BitVec 5) (c : BitVec 1) (f : BitVec 3) (w : BitVec 1) (p : BitVec 1) (r : BitVec 2)
  /-- Zeroes an accumulator and releases the bound plane it owns (R216). -/
  | acczr (c : BitVec 1) (x : BitVec 3) (w : BitVec 1) (p : BitVec 1)
  /-- Windowed matrix step over a pixel strip (R213). -/
  | mwin (b : BitVec 5) (n : BitVec 5) (c : BitVec 1) (f : BitVec 3) (e : BitVec 1) (s : BitVec 1) (w : BitVec 1) (p : BitVec 1) (u : BitVec 1)
  /-- Depth-wise matrix step (R214). -/
  | mdw (b : BitVec 5) (n : BitVec 5) (c : BitVec 1) (f : BitVec 3) (e : BitVec 1) (s : BitVec 1) (w : BitVec 1) (p : BitVec 1) (u : BitVec 1)
  -- T-words (R69, R70).
  /-- Transfers a memory pattern into a ring, operand queue, data queue or weight buffer (R187). -/
  | tld (a : BitVec 5) (l : BitVec 5) (t : BitVec 5) (d : BitVec 5) (m : BitVec 2) (w : BitVec 1) (p : BitVec 1) (o : BitVec 1)
  /-- Transfers a ring or result-queue entry to a memory pattern (R187). -/
  | tst (a : BitVec 5) (l : BitVec 5) (t : BitVec 5) (d : BitVec 5) (m : BitVec 1) (w : BitVec 1) (p : BitVec 1) (o : BitVec 2)
  /-- Copies a memory pattern to contiguous bytes (R187). -/
  | cpy (a : BitVec 5) (l : BitVec 5) (d : BitVec 5) (w : BitVec 1) (p : BitVec 1) (o : BitVec 1)
  /-- Gathers indexed elements into a ring or operand queue (R187). -/
  | gat (a : BitVec 5) (l : BitVec 5) (t : BitVec 5) (d : BitVec 5) (m : BitVec 1) (w : BitVec 1) (p : BitVec 1) (o : BitVec 1)
  /-- Scatters a ring or result-queue entry to indexed places (R187). -/
  | sct (a : BitVec 5) (l : BitVec 5) (t : BitVec 5) (d : BitVec 5) (m : BitVec 1) (w : BitVec 1) (p : BitVec 1) (o : BitVec 2)
  /-- Produces one output row of image windows (R188). -/
  | win (a : BitVec 5) (l : BitVec 5) (t : BitVec 5) (d : BitVec 5) (m : BitVec 1) (w : BitVec 1) (p : BitVec 1) (o : BitVec 1)
  /-- Copies one DRAM row unit, in the array when co-located (R190). -/
  | rclone (a : BitVec 5) (l : BitVec 5) (w : BitVec 1) (p : BitVec 1)
  /-- Fills one DRAM row unit with a repeated pattern (R190). -/
  | rinit (a : BitVec 5) (l : BitVec 5) (w : BitVec 1) (p : BitVec 1)
  /-- Decompresses a weight stream into a weight buffer (R208). -/
  | wfeed (a : BitVec 5) (l : BitVec 5) (t : BitVec 5) (d : BitVec 5) (w : BitVec 1) (p : BitVec 1)
  /-- Waits until a ring has n filled entries or its colophon (R192). -/
  | rgwf (l : BitVec 5) (t : BitVec 5) (w : BitVec 1) (p : BitVec 1)
  /-- Waits until a ring has n free entries (R192). -/
  | rgwe (l : BitVec 5) (t : BitVec 5) (w : BitVec 1) (p : BitVec 1)
  /-- Claims n ring positions (R192). -/
  | rgclaim (l : BitVec 5) (t : BitVec 5) (w : BitVec 1) (p : BitVec 1)
  /-- Pushes n claimed ring positions as a release (R192). -/
  | rgpush (l : BitVec 5) (t : BitVec 5) (w : BitVec 1) (p : BitVec 1)
  /-- Takes and pops n ring positions (R192). -/
  | rgpop (l : BitVec 5) (t : BitVec 5) (w : BitVec 1) (p : BitVec 1)
  /-- Claims and pushes a ring colophon (R192). -/
  | rgend (t : BitVec 5) (w : BitVec 1) (p : BitVec 1)
  /-- Loads a transfer descriptor from memory (R193). -/
  | tdset (a : BitVec 5) (d : BitVec 5) (w : BitVec 1) (p : BitVec 1)
  -- Steps of engines, dispatcher, links, host and firmware: no encoding.
  /-- Microword ending the microprogram once every issued microword has retired (R370). -/
  | asEnd (n : CoreId) (m : Micro)
  /-- Microword adding an immediate to an ar register (R370). -/
  | asAdd (n : CoreId) (m : Micro)
  /-- Microword decrementing an ar register and branching while non-zero (R370). -/
  | asLoop (n : CoreId) (m : Micro)
  /-- Microword issuing a matrix step with precedence over C (R370). -/
  | asStep (n : CoreId) (m : Micro)
  /-- Microword performing an accumulator read-out (R370). -/
  | asAccrd (n : CoreId) (m : Micro)
  /-- Microword zeroing an accumulator (R370). -/
  | asAcczr (n : CoreId) (m : Micro)
  /-- Microword filling a weight buffer from a ring (R370). -/
  | asWld (n : CoreId) (m : Micro)
  /-- Microword transferring memory into a ring (R370). -/
  | asTld (n : CoreId) (m : Micro)
  /-- Microword gathering a block's KV slots below G into a ring (R370). -/
  | kvg (n : CoreId) (m : Micro)
  /-- Microword computing 2^x of ring elements on the exponent unit (R370). -/
  | exp (n : CoreId) (m : Micro)
  /-- Microword starting the staging copies of a layer's host-tier blocks (R373). -/
  | stage (n : CoreId) (m : Micro)
  /-- A staging copy lands and is kept if wanted or discarded and counted in LSTG (R373). -/
  | stageLanding (n : CoreId) (i : Nat)
  /-- A SUBNOTE write makes the device consume ring entries in SEQ order (R310). -/
  | submissionNotify (v : Word)
  /-- Submission ring entry OP 0 submits a task after its checks (R292). -/
  | submit (r : BitVec 6)
  /-- Submission ring entry OP 1 cancels a task (R305). -/
  | cancelTask (r : BitVec 6)
  /-- Submission ring entry OP 2 marks a graph cancelled (R304). -/
  | cancelGraph (r : BitVec 6)
  /-- Submission ring entry OP 3 marks a phase cancelled (R304). -/
  | cancelPhase (r : BitVec 6)
  /-- Submission ring entry OP 4 marks the job cancelled (R304). -/
  | cancelJob (r : BitVec 6)
  /-- A FRAMENOTE write runs frame registration for a stream (R352). -/
  | frameNotify (v : Word)
  /-- A PREEMPT write of mode NODE stops the walk and lets resident units finish (R384). -/
  | preemptNode (v : Word)
  /-- A PREEMPT write of mode CUT cuts every resident unit of a task (R385). -/
  | preemptCut (v : Word)
  /-- A write to INVAL I2 starts invalidation of a job's virtual range (R338). -/
  | inval (len : Word)
  /-- Every cached entry of the range is dropped and its accesses performed (R338). -/
  | invalidationComplete
  /-- A REPLAY reply RESUME restarts the engine words stopped on a page (R339). -/
  | replayResume (v : Word)
  /-- A REPLAY reply FAIL makes the stopped words raise TRANSLATION (R339). -/
  | replayFail (v : Word)
  /-- Writing GO in SWCFG sends a window entry write toward a switch (R409). -/
  | swcfgGo (m0 : Word)
  /-- The switch's reply sets RESULT and clears GO (R409). -/
  | swcfgReply (link : Bool)
  /-- A write of the job table creates or refuses a job (R285). -/
  | jobRecordWrite (job : BitVec 8) (d : BitVec 2) (v : Word)
  /-- A write of a submission ring record configures or refuses it (R309). -/
  | submissionRingWrite (r : BitVec 6) (d : BitVec 2) (v : Word)
  /-- A write of a job's translation record drops its cached translations (R333). -/
  | translationRecordWrite (job : BitVec 8) (v : Word)
  /-- A write of a stream descriptor doubleword, refused when it breaks the limits (R351). -/
  | streamDescriptorWrite (t : BitVec 12) (d : BitVec 5) (v : Word)
  /-- A read or write of a debug-halted core's state through the debug window (R389). -/
  | debugWindowAccess (wr : Bool) (off : BitVec 16) (v : Word)
  /-- A write to a BAR0 register that has no row of its own (R401). -/
  | registerWrite (off : BitVec 23) (v : Word)
  /-- Advances the event queue's consumer index (R432). -/
  | evconsWrite (v : Word)
  /-- Advances the fault-address queue's consumer index (R432). -/
  | faqconsWrite (v : Word)
  /-- Advances a die's fault-queue consumer index, releasing a held faulting unit (R432). -/
  | fqconsWrite (d : BitVec 2) (v : Word)
  /-- A write of 1 clears a core's firmware-fault bit (R433). -/
  | fwfpClear (d : BitVec 2) (v : Word)
  /-- DBGCTL OP 1 requests a debug halt of a core (R389). -/
  | debugHaltRequest (v : Word)
  /-- DBGCTL OP 2 releases a core from its debug halt (R389). -/
  | debugHaltRelease (v : Word)
  /-- The halted core reaches its boundary and HALTED becomes 1 (R389). -/
  | debugHaltComplete (n : CoreId)
  /-- Rung 1 clears one queue of a cut or debug-halted core (R428). -/
  | resetQueue (who : Requester) (v : Word)
  /-- Rung 2 clears the unstarted commands of one engine FIFO (R428). -/
  | resetEngine (who : Requester) (v : Word)
  /-- Rung 3 kills the units of a core set and resets its cores (R428). -/
  | resetPartition (who : Requester) (v : Word)
  /-- Rung 4 resets one die with its queues and tables (R428). -/
  | resetDie (who : Requester) (v : Word)
  /-- A PCI Express Function Level Reset applies rung 5 to all dies (R428). -/
  | resetFunctionLevel
  /-- Power-on, host link reset or firmware escalation applies rung 6 (R428). -/
  | resetDevice
  /-- A running rung completes and any deferred overlapping rung starts (R429). -/
  | resetRungComplete
  /-- Boot ROM verifies the Vrelanmond image and sets READY or FAIL (R434): what the non-volatile store holds, and the place of the copy. -/
  | firmwareImageVerify (image sig : List Byte) (place : Nat)
  /-- Writing GO in QUOTE requests a signed quote over NONCE (R435). -/
  | quoteRequest (i3c : Bool) (v : Word)
  /-- F writes the quote or refuses with EXHAUSTED and raises ATTEST_DONE (R436). -/
  | quoteComplete
  /-- Writing GO in BADPAGE raises BADPAGE_REQ for F of core 0 (R432). -/
  | badpageRequest (v : Word)
  /-- F writes RESULT and COUNT and clears BADPAGE GO (R342). -/
  | badpageAnswer
  /-- A host write to device memory through BAR2 (R404). -/
  | bar2Write (pa : Nat) (bytes : List Byte)
  /-- A host read of device memory through BAR2 (R404). -/
  | bar2Read (pa : Nat) (len : Nat)
  /-- A PCI Express FetchAdd AtomicOp applied as amo.add (R274). -/
  | fetchadd (dbl : Bool) (pa : Nat) (v : Word)
  /-- A PCI Express Swap AtomicOp applied as amo.swap (R274). -/
  | swap (dbl : Bool) (pa : Nat) (v : Word)
  /-- A 32- or 64-bit PCI Express CAS AtomicOp applied as amo.cas (R274). -/
  | cas (dbl : Bool) (pa : Nat) (cmp v : Word)
  /-- A 128-bit CAS completes with Unsupported Request (R274). -/
  | cas128 (pa : Nat)
  /-- Writing POP to fevent removes the oldest entry of F's event list (R433). -/
  | feventPop (n : CoreId)
  /-- F starts an activation at its entry point when its event list holds an entry (R433). -/
  | fActivationStart (n : CoreId)
  /-- FUSED is zeroed each cycle in which ccount mod 256 is 0 (R81). -/
  | fusedReset
  /-- A READY task undispatched for 2^16 cycles reserves its keys (R296). -/
  | keyReservation (job : BitVec 8) (task : BitVec 24)
  /-- A core without retirement for HUNGT cycles sends a HUNG event to F (R430). -/
  | hung (n : CoreId)
  /-- A stamped step still unissued past its slack raises SCHEDULE_MISS (R203). -/
  | scheduleMiss (n : CoreId)
  /-- A site in self-refresh for 3,600,000 cycles raises a memory-stall event (R343). -/
  | memoryStall (site : Nat)
  /-- A site reaching its critical temperature enters self-refresh and raises THERMAL (R343). -/
  | selfRefreshEnter (site : Nat)
  /-- A site below its release threshold leaves self-refresh and serves its queue (R343). -/
  | selfRefreshExit (site : Nat)
  /-- F enters the CAPPED power state when the package limit would be exceeded (R437). -/
  | capped
  /-- A load, store or atomic from another device arrives over Zuore (R407). -/
  | remoteRequest (q : RemoteReq)
  /-- The response to a remote request arrives (R407): to the `k`-th request under way, with its bytes. -/
  | remoteResponse (k : Nat) (data : List Byte)
  /-- A remote request, the `k`-th under way, unanswered for 2^24 cycles is retried, then fails (R408). -/
  | remoteTimeout (k : Nat)
  /-- A completion of a host-tier read, the `k`-th request under way, arrives from PCI Express (R405). -/
  | hostTierCompletion (k : Nat) (ok : Bool) (data : List Byte)
  /-- A reduction contribution arrives at a switch and joins or opens a round (R276). -/
  | contributionArrival (c : Contribution)
  /-- A waiting contribution is admitted once a slot or the round frees (R276). -/
  | contributionAdmit (i : Nat)
  /-- Every block is delivered, rejected or unsent; D4 is written and the counter incremented (R279). -/
  | collRequestComplete (n : CoreId)
  /-- The plane engine reads and sends the next plane to unpruned children (R411). -/
  | planeSend (n : CoreId) (i : Nat)
  /-- A plane arrives, lands on its tile and is forwarded to children (R412). -/
  | planeArrival (p : PlaneMsg)
  /-- An open arrives and is answered accept, not yet or mismatch (R414). -/
  | openReq (m : OpenMsg)
  /-- A child's answer to an open arrives at the parent (R414). -/
  | openAnswer (n : CoreId) (i : Nat) (child : Nat) (a : OpenAns)
  /-- An unaccepted open is repeated every 1,024 cycles (R414). -/
  | openRetry (n : CoreId) (i : Nat) (child : Nat)
  /-- A prune of a tile arrives and the parent stops sending it to that child (R416). -/
  | prune (m : PruneMsg)
  /-- A V-word retires, writing destination, eb, flags and result queue (R146). -/
  | vwordRetire (n : CoreId)
  /-- A matrix step retires, completing its updates, popping rings and posting tokens (R197). -/
  | matrixStepRetire (n : CoreId)
  /-- A T-word retires once its reads, writes and ring actions are done (R179). -/
  | transferRetire (n : CoreId) (q : Ctx)
  /-- A waiting ring claim is granted at the home when an entry is free (R184). -/
  | ringClaimGrant (n : CoreId) (r : BitVec 5)
  /-- A reader reaches a pushed colophon, forwards it and ends its stream (R185). -/
  | colophonMeet (n : CoreId) (q : Ctx)
  /-- An atomic is applied at its home and the word lock released (R273). -/
  | atomicApply (n : CoreId)
  /-- A walker completes a page walk for the requests waiting in the miss table (R338). -/
  | translationWalk (n : CoreId) (va : Word)
  /-- A halt of L, C or S retires once its transfers or steps complete (R99). -/
  | sequencerHaltRetire (n : CoreId) (q : Ctx)
  /-- K's halt retires once the sequencers and engines have drained, ending the unit (R100). -/
  | unitHaltRetire (n : CoreId)
  /-- The dispatcher applies submit to the next pending-launch pool entry (R312). -/
  | poolSubmit
  /-- The dispatcher dispatches the first eligible ready task, taking its keys and a launch slot (R294). -/
  | taskDispatch (d : BitVec 2)
  /-- The walker gives the next tuple to a free core, which reads its image and starts (R289). -/
  | unitStart (n : CoreId)
  /-- A quire launch starts every unit in one cycle once all its cores are held (R306). -/
  | quireStart (d : BitVec 2)
  /-- A cut unit resumes on its core from its save block and cursors (R388). -/
  | cutResume (n : CoreId)
  /-- A trap is taken at K's word boundary into the handler (R380). -/
  | trapTake (n : CoreId)
  /-- Every agent has reached its boundary and the core is cut (R385). -/
  | cutComplete (n : CoreId)
  /-- A firing captures the snapshot registers, and the common trigger captures on other cores 16 cycles later (R393). -/
  | snapshotCapture (n : CoreId)
  /-- A fetched word that matches no allocated encoding, or has a reserved field set, issues and raises ILLEGAL_INSTR precisely (R49). -/
  | unallocatedOpcode (w : BitVec 32)
  /-- A K store that has already retired reaches its home, where it is performed, dropped with a DROPPED entry, or refused for a frozen slice (R127). -/
  | writePerformed (n : CoreId)
  /-- A wld, wstr, accrd or acczr retires at its fixed cycle, filling the buffer FULL or pushing or popping its ring entries (R217). -/
  | mWordRetire (n : CoreId)
  /-- A Zuore link comes up and its ZUP bit in STATUS is set (R402). -/
  | zuorePortUp (p : BitVec 4)
  /-- A Zuore link goes down and its ZUP bit in STATUS is cleared (R402). -/
  | zuorePortDown (p : BitVec 4)
  /-- The supply is lost and the device enters OFF, keeping only its non-volatile stores and abandoning the current signature block's unused leaves (R437). -/
  | powerLoss
  /-- The package power limit is set through the I3C sideband, and F may enter or leave CAPPED as a result (R437). -/
  | packagePowerLimitWrite (watts : Nat)
  deriving DecidableEq, Repr

end Sys2Proof
end

