-- ==== Sys2Proof/Config.lean ====
section
/-! DEFINITION. What an implementation fixes, and the free values: opaque constants with no body, so that no proof can lean
on a value (NOTES.md, Assumptions). -/
namespace Sys2Proof

/-- Who moves next: the core clock, an issue slot of a core, a microword fetch or the end of one in flight, an access to BAR0 by its
offset and length (R401), an escalation to rung 6 (R433), a word that a code store drops, as a cache may, or fetches ahead (R1, R439), an
entry that the translation caches drop, by its place (R338), the next block of a transfer of L or S, by its place in flight (R174, R179),
a block of one that is read before it is written (R254), a cell that fails, by its block of device memory or its slice word, with one or
more bits wrong (R173, R340), the application of an atomic of F, the host or another device (R273), the performing of a request of a cut unit
(R343), a site's temperature, F's setting of HUNGT and of the thresholds (R430, R437), IDLE entered or left, an access of the I3C sideband
(R432), or an event of the table (R79, R438). -/
inductive Move where
  | tick
  | issue (n : CoreId) (q : Ctx)
  | micro (n : CoreId)
  | attRetire (n : CoreId)
  | bar (who : Requester) (off len : Nat) (v : Word)
  | barRead (off len : Nat)
  | deviceReset
  | dropWord (n : CoreId) (pc : Nat)
  | fetchAhead (n : CoreId) (pc : Nat)
  | dropLeaf (i : Nat)
  | block (n : CoreId) (q : Ctx) (i : Nat)
  | readAhead (n : CoreId) (q : Ctx) (i k : Nat)
  | cellFail (k : Nat) (double : Bool)
  | homeAmo (i : Nat)
  | orphan (i : Nat)
  | temperature (site : Nat) (t : Nat)
  | setHungt (v : Nat)
  | setThresholds (crit rel : Nat)
  | idle
  | i3cRead (off : Nat)
  | i3cWrite (off : Nat) (v : Word)
  | event (i : Instr)
  deriving DecidableEq, Repr, Inhabited

/-- The move chosen by timing when State.agenda names none: the free value of the interleaving (log 1). -/
opaque Config.freeMove : Nat → Move

/-- A bit string the manual leaves open, by the free counter of State (log 2). -/
opaque Config.freeBits (w : Nat) : Nat → BitVec w

/-- The choice of `vexp2` and `vlog2` among the results R46 allows: from operand, format, mode and number of allowed
candidates to the index of one of them (log 20). -/
opaque Config.expPick : Nat → Nat → Nat → Nat → Nat

/-- The F entry point of the verified image copy (R433; log 13). -/
opaque Config.fEntry : Word

/-- The public key in ROM: the root, then the public seed (R434; log 13). -/
opaque Config.romKey : List Byte
/-- The version that a firmware image carries (R434; log 13). -/
opaque Config.imageVersion : List Byte → Nat
/-- The minimum version to which a firmware image raises the stored one, if it does (R434; log 13). -/
opaque Config.imageMinimum : List Byte → Option Nat

/-- IDENT: REV (1) and SERIAL (2) of the part (R402; log 13). -/
opaque Config.ident : Nat → Word

/-- The certificate area CERT: identity key and endorsement (R432; log 13). -/
opaque Config.certByte : Nat → Byte

/-- The signature of a quote over its first 112 bytes (R435; log 13). -/
opaque Config.quoteByte : Nat → List Byte → Byte

/-- The switch and ingress port at which this device's port arrives, and those an egress port of a switch leads to; none where it leads
to a device (R275, R276; log 14). -/
opaque Config.switchIn : Nat → Nat
/-- What an egress port of a switch leads to (log 14). -/
opaque Config.switchOut : Nat → Nat → Option (Nat × Nat)

end Sys2Proof
end

