-- ==== Sys2Proof/Machine/Bits.lean ====
section
/-! DEFINITION. Bit fields, sign extension, byte order and sparse tables: the helpers of R14 and R7 that the other files share. -/
namespace Sys2Proof

/-- `bits(x, hi, lo)` of R14 by position and length: `len` bits of `n` from bit `lo`. -/
def fld (n lo len : Nat) : BitVec len := BitVec.ofNat len (n / 2 ^ lo)

/-- The natural number formed by `len` bits of a word from bit `lo` (R14). -/
def Machine.bitsOf {w : Nat} (x : BitVec w) (lo len : Nat) : Nat := x.toNat / 2 ^ lo % 2 ^ len

/-- One bit of a word. -/
def Machine.bitOf {w : Nat} (x : BitVec w) (i : Nat) : Bool := x.getLsbD i

/-- A word with `len` bits from `lo` replaced by `v`. -/
def Machine.putBits {w : Nat} (x : BitVec w) (lo len v : Nat) : BitVec w :=
  let m : BitVec w := BitVec.ofNat w ((2 ^ len - 1) * 2 ^ lo)
  (x &&& ~~~m) ||| (BitVec.ofNat w ((v % 2 ^ len) * 2 ^ lo))

/-- `sext(x, w)` of R14: the low `w` bits of a natural number as a two's-complement integer. -/
def Machine.sextNat (n w : Nat) : Int :=
  let m := n % 2 ^ w
  if w ≠ 0 ∧ 2 ^ (w - 1) ≤ m then (m : Int) - (2 : Int) ^ w else (m : Int)

/-- `trunc(x, w)` of R14 for an integer. -/
def Machine.truncInt (w : Nat) (x : Int) : BitVec w := BitVec.ofInt w x

/-- The number of 1 bits of a natural number below 2^w (R14). -/
def Machine.popcount : Nat → Nat → Nat
  | 0, _ => 0
  | w + 1, n => (if n.testBit w then 1 else 0) + Machine.popcount w n

/-- Leading zero bits of a w-bit number, w when it is 0 (R14). -/
def Machine.clz : Nat → Nat → Nat
  | 0, _ => 0
  | w + 1, n => if n.testBit w then 0 else 1 + Machine.clz w n

/-- Trailing zero bits of a w-bit number, w when it is 0 (R14). -/
def Machine.ctzFrom : Nat → Nat → Nat → Nat
  | 0, _, _ => 0
  | k + 1, i, n => if n.testBit i then 0 else 1 + Machine.ctzFrom k (i + 1) n

/-- `ctz(x, w)` of R14. -/
def Machine.ctz (w n : Nat) : Nat := Machine.ctzFrom w 0 n

/-- The bytes of a number, least significant first (R7). -/
def Machine.toBytes : Nat → Nat → List Byte
  | 0, _ => []
  | k + 1, n => BitVec.ofNat 8 n :: Machine.toBytes k (n / 256)

/-- The number a little-endian list of bytes stands for (R7). -/
def Machine.ofBytes : List Byte → Nat
  | [] => 0
  | b :: bs => b.toNat + 256 * Machine.ofBytes bs

/-- The value a table holds for a number; `d` is what an unlisted number has. -/
def Tab.get {α : Type} (d : α) : Tab α → Nat → α
  | [], _ => d
  | (k, v) :: t, n => if k = n then v else Tab.get d t n

/-- A table without its entry for a number. -/
def Tab.del {α : Type} : Tab α → Nat → Tab α
  | [], _ => []
  | (k, v) :: t, n => if k = n then Tab.del t n else (k, v) :: Tab.del t n

/-- A table with a value at a number, keys ascending. -/
def Tab.put {α : Type} : Tab α → Nat → α → Tab α
  | [], n, x => [(n, x)]
  | (k, v) :: t, n, x =>
    if n < k then (n, x) :: (k, v) :: t
    else if n = k then (n, x) :: t
    else (k, v) :: Tab.put t n x

/-- A table with a value at a number, in canonical form: the default is not listed. -/
def Tab.set {α : Type} [DecidableEq α] (d : α) (t : Tab α) (n : Nat) (x : α) : Tab α :=
  if x = d then Tab.del t n else Tab.put t n x

/-- The canonical form: keys strictly ascending from `lo`, no entry equal to the default. -/
def Tab.wfFrom {α : Type} [DecidableEq α] (d : α) : Nat → Tab α → Bool
  | _, [] => true
  | lo, (k, v) :: t => decide (lo ≤ k) && !decide (v = d) && Tab.wfFrom d (k + 1) t

/-- The canonical form of a table. -/
def Tab.wf {α : Type} [DecidableEq α] (d : α) (t : Tab α) : Bool := Tab.wfFrom d 0 t

/-- Stores consecutive values from a number upwards. -/
def Tab.setRange {α : Type} [DecidableEq α] (d : α) : Tab α → Nat → List α → Tab α
  | t, _, [] => t
  | t, n, x :: xs => Tab.setRange d (Tab.set d t n x) (n + 1) xs

/-- `len` consecutive values from a number upwards. -/
def Tab.range {α : Type} (d : α) (t : Tab α) (n : Nat) : Nat → List α
  | 0 => []
  | k + 1 => Tab.get d t n :: Tab.range d t (n + 1) k

/-- The values of a table at ascending numbers. -/
def Tab.pick {α : Type} (d : α) : Tab α → List Nat → List α
  | _, [] => []
  | t, k :: ks =>
    let t' := t.dropWhile fun x => x.1 < k
    (match t' with
     | [] => d
     | x :: _ => if x.1 = k then x.2 else d) :: Tab.pick d t' ks

/-- A table with new values at ascending numbers, in canonical form. -/
def Tab.merge {α : Type} [DecidableEq α] (d : α) : Tab α → List (Nat × α) → Tab α
  | t, [] => t
  | t, x :: xs =>
    (t.takeWhile fun y => y.1 < x.1) ++ (if x.2 = d then [] else [x]) ++ Tab.merge d (t.dropWhile fun y => y.1 ≤ x.1) xs

end Sys2Proof
end

