-- ==== Sys2Proof/Machine/State.lean ====
section
/-! DEFINITION. The state of the machine as plain data (R8, R9): every register, queue, buffer and table the manual names,
the work in flight, and the model's own fields (agenda, cur, word, issued, free). Tables are sparse lists by number; an
unlisted number has the reset value. -/
namespace Sys2Proof.Machine

/-- The reasons a run stops with a fault. Each names something the part does not have, so that no real input reaches it. -/
inductive Fault where
  /-- Raised by the thermal events for a site number of 12 or more: R1 gives the part twelve sites. Safe. -/
  | absentSite (site : Nat)
  /-- Raised by an I3C, BAR2 or link access to a physical address of no memory (R328), where the manual has no answer. Safe. -/
  | absentAddress (pa : Nat)
  deriving DecidableEq, Repr

/-- The reasons a run is refused. -/
inductive Refusal where
  /-- Raised by an arm of exec that has no meaning yet. Safe. -/
  | notModelled (mnemonic : String)
  deriving DecidableEq, Repr

/-- What a release covers (R261): K stores of cores up to a sequence number, and the cycle from which slice writes read. -/
structure Cover where
  stores : List (CoreId × Nat)
  till : Nat
  deriving DecidableEq, Repr

/-- No release covered. -/
def Cover.none : Cover := { stores := [], till := 0 }

/-- One entry of a data, operand, result or token queue (R85 to R88): `val` none while reserved; visible from cycle `vis`;
`cov` what its release covers. -/
structure Entry (α : Type) where
  val : Option α
  vis : Nat
  cov : Cover
  deriving DecidableEq, Repr

/-- A queue: entries oldest first, the pops since the unit started (R386), and the space freed in the cycle `freeAt - 1`,
which a push may use from `freeAt` (R84). -/
structure Queue (α : Type) where
  entries : List (Entry α)
  pops : Nat
  freed : Nat
  freeAt : Nat
  deriving DecidableEq, Repr

/-- The empty queue. -/
def Queue.empty {α : Type} : Queue α := { entries := [], pops := 0, freed := 0, freeAt := 0 }

/-- A loop-stack entry (R94). -/
structure LoopEntry where
  start : Word
  stop : Word
  rem : Nat
  deriving DecidableEq, Repr

/-- A macro request (R107): macro index, first parameter, the cycle from which it is visible (R108). -/
structure MacroReq where
  idx : Nat
  p : Nat
  vis : Nat
  deriving DecidableEq, Repr

/-- A position inside a running macro (R378): `p` is none until the `mcall` at the pc has been read again after a return (R106, R382);
`last` tells, once its entry is fetched, that this word is the macro's last (R105). -/
structure MacroPos where
  idx : Nat
  p : Option Nat
  word : Nat
  last : Bool
  deriving DecidableEq, Repr

/-- The pending cause of a stopped sequencer (R381): cause code, tval, the offset and macro fields of tcause, LATE, and
whether a held word of the flight list carries it (then `held` is its number). -/
structure StopRec where
  code : Nat
  val : Word
  off : Nat
  mac : Option MacroPos
  late : Bool
  held : Option Nat
  deriving DecidableEq, Repr

/-- What each of K, L, C, S and F has (R8, R83): F uses no masks, loops or macros. `regAt` is the cycle from which a
register is readable (R84, R125); `flagPend` the flags of words that retired in this cycle (R117) and `flagAt` the cycle by
which the context's words that set flags have retired (R118); `nextIssue` the first cycle in which the next word may issue; `acqId`
the number of the last word in flight at the latest acquire of L or S (R254). -/
structure Seq where
  pc : Word
  entry : Word
  regs : Tab Word
  regAt : Tab Nat
  fcsr : BitVec 17
  flagPend : BitVec 5
  flagAt : Nat
  wmask : BitVec 4
  pmask : BitVec 4
  loops : List LoopEntry
  macroQ : List MacroReq
  mpos : Option MacroPos
  nextIssue : Nat
  halting : Bool
  halted : Bool
  stop : Option StopRec
  taken : Bool
  cover : Cover
  acqId : Nat
  deriving DecidableEq, Repr

/-- A sequencer after reset (R112; pc: log 3). -/
def Seq.reset : Seq :=
  { pc := 0, entry := 0, regs := [], regAt := [], fcsr := 0, flagPend := 0, flagAt := 0, wmask := 0, pmask := 0, loops := [], macroQ := [], mpos := none,
    nextIssue := 0, halting := false, halted := false, stop := none, taken := false, cover := Cover.none, acqId := 0 }

/-- What K and F have besides (R111, R113, R115, R378 to R380): frames of saved loop stacks, innermost trap first. -/
structure Sup where
  preds : BitVec 8
  tvec : Word
  tepc : Word
  tsw : Word
  tcause : Word
  tval : Word
  hdepth : Nat
  frames : List (List LoopEntry)
  deriving DecidableEq, Repr

/-- The supervisor state after reset (R112): p0 reads 1 by rule, the stored bit is not used. -/
def Sup.reset : Sup :=
  { preds := 0, tvec := 0, tepc := 0, tsw := 0, tcause := 0, tval := 0, hdepth := 0, frames := [] }

/-- Where an address leads (R332): a slice byte, device memory here, host memory, memory of another
device, or (for F, R432) a BAR0 register. -/
inductive Target where
  | slice (n : CoreId) (off : Nat)
  | dev (pa : Nat)
  | host (pa : Nat)
  | remote (dev : Nat) (pa : Nat)
  | bar (off : Nat)
  deriving DecidableEq, Repr

/-- A K store in the forwarding table (R176): `doneAt` none until its write is presented, then the cycle from which its bytes are
readable; `cover` what K had acquired at its issue, which its write follows (R255); `src` its word's offset and macro position (R408). An
entry without bytes is an atomic that has been applied, kept until its write is readable. `sent` tells of a store to host memory or another
device that its request has left (R405, R408). -/
structure Store where
  seq : Nat
  va : Nat
  tgt : Target
  bytes : List Byte
  cover : Cover
  doneAt : Option Nat
  src : Nat × Option MacroPos
  sent : Bool
  deriving DecidableEq, Repr

/-- A write presented to a slice (R174): cycle, rank among the agents of one cycle, offset, byte. -/
structure SliceWrite where
  cyc : Nat
  rank : Nat
  off : Nat
  val : Byte
  deriving DecidableEq, Repr

/-- What K waits for after a load, atomic or engine word that blocks it (R127, R272, R407). -/
inductive KWait where
  | load (d : BitVec 5) (size : Nat) (signed : Bool) (tgt : Target) (va : Nat)
  | atomic (id : Nat)
  deriving DecidableEq, Repr

/-- A line of the group buffer (R266); `seq` numbers K's latest store at its latest capture. -/
structure Line where
  blk : Nat
  seq : Nat
  mask : BitVec 64
  data : BitVec 512
  deriving DecidableEq, Repr

/-- The group of K (R264 to R270) and its stream binding (R359, R440). -/
structure Group where
  isOpen : Bool
  susp : Bool
  lines : List Line
  bound : Option (BitVec 12)
  tseq : Word
  layers : List Nat
  takenBlks : List Nat
  deferred : List Nat
  deriving DecidableEq, Repr

/-- No group. -/
def Group.reset : Group :=
  { isOpen := false, susp := false, lines := [], bound := none, tseq := 0, layers := [], takenBlks := [], deferred := [] }

/-- A claim waiting at a ring's home (R184): the claiming core and sequencer and its word's number; `colo` for rgend. -/
structure RingWait where
  core : CoreId
  ctx : Ctx
  id : Nat
  colo : Bool
  deriving DecidableEq, Repr

/-- A ring register (R181 to R185). `marks` are popped positions ahead of HEAD, `holders` the positions held by issued
readers, `fill` the cycle from which each pushed position counts as filled (R184), `direct` the positions claimed by `rgclaim` with the
claiming core, `takeAt` one more than the cycle of the last read position taken and the taker's place in R183. Positions are absolute
counts. -/
structure Ring where
  base : Word
  ctl : Word
  colo : Bool
  claim : Nat
  tail : Nat
  head : Nat
  pushed : List Nat
  marks : List Nat
  holders : List Nat
  fill : Tab Nat
  waits : List RingWait
  direct : List (Nat × CoreId)
  takeAt : Nat × Nat
  cov : Cover
  deriving DecidableEq, Repr

/-- A ring register after reset (R181). -/
def Ring.reset : Ring :=
  { base := 0, ctl := 0, colo := false, claim := 0, tail := 0, head := 0, pushed := [], marks := [], holders := [], fill := [],
    waits := [], direct := [], takeAt := (0, 0), cov := Cover.none }

/-- The kinds of words L and S hold in flight, in program order (R179, R84). -/
inductive TKind where
  | move | rows | ringWord | post | popped | halt
  deriving DecidableEq, Repr

/-- A word of L or S that issued in cycle `issued` and has not retired (R179): what it read at issue and what it has
taken; `taken` are the positions of a ring word that names several, `after` the number of the last word its accesses follow (R254),
`ahead` the blocks read and not yet written, by number, and `got` what it has read for its end: the stream of `wfeed`, the gather of KVG, the
results of EXP, whose ring A is `code`. -/
structure TFlight where
  id : Nat
  issued : Nat
  kind : TKind
  op : Nat
  word : BitVec 32
  pc : Word
  mac : Option MacroPos
  td : BitVec 512
  a : Word
  l : Word
  target : Nat
  mode : Nat
  ord : Bool
  keep : Bool
  rpos : Option Nat
  taken : List Nat
  claimed : Option Nat
  needsClaim : Bool
  pvec : Option Vec
  post : BitVec 4
  popTok : BitVec 4
  code : Nat
  val : Word
  fcsr : BitVec 17
  cover : Cover
  cursor : Nat
  flags : BitVec 5
  xst : BitVec 4
  failed : Option (Nat × Word)
  parked : Option Nat
  after : Nat
  ahead : List (Nat × List Byte × BitVec 5 × BitVec 4)
  got : List Byte
  seq0 : Seq
  deriving DecidableEq, Repr

/-- What a V-word writes at retirement (R146). -/
inductive VDst where
  | vreg (i : Nat) | tileSlice (t d i : Nat) | mask (i : Nat) | rule (i : Nat) | none
  deriving DecidableEq, Repr

/-- A V-word that has issued and not retired: its results, each a destination, a value and the bits it replaces (R146); `clr` clears
`eb` (R142), `rshp` sets RSHP (R168), `shape` is what `vshape` writes to bits 20:0 (R150). -/
structure VFlight where
  word : BitVec 32
  due : Nat
  dst : List (VDst × Vec × Vec)
  tile : Option (Nat × BitVec 131072 × BitVec 14)
  flags : BitVec 5
  eb : List (Nat × Option Nat)
  oq : Option (Nat × Vec)
  post : BitVec 4
  isRule : Bool
  clr : Bool
  rshp : Bool
  shape : Option (BitVec 21)
  deriving DecidableEq, Repr

/-- An M-word that has issued and not retired (R197, R202), with its operands as read at issue. `from_` is its resume cursor (a
column, for `accrd` a 16-column group; for `wstr` 1 once its entry is written) and `cut` the cursor at which a cut or a fault stops it. -/
structure MFlight where
  id : Nat
  op : Nat
  word : BitVec 32
  pc : Word
  mac : Option MacroPos
  att : Bool
  issued : Nat
  slots : Nat
  due : Nat
  acc : Nat
  buf : Nat
  fmt : Nat
  enc : Bool
  n : Word
  img : List Byte
  opnd : List Byte
  stamp : Word
  ctlEntry : Nat
  ringA : Nat
  posA : Option Nat
  ringB : Nat
  posB : Option Nat
  post : BitVec 4
  popTok : BitVec 4
  frm : BitVec 3
  ftz : BitVec 4
  from_ : Nat
  cut : Option Nat
  flags : BitVec 5
  failed : Option (Nat × Word)
  deriving DecidableEq, Repr

/-- A token or entry that C posted behind words not yet retired (R84, R34). -/
structure CPost where
  word : BitVec 32
  pc : Word
  code : Nat
  val : Word
  afterV : Nat
  afterM : Nat
  deriving DecidableEq, Repr

/-- A weight buffer (R204): state 0 EMPTY, 1 FILLING, 2 FULL, its ESIZE and image bytes. -/
structure WBuf where
  st : Nat
  esize : Nat
  img : Tab Byte
  deriving DecidableEq, Repr

/-- An accumulator (R209): AFMT 0 NONE, 1 FP32, 2 FP64, and (sum, comp) of element 512 m + n. -/
structure Acc where
  afmt : Nat
  el : Tab (BitVec 64 × BitVec 64)
  deriving DecidableEq, Repr

/-- The vector side of C (R140 to R147): registers, masks, eb, shape, tix (`shape0` and `tix0` as at the start of the cycle, R117), tiles
with configurations, rule slots, the words in flight and the divider. -/
structure VUnit where
  v : Tab Vec
  vm : Tab (BitVec 256)
  eb : Tab (BitVec 32)
  shape : BitVec 24
  tix : BitVec 16
  shape0 : BitVec 24
  tix0 : BitVec 16
  tile : Tab (BitVec 131072)
  cfg : Tab (BitVec 14)
  rule : Tab Vec
  flight : List VFlight
  lastRet : Nat
  divTill : Nat
  issuedN : Nat
  retiredN : Nat
  deriving DecidableEq, Repr

/-- The reset configuration of a tile: .f32, 64 x 64 (R147). -/
def cfgReset : BitVec 14 := 0x661

/-- The vector side after reset (R147). -/
def VUnit.reset : VUnit :=
  { v := [], vm := [], eb := [], shape := 0, tix := 0, shape0 := 0, tix0 := 0, tile := [], cfg := [], rule := [], flight := [], lastRet := 0,
    divTill := 0, issuedN := 0, retiredN := 0 }

/-- The matrix engine (R197 to R210): BOWN 0 NONE, 1 a0, 2 a1; `accAt` the cycle from which the retirements that named an
accumulator count for the words that wait for them (R201). -/
structure MUnit where
  w0 : WBuf
  w1 : WBuf
  a0 : Acc
  a1 : Acc
  bound : Tab (BitVec 32)
  bown : Nat
  flight : List MFlight
  arrayTill : Nat
  accAt : Tab Nat
  issuedN : Nat
  retiredN : Nat
  deriving DecidableEq, Repr

/-- The matrix engine after reset (R204, R209, R210). -/
def MUnit.reset : MUnit :=
  { w0 := { st := 0, esize := 0, img := [] }, w1 := { st := 0, esize := 0, img := [] },
    a0 := { afmt := 0, el := [] }, a1 := { afmt := 0, el := [] }, bound := [], bown := 0, flight := [], arrayTill := 0, accAt := [],
    issuedN := 0, retiredN := 0 }

/-- The copy side of L or S, or of the attention sequencer (R176, R179, R180, R189, R369): descriptors, words in flight, transfer status,
and the cycle from which all its writes so far are readable. -/
structure TUnit where
  td : Tab (BitVec 512)
  flight : List TFlight
  xst : BitVec 4
  wrTill : Nat
  deriving DecidableEq, Repr

/-- A copy side after reset. -/
def TUnit.reset : TUnit := { td := [], flight := [], xst := 0, wrTill := 0 }

/-- An atomic of K that is not yet applied (R272, R273), numbered in program order with K's stores; `pres` its presentation cycle, with
its place among the atomics presented to its word in that cycle, `src` its word's offset and macro position. -/
structure AmoReq where
  id : Nat
  seq : Nat
  pres : Option (Nat × Nat)
  op : Nat
  dbl : Bool
  ret : Option (BitVec 5)
  va : Nat
  tgt : Target
  opnd : Word
  cmp : Word
  fcsr : BitVec 17
  cover : Cover
  src : Nat × Option MacroPos
  deriving DecidableEq, Repr

/-- The address of a record that there is not: beyond the address range (log 41). -/
def noRecord : Nat := 2 ^ 57

/-- A request of the collective engine (R278, R279): `addr` of its record, whether F pushed it, blocks read so far, blocks ended, ERR and
FLAGS, the page it waits for (R339), and what its push covers (R261). -/
structure CollReq where
  addr : Nat
  job : BitVec 8
  phys : Bool
  words : List Word
  started : Bool
  sent : Nat
  ended : Nat
  err : Nat
  flags : BitVec 5
  parked : Option Nat
  cover : Cover
  deriving DecidableEq, Repr

/-- One tile of a plane request (R412, R416): counter byte, children that pruned it, planes sent or arrived, no more to come, the elements as
landed, and the cycle from which the last landing's writes are readable. -/
structure PlaneTile where
  ctr : BitVec 8
  pruned : List Nat
  sent : Nat
  ended : Bool
  elems : List Nat
  readyAt : Nat
  deriving DecidableEq, Repr

/-- A request of the plane engine (R418 to R420): record words, children with their answers (0 open sent, 1 accepted,
2 not yet, 3 mismatch) and the cycle of the last open, tiles, the next plane and tile to send or to arrive, parent device, ERR, CNT, what its
push covers (R261), the arrived planes still to be forwarded (R414), the pruned tiles the parent is still to be told (R416), and the cycle from
which the zeros of the counters are readable (R419). -/
structure PlaneReq where
  addr : Nat
  job : BitVec 8
  isSend : Bool
  words : List Word
  answers : Tab Nat
  openAt : Tab Nat
  parent : Option Nat
  tiles : Tab PlaneTile
  nextPlane : Nat
  nextTile : Nat
  err : Nat
  cnt : Nat
  done : Bool
  cover : Cover
  out : List PlaneMsg
  owes : List Nat
  zeroAt : Nat
  deriving DecidableEq, Repr

/-- The attention sequencer (R369 to R372): control store, UPC, ar registers, its status, the EXP that holds the exponent unit, whether this
unit started it (R387), and the page a microword waits for (R339). -/
structure Att where
  store : Tab Word
  upc : Nat
  ar : Tab Word
  busy : Bool
  fault : Bool
  cause : Nat
  fupc : Nat
  tval : Word
  ended : Nat
  cover : Cover
  exp : Option TFlight
  nextIssue : Nat
  started : Bool
  parked : Option Nat
  deriving DecidableEq, Repr

/-- The attention sequencer after reset. -/
def Att.reset : Att :=
  { store := [], upc := 0, ar := [], busy := false, fault := false, cause := 0, fupc := 0, tval := 0, ended := 0,
    cover := Cover.none, exp := none, nextIssue := 0, started := false, parked := none }

/-- A staging copy in flight (R373), and the page it waits for (R339). -/
structure StageCopy where
  stream : Nat
  layer : Nat
  blk : Nat
  hdr : Nat
  parked : Option Nat
  deriving DecidableEq, Repr

/-- The unit resident on a core (R289): its task, its launch's die and slot, for each barrier one more than the episode it arrived
in and has not waited for (R315), and a `texit` in wait (successor, MEMB). -/
structure UnitInfo where
  job : BitVec 8
  task : BitVec 24
  die : BitVec 2
  slot : Nat
  arrived : Tab Nat
  texit : Option (BitVec 24 × Bool)
  deriving DecidableEq, Repr

/-- Where a core stands in a cut or debug halt (R385, R389): running, stopping at boundaries, or stopped. -/
inductive CutPhase where
  | running | stopping | stopped
  deriving DecidableEq, Repr

/-- A core (R8). `slotAt` is one more than the last cycle in which K's slot issued (R81); `csrPend` CSR writes of
K and F to registers of L, C and S that act at the next cycle (R117: address, 0 write 1 set 2 clear, value), `ringPend`
ring words that act then (R194: 0 set 1 reset 2 clear status, number, two words); `fatal` the cause passed to the
dispatcher (R300); `frozen` the freeze of R307; `quireHeld` a core held by a quire's walker (R306); `wake` a pre-emption or debug halt
requested since K's last word (R138); `late` the failures of K's writes that have retired, cause, tcause and tval (R127, R377); `starting` the
cycle from which a core that changes its job may read its unit's image, and whether its unit takes `s5` to `s8` from the node record (R102,
R384); `newJob` tells that the job of the core's previous unit has ended (R102, R286); `ta` the copies of the attention sequencer in flight (R369), `pushes` the commands pushed
to the engine FIFOs and macro queues since the unit started, by QID (R386). -/
structure Core where
  k : Seq
  l : Seq
  c : Seq
  s : Seq
  f : Seq
  supK : Sup
  supF : Sup
  mimage : Word
  mstore : Tab (List Word)
  q : Tab (Queue Word)
  iq : Tab (Queue Vec)
  oq : Tab (Queue Vec)
  tk : Tab (Queue Unit)
  fwd : List Store
  storeSeq : Nat
  xstK : BitVec 4
  kWait : Option KWait
  divTill : Nat
  group : Group
  amos : List AmoReq
  vec : VUnit
  mat : MUnit
  cposts : List CPost
  tl : TUnit
  ts : TUnit
  ta : TUnit
  pushes : Tab Nat
  nextId : Nat
  rings : Tab Ring
  cond : Word
  prio : BitVec 3
  fused : BitVec 8
  fpri : Bool
  quota : BitVec 8
  slotAt : Nat
  wpt : Tab Word
  snapctl : BitVec 6
  csrPend : List (Nat × Nat × Word)
  ringPend : List (Nat × Nat × Word × Word)
  slice : Tab Byte
  recent : List SliceWrite
  code : Tab (BitVec 32)
  unit : Option UnitInfo
  prevJob : Option (BitVec 8)
  prevTask : Option (BitVec 24)
  cutting : CutPhase
  cutSeq : Nat
  fatal : Option (Nat × Word)
  frozen : Bool
  quireHeld : Bool
  wake : Bool
  late : List (Nat × Word × Word)
  starting : Option (Nat × Bool)
  newJob : Bool
  debugHalt : CutPhase
  lastRetire : Nat
  watch : Option (Word × Word)
  snapAt : List Nat
  snap : Tab Word
  att : Att
  staging : List StageCopy
  coll : List CollReq
  planes : List PlaneReq
  fActive : Bool
  events : List Word
  evDrops : Nat
  deriving DecidableEq, Repr

/-- A core after reset (R112, R147, R181, R204, R209, R82). -/
def Core.reset : Core :=
  { k := Seq.reset, l := Seq.reset, c := Seq.reset, s := Seq.reset, f := Seq.reset, supK := Sup.reset, supF := Sup.reset,
    mimage := 0, mstore := [], q := [], iq := [], oq := [], tk := [], fwd := [], storeSeq := 0, xstK := 0, kWait := none,
    divTill := 0, group := Group.reset, amos := [], vec := VUnit.reset, mat := MUnit.reset,
    cposts := [], tl := TUnit.reset, ts := TUnit.reset, ta := TUnit.reset, pushes := [], nextId := 0, rings := [], cond := 0, prio := 0, fused := 0,
    fpri := false, quota := 16, slotAt := 0, wpt := [], snapctl := 0, csrPend := [], ringPend := [], slice := [], recent := [], code := [], unit := none,
    prevJob := none, prevTask := none, cutting := .running, cutSeq := 0, fatal := none, frozen := false, quireHeld := false, wake := false, late := [], starting := none, newJob := false,
    debugHalt := .running, lastRetire := 0, watch := none, snapAt := [], snap := [], att := Att.reset, staging := [],
    coll := [], planes := [], fActive := false, events := [], evDrops := 0 }

/-- A task in a ready queue (R292, R296, R317): the cycle in which it entered, whether it reserves, and whether it came from the pool. -/
structure ReadyEnt where
  job : BitVec 8
  task : BitVec 24
  since : Nat
  reserving : Bool
  pooled : Bool
  deriving DecidableEq, Repr

/-- A barrier of a quire (R308): the open episode, its arrivals, the forfeits and what the arrivals cover, and for past episodes the
forfeit count and the cover. -/
structure Barrier where
  episode : Nat
  arrivals : Nat
  forfeits : Nat
  cov : Cover
  past : List (Nat × Cover)
  deriving DecidableEq, Repr

/-- A cut unit (R385 to R388): its core, its rank among the save blocks, and the core's state at the cut, of which a resume takes what
the save block does not name (log 41). -/
structure CutUnit where
  core : CoreId
  rank : Nat
  kept : Core
  deriving DecidableEq, Repr

/-- A launch (R287, R288, R294, R300): its record, walk position and cycle of the last start, units ended, cut units to resume, cores
saved in the present cut, cores a quire holds, barriers with the units that forfeit them, the stop of the walk for a parking with its
cause, value and core, whether a fatal fault parks it, a NODE request, the last unit to end (cycle, core, `s1` to `s8`), and whether
the next unit started takes `s5` to `s8` from the node record (R384). -/
structure Launch where
  job : BitVec 8
  task : BitVec 24
  prio : BitVec 3
  order : Nat
  recAddr : Nat
  words : List Word
  total : Nat
  started : Nat
  startAt : Nat
  ended : Nat
  resume : List CutUnit
  saved : List CoreId
  held : List CoreId
  bars : Tab Barrier
  forfeited : Nat
  stopWalk : Bool
  park : Option (Nat × Word × CoreId)
  fatalPark : Bool
  node : Bool
  lastEnd : Option (Nat × CoreId × List Word)
  texit : Option (BitVec 24 × Bool)
  fromNode : Bool
  deriving DecidableEq, Repr

/-- A key-table entry (R295): its exclusive holder or shared holders. Its reserver is the oldest task that wants it (R296). -/
structure KeyEnt where
  job : BitVec 8
  key : Nat
  ex : Option (BitVec 24)
  sh : List (BitVec 24)
  deriving DecidableEq, Repr

/-- A pending launch of the pool (R312) or a task that overflowed a ready queue (R317), with the cycle in which it entered. -/
structure PoolEnt where
  job : BitVec 8
  task : BitVec 24
  overflow : Bool
  since : Nat
  deriving DecidableEq, Repr

/-- An entry of the replay queue (R339); a microword of the attention sequencer stands as C, its copies as F, the collective engine as K. -/
structure ReplayEnt where
  job : BitVec 8
  core : CoreId
  ctx : Ctx
  va : Nat
  write : Bool
  deriving DecidableEq, Repr

/-- A die (R226, R288 to R301, R339); `dispAt` is one more than the cycle of its last dispatch, `owed` one more than the last cycle that began
with an eligible task (R294). -/
structure Die where
  ready : Tab (List ReadyEnt)
  launches : Tab Launch
  fq : Tab (Word × Word)
  fqProd : Nat
  fqCons : Nat
  held : List CoreId
  syms : List (BitVec 8 × BitVec 24 × Nat)
  next : Tab Nat
  replay : List ReplayEnt
  dispAt : Nat
  owed : Nat
  deriving DecidableEq, Repr

/-- A die after reset. -/
def Die.reset : Die :=
  { ready := [], launches := [], fq := [], fqProd := 0, fqCons := 0, held := [], syms := [], next := [], replay := [], dispAt := 0, owed := 0 }

/-- A job record (R285); `made` once the driver has created the job. -/
structure JobRec where
  j0 : Word
  j1 : Word
  j2 : Word
  j3 : Word
  made : Bool
  deriving DecidableEq, Repr

/-- No job. -/
def JobRec.none : JobRec := { j0 := 0, j1 := 0, j2 := 0, j3 := 0, made := false }

/-- A submission ring (R309): its record, the CONS at which the allowance was last written, and whether it is being consumed (R310). -/
structure SubRing where
  h0 : Word
  h1 : Word
  h2 : Word
  h3 : Word
  allowed : Nat
  active : Bool
  deriving DecidableEq, Repr

/-- A submission ring after reset. -/
def SubRing.reset : SubRing := { h0 := 0, h1 := 0, h2 := 0, h3 := 0, allowed := 0, active := false }

/-- A round of a reduction window in a switch (R276): block of an entry and the contributions so far. -/
structure Round where
  entry : Nat
  blk : Nat
  got : List Contribution
  deriving DecidableEq, Repr

/-- A Zuore switch (R275, R276): 64 entries of W0 to W3, the open rounds, the contributions waiting at their ports. -/
structure Switch where
  win : Tab (List Word)
  rounds : List Round
  waiting : List Contribution
  deriving DecidableEq, Repr

/-- A switch after reset. -/
def Switch.reset : Switch := { win := [], rounds := [], waiting := [] }

/-- A cached entry (R338): its cache, a core's or from 256 a die's, job, base and size of the range it covers, its level and the entry. -/
structure CachedLeaf where
  place : Nat
  job : BitVec 8
  base : Nat
  size : Nat
  lv : Nat
  entry : Word
  deriving DecidableEq, Repr

/-- The answer to the last host request (R400, R403, R404): data, Unsupported Request, or Completer Abort. -/
inductive HostReply where
  | none | data (bytes : List Byte) | ur | abort
  deriving DecidableEq, Repr

/-- What the device sends on Zuore: a write to another device's memory, a load or an atomic to it with the issuer's FRM and FTZ, or its answer
to one, without bytes for a write or an error (R272, R274, R407); an open, its answer, a plane, or a prune of the plane engine to a device
(R414, R416, R420). -/
inductive LinkMsg where
  | store (dev pa : Nat) (bytes : List Byte)
  | load (dev pa len : Nat)
  | amo (dev pa op : Nat) (dbl : Bool) (opnd cmp : Word) (fcsr : BitVec 17)
  | answer (dev : Nat) (bytes : List Byte)
  | opening (dev : Nat) (m : OpenMsg)
  | opened (dev : Nat) (job : BitVec 8) (tag : Nat) (a : OpenAns)
  | plane (dev : Nat) (m : PlaneMsg)
  | pruned (dev : Nat) (m : PruneMsg)
  deriving DecidableEq, Repr

/-- What a request to host memory or another device is: K's load, a read of any other agent, a write to another device, the read-back that
follows a write to host memory (R405), a store of K or an atomic of K by its number, with its message. -/
inductive FarKind where
  | load | read | write (bytes : List Byte) | back | store (seq : Nat) (bytes : List Byte) | amo (id : Nat) (m : LinkMsg)
  deriving DecidableEq, Repr

/-- A request to host memory or another device (R405, R407, R408): the agent that makes it (core, agent, number of its word), its address, the
cycle of its last sending, the place of K's word then, whether it was made with a translation record written since (R333), whether it has been
sent twice, and once it has ended the bytes it brings, or its failure. -/
structure FarReq where
  core : CoreId
  agent : Nat
  id : Nat
  kind : FarKind
  tgt : Target
  len : Nat
  va : Nat
  since : Nat
  src : Nat × Option MacroPos
  old : Bool
  retried : Bool
  got : Option (List Byte)
  failed : Bool
  deriving DecidableEq, Repr

/-- Who makes an atomic that is not of a K: F of a core with the register it waits for, the host, or another device (R274, R432). -/
inductive AmoBy where
  | firmware (n : CoreId) (ret : Option (BitVec 5)) | host | remote (dev : BitVec 9)
  deriving DecidableEq, Repr

/-- An atomic of F, the host or another device from its presentation to the end of the cycle in which it is applied (R273). -/
structure HomeAmo where
  who : AmoBy
  pres : Nat × Nat
  op : Nat
  dbl : Bool
  va : Nat
  tgt : Target
  opnd : Word
  cmp : Word
  fcsr : BitVec 17
  applied : Bool
  deriving DecidableEq, Repr

/-- A store or no-return atomic of a cut K that waits at a site in self-refresh (R343), with its core and task. -/
structure Orphan where
  core : CoreId
  job : BitVec 8
  task : BitVec 24
  req : Store ⊕ AmoReq
  deriving DecidableEq, Repr

/-- The quote registers of one requester (R432, R435). -/
structure QuoteRegs where
  nonce : BitVec 256
  go : Bool
  status : BitVec 2
  res : List Byte
  deriving DecidableEq, Repr

/-- No quote. -/
def QuoteRegs.reset : QuoteRegs := { nonce := 0, go := false, status := 0, res := [] }

/-- A site (R343, R437): its temperature in degrees, whether it is in self-refresh, since which cycle, and whether its memory-stall event has
been raised. -/
structure Site where
  temp : Nat
  refresh : Bool
  since : Nat
  stalled : Bool
  deriving DecidableEq, Repr

/-- A site after reset (its temperature: log 23). -/
def Site.reset : Site := { temp := 0, refresh := false, since := 0, stalled := false }

/-- A running rung (R429): its number and reach (first core, cores). -/
structure Rung where
  num : Nat
  first : Nat
  cnt : Nat
  qid : Nat
  deriving DecidableEq, Repr

/-- The BAR0 registers, queues and identity of the device (R401, R402, R432 to R437): `invs` are the invalidations that run (R338),
`recCover` the accesses made with old translation records (R333), `msix`, `hostOut`, `linkOut` with its ports and `reply` what it has sent;
`critT` and `relT` are the thresholds that F sets (R437), `i3cReply` the last read of the I3C sideband; the last seven fields are the bad-page list, the signature counter, the leaves
of the current block, the minimum version (non-volatile, but for the leaves), and the running image's version and bytes (R434, R435). -/
structure Dev where
  ready : Bool
  fail : Bool
  zup : BitVec 16
  zen : Bool
  dev : BitVec 9
  route : Tab Word
  inv0 : Word
  inv1 : Word
  inv2 : Word
  invs : List (BitVec 8 × Nat × Nat)
  recCover : Cover
  swcfg : Tab Word
  swcfgDown : Bool
  dbgsel : Word
  dbgctl : BitVec 8
  evq : Tab (Word × Word)
  evProd : Nat
  evCons : Nat
  evDrops : Nat
  faq : Tab (Word × Word)
  faqProd : Nat
  faqCons : Nat
  faqDrops : Nat
  fwfp : BitVec 256
  rungs : List Rung
  refused : Bool
  bar : QuoteRegs
  i3c : QuoteRegs
  quotes : List (Bool × BitVec 256)
  badGo : Bool
  badResult : BitVec 2
  badCount : Nat
  badPage : Nat
  hungt : Nat
  power : BitVec 2
  limit : Nat
  msix : List Nat
  hostOut : List (Nat × List Byte)
  linkOut : List (Nat × LinkMsg)
  reply : HostReply
  critT : Nat
  relT : Nat
  i3cReply : Word
  badPages : List Nat
  sigCounter : Nat
  leafNext : Nat
  leafEnd : Nat
  minVersion : Nat
  version : Nat
  image : List Byte
  deriving DecidableEq, Repr

/-- The registers after device reset (R402, R430, R432, R437: power 0 ACTIVE). -/
def Dev.reset : Dev :=
  { ready := false, fail := false, zup := 0, zen := false, dev := 0, route := [], inv0 := 0, inv1 := 0, inv2 := 0, invs := [], recCover := Cover.none, swcfg := [], swcfgDown := false,
    dbgsel := 0, dbgctl := 0, evq := [], evProd := 0, evCons := 0, evDrops := 0, faq := [], faqProd := 0, faqCons := 0,
    faqDrops := 0, fwfp := 0, rungs := [], refused := false, bar := QuoteRegs.reset, i3c := QuoteRegs.reset, quotes := [],
    badGo := false, badResult := 0, badCount := 0, badPage := 0, hungt := 2 ^ 26, power := 0, limit := 2000, msix := [],
    hostOut := [], linkOut := [], reply := .none, critT := 105, relT := 100, i3cReply := 0, badPages := [], sigCounter := 0, leafNext := 0, leafEnd := 0, minVersion := 0, version := 0, image := [] }

/-- The machine: the device-wide tables and the 256 cores (R8, R9); `homeAt` one more than the cycle of the last atomic applied at a
core's slice or, from 256, at a site (R273); `far` the requests to host memory and other devices (R405, R408), `amoq` the atomics of others
than K (R273), `sealed` the blocks of device memory that a group with slice lines has written, with the cycle from which they are reached
again (R267), `orphans` the requests of cut units that wait at sites (R343); the model's own fields at the end: the moves to make
next, the context that executes, its word, whether it issued, the agent whose accesses are made, and the counter of free values. -/
structure State where
  ccount : Nat
  cores : Tab Core
  dies : Tab Die
  dev : Dev
  mem : List Host.Cell
  poison : Tab Bool
  latent : Tab Nat
  corrected : Tab (List Nat)
  sites : Tab Site
  jobs : Tab JobRec
  xlate : Tab Word
  tcache : List CachedLeaf
  keys : List KeyEnt
  wantKeys : List (BitVec 8 × BitVec 24 × Nat)
  pool : List PoolEnt
  parked : List Launch
  subs : Tab SubRing
  streams : Tab (Tab Word)
  landed : List (Nat × Nat × Nat × Nat)
  switches : Tab Switch
  homeAt : Tab Nat
  far : List FarReq
  amoq : List HomeAmo
  sealed : List (Nat × Nat)
  orphans : List Orphan
  launchSeq : Nat
  agenda : List Move
  cur : CoreId × Ctx
  word : BitVec 32
  issued : Bool
  reader : CoreId × Nat × Nat
  free : Nat
  deriving DecidableEq, Repr

/-- The machine right after reset (R112, R4; memory: log 4). -/
def State.reset : State :=
  { ccount := 0, cores := [], dies := [], dev := Dev.reset, mem := [], poison := [], latent := [], corrected := [], sites := [],
    jobs := [], xlate := [], tcache := [], keys := [], wantKeys := [], pool := [], parked := [], subs := [], streams := [],
    landed := [], switches := [], homeAt := [], far := [], amoq := [], sealed := [], orphans := [], launchSeq := 0, agenda := [], cur := (0, .k), word := 0,
    issued := false, reader := (0, 0, 0), free := 0 }

end Sys2Proof.Machine
end

