-- ==== Sys2Proof/Machine/Ops.lean ====
section
/-! DEFINITION. The named operations over State: cores and sequencers, scalar registers, readiness (R80, R84), the end of a
word (R84, R94), queues and tokens (R85 to R90), release and acquire (R260, R261), events (R431), taking a trap (R380) and
the return from one (R382). -/
namespace Sys2Proof.Machine

/-- The outcome of a step. -/
abbrev Out := Host.Outcome State Fault Refusal

/-- A word or event whose conditions do not hold: it does not issue and has no effect (R80). -/
def stall (s : State) : Out := .next s

/-- Core `n`. -/
def State.core (s : State) (n : CoreId) : Core := Tab.get Core.reset s.cores n.toNat

/-- The state with core `n` replaced. -/
def State.setCore (s : State) (n : CoreId) (c : Core) : State := { s with cores := Tab.put s.cores n.toNat c }

/-- The state with core `n` changed. -/
def State.modCore (s : State) (n : CoreId) (g : Core → Core) : State := s.setCore n (g (s.core n))

/-- The sequencer of a context. -/
def Core.seq (c : Core) : Ctx → Seq
  | .k => c.k
  | .l => c.l
  | .c => c.c
  | .s => c.s
  | .f => c.f

/-- The core with a sequencer replaced. -/
def Core.setSeq (c : Core) (q : Ctx) (x : Seq) : Core :=
  match q with
  | .k => { c with k := x }
  | .l => { c with l := x }
  | .c => { c with c := x }
  | .s => { c with s := x }
  | .f => { c with f := x }

/-- The trap CSRs of K or F (R113: banked). -/
def Core.sup (c : Core) (q : Ctx) : Sup := if q = .f then c.supF else c.supK

/-- The core with the trap CSRs of K or F replaced. -/
def Core.setSup (c : Core) (q : Ctx) (x : Sup) : Core := if q = .f then { c with supF := x } else { c with supK := x }

/-- The core that executes. -/
def State.here (s : State) : Core := s.core s.cur.1

/-- The sequencer that executes. -/
def State.seq (s : State) : Seq := s.here.seq s.cur.2

/-- The state with the executing core changed. -/
def State.modHere (s : State) (g : Core → Core) : State := s.modCore s.cur.1 g

/-- The state with the executing sequencer changed. -/
def State.modSeq (s : State) (g : Seq → Seq) : State :=
  s.modHere fun c => c.setSeq s.cur.2 (g (c.seq s.cur.2))

/-- The code of a sequencer (R53): K 0, L 1, C 2, S 3; F shares K's. -/
def ctxNum : Ctx → Nat
  | .k => 0
  | .l => 1
  | .c => 2
  | .s => 3
  | .f => 0

/-- The sequencer of a code. -/
def ctxOf (n : Nat) : Ctx := if n = 1 then .l else if n = 2 then .c else if n = 3 then .s else .k

/-! ## Scalar registers (R110) -/

/-- The value of a register of a sequencer: s0 reads zero. -/
def Seq.reg (q : Seq) (r : BitVec 5) : Word := if r = 0 then 0 else Tab.get 0 q.regs r.toNat

/-- A register written, readable from cycle `at_`; a write to s0 is discarded. -/
def Seq.setReg (q : Seq) (r : BitVec 5) (v : Word) (at_ : Nat) : Seq :=
  if r = 0 then q else { q with regs := Tab.set 0 q.regs r.toNat v, regAt := Tab.set 0 q.regAt r.toNat at_ }

/-- A register of the executing sequencer. -/
def State.reg (s : State) (r : BitVec 5) : Word := s.seq.reg r

/-- Writes a register of the executing sequencer; the result is readable `lat` cycles after the issue (R125). -/
def State.setReg (s : State) (r : BitVec 5) (v : Word) (lat : Nat) : State :=
  s.modSeq fun q => q.setReg r v (s.ccount + lat)

/-- A predicate of the executing context: p0 reads 1 (R111). -/
def State.pred (s : State) (p : Nat) : Bool := p == 0 || (s.here.sup s.cur.2).preds.getLsbD p

/-- Writes a predicate; a write to p0 is discarded (R111). -/
def State.setPred (s : State) (p : Nat) (b : Bool) : State :=
  if p = 0 then s else
  s.modHere fun c =>
    let u := c.sup s.cur.2
    c.setSup s.cur.2 { u with preds := putBits u.preds p 1 (if b then 1 else 0) }

/-! ## Readiness (R80) -/

/-- Whether the executing context may issue a word in this cycle: its core runs a unit (F: an activation), it is neither
halted, stopped, cut nor blocked by an access, its unit has been read (R102), and its issue time has come (R79, R83, R84, R127, R273). -/
def State.canIssue (s : State) : Bool :=
  let c := s.here
  let q := s.seq
  decide (q.nextIssue ≤ s.ccount) && !q.halting && !q.halted && q.stop.isNone &&
  (match s.cur.2 with
   | .f => c.fActive && !s.amoq.any fun r => !r.applied && (match r.who with | .firmware n d => decide (n = s.cur.1) && d.isSome | _ => false)
   | _ => c.unit.isSome && c.fatal.isNone && c.starting.isNone && decide (c.cutting = .running) && decide (c.debugHalt = .running)) &&
  (decide (s.cur.2 ≠ .k) || c.kWait.isNone)

/-- Whether a source register is readable (R84, R125). -/
def State.readable (s : State) (r : BitVec 5) : Bool := r == 0 || decide (Tab.get 0 s.seq.regAt r.toNat ≤ s.ccount)

/-- Whether the executing context may issue a word with these source registers. -/
def State.readyFor (s : State) (srcs : List (BitVec 5)) : Bool := s.canIssue && srcs.all s.readable

/-! ## The end of a word (R84, R94) -/

/-- The loop stack and pc after a word at address `a` that did not transfer control (R94). -/
def loopNext (a : Word) : List LoopEntry → List LoopEntry × Word
  | [] => ([], a + 4)
  | e :: es =>
    if e.stop = a then
      if 1 < e.rem then ({ e with rem := e.rem - 1 } :: es, e.start) else loopNext a es
    else (e :: es, a + 4)

/-- The loop stack after a taken transfer to `x`: entries whose body does not hold `x` are popped (R94). -/
def loopExit (x : Word) : List LoopEntry → List LoopEntry
  | [] => []
  | e :: es => if e.start.toNat ≤ x.toNat ∧ x.toNat ≤ e.stop.toNat then e :: es else loopExit x es

/-- The words of the macro a sequencer runs (R104, R105). -/
def Core.macroWords (c : Core) (q : Ctx) (i : Nat) : List Word := Tab.get [] c.mstore (ctxNum q * 64 + i)

/-- A sequencer after a word that issued and did not transfer control: the next macro word, or the next address. -/
def Seq.after (q : Seq) (ctx : Ctx) (now : Nat) : Seq :=
  let q := { q with nextIssue := Nat.max q.nextIssue (now + 1) }
  let go : Seq := let r := loopNext q.pc q.loops; { q with loops := r.1, pc := r.2 }
  match q.mpos with
  | none => go
  | some m =>
    if !m.last then { q with mpos := some { m with word := m.word + 1 } }
    else if ctx = .k then { go with mpos := none }
    else { q with mpos := none }

/-- Whether a sequencer of the unit has no word between its issue and its retirement: K none that it waits in, L, C and S none in flight (R430). -/
def Core.allRetired (c : Core) (q : Ctx) : Bool :=
  match q with
  | .k => c.kWait.isNone
  | .l => c.tl.flight.isEmpty
  | .s => c.ts.flight.isEmpty
  | .c => c.vec.flight.isEmpty && (c.mat.flight.all fun f => f.att) && c.cposts.isEmpty
  | .f => false

/-- Marks that the executing context has issued a word in this cycle (R81, R138), which has retired where none of its words is in flight (R430). -/
def State.mark (s : State) : State :=
  let s := s.modHere fun c =>
    { c with lastRetire := if c.allRetired s.cur.2 then s.ccount else c.lastRetire, wake := c.wake && decide (s.cur.2 ≠ .k) }
  { s with issued := true }

/-- The word has issued and control goes on to the next word. -/
def State.advance (s : State) : State :=
  (s.modSeq fun q => q.after s.cur.2 s.ccount).mark

/-- The word has issued and transfers control to `x`: the target issues two cycles later (R84). -/
def State.transfer (s : State) (x : Word) : State :=
  (s.modSeq fun q => { q with loops := loopExit x q.loops, pc := x, nextIssue := s.ccount + 2 }).mark

/-- Blocks the executing sequencer until cycle `c`. -/
def State.blockTill (s : State) (c : Nat) : State := s.modSeq fun q => { q with nextIssue := Nat.max q.nextIssue c }

/-! ## Release and acquire (R260, R261) -/

/-- Both covers. -/
def Cover.join (a b : Cover) : Cover :=
  { stores := a.stores ++ b.stores.filter (fun x => !a.stores.contains x), till := Nat.max a.till b.till }

/-- The cycle from which every slice write presented so far reads: six cycles after its presentation (R174). -/
def State.slicesTill (s : State) : Nat := s.cores.foldl (fun m x => x.2.recent.foldl (fun m w => Nat.max m (w.cyc + 6)) m) 0

/-- What a release of the executing context covers now: what it has acquired, K's stores and atomics so far, and every slice write
presented so far (R174, R261; log 38). F performs its stores at their issue (R432). -/
def State.covering (s : State) : Cover :=
  let own : Cover := { stores := if s.cur.2 = .k then [(s.cur.1, s.here.storeSeq)] else [], till := s.slicesTill }
  s.seq.cover.join own

/-- Whether a write whose bytes read from `d`, if it is presented, is readable by cycle `t`. -/
def doneBy (d : Option Nat) (t : Nat) : Bool := match d with
  | none => false
  | some d => decide (d ≤ t)

/-- Whether K's stores and atomics up to number `k` are readable by cycle `t` (R174, R273). -/
def Core.writtenBy (c : Core) (k t : Nat) : Bool :=
  (c.fwd.all fun x => decide (k < x.seq) || doneBy x.doneAt t) && c.amos.all fun x => decide (k < x.seq)

/-- The place of a request among the stores and atomics of its core. -/
def reqSeq : Store ⊕ AmoReq → Nat
  | .inl t => t.seq
  | .inr r => r.seq

/-- The place of a request of a cut unit among the stores and atomics of its core. -/
def Orphan.seq (o : Orphan) : Nat := reqSeq o.req

/-- The cycle from which the bytes of a request of a cut unit read, once it is performed. -/
def Orphan.doneAt (o : Orphan) : Option Nat := match o.req with
  | .inl t => t.doneAt
  | .inr _ => none

/-- Whether the requests of cut units of a core up to number `k` are readable by cycle `t` (R343). -/
def State.orphansBy (s : State) (n : CoreId) (k t : Nat) : Bool :=
  s.orphans.all fun o => decide (o.core ≠ n) || decide (k < o.seq) || doneBy o.doneAt t

/-- Whether every write of a cover is performed and readable by cycle `t` (R261). -/
def State.coverBy (s : State) (c : Cover) (t : Nat) : Bool :=
  decide (c.till ≤ t) && c.stores.all fun x => (s.core x.1).writtenBy x.2 t && s.orphansBy x.1 x.2 t

/-- Whether every write of a cover is performed and readable (R261). -/
def State.covered (s : State) (c : Cover) : Bool := s.coverBy c s.ccount

/-- The executing sequencer acquires what a release covers; the accesses of its words in flight come before those of later ones
(R254). -/
def State.acquire (s : State) (c : Cover) : State := s.modSeq fun q => { q with cover := q.cover.join c, acqId := s.here.nextId }

/-- Whether a target is host memory. -/
def Target.isHost : Target → Bool
  | .host _ => true
  | _ => false
/-- Whether a target is another device's memory. -/
def Target.isRemote : Target → Bool
  | .remote _ _ => true
  | _ => false
/-- Whether a target is reached over a link. -/
def Target.isFar (t : Target) : Bool := t.isHost || t.isRemote

/-- Whether K's stores to host memory that a release covers are performed: a release that covers one is not ready before (R405). -/
def State.hostDone (s : State) (c : Cover) : Bool :=
  c.stores.all fun x => (s.core x.1).fwd.all fun e => decide (x.2 < e.seq) || !e.tgt.isHost || doneBy e.doneAt s.ccount

/-- Whether the executing context may release now (R405). -/
def State.mayRelease (s : State) : Bool := decide (s.cur.2 ≠ .k) || s.hostDone s.covering

/-- Whether K's stores and atomics of a core are all performed and readable (R135, R227). -/
def State.storesDone (s : State) (n : CoreId) : Bool := (s.core n).writtenBy (s.core n).storeSeq s.ccount

/-! ## Queues (R84 to R90) -/

/-- Whether a push may issue: a free entry, reserved ones taken, and space popped in this cycle not yet free (R84, R85). -/
def Queue.canPush {α : Type} (q : Queue α) (cap now : Nat) : Bool :=
  decide (q.entries.length + (if now < q.freeAt then q.freed else 0) < cap)

/-- The oldest entry, if it is visible (R85). -/
def Queue.front {α : Type} (q : Queue α) (now : Nat) : Option (α × Cover) :=
  match q.entries with
  | [] => none
  | e :: _ => match e.val with
    | some v => if e.vis ≤ now then some (v, e.cov) else none
    | none => none

/-- The queue without its oldest entry; the space is free from the next cycle. -/
def Queue.pop {α : Type} (q : Queue α) (now : Nat) : Queue α :=
  { entries := q.entries.tail, pops := q.pops + 1,
    freed := if q.freeAt = now + 1 then q.freed + 1 else 1, freeAt := now + 1 }

/-- The queue with an entry visible from the next cycle. -/
def Queue.push {α : Type} (q : Queue α) (v : α) (cov : Cover) (now : Nat) : Queue α :=
  { q with entries := q.entries ++ [{ val := some v, vis := now + 1, cov := cov }] }

/-- The queue with a reserved entry. -/
def Queue.reserve {α : Type} (q : Queue α) : Queue α :=
  { q with entries := q.entries ++ [{ val := none, vis := 0, cov := Cover.none }] }

/-- The oldest reserved entry filled, visible from the next cycle (R85). -/
def fillFirst {α : Type} (v : α) (cov : Cover) (now : Nat) : List (Entry α) → List (Entry α)
  | [] => []
  | e :: es => match e.val with
    | none => { val := some v, vis := now + 1, cov := cov } :: es
    | some _ => e :: fillFirst v cov now es

/-- Fills the oldest reserved entry. -/
def Queue.fill {α : Type} (q : Queue α) (v : α) (cov : Cover) (now : Nat) : Queue α :=
  { q with entries := fillFirst v cov now q.entries }

/-- The newest reserved entry given back (R90). -/
def Queue.unreserve {α : Type} (q : Queue α) : Queue α :=
  let r := q.entries.reverse
  { q with entries := ((r.takeWhile (fun e => e.val.isSome)) ++ (r.dropWhile (fun e => e.val.isSome)).tail).reverse }

/-- A popped entry put back at the head (R90). Where a producer has taken its freed place meanwhile, the queue holds one entry more than
its depth until the next pop: the manual does not say what happens then (DESIGN CHOICE, log 44). -/
def Queue.unpop {α : Type} (q : Queue α) (v : α) (now : Nat) : Queue α :=
  { q with entries := { val := some v, vis := now, cov := Cover.none } :: q.entries, pops := q.pops - 1 }

/-- Data queue `i`. -/
def Core.dq (c : Core) (i : Nat) : Queue Word := Tab.get Queue.empty c.q i
/-- Data queue `i` replaced. -/
def Core.setDq (c : Core) (i : Nat) (x : Queue Word) : Core := { c with q := Tab.put c.q i x }
/-- Operand queue `i`. -/
def Core.iqOf (c : Core) (i : Nat) : Queue Vec := Tab.get Queue.empty c.iq i
/-- Operand queue `i` replaced. -/
def Core.setIq (c : Core) (i : Nat) (x : Queue Vec) : Core := { c with iq := Tab.put c.iq i x }
/-- Result queue `i`. -/
def Core.oqOf (c : Core) (i : Nat) : Queue Vec := Tab.get Queue.empty c.oq i
/-- Result queue `i` replaced. -/
def Core.setOq (c : Core) (i : Nat) (x : Queue Vec) : Core := { c with oq := Tab.put c.oq i x }
/-- Token queue of code `i` (R88). -/
def Core.tkOf (c : Core) (i : Nat) : Queue Unit := Tab.get Queue.empty c.tk i
/-- Token queue of code `i` replaced. -/
def Core.setTk (c : Core) (i : Nat) (x : Queue Unit) : Core := { c with tk := Tab.put c.tk i x }

/-- The token codes a mask selects for waiting: producer i, consumer the owner (R89). -/
def waitCodes (me : Nat) (m : BitVec 4) : List Nat := ((List.range 4).filter fun i => m.getLsbD i).map fun i => 4 * i + me
/-- The token codes a mask selects for posting: producer the owner, consumer i (R89). -/
def postCodes (me : Nat) (m : BitVec 4) : List Nat := ((List.range 4).filter fun i => m.getLsbD i).map fun i => 4 * me + i

/-- Whether every selected queue holds a visible token (R89). -/
def Core.tokensVisible (c : Core) (codes : List Nat) (now : Nat) : Bool := codes.all fun q => ((c.tkOf q).front now).isSome
/-- Whether every selected queue can take a reservation (R88, R89). -/
def Core.tokensFree (c : Core) (codes : List Nat) (now : Nat) : Bool := codes.all fun q => (c.tkOf q).canPush 15 now
/-- Pops one token of every selected queue. -/
def Core.popTokens (c : Core) (codes : List Nat) (now : Nat) : Core := codes.foldl (fun c q => c.setTk q ((c.tkOf q).pop now)) c
/-- The covers of the tokens to pop. -/
def Core.tokenCover (c : Core) (codes : List Nat) (now : Nat) : Cover :=
  codes.foldl (fun a q => match (c.tkOf q).front now with | some x => a.join x.2 | none => a) Cover.none
/-- Reserves one token in every selected queue. -/
def Core.reserveTokens (c : Core) (codes : List Nat) : Core := codes.foldl (fun c q => c.setTk q (c.tkOf q).reserve) c
/-- Makes one reserved token of every selected queue visible. -/
def Core.fillTokens (c : Core) (codes : List Nat) (cov : Cover) (now : Nat) : Core :=
  codes.foldl (fun c q => c.setTk q ((c.tkOf q).fill () cov now)) c
/-- Gives back one reservation of every selected queue (R90). -/
def Core.unreserveTokens (c : Core) (codes : List Nat) : Core := codes.foldl (fun c q => c.setTk q (c.tkOf q).unreserve) c
/-- Returns one popped token to every selected queue (R90). -/
def Core.unpopTokens (c : Core) (codes : List Nat) (now : Nat) : Core := codes.foldl (fun c q => c.setTk q ((c.tkOf q).unpop () now)) c

/-! ## Ring registers of a core (R181) -/

/-- Ring register `i`. -/
def Core.ring (c : Core) (i : Nat) : Ring := Tab.get Ring.reset c.rings i
/-- Ring register `i` replaced. -/
def Core.setRing (c : Core) (i : Nat) (x : Ring) : Core := { c with rings := Tab.put c.rings i x }

/-- Die `d`. -/
def State.die (s : State) (d : Nat) : Die := Tab.get Die.reset s.dies d
/-- Die `d` changed. -/
def State.modDie (s : State) (d : Nat) (g : Die → Die) : State := { s with dies := Tab.put s.dies d (g (s.die d)) }
/-- The die of a core (R2). -/
def dieOf (n : CoreId) : Nat := n.toNat / 64
/-- All cores. -/
def allCores : List CoreId := (List.range 256).map (BitVec.ofNat 8)
/-- The cores that hold a listed state; the others are at reset. -/
def State.listed (s : State) : List CoreId := s.cores.map fun x => BitVec.ofNat 8 x.1

/-- Takes the next free value (R18; log 2). -/
def State.bump (s : State) : State := { s with free := s.free + 1 }

/-! ## Events to firmware (R431, R433) -/

/-- The MSI-X vector of an event (R431). -/
def eventVector (code : Nat) (core : CoreId) : Nat :=
  if code = 1 ∨ code = 2 then 1 + dieOf core else if code = 3 ∨ code = 4 then 5 else 0

/-- The core whose F an event goes to (R430, R431). -/
def eventCore (code : Nat) (core : CoreId) : CoreId :=
  if code = 1 then core else if code = 2 then BitVec.ofNat 8 (64 * dieOf core) else 0

/-- Appends an event to F's list and the event queue and raises its MSI-X vector (R431, R433). -/
def State.event (s : State) (code : Nat) (core : CoreId) (task : Nat) : State :=
  let w : Word := BitVec.ofNat 64 (code * 2 ^ 48 + core.toNat * 2 ^ 40 + task % 2 ^ 24)
  let s := s.modCore (eventCore code core) fun c =>
    if c.events.length < 16 then { c with events := c.events ++ [w] } else { c with evDrops := Nat.min 255 (c.evDrops + 1) }
  let d := s.dev
  let e : Word × Word := (BitVec.ofNat 64 (code * 2 ^ 56 + core.toNat * 2 ^ 48 + task % 2 ^ 24), BitVec.ofNat 64 s.ccount)
  let d := if (d.evProd + 2 ^ 32 - d.evCons) % 2 ^ 32 < 1024
    then { d with evq := Tab.put d.evq (d.evProd % 1024) e, evProd := (d.evProd + 1) % 2 ^ 32 }
    else { d with evDrops := Nat.min (2 ^ 32 - 1) (d.evDrops + 1) }
  { s with dev := { d with msix := d.msix ++ [eventVector code core] } }

/-- Writes an entry of the fault-address queue (R341): KIND and the block's physical address. -/
def State.faultAddr (s : State) (kind : Nat) (pa : Nat) : State :=
  let d := s.dev
  if (d.faqProd + 2 ^ 32 - d.faqCons) % 2 ^ 32 < 1024 then
    let e : Word × Word := (BitVec.ofNat 64 (kind * 2 ^ 60 + pa / 64 * 64), BitVec.ofNat 64 s.ccount)
    { s with dev := { d with faq := Tab.put d.faq (d.faqProd % 1024) e, faqProd := (d.faqProd + 1) % 2 ^ 32 } }
  else
    ({ s with dev := { d with faqDrops := Nat.min (2 ^ 32 - 1) (d.faqDrops + 1) } }).event 3 0 0

/-! ## Fatal faults (R300, R301, R307, R433) -/

/-- Cores that run units of one launch. -/
def State.unitCores (s : State) (die slot : Nat) : List CoreId :=
  s.listed.filter fun n => match (s.core n).unit with
    | some u => u.die.toNat == die && u.slot == slot
    | none => false

/-- Whether a fault queue has no free entry (R301). -/
def Die.fqFull (d : Die) : Bool := decide (1024 ≤ (d.fqProd + 2 ^ 32 - d.fqCons) % 2 ^ 32)

/-- Whether an M-word's opcode is a matrix step (R197). -/
def isStep (op : Nat) : Bool := op == 1 || op == 2 || op == 3 || op == 8 || op == 9

/-- The column slots, for `accrd` the 16-column groups, of an M-word (R202, R217). -/
def MFlight.slotsOf (f : MFlight) : Nat := if isStep f.op then bitsOf f.n 0 10 else if f.op = 6 then bitsOf f.n 0 10 / 16 else 0

/-- The column slots entered in `e` cycles (R197). -/
def MFlight.entered (f : MFlight) (e : Nat) : Nat :=
  if f.op = 6 then (e + 15) / 16
  else if f.op = 9 then (e + 1) / 2
  else if f.fmt = 0 then 2 * e
  else if f.fmt = 3 then (e + 3) / 4
  else if f.fmt = 4 then (e + 15) / 16
  else e

/-- The next column slot or group of an M-word in cycle `now` (R202, R385). -/
def MFlight.cursorAt (f : MFlight) (now : Nat) : Nat :=
  match f.cut with
  | some k => k
  | none => Nat.min f.slotsOf (f.from_ + f.entered (now - f.issued))

/-- A step or `accrd` in execution stops at its next column slot or group; one past its last goes on to its retirement, unless it stands
behind a word that stops (`hard`), and a failing word stops before the column that fails (R202, R385). -/
def MFlight.freeze (f : MFlight) (now : Nat) (hard : Bool) : MFlight :=
  match f.cut with
  | some k => { f with cut := some (Nat.min k (Nat.max f.from_ (f.from_ + f.entered (now - f.issued)))), failed := none }
  | none => if hard || decide (f.cursorAt now < f.slotsOf) then { f with cut := some (f.cursorAt now) } else f

/-- The words of the matrix engine stop in issue order; a later word of the same issuer or accumulator stops with an earlier one. -/
def freezeAll (now : Nat) : List MFlight → List MFlight → List MFlight
  | _, [] => []
  | before, f :: rest =>
    let g := f.freeze now (before.any fun x => x.cut.isSome && (x.att == f.att || x.acc == f.acc))
    g :: freezeAll now (before ++ [g]) rest

/-- The steps of a core stop at their next column slots. -/
def Core.freezeSteps (c : Core) (now : Nat) : Core := { c with mat := { c.mat with flight := freezeAll now [] c.mat.flight } }

/-- A cut begins (R385): nothing issues from now on, and the issued words run to their boundaries. -/
def Core.beginCut (c : Core) (now : Nat) : Core :=
  if c.cutting = .running then { c.freezeSteps now with cutting := .stopping, wake := true } else c

/-- A debug halt begins (R389): as a cut, with the state left in place. -/
def Core.beginHalt (c : Core) (now : Nat) : Core :=
  if c.debugHalt = .running then { c.freezeSteps now with debugHalt := .stopping, wake := true } else c

/-- A barrier after a change: an episode whose arrivals and forfeits make up the units completes, and the next one opens with the
forfeits of the units that have ended (R308). -/
def Barrier.close (b : Barrier) (units ended : Nat) : Barrier :=
  if units ≤ b.arrivals + b.forfeits then { episode := b.episode + 1, arrivals := 0, forfeits := ended, cov := Cover.none, past := b.past ++ [(b.forfeits, b.cov)] } else b

/-- No arrivals yet. -/
def Barrier.start : Barrier := { episode := 0, arrivals := 0, forfeits := 0, cov := Cover.none, past := [] }

/-- A unit of a quire has ended: it forfeits every barrier in whose open episode it has not arrived, and every later episode (R308). -/
def Launch.forfeit (l : Launch) (u : UnitInfo) : Launch :=
  let ended := l.forfeited + 1
  { l with
    forfeited := ended
    bars := (List.range 4).foldl (fun t i =>
      let b := Tab.get Barrier.start t i
      let b := if Tab.get 0 u.arrived i = b.episode + 1 then b else { b with forfeits := b.forfeits + 1 }
      Tab.put t i (b.close l.total ended)) l.bars }

/-- The launch in a slot of a die. -/
def State.launchAt (s : State) (die slot : Nat) : Option Launch := Tab.get none ((s.die die).launches.map fun x => (x.1, some x.2)) slot

/-- A launch changed. -/
def State.modLaunch (s : State) (die slot : Nat) (g : Launch → Launch) : State :=
  s.modDie die fun d => { d with launches := d.launches.map fun x => if x.1 = slot then (x.1, g x.2) else x }

/-- Whether a launch is a quire (R287). -/
def Launch.quire (l : Launch) : Bool := (l.words.headD 0).getLsbD 3

/-- Starts the cut of a fatal fault: of the faulting core alone in a quire (R307), else of every unit of the task (R300), whose parking then
is no NODE stop any more (R384). -/
def State.startFatalCut (s : State) (n : CoreId) (code : Nat) (val : Word) : State :=
  match (s.core n).unit with
  | none => s
  | some u =>
    let die := u.die.toNat
    let quire := match s.launchAt die u.slot with | some l => l.quire | none => false
    let s := s.modLaunch die u.slot fun l =>
      let l := { l with stopWalk := true, fatalPark := true, node := false, park := if l.fatalPark then l.park else some (code, val, n) }
      if quire then l.forfeit u else l
    if quire then (s.modCore n fun c => { c.beginCut s.ccount with frozen := true })
    else (s.unitCores die u.slot).foldl (fun s m => s.modCore m fun c => c.beginCut s.ccount) s

/-- A fault passed to the dispatcher (R300): with the die's fault queue full the unit stays halted on its core, and a
fault-queue-full event is raised (R301). -/
def State.fatal (s : State) (n : CoreId) (code : Nat) (val : Word) : State :=
  let s := s.modCore n fun c => { c with fatal := some (code, val), k := { c.k with halting := false } }
  let d := dieOf n
  if (s.die d).fqFull then (s.modDie d fun x => { x with held := x.held ++ [n] }).event 2 n (match (s.core n).unit with | some u => u.task.toNat | none => 0)
  else s.startFatalCut n code val

/-- F starts an activation at the entry point of the verified image copy (R433). -/
def Core.startF (c : Core) (at_ : Nat) : Core :=
  { c with fActive := true, f := { c.f with pc := Config.fEntry, entry := Config.fEntry, nextIssue := at_, halting := false, halted := false } }

/-- A fatal trap of F (R433): its activation ends; with its FWFP bit set rung 6 starts, else the bit is set, FIRMWARE_FAULT
goes to F of core 0 and F starts again at its entry point. -/
def State.fatalF (s : State) (n : CoreId) (code : Nat) : State :=
  let s := s.modCore n fun c => { c with fActive := false, supF := { c.supF with hdepth := 0 } }
  if s.dev.fwfp.getLsbD n.toNat then { s with agenda := .deviceReset :: s.agenda }
  else
    let s := { s with dev := { s.dev with fwfp := putBits s.dev.fwfp n.toNat 1 1 } }
    let s := s.event 5 n code
    s.modCore n fun c => c.startF (s.ccount + 1)

/-! ## Taking a trap (R377 to R381) and returning from one (R382) -/

/-- The macro fields of tcause or tsw: MWORD and MIDX above INMAC (R378, R379). -/
def macBits (m : Option MacroPos) : Nat :=
  match m with
  | none => 0
  | some p => p.word % 32 * 2 ^ 7 + p.idx % 64 * 2 + 1

/-- tcause (R379). -/
def causeWord (off : Nat) (m : Option MacroPos) (late : Bool) (seqNo code : Nat) : Word :=
  BitVec.ofNat 64 (off % 2 ^ 40 * 2 ^ 24 + macBits m * 2 ^ 11 + (if late then 2 ^ 10 else 0) + seqNo * 2 ^ 8 + code)

/-- The offset of the next word of a sequencer from its section's entry point, in words (R379). -/
def Seq.off (q : Seq) : Nat := (q.pc - q.entry).toNat / 4

/-- Takes a trap at a word boundary of K, or of F with `ctx` = .f (R380): the loop stack goes to a frame, tsw, tepc, tcause
and tval are written, hdepth rises, an open group is suspended, and the pc goes to the handler, whose first word issues two
cycles later. With no handler or at depth 4 the trap is fatal (R377). A BREAKPOINT or WATCHPOINT with DBGH causes a debug
halt instead, with tcause and tval written (R389). A waiting halt of K is withdrawn (R381). -/
def State.takeTrap (s : State) (n : CoreId) (ctx : Ctx) (code : Nat) (val : Word) (cause : Word) (stops : Nat) : State :=
  let c := s.core n
  let u := c.sup ctx
  let q := c.seq ctx
  if ctx ≠ .f ∧ (code = 0x11 ∨ code = 0x12) ∧ c.snapctl.getLsbD 3 then
    s.modCore n fun c => (c.setSup ctx { u with tcause := cause, tval := val }).beginHalt s.ccount
  else if u.tvec = 0 ∨ 4 ≤ u.hdepth then
    if ctx = .f then s.fatalF n code
    else s.fatal n code val
  else
    let tsw : Word := BitVec.ofNat 64 (stops % 8 * 2 ^ 20 + macBits q.mpos * 2 ^ 8 + q.loops.length)
    let u' : Sup := { u with frames := q.loops :: u.frames, tsw := tsw, tepc := q.pc, tcause := cause, tval := val, hdepth := u.hdepth + 1 }
    let q' : Seq := { q with loops := [], mpos := none, pc := u.tvec, nextIssue := s.ccount + 2, halting := false }
    s.modCore n fun c =>
      let c := (c.setSup ctx u').setSeq ctx q'
      if ctx = .f then c else { c with group := { c.group with susp := c.group.isOpen } }

/-- A word of the executing context raises a cause precisely (R17, R381): K and F take the trap at once; L, C and S stop,
holding their word, until K takes it. -/
def State.raise (s : State) (code : Nat) (val : Word) : State :=
  let q := s.seq
  let s := { s with issued := true }
  match s.cur.2 with
  | .k => s.takeTrap s.cur.1 .k code val (causeWord q.off q.mpos false 0 code) 0
  | .f => s.takeTrap s.cur.1 .f code val (causeWord q.off q.mpos false 0 code) 0
  | ctx => s.modCore s.cur.1 fun c => c.setSeq ctx
      { q with stop := some { code := code, val := val, off := q.off, mac := q.mpos, late := false, held := none } }

/-- The executing word, as tval holds it (R49). -/
def State.wordVal (s : State) : Word := s.word.setWidth 64

/-- ILLEGAL_INSTR with the word (R49). -/
def State.illegal (s : State) : State := s.raise 0x01 s.wordVal
/-- ILLEGAL_OPERAND with the word (R49). -/
def State.badOperand (s : State) : State := s.raise 0x02 s.wordVal

/-- Whether R376 allocates a cause code. -/
def causeAllocated (c : Nat) : Bool := decide (1 ≤ c) && decide (c ≤ 0x13)

/-- The reserved bits of tsw: 63:26, 23, 7:3 (R378). -/
def tswReserved : Word := 0xFFFFFFFFFC8000F8

/-- Restarts a sequencer named in STOP (R382): its held word issues again, or is discarded with SKIP. -/
def Seq.restart (q : Seq) (skip : Bool) (ctx : Ctx) (now : Nat) : Seq :=
  match q.stop with
  | none => q
  | some r =>
    let q := { q with stop := none, taken := false }
    if skip && r.held.isNone then { (q.after ctx now) with nextIssue := now + 1 } else q

/-- The return of R382 once the checks of R137 have passed. The frame's outermost LDEPTH entries are restored. `dropHeld` discards a held
word in flight under R90. With FATAL the trap is passed on, and the word at `tepc` is the one a resume of the unit goes on with
(log 27). -/
def State.trapReturn (s : State) (dropHeld : State → CoreId → Ctx → State) : State :=
  let n := s.cur.1
  let ctx := s.cur.2
  let c := s.core n
  let u := c.sup ctx
  let depth := bitsOf u.tsw 0 3
  let saved := u.frames.headD []
  let frame := saved.drop (saved.length - depth)
  let u' : Sup := { u with hdepth := u.hdepth - 1, frames := u.frames.tail }
  let mp : Option MacroPos := if u.tsw.getLsbD 8 then
    some { idx := bitsOf u.tsw 9 6, p := none, word := bitsOf u.tsw 15 5, last := false } else none
  let s := s.modCore n fun c => (c.setSup ctx u').setSeq ctx { (c.seq ctx) with loops := frame, pc := u.tepc, mpos := mp, nextIssue := s.ccount + 2 }
  if u.tsw.getLsbD 24 then
    if ctx = .f then s.fatalF n (bitsOf u.tcause 0 8) else s.fatal n (bitsOf u.tcause 0 8) u.tval
  else
    let skip := u.tsw.getLsbD 25
    let who := bitsOf u.tcause 8 2
    let restart1 := fun (s : State) (i : Nat) =>
      let x := ctxOf i
      if u.tsw.getLsbD (19 + i) ∧ ctx ≠ .f then
        let q := (s.core n).seq x
        let sk := skip && decide (who = i)
        let s := if sk && (match q.stop with | some r => r.held.isSome | none => false) then dropHeld s n x else s
        s.modCore n fun c => c.setSeq x ((c.seq x).restart sk x s.ccount)
      else s
    let s := restart1 (restart1 (restart1 s 1) 2) 3
    s.modCore n fun c =>
      if ctx = .f then c
      else { c with group := { c.group with susp := c.group.susp && decide (u'.hdepth ≠ 0) } }

end Sys2Proof.Machine
end

