-- ==== Sys2Proof/Machine/Mem.lean ====
section
/-! DEFINITION. Memory: slices with their exposed latency (R170 to R178), device memory with its codes and poison (R328,
R340), translation (R332 to R337), the action monad of words with many accesses, and K's view through its forwarding table
and group buffer (R176, R264). -/
namespace Sys2Proof.Machine

/-- How an action ends early: it must wait (nothing happens, but a request to a link that it makes), raises a cause with nothing changed, or
raises a cause with the changes made so far standing. -/
inductive Stop where
  | wait (ask : Option FarReq)
  | fault (code : Nat) (val : Word)
  | late (code : Nat) (val : Word)
  deriving DecidableEq, Repr

/-- An action over State that may end early. -/
abbrev Act (α : Type) := ExceptT Stop (StateM State) α

/-- Ends an action: not ready. -/
def Act.wait {α : Type} : Act α := throw (.wait none)
/-- Ends an action with a cause. -/
def Act.fault {α : Type} (code : Nat) (val : Word) : Act α := throw (.fault code val)
/-- Requires a condition, else waits. -/
def Act.need (b : Bool) : Act Unit := if b then pure () else throw (.wait none)
/-- Requires a condition, else raises a cause. -/
def Act.check (b : Bool) (code : Nat) (val : Word) : Act Unit := if b then pure () else throw (.fault code val)
/-- From here on, a fault leaves the changes made (the state is kept). -/
def Act.keeping {α : Type} (m : Act α) : Act α := fun s =>
  match m s with
  | (.error (.fault c v), s') => (.error (.late c v), s')
  | r => r

/-- A number as a word. -/
def w64 (n : Nat) : Word := BitVec.ofNat 64 n

/-! ## Slices -/

/-- The bytes of one slice (R5). -/
def sliceSize : Nat := 0x200000

/-- The rank of an agent among the writers of one cycle (R174): other cores 0, S 1, L 2, K 3, the collective engine 4, the plane engine 5,
the symbol manager 6, the condensation engine 7, the attention sequencer 8, the matrix engine 9. -/
def rankOf : Ctx → Nat
  | .s => 1
  | .l => 2
  | .k => 3
  | .f => 3
  | .c => 9

/-- Inserts a write in the order of presentation, the later of equal ranks last (R174). -/
def insertWrite (w : SliceWrite) : List SliceWrite → List SliceWrite
  | [] => [w]
  | x :: xs => if w.cyc < x.cyc ∨ (w.cyc = x.cyc ∧ w.rank < x.rank) then w :: x :: xs else x :: insertWrite w xs

/-- Moves the writes readable in cycle `now` into the slice (R174: w + 6 ≤ c). -/
def settle (now : Nat) : Tab Byte → List SliceWrite → Tab Byte × List SliceWrite
  | t, [] => (t, [])
  | t, w :: ws => if w.cyc + 6 ≤ now then settle now (Tab.set 0 t w.off w.val) ws else (t, w :: ws)

/-- The value of a slice byte read in cycle `now`: the latest write readable then, else the slice (R174). -/
def sliceByte (c : Core) (now off : Nat) : Byte :=
  c.recent.foldl (fun v w => if w.off = off ∧ w.cyc + 6 ≤ now then w.val else v) (Tab.get 0 c.slice off)

/-- Whether a doubleword of a slice has a pending bit in cycle `now` (R177). -/
def slicePending (c : Core) (now word8 : Nat) : Bool :=
  c.recent.any fun w => w.off / 8 == word8 && decide (w.cyc ≤ now) && decide (now < w.cyc + 6)

/-- Presents the write of bytes at an offset in this cycle. -/
def Core.writeSlice (c : Core) (now rank off : Nat) (bytes : List Byte) : Core :=
  let r := settle now c.slice c.recent
  let ws := (bytes.zipIdx).map fun (b, i) => ({ cyc := now, rank := rank, off := off + i, val := b } : SliceWrite)
  { c with slice := r.1, recent := ws.foldl (fun l w => insertWrite w l) r.2 }

/-- The base of a job's slice window (R5, R285). -/
def State.swin (s : State) (job : BitVec 8) : Nat := bitsOf (Tab.get JobRec.none s.jobs job.toNat).j0 29 28 * 2 ^ 29

/-- The virtual address of a slice byte of a core in its unit's window. -/
def State.sliceVa (s : State) (n : CoreId) (off : Nat) : Nat :=
  (match (s.core n).unit with | some u => s.swin u.job | none => 0) + n.toNat * sliceSize + off

/-- Who writes (R390): core and agent code. -/
structure Writer where
  core : CoreId
  agent : Nat
  rank : Nat
  deriving DecidableEq, Repr

/-- SLICE-scope watchpoints of a home log their first match with a write of `len` bytes (R390). -/
def State.noteWatch (s : State) (w : Writer) (n : CoreId) (off len : Nat) : State :=
  let c := s.core n
  let va := s.sliceVa n off
  let hit := (List.range 4).find? fun i =>
    let p := Tab.get 0 c.wpt i
    p.getLsbD 2 && p.getLsbD 0 && decide (va < bitsOf p 3 54 * 8 + 8) && decide (bitsOf p 3 54 * 8 < va + len)
  let watch := match c.watch, hit with
    | none, some i =>
      some (w64 (s.dev.dev.toNat * 2 ^ 55 + w.core.toNat * 2 ^ 47 + w.agent * 2 ^ 44 + s.ccount % 2 ^ 20 * 2 ^ 24), w64 (bitsOf (Tab.get 0 c.wpt i) 3 54 * 8))
    | x, _ => x
  s.setCore n { c with watch := watch }

/-- Presents a write at a home (R174, R390). -/
def State.writeSlice (s : State) (w : Writer) (n : CoreId) (off : Nat) (bytes : List Byte) : State :=
  (s.noteWatch w n off bytes.length).modCore n fun c => c.writeSlice s.ccount (if w.core = n then w.rank else 0) off bytes

/-! ## Device memory -/

/-- The bytes of device memory (R328). -/
def devSize : Nat := 0x9000000000

/-- The site of a physical address (R328). -/
def siteOf (pa : Nat) : Nat := pa / 1024 % 12

/-- Whether the blocks of a range lie in a site in self-refresh (R343). -/
def State.siteHeld (s : State) (pa len : Nat) : Bool :=
  (List.range ((pa + len + 1023) / 1024 - pa / 1024)).any fun i => (Tab.get Site.reset s.sites (siteOf (pa / 1024 * 1024 + i * 1024))).refresh

/-- The 64-byte blocks a range touches. -/
def blocksOf (pa len : Nat) : List Nat := (List.range ((pa + len + 63) / 64 - pa / 64)).map (· + pa / 64)

/-- What a byte of device memory that nothing has written reads as: zero, as rung 6 leaves it (R428; log 4). -/
def Memory.unlisted : Byte := 0

/-- The canonical form of memory: addresses strictly rising, no entry equal to what an unlisted address reads as. -/
def Memory.wf (m : List Host.Cell) : Bool := Tab.wf Memory.unlisted m

/-- The bytes of device memory as they stand. -/
def State.devBytes (s : State) (pa len : Nat) : List Byte := Tab.range Memory.unlisted s.mem pa len

/-- Writes bytes of device memory. -/
def State.setDev (s : State) (pa : Nat) (bytes : List Byte) : State := { s with mem := Tab.setRange Memory.unlisted s.mem pa bytes }

/-- The code check of one block that is read (R340): nothing, a corrected error (with a REPEAT entry for a block already on
its site's list of 16), an uncorrectable error that poisons the block and writes UNCORR, or a poisoned block. -/
def State.eccBlock (s : State) (b : Nat) : State × Nat :=
  if Tab.get false s.poison b then (s, 0x10) else
  match Tab.get 0 s.latent b with
  | 0 => (s, 0)
  | 1 =>
    let st := siteOf (b * 64)
    let l := Tab.get [] s.corrected st
    let s' := if l.contains b then s.faultAddr 2 (b * 64) else s
    ({ s' with corrected := Tab.put s'.corrected st ((b :: l.filter (· ≠ b)).take 16) }, 1)
  | _ => (({ s with poison := Tab.set false s.poison b true, latent := Tab.set 0 s.latent b 0 } : State).faultAddr 1 (b * 64), 0x0F)

/-- Reads device memory (R329, R340): the bytes, or the cause of the first failing block; the flag tells a corrected error. -/
def readDev (pa len : Nat) (val : Word) : Act (List Byte × Bool) := do
  Act.need (! (← get).siteHeld pa len)
  let ecc ← (blocksOf pa len).foldlM (init := false) fun e b => do
    let r := (← get).eccBlock b
    set r.1
    if r.2 = 0 then pure e else if r.2 = 1 then pure true else Act.fault r.2 val
  pure ((← get).devBytes pa len, ecc)

/-- Writes one part of a block of device memory (R340): a whole block clears poison; a partial write to a poisoned block, or
one whose merge meets an uncorrectable error, is discarded with a DROPPED entry; a merge leaves a block without error. The flag tells a
discarded write. -/
def State.writeBlock (s : State) (pa : Nat) (bytes : List Byte) : State × Bool :=
  let b := pa / 64
  if bytes.length = 64 then
    (({ s with poison := Tab.set false s.poison b false, latent := Tab.set 0 s.latent b 0 } : State).setDev pa bytes, false)
  else
    let r := s.eccBlock b
    if r.2 = 0 ∨ r.2 = 1 then (({ r.1 with latent := Tab.set 0 r.1.latent b 0 } : State).setDev pa bytes, false) else (r.1.faultAddr 3 (b * 64), true)

/-- Writes device memory block by block; the flag tells whether a part was discarded. -/
def State.writeDevN (s : State) (pa : Nat) (bytes : List Byte) : Nat → State × Bool
  | 0 => (s, false)
  | k + 1 =>
    if bytes = [] then (s, false) else
    let room := 64 - pa % 64
    let r := s.writeBlock pa (bytes.take room)
    let r' := r.1.writeDevN (pa + room) (bytes.drop room) k
    (r'.1, r.2 || r'.2)

/-- Writes device memory. -/
def State.writeDev (s : State) (pa : Nat) (bytes : List Byte) : State × Bool := s.writeDevN pa bytes (bytes.length / 64 + 2)

/-! ## Translation (R332 to R338) -/

/-- The kinds of access that R336 tells apart. -/
inductive Access where
  | read | write | fetch | atomic
  deriving DecidableEq, Repr

/-- The index of a level (R334). -/
def levelIndex (lv va : Nat) : Nat := if lv = 0 then va / 2 ^ 16 % 32 else va / 2 ^ (21 + 9 * (lv - 1)) % 512

/-- The page size of a leaf of a level (R334). -/
def levelSize (lv : Nat) : Nat := if lv = 0 then 2 ^ 16 else 2 ^ (21 + 9 * (lv - 1))

/-- Whether a leaf entry is well formed (R335, R336 check 2). -/
def leafOk (lv : Nat) (e : Word) : Bool :=
  decide (lv ≤ 2) && decide (bitsOf e 62 2 ≠ 3) && (decide (bitsOf e 62 2 = 2) || decide (bitsOf e 53 9 = 0)) &&
  decide (bitsOf e 8 8 = 0) && decide (bitsOf e 16 37 * 2 ^ 16 % levelSize lv = 0)

/-- Whether a non-leaf entry of a level is well formed (R336 check 2). -/
def nonLeafOk (lv : Nat) (e : Word) : Bool :=
  decide (1 ≤ lv) && decide (bitsOf e 53 11 = 0) && decide (bitsOf e 8 45 * 256 % (if lv = 1 then 256 else 4096) = 0)

/-- Whether an entry is valid with no reserved bit set (R336 check 2). -/
def entryOk (e : Word) : Bool := e.getLsbD 0 && !e.getLsbD 4 && decide (bitsOf e 6 2 = 0)

/-- Whether an entry of a level leads to a table of the next (R334, R336). -/
def leadsOn (lv : Nat) (e : Word) : Bool := entryOk e && !e.getLsbD 1 && nonLeafOk lv e

/-- The entries a walk reads from the table of a level on (R334): level, physical address, entry. -/
def State.walkPath (s : State) (va : Nat) : Nat → Nat → List (Nat × Nat × Word)
  | 0, t => [(0, t + 8 * levelIndex 0 va, w64 (ofBytes (s.devBytes (t + 8 * levelIndex 0 va) 8)))]
  | lv + 1, t =>
    let pa := t + 8 * levelIndex (lv + 1) va
    let e : Word := w64 (ofBytes (s.devBytes pa 8))
    (lv + 1, pa, e) :: (if leadsOn (lv + 1) e then s.walkPath va lv (bitsOf e 8 45 * 256) else [])

/-- The page size and the leaf at the end of a walk, or none where R336 check 2 fails. -/
def walkLeaf (p : List (Nat × Nat × Word)) : Option (Nat × Word) :=
  match p.getLast? with
  | some (lv, _, e) => if entryOk e && e.getLsbD 1 && leafOk lv e then some (levelSize lv, e) else none
  | none => none

/-- The cached entries that cover an address of a job, in the cache of a core and of its die, or of the die numbered from 256 (R338). -/
def State.cachedAt (s : State) (at_ : Nat) (job : BitVec 8) (va : Nat) : List CachedLeaf :=
  s.tcache.filter fun c => c.job == job && decide (c.base ≤ va) && decide (va < c.base + c.size) &&
    (c.place == at_ || (decide (at_ < 256) && c.place == 256 + at_ / 64))

/-- The walk that an access makes with no leaf cached: from the table of the lowest cached entry, else from the job's root (R333, R338). -/
def State.walkOf (s : State) (at_ : Nat) (job : BitVec 8) (va : Nat) : List (Nat × Nat × Word) :=
  let low := (s.cachedAt at_ job va).foldl (fun a c => match a with
    | some x => if c.lv < x.lv then some c else a
    | none => some c) (none : Option CachedLeaf)
  match low with
  | some c => s.walkPath va (c.lv - 1) (bitsOf c.entry 8 45 * 256)
  | none => s.walkPath va 4 (bitsOf (Tab.get 0 s.xlate job.toNat) 12 45 * 4096)

/-- The leaf a job's access uses: a cached one, else the walk's (R338). -/
def State.leafOf (s : State) (at_ : Nat) (job : BitVec 8) (va : Nat) : Option (Nat × Word) :=
  if !(Tab.get 0 s.xlate job.toNat).getLsbD 0 then none else
  match (s.cachedAt at_ job va).find? fun c => c.entry.getLsbD 1 with
  | some c => some (c.size, c.entry)
  | none => walkLeaf (s.walkOf at_ job va)

/-- Whether a device is reachable (R407). -/
def State.reachable (s : State) (d : Nat) : Bool := (Tab.get 0 s.dev.route d).getLsbD 63 && decide (d ≠ s.dev.dev.toNat)

/-- The target of an access of a job through the translation caches of a core or die, or its cause (R332, R336, R337, R407). -/
def State.translate (s : State) (at_ : Nat) (job : BitVec 8) (va : Nat) (acc : Access) : Except Nat Target :=
  if 2 ^ 57 ≤ va then .error 0x05
  else
    let win := s.swin job
    if win ≤ va ∧ va < win + 2 ^ 29 ∧ (Tab.get JobRec.none s.jobs job.toNat).made then
      if acc = .fetch then .error 0x06
      else .ok (.slice (BitVec.ofNat 8 ((va - win) / sliceSize)) ((va - win) % sliceSize))
    else match s.leafOf at_ job va with
    | none => .error 0x05
    | some (size, e) =>
      let pa := bitsOf e 16 37 * 2 ^ 16 + va % size
      let tgt := bitsOf e 62 2
      if tgt = 0 ∧ devSize ≤ pa then .error 0x05
      else if (acc = .write ∨ acc = .atomic) ∧ !e.getLsbD 2 then .error 0x06
      else if acc = .fetch ∧ !e.getLsbD 3 then .error 0x06
      else if acc = .atomic ∧ (e.getLsbD 5 ∨ tgt = 1) then .error 0x06
      else if tgt = 2 ∧ !s.reachable (bitsOf e 53 9) then .error 0x06
      else if tgt = 0 then (if s.dev.badPages.contains (pa / 2 ^ 16) then .error 0x10 else .ok (.dev pa))
      else if tgt = 1 then .ok (.host pa)
      else .ok (.remote (bitsOf e 53 9) pa)

/-- Where BAR0 lies for F (R432). -/
def barBase : Nat := 0x1000000000000

/-- The target of an access of F, by physical address (R432). -/
def physTarget (va : Nat) : Except Nat Target :=
  if va < devSize then .ok (.dev va)
  else if barBase ≤ va ∧ va < barBase + 0x800000 then .ok (.bar (va - barBase))
  else .error 0x05

/-- The job of a core's unit. -/
def State.jobOf (s : State) (n : CoreId) : BitVec 8 := match (s.core n).unit with | some u => u.job | none => 0

/-- The target of an access of a context of a core: F addresses memory physically, the others through their job. -/
def State.targetOf (s : State) (n : CoreId) (q : Ctx) (va : Nat) (acc : Access) : Except Nat Target :=
  if q = .f then physTarget va else s.translate n.toNat (s.jobOf n) va acc

/-! ## Locked words (R273) -/

/-- The first and the last 8-byte word of a range at a home: slice words above 2^48, words of device memory below. -/
def Target.words (t : Target) (len : Nat) : Option (Nat × Nat) :=
  match t with
  | .slice n off => some (2 ^ 48 + n.toNat * 2 ^ 18 + off / 8, 2 ^ 48 + n.toNat * 2 ^ 18 + (off + len - 1) / 8)
  | .dev pa => some (pa / 8, (pa + len - 1) / 8)
  | _ => none

/-- Whether two ranges at one home share an 8-byte word. -/
def Target.meets (t : Target) (len : Nat) (u : Target) : Bool :=
  match t.words len, u.words 1 with
  | some a, some b => decide (a.1 ≤ b.1) && decide (b.1 ≤ a.2)
  | _, _ => false

/-- Whether two ranges of one memory have common bytes. -/
def Target.overlaps (t : Target) (len : Nat) (u : Target) (len' : Nat) : Bool :=
  match t, u with
  | .slice n x, .slice m y => decide (n = m) && decide (x < y + len') && decide (y < x + len)
  | .dev x, .dev y | .host x, .host y => decide (x < y + len') && decide (y < x + len)
  | .remote d x, .remote e y => decide (d = e) && decide (x < y + len') && decide (y < x + len)
  | _, _ => false

/-- The cycles from the presentation of a write to its bytes being readable (R174). -/
def Target.delay : Target → Nat
  | .slice _ _ => 6
  | _ => 0

/-- Whether an atomic locks a word of a range in cycle `now`: from the cycle after its presentation (R273). -/
def AmoReq.locks (r : AmoReq) (now : Nat) (t : Target) (len : Nat) : Bool :=
  (match r.pres with | some p => decide (p.1 < now) | none => false) && t.meets len r.tgt

/-- Whether an atomic that has been applied in cycle `now` locks a word of a range (R273). -/
def Store.locks (e : Store) (now : Nat) (t : Target) (len : Nat) : Bool :=
  e.bytes.isEmpty && decide (e.doneAt = some (now + e.tgt.delay)) && t.meets len e.tgt

/-- Whether a home holds a word of a range locked in this cycle: for an atomic, from the cycle after its presentation to that of its
application (R273); a block of device memory that a group has written, until its slice lines read too (R267). -/
def State.locked (s : State) (t : Target) (len : Nat) : Bool :=
  (s.amoq.any fun r => decide (r.pres.1 < s.ccount) && t.meets len r.tgt) ||
  (s.sealed.any fun x => decide (s.ccount < x.2) && t.overlaps len (.dev (64 * x.1)) 64) ||
  (s.orphans.any fun o => match o.req with | .inl e => e.locks s.ccount t len | .inr r => r.locks s.ccount t len) ||
  s.cores.any fun x => (x.2.amos.any fun r => r.locks s.ccount t len) || x.2.fwd.any fun e => e.locks s.ccount t len

/-- The code words of a range of a slice, as `latent` numbers them. -/
def sliceWords (n : CoreId) (off len : Nat) : List Nat := (List.range ((off + len + 7) / 8 - off / 8)).map fun i => 2 ^ 48 + n.toNat * 2 ^ 18 + off / 8 + i

/-- The code check of a read of a slice (R173): ECC_UNCORRECTABLE, or whether an error was corrected. -/
def sliceCheck (n : CoreId) (off len va : Nat) : Act Bool := do
  let s ← get
  let ks := sliceWords n off len
  Act.check (ks.all fun k => decide (Tab.get 0 s.latent k < 2)) 0x0F (w64 va)
  pure (ks.any fun k => Tab.get 0 s.latent k == 1)

/-- The stale-read check of a read by an agent of core `n` (R177): the address of the first word with a pending bit, where the core's check
is on. -/
def staleCheck (n : CoreId) (t : Target) (va len : Nat) : Act Unit := do
  let s ← get
  match t with
  | .slice m off =>
    match (if (s.core n).snapctl.getLsbD 1 then (List.range ((off + len + 7) / 8 - off / 8)).find? fun i => slicePending (s.core m) s.ccount (off / 8 + i) else none) with
    | some i => Act.fault 0x08 (w64 (va / 8 * 8 + 8 * i))
    | none => pure ()
  | _ => pure ()

/-- The egress port of requests to a device (R402, R407). -/
def State.portOf (s : State) (d : Nat) : Nat := bitsOf (Tab.get 0 s.dev.route d) 0 4

/-- A request to another device leaves through the port of its route entry (R407). -/
def State.send (s : State) (d : Nat) (m : LinkMsg) : State := { s with dev := { s.dev with linkOut := s.dev.linkOut ++ [(s.portOf d, m)] } }

/-- Whether a request to a target can leave: the Zuore ports carry traffic (R402). -/
def State.linked (s : State) (t : Target) : Bool := match t with | .remote _ _ => s.dev.zen | _ => true

/-- Whether a request to a link is one of an agent's own (core, agent, word). -/
def FarReq.ofAgent (r : FarReq) (a : CoreId × Nat × Nat) : Bool := r.core == a.1 && r.agent == a.2.1 && r.id == a.2.2

/-- Whether a request is a write that is not yet performed: to another device, or to host memory with its read-back under way (R405). -/
def FarReq.isWrite (r : FarReq) : Bool := match r.kind with
  | .write _ => true
  | .back => true
  | _ => false

/-- Whether an agent has a write over a link that is not yet performed. -/
def State.farWrites (s : State) (a : CoreId × Nat × Nat) : Bool := s.far.any fun r => r.ofAgent a && r.isWrite

/-- The requests without the reads of an agent, which its word has no more use for. -/
def State.dropReads (s : State) (a : CoreId × Nat × Nat) : State := { s with far := s.far.filter fun r => !(r.ofAgent a && decide (r.kind = .read)) }

/-- The requests without the reads and K's loads of a core whose unit has ended: their data come to no word. -/
def State.dropLoads (s : State) (n : CoreId) : State :=
  { s with far := s.far.filter fun r => !(decide (r.core = n) && decide (r.agent < 5) && (decide (r.kind = .read) || decide (r.kind = .load))) }

/-- A request of the agent whose accesses are made (R405, R407). -/
def State.farReq (s : State) (kind : FarKind) (t : Target) (len va : Nat) : FarReq :=
  let q := (s.core s.reader.1).k
  { core := s.reader.1, agent := s.reader.2.1, id := s.reader.2.2, kind := kind, tgt := t, len := len, va := va, since := s.ccount, src := (q.off, q.mpos),
    old := false, retried := false, got := none, failed := false }

/-- The message of a request to another device (R407). -/
def FarReq.send (r : FarReq) (s : State) : State :=
  match r.tgt, r.kind with
  | .remote d pa, .load | .remote d pa, .read => s.send d (.load d pa r.len)
  | .remote d pa, .write b | .remote d pa, .store _ b => s.send d (.store d pa b)
  | .remote d _, .amo _ m => s.send d m
  | _, _ => s

/-- A request leaves and is under way. -/
def State.putFar (s : State) (r : FarReq) : State := let t := r.send s; { t with far := t.far ++ [r] }

/-- What a word that waits leaves: the request that it has made, if any. -/
def State.ask (s : State) : Option FarReq → State
  | none => s
  | some r => s.putFar r

/-- A read of host memory or of another device (R405, R407, R408): the agent sends its request, waits for the data, and takes them; a failed
read raises TRANSLATION for host memory, ECC_UNCORRECTABLE for another device. -/
def farRead (t : Target) (len va : Nat) : Act (List Byte) := do
  let s ← get
  match s.far.find? fun r => r.ofAgent s.reader && decide (r.kind = .read) && decide (r.tgt = t) && decide (r.len = len) with
  | none => do
    Act.need (s.linked t)
    throw (.wait (some (s.farReq .read t len va)))
  | some r =>
    Act.need (r.failed || r.got.isSome)
    set { s with far := s.far.erase r }
    Act.check (!r.failed) (if t.isHost then 0x05 else 0x0F) (w64 va)
    pure ((List.range len).map fun i => ((r.got.getD [])[i]?).getD 0)

/-- Reads bytes of a target in this cycle: of a slice under R174, of device memory under R329, over a link once its data have come. A locked
word is waited for (R273). The flags tell a corrected error (R173) and a read of a frozen slice (R178). -/
def readTarget (t : Target) (len : Nat) (va : Nat) : Act (List Byte × Bool × Bool) := do
  Act.need (!(← get).locked t len)
  match t with
  | .dev pa => let r ← readDev pa len (w64 va); pure (r.1, r.2, false)
  | .slice n off =>
    let ecc ← sliceCheck n off len va
    let s ← get
    let c := s.core n
    pure ((List.range len).map fun i => sliceByte c s.ccount (off + i), ecc, c.frozen)
  | .host _ | .remote _ _ => pure (← farRead t len va, false, false)
  | .bar _ => pure (List.replicate len 0, false, false)

/-- Writes bytes of a target in this cycle; true where a part was discarded (R340). Host memory receives them in order, followed by a read
that the device sends itself (R405), and Zuore carries those to other devices. -/
def State.writeTarget (s : State) (w : Writer) (t : Target) (va : Nat) (bytes : List Byte) : State × Bool :=
  match t with
  | .dev pa => s.writeDev pa bytes
  | .slice n off => if (s.core n).frozen then (s, true) else (s.writeSlice w n off bytes, false)
  | .host pa => (({ s with dev := { s.dev with hostOut := s.dev.hostOut ++ [(pa, bytes)] } } : State).putFar (s.farReq .back t bytes.length va), false)
  | .remote _ _ => (s.putFar (s.farReq (.write bytes) t bytes.length va), false)
  | .bar _ => (s, false)

/-- The reads of the walk that an access makes, each an ordinary read of device memory whose failure is the access's (R336, R338). -/
def walkReads (at_ : Nat) (job : BitVec 8) (va : Nat) : Act Unit := do
  let s ← get
  let win := s.swin job
  let inSlice := decide (win ≤ va) && decide (va < win + 2 ^ 29) && (Tab.get JobRec.none s.jobs job.toNat).made
  if decide (2 ^ 57 ≤ va) || inSlice || !(Tab.get 0 s.xlate job.toNat).getLsbD 0 || ((s.cachedAt at_ job va).any fun c => c.entry.getLsbD 1) then pure ()
  else
    for x in s.walkOf at_ job va do
      let _ ← readTarget (.dev x.2.1) 8 va

/-- The target of a job's access through the caches of a core or die, or the fault with the address (R336, R338). -/
def resolveAt (at_ : Nat) (job : BitVec 8) (va : Nat) (acc : Access) : Act Target := do
  walkReads at_ job va
  match (← get).translate at_ job va acc with
  | .ok t => pure t
  | .error c => Act.fault c (w64 va)

/-- The target of an access of a context, or the fault with the address (R126, R336). -/
def resolve (n : CoreId) (q : Ctx) (va : Nat) (acc : Access) : Act Target := do
  if q = .f then
    match physTarget va with
    | .ok t => pure t
    | .error c => Act.fault c (w64 va)
  else resolveAt n.toNat ((← get).jobOf n) va acc

/-- The 64-byte pieces of a range of virtual addresses. -/
def pieces (va len : Nat) : Nat → List (Nat × Nat)
  | 0 => []
  | k + 1 => if len = 0 then [] else
    let room := Nat.min len (64 - va % 64)
    (va, room) :: pieces (va + room) (len - room) k

/-- An engine's read of virtual memory for a core's job, piece by piece, with the stale-read check of the core that pushed its command
(R177). -/
def readVirt (n : CoreId) (q : Ctx) (va len : Nat) : Act (List Byte) := do
  let parts ← (pieces va len (len / 64 + 2)).foldlM (init := []) fun acc p => do
    let t ← resolve n q p.1 .read
    staleCheck n t p.1 p.2
    let r ← readTarget t p.2 p.1
    pure (r.1 :: acc)
  pure parts.reverse.flatten

/-- An engine's write of virtual memory for a core's job, piece by piece, waiting for locked words (R273); a discarded part raises POISON
(R340), a write to a frozen slice QUIRE_PEER_FAULT (R178). -/
def writeVirt (n : CoreId) (q : Ctx) (w : Writer) (va : Nat) (bytes : List Byte) : Act Unit := do
  let _ ← (pieces va bytes.length (bytes.length / 64 + 2)).foldlM (init := bytes) fun rest p => do
    let t ← resolve n q p.1 .write
    let s ← get
    match t with
    | .dev pa => Act.need (!s.siteHeld pa p.2)
    | .slice m _ => Act.check (!(s.core m).frozen) 0x0E (w64 p.1)
    | _ => pure ()
    Act.need (!s.locked t p.2 && s.linked t)
    let r := s.writeTarget w t p.1 (rest.take p.2)
    set r.1
    Act.check (!r.2) 0x10 (w64 p.1)
    pure (rest.drop p.2)
  pure ()

/-- An engine's read of a doubleword. -/
def readWord (n : CoreId) (q : Ctx) (va : Nat) : Act Word := do pure (w64 (ofBytes (← readVirt n q va 8)))

/-- The doublewords of a record in memory. -/
def readWords (n : CoreId) (q : Ctx) (va k : Nat) : Act (List Word) := do
  let b ← readVirt n q va (8 * k)
  pure ((List.range k).map fun i => w64 (ofBytes ((b.drop (8 * i)).take 8)))

/-- The collective engine of a core as a writer (R174, R390). -/
def engine (n : CoreId) : Writer := { core := n, agent := 5, rank := 4 }
/-- The plane engine as a writer (R174, R390). -/
def planeWriter (n : CoreId) : Writer := { core := n, agent := 5, rank := 5 }
/-- The symbol manager as a writer (R174, R390). -/
def symWriter (n : CoreId) : Writer := { core := n, agent := 5, rank := 6 }
/-- The condensation engine as a writer (R174, R390). -/
def condWriter (n : CoreId) : Writer := { core := n, agent := 5, rank := 7 }

/-- The attention sequencer as a writer (R174, R390). -/
def attWriter (n : CoreId) : Writer := { core := n, agent := 4, rank := 8 }
/-- The matrix engine as a writer (R174, R390). -/
def matWriter (n : CoreId) : Writer := { core := n, agent := 2, rank := 9 }

/-! ## Actions as words -/

/-- The state that an access which faults leaves: its changes are undone; what the memory controllers and firmware queues recorded stands, the
poison of the blocks found uncorrectable with it (R340). -/
def restore (s s' : State) : State :=
  let found := s'.poison.filter fun x => Tab.get false s'.poison x.1 && !Tab.get false s.poison x.1
  let t := { s with
    poison := found.foldl (fun t x => Tab.set false t x.1 true) s.poison, latent := found.foldl (fun t x => Tab.set 0 t x.1 0) s.latent
    corrected := s'.corrected, dev := { s'.dev with hostOut := s.dev.hostOut, linkOut := s.dev.linkOut, rungs := s.dev.rungs, badPages := s.dev.badPages } }
  if (s'.core 0).events = (s.core 0).events ∧ (s'.core 0).evDrops = (s.core 0).evDrops then t
  else t.modCore 0 fun c => { c with events := (s'.core 0).events, evDrops := (s'.core 0).evDrops }

/-- The state that an access which faults leaves, where its agent has no more use for what it has read over links. -/
def undo (s s' : State) : State := restore (s.dropReads s.reader) s'

/-- Runs the action of a word of the executing context: it ends as the action left it, waits, or raises. -/
def runWord (s : State) (m : Act State) : Out :=
  match m.run s with
  | (.ok t, _) => .next t
  | (.error (.wait r), _) => stall (s.ask r)
  | (.error (.fault c v), s') => .next ((restore s s').raise c v)
  | (.error (.late c v), s') => .next (s'.raise c v)

/-- A word with source registers whose action ends in the next word. -/
def actWord (s : State) (srcs : List (BitVec 5)) (m : Act Unit) : Out :=
  if s.readyFor srcs then runWord s (do m; pure (← get).advance) else stall s

/-! ## K's view (R176, R264 to R266) -/

/-- The byte the newest forwarding entry holds, with the entry's number (R176). -/
def fwdByte (l : List Store) (a : Nat) : Option (Nat × Byte) :=
  l.foldl (fun r t => if t.va ≤ a ∧ a < t.va + t.bytes.length then (t.bytes[a - t.va]?).map fun b => (t.seq, b) else r) none

/-- The byte a group line holds, with the line's number (R266). -/
def groupByte (l : List Line) (a : Nat) : Option (Nat × Byte) :=
  match l.find? fun x => x.blk == a / 64 * 64 with
  | some x => if x.mask.getLsbD (a % 64) then some (x.seq, BitVec.ofNat 8 (bitsOf x.data (8 * (a % 64)) 8)) else none
  | none => none

/-- A captured write, under K's store number `k`, put into its line (R266); a new line needs one of the 1,024 (R266). -/
def capture (k : Nat) (l : List Line) (a : Nat) (b : Byte) : Option (List Line) :=
  let blk := a / 64 * 64
  let upd := fun (x : Line) => { x with seq := k, mask := putBits x.mask (a % 64) 1 1, data := putBits x.data (8 * (a % 64)) 8 b.toNat }
  if l.any fun x => x.blk == blk then some (l.map fun x => if x.blk = blk then upd x else x)
  else if l.length < 1024 then some (l ++ [upd { blk := blk, seq := k, mask := 0, data := 0 }]) else none

/-- A captured write of several bytes. -/
def captureAll (k : Nat) (l : List Line) (a : Nat) : List Byte → Option (List Line)
  | [] => some l
  | b :: bs => match capture k l a b with
    | some l' => captureAll k l' (a + 1) bs
    | none => none

/-- The forwarding entries that K's loads still read: writes not yet readable at their homes (R176). -/
def Core.liveFwd (c : Core) (now : Nat) : List Store := c.fwd.filter fun x => !doneBy x.doneAt now

/-- Whether K's stores are captured (R264, R270). -/
def Core.capturing (c : Core) : Bool := c.group.isOpen && !c.group.susp

/-- Whether K's forwarding table has a free entry (R176). -/
def Core.fwdFree (c : Core) (now : Nat) : Bool := decide (((c.liveFwd now).filter fun x => !x.bytes.isEmpty).length < 16)

/-- The CORE-scope watchpoint an access meets: the watched address (R390). -/
def Core.watchHit (c : Core) (va len : Nat) (write : Bool) : Option Word :=
  ((List.range 4).find? fun i =>
    let p := Tab.get 0 c.wpt i
    !p.getLsbD 2 && (if write then p.getLsbD 0 else p.getLsbD 1) && decide (va < bitsOf p 3 54 * 8 + 8) && decide (bitsOf p 3 54 * 8 < va + len)).map
    fun i => w64 (bitsOf (Tab.get 0 c.wpt i) 3 54 * 8)

/-- Checks the CORE-scope watchpoints (R390). -/
def watchCheck (n : CoreId) (va len : Nat) (write : Bool) : Act Unit := do
  match ((← get).core n).watchHit va len write with
  | some a => Act.fault 0x11 a
  | none => pure ()

/-- Whether an atomic of K that is pending, or whose write is not yet readable, is to a word of a range. -/
def Core.ownAmo (c : Core) (now : Nat) (t : Target) (len : Nat) : Bool :=
  (c.amos.any fun r => t.meets len r.tgt) || (c.liveFwd now).any fun e => e.bytes.isEmpty && t.meets len e.tgt

/-- A byte of K's view (R176, R264): the forwarding entry's, else the group buffer's, else memory's. A byte that a captured write replaced
after the entry's store waits until the entry is released, so that K reads its own latest write (R176; log 26). -/
def viewByte (f g : Option (Nat × Byte)) (m : Byte) : Act Byte :=
  match f, g with
  | some x, some y => if y.1 < x.1 then pure x.2 else Act.wait
  | some x, none => pure x.2
  | none, some y => pure y.2
  | none, none => pure m

/-- Whether K's writes over links are performed, so that a read over a link follows them (R176, R405). -/
def State.farClear (s : State) (n : CoreId) (t : Target) : Bool :=
  !t.isFar || ((s.core n).fwd.all fun e => !e.tgt.isFar || doneBy e.doneAt s.ccount)

/-- K's read of bytes: each from the newest forwarding entry, then the group buffer, then memory (R176, R264), with the
stale-read check (R177); a word that an own atomic is still to change is waited for (R176; log 26). -/
def kRead (n : CoreId) (t : Target) (va len : Nat) : Act (List Byte) := do
  let s ← get
  let c := s.core n
  let fw := c.liveFwd s.ccount
  Act.need (!c.ownAmo s.ccount t len && s.farClear n t)
  match t with
  | .slice m off =>
    let stale := (List.range ((off + len + 7) / 8 - off / 8)).find? fun i =>
      c.snapctl.getLsbD 1 && slicePending (s.core m) s.ccount (off / 8 + i) &&
      !((List.range 8).all fun j => (fwdByte fw (va / 8 * 8 + 8 * i + j)).isSome ||
        decide (va / 8 * 8 + 8 * i + j < va) || decide (va + len ≤ va / 8 * 8 + 8 * i + j))
    match stale with
    | some i => Act.fault 0x08 (w64 (va / 8 * 8 + 8 * i))
    | none => pure ()
  | _ => pure ()
  let r ← readTarget t len va
  modify fun s => s.modCore n fun c => { c with xstK := c.xstK ||| (if r.2.1 then 8 else 0) ||| (if r.2.2 then 4 else 0) }
  ((List.range len).zip r.1).mapM fun x => viewByte (fwdByte fw (va + x.1)) (groupByte c.group.lines (va + x.1)) x.2

/-- Whether a write of K with number `k`, issued after K had acquired `cov`, may be presented to a target now: K's earlier writes and all it
had acquired are readable no later than it is (R254 to R256). -/
def State.inOrder (s : State) (n : CoreId) (k : Nat) (cov : Cover) (t : Target) : Bool :=
  (s.core n).writtenBy (k - 1) (s.ccount + t.delay) && s.coverBy cov (s.ccount + t.delay)

/-- K's store of bytes whose address has passed (R126, R176, R264): captured by the open group, or presented in the own slice
at issue, once K's earlier writes are (R174, R254; log 38), or left to WRITE_PERFORMED. -/
def kWrite (n : CoreId) (t : Target) (va : Nat) (bytes : List Byte) : Act Unit := do
  let s ← get
  let c := s.core n
  Act.need (c.fwdFree s.ccount)
  let live := c.liveFwd s.ccount
  let st : Store := { seq := c.storeSeq + 1, va := va, tgt := t, bytes := bytes, cover := c.k.cover, doneAt := none, src := (c.k.off, c.k.mpos), sent := false }
  if c.capturing then
    match t with
    | .remote _ _ => Act.fault 0x06 (w64 va)
    | _ => pure ()
    match captureAll st.seq c.group.lines va bytes with
    | none => Act.fault 0x0A (w64 va)
    | some l => set (s.setCore n { c with group := { c.group with lines := l }, storeSeq := c.storeSeq + 1, fwd := live })
  else
    match t with
    | .slice m off =>
      if m = n ∧ !c.frozen then
        Act.need (s.inOrder n st.seq st.cover t && !s.locked t bytes.length)
        set ((s.setCore n { c with storeSeq := c.storeSeq + 1, fwd := live ++ [{ st with doneAt := some (s.ccount + 6) }] }).writeSlice
          { core := n, agent := 0, rank := 3 } n off bytes)
      else set (s.setCore n { c with storeSeq := c.storeSeq + 1, fwd := live ++ [st] })
    | _ => set (s.setCore n { c with storeSeq := c.storeSeq + 1, fwd := live ++ [st] })

end Sys2Proof.Machine
end

