-- ==== Sys2Proof/Machine/Common.lean ====
section
/-! DEFINITION. The common words (R91 to R100), in K, L, C, S and F. -/
namespace Sys2Proof.Machine

/-- Ends a register-writing word: the result is readable `lat` cycles after the issue. -/
def State.finish (s : State) (d : BitVec 5) (v : Word) (lat : Nat) : State := (s.setReg d v lat).advance

/-- A word that reads registers and writes one (R84, R125). -/
def regWord (s : State) (srcs : List (BitVec 5)) (d : BitVec 5) (v : Word) (lat : Nat) : Out :=
  if s.readyFor srcs then .next (s.finish d v lat) else stall s

/-- The 13-bit immediate, sign-extended (R51). -/
def imm13 (i : BitVec 13) : Word := i.signExtend 64

/-- Whether a transfer of control may not issue here: inside a macro (R109), or at the end of an active loop entry (R94). -/
def State.noTransfer (s : State) : Bool := s.seq.mpos.isSome || s.seq.loops.any fun e => e.stop == s.seq.pc

/-- A word that may transfer control: ILLEGAL_INSTR where none may issue (R94, R109). -/
def ctlWord (s : State) (srcs : List (BitVec 5)) (body : State) : Out :=
  if s.readyFor srcs then (if s.noTransfer then .next s.illegal else .next body) else stall s

/-- A conditional branch by a word offset (R93). -/
def branch (s : State) (a b : BitVec 5) (i : BitVec 13) (taken : Bool) : Out :=
  ctlWord s [a, b] (if taken then s.transfer (s.seq.pc + 4 * imm13 i) else s.advance)

/-- Whether F executes (R53: ops 0x1B to 0x20 are ILLEGAL_INSTR in F). -/
def State.isF (s : State) : Bool := decide (s.cur.2 = .f)

/-- The data queues a sequencer may push and pop (R53). -/
def pushQueues : Ctx → List Nat
  | .k => [0, 1, 2, 3] | .l => [4, 7] | .c => [5] | .s => [6] | .f => []
/-- The data queues a sequencer may pop (R53). -/
def popQueues : Ctx → List Nat
  | .k => [5, 6, 7] | .l => [0, 1] | .c => [2, 4] | .s => [3] | .f => []

/-- An empty flight record of L or S. -/
def TFlight.blank (s : State) : TFlight :=
  { id := 0, issued := s.ccount, kind := .post, op := 0, word := s.word, pc := s.seq.pc, mac := s.seq.mpos, td := 0, a := 0, l := 0, target := 0, mode := 0,
    ord := false, keep := false, rpos := none, taken := [], claimed := none, needsClaim := false, pvec := none, post := 0, popTok := 0,
    code := 0, val := 0, fcsr := s.seq.fcsr, cover := s.seq.cover, cursor := 0, flags := 0, xst := 0, failed := none, parked := none,
    after := s.seq.acqId, ahead := [], got := [], seq0 := s.seq }

/-- The copy side of L or S; F's place in this list is the attention sequencer's (R369). -/
def Core.tu (c : Core) (q : Ctx) : TUnit := if q = .s then c.ts else if q = .f then c.ta else c.tl
/-- The copy side of L, S or the attention sequencer replaced. -/
def Core.setTu (c : Core) (q : Ctx) (u : TUnit) : Core := if q = .s then { c with ts := u } else if q = .f then { c with ta := u } else { c with tl := u }

/-- Counts a command pushed to the queue of a QID of R386. -/
def Core.pushed (c : Core) (qid : Nat) : Core := { c with pushes := Tab.set 0 c.pushes qid (Tab.get 0 c.pushes qid + 1) }

/-- Takes back `k` pushes of commands that a rung clears, so that the pops stay as they are (R428). -/
def Core.unpushed (c : Core) (qid k : Nat) : Core := { c with pushes := Tab.set 0 c.pushes qid (Tab.get 0 c.pushes qid - k) }

/-- Appends a word to a flight list of a core and numbers it; a transfer counts as a command of its copy engine (R386). -/
def State.flyOn (s : State) (n : CoreId) (q : Ctx) (f : TFlight) : State :=
  s.modCore n fun c =>
    let u := c.tu q
    let c := { (c.setTu q { u with flight := u.flight ++ [{ f with id := c.nextId + 1 }] }) with nextId := c.nextId + 1 }
    if f.kind = .move ∨ f.kind = .rows then (if q = .l then c.pushed 0x40 else if q = .s then c.pushed 0x41 else c) else c

/-- Appends a word to the flight list of the executing L or S. -/
def State.fly (s : State) (f : TFlight) : State := s.flyOn s.cur.1 s.cur.2 f

/-- Whether earlier words of the executing sequencer have not retired, so that a push retires behind them (R34, R84). -/
def State.behind (s : State) : Bool :=
  match s.cur.2 with
  | .l => !s.here.tl.flight.isEmpty
  | .s => !s.here.ts.flight.isEmpty
  | .c => !s.here.vec.flight.isEmpty || s.here.mat.flight.any fun f => !f.att
  | _ => false

/-- Pushes to data queue (code 16 + i) or token queue (code i): at once, or behind the words still in flight (R34, R84, R85). -/
def State.pushCode (s : State) (code : Nat) (v : Word) : State :=
  let res := fun (c : Core) => if 16 ≤ code then c.setDq (code - 16) (c.dq (code - 16)).reserve else c.reserveTokens [code]
  if s.behind then
    let s := s.modHere res
    match s.cur.2 with
    | .c => s.modHere fun c => { c with cposts := c.cposts ++ [{ word := s.word, pc := s.seq.pc, code := code, val := v, afterV := c.vec.issuedN, afterM := c.mat.issuedN }] }
    | _ => s.fly { (TFlight.blank s) with kind := .post, code := code, val := v }
  else
    let cov := s.covering
    s.modHere fun c => if 16 ≤ code then c.setDq (code - 16) ((c.dq (code - 16)).push v cov s.ccount)
      else c.setTk code ((c.tkOf code).push () cov s.ccount)

/-- Notes a pop behind words in flight, so that a met colophon can undo it (R90, R185). -/
def State.notePop (s : State) (code : Nat) (v : Word) : State :=
  if s.behind ∧ (s.cur.2 = .l ∨ s.cur.2 = .s) then s.fly { (TFlight.blank s) with kind := .popped, code := code, val := v } else s

/-- Whether a token code names two distinct sequencers (R53). -/
def tokenCode (t : Nat) : Bool := t ≠ 0 && t ≠ 5 && t ≠ 10 && t ≠ 15

/-- Issues and retires, changing only the program counter (R98). -/
def execNop (s : State) : Out := if s.readyFor [] then .next s.advance else stall s

/-- `add`: the wrapping sum of two registers (R91). -/
def execAdd (d a b : BitVec 5) (s : State) : Out := regWord s [a, b] d (s.reg a + s.reg b) 1

/-- `sub`: the wrapping difference of two registers (R91). -/
def execSub (d a b : BitVec 5) (s : State) : Out := regWord s [a, b] d (s.reg a - s.reg b) 1

/-- `and`: the bitwise AND of two registers (R91). -/
def execAnd (d a b : BitVec 5) (s : State) : Out := regWord s [a, b] d (s.reg a &&& s.reg b) 1

/-- `or`: the bitwise OR of two registers (R91). -/
def execOr (d a b : BitVec 5) (s : State) : Out := regWord s [a, b] d (s.reg a ||| s.reg b) 1

/-- `xor`: the bitwise exclusive-or of two registers (R91). -/
def execXor (d a b : BitVec 5) (s : State) : Out := regWord s [a, b] d (s.reg a ^^^ s.reg b) 1

/-- `shl`: the left shift by the low six bits of two registers (R91). -/
def execShl (d a b : BitVec 5) (s : State) : Out := regWord s [a, b] d (s.reg a <<< bitsOf (s.reg b) 0 6) 1

/-- `shr`: the logical right shift by the low six bits of two registers (R91). -/
def execShr (d a b : BitVec 5) (s : State) : Out := regWord s [a, b] d (s.reg a >>> bitsOf (s.reg b) 0 6) 1

/-- `sra`: the arithmetic right shift by the low six bits of two registers (R91). -/
def execSra (d a b : BitVec 5) (s : State) : Out := regWord s [a, b] d ((s.reg a).sshiftRight (bitsOf (s.reg b) 0 6)) 1

/-- `slt`: 1 if the first is less as signed integers of two registers (R91). -/
def execSlt (d a b : BitVec 5) (s : State) : Out := regWord s [a, b] d (if (s.reg a).slt (s.reg b) then 1 else 0) 1

/-- `sltn`: 1 if the first is less as natural numbers of two registers (R91). -/
def execSltn (d a b : BitVec 5) (s : State) : Out := regWord s [a, b] d (if (s.reg a).ult (s.reg b) then 1 else 0) 1

/-- `addi`: `add` with the sign-extended immediate (R91). -/
def execAddi (d a : BitVec 5) (i : BitVec 13) (s : State) : Out := regWord s [a] d (s.reg a + imm13 i) 1

/-- `andi`: `and` with the sign-extended immediate (R91). -/
def execAndi (d a : BitVec 5) (i : BitVec 13) (s : State) : Out := regWord s [a] d (s.reg a &&& imm13 i) 1

/-- `ori`: `or` with the sign-extended immediate (R91). -/
def execOri (d a : BitVec 5) (i : BitVec 13) (s : State) : Out := regWord s [a] d (s.reg a ||| imm13 i) 1

/-- `xori`: `xor` with the sign-extended immediate (R91). -/
def execXori (d a : BitVec 5) (i : BitVec 13) (s : State) : Out := regWord s [a] d (s.reg a ^^^ imm13 i) 1

/-- `shli`: `shl` by an immediate amount (R91). -/
def execShli (d a : BitVec 5) (h : BitVec 6) (s : State) : Out := regWord s [a] d (s.reg a <<< h.toNat) 1

/-- `shri`: `shr` by an immediate amount (R91). -/
def execShri (d a : BitVec 5) (h : BitVec 6) (s : State) : Out := regWord s [a] d (s.reg a >>> h.toNat) 1

/-- `srai`: `sra` by an immediate amount (R91). -/
def execSrai (d a : BitVec 5) (h : BitVec 6) (s : State) : Out := regWord s [a] d ((s.reg a).sshiftRight h.toNat) 1

/-- `lui`: the immediate times 2^13 (R92). -/
def execLui (d : BitVec 5) (i : BitVec 13) (s : State) : Out := regWord s [] d (i.setWidth 64 <<< 13) 1

/-- `beq` (R93). -/
def execBeq (d a : BitVec 5) (i : BitVec 13) (s : State) : Out := branch s d a i (s.reg d == s.reg a)

/-- `bne` (R93). -/
def execBne (d a : BitVec 5) (i : BitVec 13) (s : State) : Out := branch s d a i (s.reg d != s.reg a)

/-- `blt` (R93). -/
def execBlt (d a : BitVec 5) (i : BitVec 13) (s : State) : Out := branch s d a i ((s.reg d).slt (s.reg a))

/-- `bge` (R93). -/
def execBge (d a : BitVec 5) (i : BitVec 13) (s : State) : Out := branch s d a i (!(s.reg d).slt (s.reg a))

/-- `bltn` (R93). -/
def execBltn (d a : BitVec 5) (i : BitVec 13) (s : State) : Out := branch s d a i ((s.reg d).ult (s.reg a))

/-- `bgen` (R93). -/
def execBgen (d a : BitVec 5) (i : BitVec 13) (s : State) : Out := branch s d a i (!(s.reg d).ult (s.reg a))

/-- `jal`: the link is the next word's address, the target a signed word offset (R93). -/
def execJal (d : BitVec 5) (i : BitVec 18) (s : State) : Out :=
  ctlWord s [] ((s.setReg d (s.seq.pc + 4) 1).transfer (s.seq.pc + 4 * i.signExtend 64))

/-- `jr`: the target is read before the link is written; a misaligned target faults and leaves the link (R93). -/
def execJr (d a : BitVec 5) (s : State) : Out :=
  ctlWord s [a] (let x := s.reg a
    if bitsOf x 0 2 ≠ 0 then s.raise 0x04 x else (s.setReg d (s.seq.pc + 4) 1).transfer x)

/-- `loop`: pushes the body (start, end, count), or skips it for a count of 0 (R94). -/
def execLoop (a : BitVec 5) (n : BitVec 13) (s : State) : Out :=
  if s.isF then (if s.canIssue then .next s.illegal else stall s)
  else ctlWord s [a] (
    let q := s.seq
    let start := q.pc + 4
    let stop := q.pc + 4 * n.setWidth 64
    if n = 0 ∨ 4095 < n.toNat then s.badOperand
    else if q.loops.length = 4 then s.badOperand
    else if (match q.loops with | e :: _ => decide (e.stop.toNat < stop.toNat) | [] => false) then s.badOperand
    else if s.reg a = 0 then (s.modSeq fun q => { q with pc := stop + 4, nextIssue := s.ccount + 1 }).mark
    else (s.modSeq fun q => { q with loops := { start := start, stop := stop, rem := (s.reg a).toNat } :: q.loops, pc := start, nextIssue := s.ccount + 1 }).mark)

/-- `qpush`: pushes a register into a data queue, waiting for a free entry (R95, R53). -/
def execQpush (q a : BitVec 5) (s : State) : Out :=
  if !s.canIssue then stall s
  else if s.isF then .next s.illegal
  else if !(pushQueues s.cur.2).contains q.toNat then .next s.badOperand
  else if s.readyFor [a] && s.mayRelease && (s.here.dq q.toNat).canPush 8 s.ccount then .next (s.pushCode (16 + q.toNat) (s.reg a)).advance
  else stall s

/-- `qpop`: pops the oldest visible entry into a register; a push of that entry was a release, the pop an acquire (R95, R260). -/
def execQpop (d q : BitVec 5) (s : State) : Out :=
  if !s.canIssue then stall s
  else if s.isF then .next s.illegal
  else if !(popQueues s.cur.2).contains q.toNat then .next s.badOperand
  else match (s.here.dq q.toNat).front s.ccount with
    | none => stall s
    | some (v, cov) =>
      let s1 := (s.modHere fun c => c.setDq q.toNat ((c.dq q.toNat).pop s.ccount)).notePop (16 + q.toNat) v
      .next ((s1.acquire cov).finish d v 1)

/-- `tkpost`: posts one token, whatever the masks (R96, R88, R53). -/
def execTkpost (t : BitVec 4) (s : State) : Out :=
  if !s.canIssue then stall s
  else if s.isF then .next s.illegal
  else if !tokenCode t.toNat || t.toNat / 4 ≠ ctxNum s.cur.2 then .next s.badOperand
  else if s.mayRelease && (s.here.tkOf t.toNat).canPush 15 s.ccount then .next (s.pushCode t.toNat 0).advance
  else stall s

/-- `tkwait`: pops one token, an acquire, waiting while the count is 0 (R96, R88, R53). -/
def execTkwait (t : BitVec 4) (s : State) : Out :=
  if !s.canIssue then stall s
  else if s.isF then .next s.illegal
  else if !tokenCode t.toNat || t.toNat % 4 ≠ ctxNum s.cur.2 then .next s.badOperand
  else match (s.here.tkOf t.toNat).front s.ccount with
    | none => stall s
    | some (_, cov) =>
      let s1 := (s.modHere fun c => c.setTk t.toNat ((c.tkOf t.toNat).pop s.ccount)).notePop t.toNat 0
      .next (s1.acquire cov).advance

/-- `tkmask`: sets the wait and post masks; the bit of the sequencer itself is ILLEGAL_OPERAND (R97, R53). -/
def execTkmask (p w : BitVec 4) (s : State) : Out :=
  if !s.canIssue then stall s
  else if s.isF then .next s.illegal
  else if w.getLsbD (ctxNum s.cur.2) || p.getLsbD (ctxNum s.cur.2) then .next s.badOperand
  else .next (s.modSeq fun q => { q with wmask := w, pmask := p }).advance

/-- `halt` (R99, R100, R83): in F it ends the activation; in K it is ILLEGAL_INSTR with a group open, else it waits for its
retirement (UNIT_HALT_RETIRE) at its own address; in L, C and S it waits for SEQUENCER_HALT_RETIRE. -/
def execHalt (s : State) : Out :=
  if !s.canIssue then stall s
  else if s.isF then .next (s.modHere fun c => { c with fActive := false }).mark
  else if s.noTransfer || (decide (s.cur.2 = .k) && s.here.group.isOpen) then .next s.illegal
  else if !s.seq.macroQ.isEmpty then stall s
  else
    let s := if s.cur.2 = .k then s.modHere fun c => { c with unit := c.unit.map fun u => { u with texit := none } } else s
    .next { (s.modSeq fun q => { q with halting := true }) with issued := true }

end Sys2Proof.Machine
end

