-- ==== Sys2Proof/Machine/Float.lean ====
section
/-! DEFINITION. The number formats, rounding and flags of R20 to R36: values are exact, rounding happens once. -/
namespace Sys2Proof.Machine

/-- The floating-point formats of R20 and R23. -/
inductive Fmt where
  | f64 | f32 | f16 | bf16 | t8
  deriving DecidableEq, Repr

/-- The rounding modes of R28. -/
inductive Mode where
  | rne | rtz | rdn | rup | rna
  deriving DecidableEq, Repr

/-- The mode of an fcsr FRM code or a static code (R28); codes 5 to 7 are never held. -/
def modeOf (c : BitVec 3) : Mode :=
  if c = 1 then .rtz else if c = 2 then .rdn else if c = 3 then .rup else if c = 4 then .rna else .rne

/-- The mode of a two-bit rounding field (R30); `frm` is the sequencer's FRM. -/
def mode2 (c : BitVec 2) (frm : BitVec 3) : Mode :=
  if c = 0 then modeOf frm else if c = 1 then .rne else if c = 2 then .rdn else .rup

/-- The width of a format in bits. -/
def Fmt.width : Fmt → Nat
  | .f64 => 64 | .f32 => 32 | .f16 => 16 | .bf16 => 16 | .t8 => 8

/-- The fraction bits fw (R20). -/
def Fmt.fw : Fmt → Nat
  | .f64 => 52 | .f32 => 23 | .f16 => 10 | .bf16 => 7 | .t8 => 4

/-- The exponent bias (R20). -/
def Fmt.bias : Fmt → Nat
  | .f64 => 1023 | .f32 => 127 | .f16 => 15 | .bf16 => 127 | .t8 => 0

/-- emax, the exponent field of infinities and NaNs (R20). -/
def Fmt.emax : Fmt → Nat
  | .f64 => 2047 | .f32 => 255 | .f16 => 31 | .bf16 => 255 | .t8 => 0

/-- The canonical quiet NaN (R20, R24). -/
def Fmt.qnan : Fmt → Nat
  | .f64 => 0x7FF8000000000000 | .f32 => 0x7FC00000 | .f16 => 0x7E00 | .bf16 => 0x7FC0 | .t8 => 0x80

/-- Exact values are naturals in units of 2^-unitExp: fine enough for every product of two operands (2^-2148) and for
the sticky bit of quotients and roots. -/
def unitExp : Nat := 2304

/-- One, in those units. -/
def oneU : Nat := 2 ^ unitExp

/-- An exact value: a NaN with its signalling bit, an infinity, or a signed magnitude in units of 2^-2304. -/
inductive Fv where
  | nan (sig : Bool)
  | inf (neg : Bool)
  | fin (neg : Bool) (mag : Nat)
  deriving DecidableEq, Repr

/-- The flags in the order of fcsr 4:0 (R32). -/
abbrev Flags := BitVec 5
/-- Invalid. -/
def fNV : Flags := 16
/-- Divide-by-zero. -/
def fDZ : Flags := 8
/-- Overflow. -/
def fOF : Flags := 4
/-- Underflow. -/
def fUF : Flags := 2
/-- Inexact. -/
def fNX : Flags := 1

/-- The length of the run of equal bits from bit 6 of a T8 code, at most 7 (R23). -/
def t8Run (c : Nat) (b : Bool) : Nat → Nat
  | 0 => 0
  | k + 1 => if c.testBit k = b then 1 + t8Run c b k else 0

/-- The magnitude of a T8 code in units of 2^-12 (R23): an integer, since the smallest magnitude is 2^-12. -/
def t8Mag (c : Nat) : Nat :=
  if c = 0 then 0 else
  let b := c.testBit 6
  let n := t8Run c b 7
  let rest := 6 - n
  let e := if n < 6 then c / 2 ^ (rest - 1) % 2 else 0
  let fw := rest - 1
  let f := if n < 6 then c % 2 ^ fw else 0
  let ex := if b then 12 + 2 * (n - 1) + e else 12 + e - 2 * n
  if n < 6 then 2 ^ ex + f * 2 ^ ex / 2 ^ fw else 2 ^ ex

/-- The value of a pattern (R20, R23). -/
def Fmt.decode (f : Fmt) (x : Nat) : Fv :=
  match f with
  | .t8 =>
    let c := x % 128
    let s := x.testBit 7
    if c = 0 then (if s then .nan false else .fin false 0)
    else .fin s (t8Mag c * 2 ^ (unitExp - 12))
  | _ =>
    let s := x.testBit (f.width - 1)
    let e := x / 2 ^ f.fw % (f.emax + 1)
    let fr := x % 2 ^ f.fw
    if e = f.emax then (if fr = 0 then .inf s else .nan (! fr.testBit (f.fw - 1)))
    else if e = 0 then .fin s (fr * 2 ^ (unitExp + 1 - f.bias - f.fw))
    else .fin s ((fr + 2 ^ f.fw) * 2 ^ (unitExp + e - f.bias - f.fw))

/-- Whether a pattern is subnormal in its format (R20); T8 has none (R35). -/
def Fmt.isSub (f : Fmt) (x : Nat) : Bool :=
  match f with
  | .t8 => false
  | _ => decide (x / 2 ^ f.fw % (f.emax + 1) = 0) && decide (x % 2 ^ f.fw ≠ 0)

/-- Whether a truncated magnitude is rounded up to the next candidate (R28): `n` the lower candidate's quanta, `r` the rest,
`q` the quantum. -/
def roundsUp (m : Mode) (neg : Bool) (n r q : Nat) : Bool :=
  if r = 0 then false else
  match m with
  | .rne => decide (q < 2 * r) || (decide (2 * r = q) && decide (n % 2 = 1))
  | .rna => decide (q ≤ 2 * r)
  | .rtz => false
  | .rdn => neg
  | .rup => ! neg

/-- The sign bit in place. -/
def signBit (neg : Bool) (w : Nat) : Nat := if neg then 2 ^ (w - 1) else 0

/-- The overflow result of R29. -/
def overflowBits (f : Fmt) (m : Mode) (neg : Bool) : Nat :=
  let inf := f.emax * 2 ^ f.fw
  let mag := match m with
    | .rne => inf | .rna => inf | .rtz => inf - 1
    | .rdn => if neg then inf else inf - 1
    | .rup => if neg then inf - 1 else inf
  signBit neg f.width + mag

/-- Rounds a magnitude into a binary format (R28, R29, R33, R35): the pattern and the flags. -/
def roundBin (f : Fmt) (m : Mode) (ftz : Bool) (neg : Bool) (mag : Nat) : Nat × Flags :=
  if mag = 0 then (signBit neg f.width, 0) else
  let e := Nat.log2 mag
  let base := unitExp + 1 - f.bias - f.fw        -- weight of the subnormals' last bit
  let qe := Nat.max (e - f.fw) base
  let q := 2 ^ qe
  let n := mag / q
  let r := mag % q
  let n' := if roundsUp m neg n r q then n + 1 else n
  let qt := 2 ^ (e - f.fw)
  let nt := mag / qt
  let nt' := if roundsUp m neg nt (mag % qt) qt then nt + 1 else nt
  let minNormal := 2 ^ (base + f.fw)
  let tiny := decide (nt' * qt < minNormal)
  if 2 ^ (unitExp + f.bias + 1) ≤ n' * q then (overflowBits f m neg, fOF ||| fNX)
  else if ftz && tiny then
    let up := (decide (m = .rup) && !neg) || (decide (m = .rdn) && neg)
    (signBit neg f.width + (if up then 2 ^ f.fw else 0), fUF ||| fNX)
  else
    let nx : Flags := if r = 0 then 0 else fNX
    let uf : Flags := if tiny && decide (r ≠ 0) then fUF else 0
    (signBit neg f.width + ((qe - base) * 2 ^ f.fw + n'), nx ||| uf)

/-- The largest T8 code at most `k` whose magnitude does not exceed `v` (in units of 2^-2304). -/
def t8Below (v : Nat) : Nat → Nat
  | 0 => 0
  | k + 1 => if t8Mag (k + 1) * 2 ^ (unitExp - 12) ≤ v then k + 1 else t8Below v k

/-- Rounds a magnitude into T8 (R26). -/
def roundT8 (m : Mode) (neg : Bool) (mag : Nat) : Nat × Flags :=
  let top := 2 ^ (unitExp + 12)
  if mag = 0 then (0, 0)
  else if top < mag then
    let away := (decide (m = .rup) && !neg) || (decide (m = .rdn) && neg)
    (if away then 0x80 else signBit neg 8 + 0x7F, fOF ||| fNX)
  else
    let c := t8Below mag 127
    let lo := t8Mag c * 2 ^ (unitExp - 12)
    if mag = lo then (signBit neg 8 + c, 0) else
    let q := t8Mag (c + 1) * 2 ^ (unitExp - 12) - lo
    let c' := if roundsUp m neg c (mag - lo) q then c + 1 else c
    let uf : Flags := if c = 0 then fUF else 0
    (if c' = 0 then 0 else signBit neg 8 + c', fNX ||| uf)

/-- Rounds an exact value into a format (R21, R26, R28, R29): the pattern and the flags. -/
def Fmt.round (f : Fmt) (m : Mode) (ftz : Bool) (x : Fv) : Nat × Flags :=
  match x with
  | .nan sig => (f.qnan, if sig then fNV else 0)
  | .inf neg => if f = .t8 then (f.qnan, fNV) else (signBit neg f.width + f.emax * 2 ^ f.fw, 0)
  | .fin neg mag => if f = .t8 then roundT8 m neg mag else roundBin f m ftz neg mag

/-- Reads an operand under flush-to-zero (R35): the value and the flag of a flush. -/
def Fmt.read (f : Fmt) (ftz : Bool) (x : Nat) : Fv × Flags :=
  if ftz && f.isSub x then (.fin (x.testBit (f.width - 1)) 0, fUF) else (f.decode x, 0)

/-- Whether a value is a NaN. -/
def Fv.isNan : Fv → Bool
  | .nan _ => true
  | _ => false

/-- Whether a value is a signalling NaN. -/
def Fv.isSig : Fv → Bool
  | .nan s => s
  | _ => false

/-- Whether a value is finite. -/
def Fv.isFin : Fv → Bool
  | .fin _ _ => true
  | _ => false

/-- The sign of a value that is not a NaN. -/
def Fv.neg : Fv → Bool
  | .nan _ => false
  | .inf n => n
  | .fin n _ => n

/-- A finite value as an integer in units of 2^-2304; 0 for the others. -/
def Fv.int : Fv → Int
  | .fin n m => if n then - (m : Int) else (m : Int)
  | _ => 0

/-- The value with the other sign. -/
def Fv.negate : Fv → Fv
  | .nan s => .nan s
  | .inf n => .inf (!n)
  | .fin n m => .fin (!n) m

/-- A sum of integers as a value; `z` is the sign of an exact zero. -/
def Fv.ofInt (i : Int) (z : Bool) : Fv :=
  if i = 0 then .fin z 0 else .fin (decide (i < 0)) i.natAbs

/-- The exact sum, with the invalid flag (R28, R33). A quiet NaN result has raised its own flag already. -/
def Fv.add (m : Mode) (a b : Fv) : Fv × Flags :=
  if a.isNan || b.isNan then (.nan false, if a.isSig || b.isSig then fNV else 0) else
  match a, b with
  | .inf x, .inf y => if x = y then (.inf x, 0) else (.nan false, fNV)
  | .inf x, _ => (.inf x, 0)
  | _, .inf y => (.inf y, 0)
  | _, _ =>
    let z := if a.neg = b.neg then a.neg else decide (m = .rdn)
    (Fv.ofInt (a.int + b.int) z, 0)

/-- The exact product (R33). -/
def Fv.mul (a b : Fv) : Fv × Flags :=
  if a.isNan || b.isNan then (.nan false, if a.isSig || b.isSig then fNV else 0) else
  let n := a.neg != b.neg
  match a, b with
  | .fin _ x, .fin _ y => (.fin n (x * y / 2 ^ unitExp), 0)
  | .fin _ x, _ => if x = 0 then (.nan false, fNV) else (.inf n, 0)
  | _, .fin _ y => if y = 0 then (.nan false, fNV) else (.inf n, 0)
  | _, _ => (.inf n, 0)

/-- `a * b + c` exactly (R129): a 0 × ∞ product is invalid even when c is a quiet NaN. -/
def Fv.fma (m : Mode) (a b c : Fv) : Fv × Flags :=
  let p := Fv.mul a b
  let r := Fv.add m p.1 c
  (r.1, p.2 ||| r.2)

/-- The quotient with a sticky last bit, which lies far below every rounding position (R129, R33). -/
def Fv.div (a b : Fv) : Fv × Flags :=
  if a.isNan || b.isNan then (.nan false, if a.isSig || b.isSig then fNV else 0) else
  let n := a.neg != b.neg
  match a, b with
  | .fin _ x, .fin _ y =>
    if y = 0 then (if x = 0 then (.nan false, fNV) else (.inf n, fDZ))
    else
      let q := x * 2 ^ unitExp / y
      (.fin n (if x * 2 ^ unitExp % y = 0 then q else q ||| 1), 0)
  | .fin _ _, _ => (.fin n 0, 0)
  | _, .fin _ _ => (.inf n, 0)
  | _, _ => (.nan false, fNV)

/-- The integer square root, bit by bit from `k - 1` down. -/
def isqrt (n : Nat) : Nat → Nat → Nat
  | 0, r => r
  | k + 1, r => let t := r + 2 ^ k; if t * t ≤ n then isqrt n k t else isqrt n k r

/-- The square root with a sticky last bit (R129): the root of a value below −0 is invalid, of −0 is −0. -/
def Fv.sqrt (a : Fv) : Fv × Flags :=
  match a with
  | .nan s => (.nan false, if s then fNV else 0)
  | .inf n => if n then (.nan false, fNV) else (.inf false, 0)
  | .fin n x =>
    if x = 0 then (.fin n 0, 0)
    else if n then (.nan false, fNV)
    else
      let v := x * 2 ^ unitExp
      let r := isqrt v ((Nat.log2 v) / 2 + 1) 0
      (.fin false (if r * r = v then r else r ||| 1), 0)

/-- Whether a < b (no NaN); −0 equals +0 (R131). -/
def Fv.lt (a b : Fv) : Bool :=
  match a, b with
  | .inf x, .inf y => x && !y
  | .inf x, _ => x
  | _, .inf y => !y
  | _, _ => decide (a.int < b.int)

/-- Whether a = b (no NaN); −0 equals +0 (R131). -/
def Fv.eqv (a b : Fv) : Bool :=
  match a, b with
  | .inf x, .inf y => x == y
  | .inf _, _ => false
  | _, .inf _ => false
  | _, _ => decide (a.int = b.int)

/-- The order of R130, in which −0 is below +0: whether a comes before b or equals it. -/
def Fv.leTotal (a b : Fv) : Bool :=
  a.lt b || (a.eqv b && (a.neg || !b.neg))

/-- The minimum and maximum operations of R130 and R153; `num` yields the other operand for one NaN. -/
def Fv.minmax (isMax num : Bool) (a b : Fv) : Fv × Flags :=
  let fl : Flags := if a.isSig || b.isSig then fNV else 0
  if a.isNan && b.isNan then (.nan false, fl)
  else if a.isNan then (if num then b else .nan false, fl)
  else if b.isNan then (if num then a else .nan false, fl)
  else if isMax then (if a.leTotal b then b else a, fl)
  else (if a.leTotal b then a else b, fl)

/-- The 10-bit class of R131 (FTZ plays no part). -/
def Fmt.classOf (f : Fmt) (x : Nat) : Nat :=
  match f.decode x with
  | .nan s => if s then 2 ^ 8 else 2 ^ 9
  | .inf n => if n then 1 else 2 ^ 7
  | .fin n m =>
    if m = 0 then (if n then 2 ^ 3 else 2 ^ 4)
    else if f.isSub x then (if n then 2 ^ 2 else 2 ^ 5)
    else (if n then 2 ^ 1 else 2 ^ 6)

/-- The integer a value rounds to under a mode, and whether it is inexact. -/
def roundInt (m : Mode) (neg : Bool) (mag : Nat) : Int × Bool :=
  let n := mag / oneU
  let r := mag % oneU
  let n' := if roundsUp m neg n r oneU then n + 1 else n
  (if neg then - (n' : Int) else (n' : Int), decide (r ≠ 0))

/-- The conversion to an integer of `w` bits (R27): the integer and the flags. -/
def Fv.toInt (m : Mode) (w : Nat) (signed : Bool) (x : Fv) : Int × Flags :=
  let lo : Int := if signed then - (2 ^ (w - 1) : Int) else 0
  let hi : Int := if signed then 2 ^ (w - 1) - 1 else 2 ^ w - 1
  match x with
  | .nan _ => (0, fNV)
  | .inf n => (if n then lo else hi, fNV)
  | .fin n mag =>
    let r := roundInt m n mag
    if r.1 < lo then (lo, fNV) else if hi < r.1 then (hi, fNV)
    else (r.1, if r.2 then fNX else 0)

/-- An integer as an exact value (R27). -/
def Fv.ofInteger (i : Int) : Fv := .fin (decide (i < 0)) (i.natAbs * oneU)

/-- Adds two patterns into a format with one rounding. -/
def Fmt.addBits (f : Fmt) (m : Mode) (ftz : Bool) (a b : Nat) : Nat × Flags :=
  let x := f.read ftz a
  let y := f.read ftz b
  let s := Fv.add m x.1 y.1
  let r := f.round m ftz s.1
  (r.1, x.2 ||| y.2 ||| s.2 ||| r.2)

end Sys2Proof.Machine
end

