-- ==== Sys2Proof/Machine/Flags.lean ====
section
/-! DEFINITION. `fcsr` (R32): its fields, the flags of a word (R33, R34) and FP_TRAP (R36). -/
namespace Sys2Proof.Machine

/-- FRM (R32). -/
def frmOf (x : BitVec 17) : BitVec 3 := x.extractLsb' 5 3
/-- The trap enables in flag order (R32). -/
def teOf (x : BitVec 17) : Flags := x.extractLsb' 12 5
/-- The FTZ bit of a format; T8 has none (R32, R35). -/
def ftzOf (x : BitVec 17) (f : Fmt) : Bool :=
  match f with
  | .f64 => x.getLsbD 11
  | .f32 => x.getLsbD 10
  | .f16 => x.getLsbD 9
  | .bf16 => x.getLsbD 8
  | .t8 => false

/-- An `fcsr` with flags set (R33). -/
def withFlags (x : BitVec 17) (fl : Flags) : BitVec 17 := x ||| fl.setWidth 17

/-- Sets flags in the executing context's `fcsr`; its words that set flags have retired by cycle `at_` (R34, R118). -/
def State.setFlags (s : State) (fl : Flags) (at_ : Nat) : State :=
  s.modSeq fun q => { q with fcsr := withFlags q.fcsr fl, flagAt := Nat.max q.flagAt at_ }

/-- The flags of a word of L, C or S that retires in this cycle: in `fcsr` from the next cycle (R34, R117). -/
def Seq.retireFlags (q : Seq) (fl : Flags) : Seq := { q with flagPend := q.flagPend ||| fl }

/-- Ends a scalar floating-point word (R128): FP_TRAP when an enabled flag would be raised (R36), else the body with the flags
set, its result readable `lat` cycles after the issue. -/
def fpWord (s : State) (srcs : List (BitVec 5)) (lat : Nat) (fl : Flags) (body : State → State) : Out :=
  if s.readyFor srcs then
    if fl &&& teOf s.seq.fcsr ≠ 0 then .next (s.raise 0x09 (fl.setWidth 64))
    else .next (body (s.setFlags fl (s.ccount + lat))).advance
  else stall s

end Sys2Proof.Machine
end

