-- ==== Sys2Proof/Machine/Descriptor.lean ====
section
/-! DEFINITION. Transfer descriptors (R180, R187, R188): their fields, the elements and sizes they name, and which words they make fill ring and
queue entries; the element sizes of the matrix formats (R66). -/
namespace Sys2Proof.Machine

/-- Doubleword `i` of a descriptor image. -/
def tdW (t : BitVec 512) (i : Nat) : Word := t.extractLsb' (64 * i) 64
/-- log2 of the memory-side element size. -/
def tdEsz (t : BitVec 512) : Nat := bitsOf t 60 2
/-- CVT. -/
def tdCvt (t : BitVec 512) : Nat := bitsOf t 56 4
/-- N0, N1, N2. -/
def tdN (t : BitVec 512) (i : Nat) : Nat := bitsOf t (40 - 16 * i) 16
/-- S1 and S2. -/
def tdS (t : BitVec 512) (i : Nat) : Word := tdW t i
/-- The memory-side element size in bytes. -/
def tdSize (t : BitVec 512) : Nat := 2 ^ tdEsz t

/-- Source and destination format of a conversion (R180). -/
def cvtPair (c : Nat) : Fmt × Fmt :=
  if c = 1 then (.f32, .bf16) else if c = 2 then (.f32, .f16) else if c = 3 then (.bf16, .f32) else (.f16, .f32)

/-- Whether a word's memory side is its destination (R180). -/
def memIsDst (op : Nat) : Bool := op == 2 || op == 5

/-- The memory-side size that a conversion needs, and the packed size (R180). -/
def cvtSizes (op : Nat) (t : BitVec 512) : Nat × Nat :=
  if tdCvt t = 0 then (tdSize t, tdSize t)
  else
    let p := cvtPair (tdCvt t)
    if memIsDst op then (p.2.width / 8, p.1.width / 8) else (p.1.width / 8, p.2.width / 8)

/-- Whether `tdset` accepts an image (R180). -/
def tdOk (t : BitVec 512) : Bool :=
  decide (bitsOf t 62 2 = 0) && decide (bitsOf t 0 8 = 0) && decide (tdCvt t ≤ 4) && decide (tdN t 0 ≠ 0) && decide (tdN t 1 ≠ 0) &&
  decide (tdN t 2 ≠ 0) && decide (tdW t 6 = 0) && decide (tdW t 7 = 0)

/-- H, W, F, SW, PLO, PHI of `win` (R180). -/
def winDims (t : BitVec 512) : Nat × Nat × Nat × Nat × Nat × Nat :=
  let d := tdW t 4
  (bitsOf d 48 16, bitsOf d 32 16, bitsOf d 24 8, bitsOf d 16 8, bitsOf d 8 8, bitsOf d 0 8)

/-- OH or OW of `win` (R188). -/
def winOut (n f sw plo phi : Nat) : Nat := if n + plo + phi < f then 0 else (n + plo + phi - f) / sw + 1

/-- The elements a word moves (R187). -/
def tCount (op : Nat) (t : BitVec 512) : Nat :=
  if op = 4 ∨ op = 5 then tdN t 0 * tdN t 1
  else if op = 6 then
    let (_, w, f, sw, plo, phi) := winDims t
    winOut w f sw plo phi * f * f * tdN t 0
  else tdN t 0 * tdN t 1 * tdN t 2

/-- The memory-side base of a word (R187). -/
def tBase (op : Nat) (a l istr : Word) : Word := if op = 3 then l else if op = 4 ∨ op = 5 then a else a + l * istr

/-- Whether a window row is empty (R188). -/
def TFlight.emptyWin (f : TFlight) : Bool :=
  decide (f.op = 6) && (let (hh, wd, fs, sw, plo, phi) := winDims f.td
    winOut hh fs sw plo phi == 0 || winOut wd fs sw plo phi == 0 || decide (winOut hh fs sw plo phi ≤ f.l.toNat))

/-- Whether a flight writes a ring entry that it claims (R184). -/
def TFlight.fillsRing (f : TFlight) : Bool := decide (f.kind = .move) && decide (f.mode = 0) && !memIsDst f.op && decide (f.op ≠ 3)

/-- The entries of the data queue 16 + i or operand queue 0x18 + i, as codes of R386, that a word has reserved (R85). -/
def TFlight.slotsIn (f : TFlight) (code : Nat) : Nat :=
  match f.kind with
  | .post => if f.code = code then 1 else 0
  | .move =>
    if memIsDst f.op || f.emptyWin then 0
    else if f.mode = 1 ∧ 0x18 + f.target = code then 1
    else if f.mode = 2 ∧ 0x10 + f.target = code then tCount f.op f.td else 0
  | _ => 0

/-- The size in bytes of an entry that a word fills: of an element in a data queue, else a vector's. -/
def TFlight.slotSize (f : TFlight) : Nat := if f.mode = 2 then (cvtSizes f.op f.td).2 else 256

/-- What a word has written so far of the entries that it has reserved of a queue (R385). -/
def TFlight.slotVals (f : TFlight) (code : Nat) : List Nat :=
  (List.range (f.slotsIn code)).map fun i => if f.kind = .move then bitsOf (f.pvec.getD 0) (8 * f.slotSize * i) (8 * f.slotSize) else 0

/-- log2 of the element size of an M-word's format. -/
def mEsz (c : Nat) : Nat := if c = 0 then 0 else if c = 1 ∨ c = 2 then 1 else if c = 3 then 2 else 3

end Sys2Proof.Machine
end

