-- ==== Sys2Proof/Machine/Save.lean ====
section
/-! DEFINITION. The layout of a save block (R387, R440): the bytes of each region of a core, used by cuts, resumes and the
debug window. -/
namespace Sys2Proof.Machine

/-- Bytes placed at an offset, zero bytes left out. -/
def place (off : Nat) (bytes : List Byte) : Tab Byte :=
  ((bytes.zipIdx).filter fun x => x.1 ≠ 0).map fun x => (off + x.2, x.1)

/-- A doubleword placed at an offset. -/
def placeW (off : Nat) (v : Nat) : Tab Byte := place off (toBytes 8 v)

/-- Doublewords placed from an offset. -/
def placeWs (off : Nat) (vs : List Nat) : Tab Byte := place off (vs.flatMap (toBytes 8))

/-- A sparse table moved up. -/
def shiftTab (off : Nat) (t : Tab Byte) : Tab Byte := t.map fun x => (off + x.1, x.2)

/-- Loop-stack entries, outermost first, as 24 bytes each (R440). -/
def loopWords (l : List LoopEntry) : List Nat := l.reverse.flatMap fun e => [e.start.toNat, e.stop.toNat, e.rem]

/-- A sequencer section of the state region (R440). -/
def seqSection (off : Nat) (q : Seq) (xst : BitVec 4) : Tab Byte :=
  placeWs off ((List.range 32).map fun i => (q.reg (BitVec.ofNat 5 i)).toNat) ++
  placeWs (off + 0x100) [(q.fcsr ||| q.flagPend.setWidth 17).toNat, q.pc.toNat, q.wmask.toNat + q.pmask.toNat * 16, q.loops.length] ++
  placeWs (off + 0x120) (loopWords q.loops) ++
  placeWs (off + 0x180) (macBits q.mpos :: q.macroQ.length :: q.macroQ.map fun r => r.idx + r.p * 256) ++
  placeW (off + 0x1B0) xst.toNat

/-- RGST (R181). -/
def Ring.stat (r : Ring) : Nat :=
  (if r.colo then 2 ^ 63 else 0) + r.claim % 2 ^ 21 * 2 ^ 42 + r.tail % 2 ^ 21 * 2 ^ 21 + r.head % 2 ^ 21

/-- The visible count of a token queue. -/
def Queue.count {α : Type} (q : Queue α) (now : Nat) : Nat :=
  (q.entries.takeWhile fun e => e.val.isSome && decide (e.vis ≤ now)).length

/-- TOK: the visible token counts, laid out as in R287. -/
def Core.tok (c : Core) (now : Nat) : Nat :=
  (List.range 16).foldl (fun a i => a + (c.tkOf i).count now % 16 * 2 ^ (4 * i)) 0

/-- What the words of a core have written so far of the entries that they have reserved of a queue, oldest first (R385). -/
def Core.reservedOf (c : Core) (code : Nat) : List Nat :=
  ((c.tl.flight ++ c.ts.flight).flatMap fun f => f.slotVals code) ++ (c.cposts.filter fun p => p.code = code).map fun _ => 0

/-- The values of a queue's entries, of the reserved ones the bytes written so far (R385, R440). -/
def entryVals {w : Nat} : List (Entry (BitVec w)) → List Nat → List Nat
  | [], _ => []
  | e :: es, vs => match e.val with
    | some v => v.toNat :: entryVals es vs
    | none => vs.headD 0 :: entryVals es vs.tail

/-- The status word of a group (R269). -/
def Group.stat (g : Group) : Nat :=
  (if g.isOpen then 2 ^ 63 else 0) + (if g.isOpen && g.susp then 2 ^ 62 else 0) + g.lines.length

/-- The status word of the attention sequencer (R372). -/
def Att.stat (a : Att) : Nat :=
  (if a.fault then 2 ^ 63 else 0) + a.cause % 256 * 2 ^ 48 + a.fupc % 4096 * 2 ^ 32 + a.ended % 2 ^ 32

/-- The control CSR image of `snapctl`. -/
def Core.snapWord (c : Core) : Nat := c.snapctl.toNat

/-- The size of a weight image by log2 of its element size (R204). -/
def imageSize (esz : Nat) : Nat := if esz = 0 then 8320 else 8192 * 2 ^ esz

/-- The bytes of a weight buffer that hold its image (R204); of one that is FILLING, by the descriptor or format of its fill. -/
def Core.wbufSize (c : Core) (i : Nat) (b : WBuf) : Nat :=
  if b.st = 2 then imageSize (b.esize.log2)
  else match (c.tl.flight.find? fun f => decide (f.kind = .move) && decide (f.mode = 3) && f.target == i), (c.mat.flight.find? fun f => f.op == 4 && f.buf == i) with
    | some f, _ => imageSize (tdEsz f.td)
    | none, some f => imageSize (mEsz f.fmt)
    | none, none => 0x10000

/-- The lines of a group in ascending block address (R440). -/
def Group.ordered (g : Group) : List Line :=
  g.lines.foldr (fun x l => (l.takeWhile fun y => decide (y.blk < x.blk)) ++ x :: l.dropWhile fun y => decide (y.blk < x.blk)) []

/-- The state region of a save block, from its start (R440). -/
def stateRegion (s : State) (n : CoreId) : Tab Byte :=
  let c := s.core n
  let now := s.ccount
  seqSection 0 c.k c.xstK ++ seqSection 0x400 c.l c.tl.xst ++ seqSection 0x800 c.c 0 ++ seqSection 0xC00 c.s c.ts.xst ++
  placeWs 0x1000 [c.supK.preds.toNat ||| 1, c.mimage.toNat, c.supK.tvec.toNat, c.supK.tepc.toNat, c.supK.tsw.toNat, c.supK.tcause.toNat,
    c.supK.tval.toNat, c.supK.hdepth] ++
  ((List.range 4).flatMap fun i => placeWs (0x1040 + 96 * i) (loopWords (c.supK.frames.reverse[i]?.getD []))) ++
  placeWs 0x11C0 ((List.range 4).map (fun i => (Tab.get 0 c.wpt i).toNat) ++ [c.snapWord, c.cond.toNat, c.group.stat]) ++
  placeWs 0x1200 [c.vec.shape.toNat, c.vec.tix.toNat, c.mat.a0.afmt, c.mat.a1.afmt, c.mat.bown,
    c.mat.w0.st + c.mat.w0.esize * 256, c.mat.w1.st + c.mat.w1.esize * 256] ++
  ((List.range 8).flatMap fun i => place (0x1300 + 32 * i) (toBytes 32 (Tab.get 0 c.vec.vm i).toNat)) ++
  ((List.range 256).flatMap fun i => place (0x1400 + 4 * i) (toBytes 4 (Tab.get 0 c.vec.eb i).toNat)) ++
  ((List.range 8).flatMap fun i => place (0x1800 + 2 * i) (toBytes 2 (Tab.get cfgReset c.vec.cfg i).toNat)) ++
  ((List.range 32).flatMap fun i =>
    let r := c.ring i
    placeWs (0x1900 + 160 * i) [r.base.toNat, r.ctl.toNat, r.stat] ++
    place (0x1900 + 160 * i + 32) (toBytes 128 (r.marks.foldl (fun a m => if r.head ≤ m then a + 2 ^ (m - r.head) else a) 0))) ++
  ((List.range 32).flatMap fun i => place (0x2D00 + 64 * i) (toBytes 64 (Tab.get 0 c.tl.td i).toNat)) ++
  ((List.range 32).flatMap fun i => place (0x3500 + 64 * i) (toBytes 64 (Tab.get 0 c.ts.td i).toNat)) ++
  ((List.range 8).flatMap fun i => placeWs (0x3D00 + 128 * i) ((c.dq i).entries.length :: entryVals (c.dq i).entries (c.reservedOf (0x10 + i)))) ++
  placeWs 0x4100 [c.tok (now + 1), (List.range 4).foldl (fun a i => a + (c.iqOf i).entries.length * 2 ^ (4 * i) + (c.oqOf i).entries.length * 2 ^ (16 + 4 * i)) 0] ++
  placeWs 0x4200 ((List.range 16).map (fun i => if i = 0 then 0 else (Tab.get 0 c.att.ar i).toNat) ++ [c.att.upc, c.att.stat, if c.att.busy then 1 else 0]) ++
  (let l := c.coll.filter fun r => !r.started
   placeW 0x4300 l.length ++ (l.zipIdx).flatMap fun x => placeWs (0x4340 + 64 * x.2) (x.1.words.map BitVec.toNat))

/-- An accumulator's region (R440). -/
def accRegion (off : Nat) (a : Acc) : Tab Byte :=
  a.el.flatMap fun x =>
    if a.afmt = 2 then place (off + (256 * (x.1 / 512) + x.1 % 512) * 16) (toBytes 8 x.2.1.toNat ++ toBytes 8 x.2.2.toNat)
    else place (off + x.1 * 8) (toBytes 4 x.2.1.toNat ++ toBytes 4 x.2.2.toNat)

/-- One entry of the cut record (R386). -/
def cutEntry (qid held sq : Nat) : Nat := qid * 2 ^ 56 + held % 2 ^ 16 * 2 ^ 32 + sq % 2 ^ 32

/-- The codes of the twelve token queues (R53, R88). -/
def tokenQueues : List Nat := (List.range 16).filter tokenCode

/-- The place of a queue among the entries of the cut record (R386), for a QID up to the last ring. -/
def cutPlace (qid : Nat) : Nat := if qid < 16 then tokenQueues.idxOf qid else qid - 4

/-- What a command queue of an engine, or a macro queue, holds (R386): the words of L and S with transfer slots, C's M-words, the running
microprogram, the requests of the collective engine that have not started, and macro requests; the commands of the other engines are
complete at a cut. -/
def Core.heldIn (c : Core) (qid : Nat) : Nat :=
  let moves := fun (u : TUnit) => (u.flight.filter fun f => decide (f.kind = .move) || decide (f.kind = .rows)).length
  if qid = 0x40 then moves c.tl else if qid = 0x41 then moves c.ts
  else if qid = 0x42 then (c.mat.flight.filter fun f => !f.att).length
  else if qid = 0x46 then (if c.att.busy then 1 else 0)
  else if qid = 0x47 then (c.coll.filter fun r => !r.started).length
  else if qid = 0x48 then c.k.macroQ.length else if qid = 0x49 then c.l.macroQ.length
  else if qid = 0x4A then c.c.macroQ.length else if qid = 0x4B then c.s.macroQ.length else 0

/-- The entry of a command or macro queue (R386): its pops are its pushes but those it holds. -/
def Core.fifoEntry (c : Core) (qid : Nat) : Nat := cutEntry qid (c.heldIn qid) ((Tab.get 0 c.pushes qid + 2 ^ 32 - c.heldIn qid) % 2 ^ 32)

/-- The queue entries of the cut record in ascending QID (R386): tokens, data, operand and result queues, rings, engine FIFOs
and macro queues. -/
def cutEntries (c : Core) : List Nat :=
  tokenQueues.map (fun i => cutEntry i (c.tkOf i).entries.length (c.tkOf i).pops) ++
  (List.range 8).map (fun i => cutEntry (0x10 + i) (c.dq i).entries.length (c.dq i).pops) ++
  (List.range 4).map (fun i => cutEntry (0x18 + i) (c.iqOf i).entries.length (c.iqOf i).pops) ++
  (List.range 4).map (fun i => cutEntry (0x1C + i) (c.oqOf i).entries.length (c.oqOf i).pops) ++
  (List.range 32).map (fun i =>
    let r := c.ring i
    if r.ctl.getLsbD 19 && !r.ctl.getLsbD 34 then cutEntry (0x20 + i) ((r.claim - r.head) % 2 ^ 21) (r.head % 2 ^ 21) else cutEntry (0x20 + i) 0 0) ++
  (List.range 12).map (fun i => c.fifoEntry (0x40 + i))

/-- Queue codes in successive bytes, up to eight (R440). -/
def codeBytes (l : List Nat) : Nat := ((l.take 8).zipIdx).foldl (fun a x => a + x.1 * 2 ^ (8 * x.2)) 0

/-- The data queue, operand queue or token queue a word of L or S has reserved entries of, as codes of R386. -/
def TFlight.reserved (me : Nat) (f : TFlight) : List Nat :=
  postCodes me f.post ++ (if f.kind = .post then [f.code] else (List.range 0x1C).filter fun code => decide (0x10 ≤ code) && decide (0 < f.slotsIn code))

/-- The register operands that a word in flight read at issue, in the order of its fields (R69, R440). -/
def TFlight.operands (f : TFlight) : List Word :=
  match f.kind with
  | .post => [f.val]
  | .ringWord => if f.op = 0x10 then [f.a] else if f.op = 0x0F then [] else [f.l]
  | _ => [f.a, f.l]

/-- A held-word record of a word of L, S or the attention sequencer's copies (R440), with the data it has read and not written. -/
def heldT (agent : Nat) (f : TFlight) : List Byte :=
  let o := fun (i : Nat) => ((f.operands[i]?).getD 0).toNat
  (([f.word.toNat + agent * 2 ^ 32, f.pc.toNat, f.cursor, o 0, o 1, o 2,
    (match f.rpos with | some p => p % 2 ^ 21 | none => 0) + (match f.claimed with | some p => p % 2 ^ 21 * 2 ^ 21 + 2 ^ 63 | none => 0),
    codeBytes (waitCodes agent f.popTok ++ f.reserved agent)] : List Nat).flatMap (toBytes 8)) ++
  toBytes 64 f.td.toNat ++ ((f.ahead.take 2).flatMap fun x => x.2.1.take 64 ++ List.replicate (64 - x.2.1.length) 0) ++
  List.replicate (64 * (2 - Nat.min 2 f.ahead.length)) 0

/-- A held-word record of an M-word or an attention step (R440): the cursor is the next column slot. With two ring positions, ring
A's stands in bits 41:21 and ring B's in bits 20:0 (log 40). -/
def heldM (f : MFlight) (cursor : Nat) : List Byte :=
  (([f.word.toNat + (if f.att then 4 else 2) * 2 ^ 32, f.pc.toNat, cursor, f.n.toNat, f.stamp.toNat, 0,
    (match (if f.op = 4 then f.posA else f.posB) with | some p => p % 2 ^ 21 | none => 0) +
      (match (if f.op = 4 then none else f.posA) with | some p => p % 2 ^ 21 * 2 ^ 21 + (if f.op = 2 then 0 else 2 ^ 63) | none => 0),
    codeBytes (waitCodes 2 f.popTok ++ postCodes 2 f.post)] : List Nat).flatMap (toBytes 8)) ++
  List.replicate 192 0

/-- A held-word record of a token or entry that C posts behind M-words. -/
def heldP (p : CPost) : List Byte :=
  (([p.word.toNat + 2 * 2 ^ 32, p.pc.toNat, 0, p.val.toNat, 0, 0, 0, codeBytes [p.code]] : List Nat).flatMap (toBytes 8)) ++ List.replicate 192 0

/-- The words of L or S that are held: a pop noted behind a word in flight is none. -/
def TUnit.held (u : TUnit) : List TFlight := u.flight.filter fun f => decide (f.kind ≠ .popped)

/-- C's M-words in flight. -/
def MUnit.own (m : MUnit) : List MFlight := m.flight.filter fun f => !f.att
/-- The attention sequencer's steps in flight. -/
def MUnit.atts (m : MUnit) : List MFlight := m.flight.filter fun f => f.att

/-- C's M-words and the posts behind them in issue order; `k` M-words have retired before the first. -/
def issueOrder (k : Nat) : List MFlight → List CPost → List (MFlight ⊕ CPost)
  | [], ps => ps.map .inr
  | f :: fs, ps => (ps.takeWhile fun p => decide (p.afterM ≤ k)).map .inr ++ .inl f :: issueOrder (k + 1) fs (ps.dropWhile fun p => decide (p.afterM ≤ k))

/-- What C holds, in issue order. -/
def Core.heldC (c : Core) : List (MFlight ⊕ CPost) := issueOrder c.mat.retiredN c.mat.own c.cposts

/-- The held words of a core in the order of the agents of R385, by agent in issue order (R440): the transfers of L and S, the copies of the
attention sequencer, the steps and posts of C, the steps of the attention sequencer. -/
def heldWords (c : Core) (now : Nat) : List (List Byte) :=
  (c.tl.held.map (heldT 1)) ++ (c.ts.held.map (heldT 3)) ++ (c.ta.held.map (heldT 4)) ++
  (c.heldC.map fun x => match x with | .inl f => heldM f (f.cursorAt now) | .inr p => heldP p) ++
  (c.mat.atts.map fun f => heldM f (f.cursorAt now))

/-- The bytes of a core at its places in the save-block layout (R387, R440), ascending by region. -/
def saveImage (s : State) (n : CoreId) : Tab Byte :=
  let c := s.core n
  let sl := settle s.ccount c.slice c.recent
  sl.1 ++ accRegion 0x200000 c.mat.a0 ++ accRegion 0x280000 c.mat.a1 ++ (c.mat.bound.flatMap fun x => place (0x300000 + 4 * x.1) (toBytes 4 x.2.toNat)) ++
  (c.vec.tile.flatMap fun x => place (0x340000 + 0x4000 * x.1) (toBytes 16384 x.2.toNat)) ++
  shiftTab 0x360000 c.mat.w0.img ++ shiftTab 0x370000 c.mat.w1.img ++
  ((c.group.ordered.zipIdx).flatMap fun x => place (0x380000 + 64 * x.2) (toBytes 64 x.1.data.toNat)) ++
  (c.att.store.flatMap fun x => placeW (0x390000 + 8 * x.1) x.2.toNat) ++
  (c.vec.v.flatMap fun x => place (0x398000 + 256 * x.1) (toBytes 256 x.2.toNat)) ++
  ((List.range 4).flatMap fun k => ((entryVals (c.iqOf k).entries (c.reservedOf (0x18 + k))).zipIdx).flatMap fun e => place (0x39A000 + 1024 * k + 256 * e.2) (toBytes 256 e.1)) ++
  ((List.range 4).flatMap fun k => ((entryVals (c.oqOf k).entries []).zipIdx).flatMap fun e => place (0x39B000 + 1024 * k + 256 * e.2) (toBytes 256 e.1)) ++
  (c.vec.rule.flatMap fun x => place (0x39C000 + 256 * x.1) (toBytes 256 x.2.toNat)) ++
  shiftTab 0x39D000 (stateRegion s n) ++
  placeWs 0x3A5000 ([c.cutSeq * 2 ^ 32 + (cutEntries c).length, s.ccount] ++ cutEntries c) ++
  (let h := heldWords c s.ccount; placeW 0x3A53F8 h.length ++ (h.zipIdx).flatMap fun x => place (0x3A5400 + 256 * x.2) x.1) ++
  ((c.group.ordered.zipIdx).flatMap fun x => placeWs (0x3A9000 + 16 * x.2) [x.1.blk, x.1.mask.toNat]) ++
  (match c.group.bound with
   | none => []
   | some t => placeWs 0x3AD000 [2 ^ 63 + t.toNat, c.group.tseq.toNat, c.group.takenBlks.length, c.group.deferred.length] ++
      place 0x3AD040 (toBytes 512 (c.group.layers.foldl (fun a l => a ||| 2 ^ l) 0)) ++
      placeWs 0x3AD400 c.group.takenBlks ++ placeWs 0x3B5400 c.group.deferred)

/-- The parts of a save block that every cut writes: offset and length (R387). -/
def alwaysParts : List (Nat × Nat) :=
  [(0, 0x200000), (0x340000, 0x20000), (0x398000, 0x2000), (0x39A000, 0x2000), (0x39C000, 0x1000), (0x39D000, 0x8000), (0x3A5000, 0x4000)]

/-- The attention control store's part, written where the unit has started the sequencer (R387). -/
def attPart (c : Core) : List (Nat × Nat) := if c.att.started then [(0x390000, 0x8000)] else []

/-- The parts that the state of the core decides (R387). -/
def stateParts (c : Core) : List (Nat × Nat) :=
  (if c.mat.a0.afmt ≠ 0 then [(0x200000, 0x80000)] else []) ++ (if c.mat.a1.afmt ≠ 0 then [(0x280000, 0x80000)] else []) ++
  (if c.mat.bown ≠ 0 then [(0x300000, 0x40000)] else []) ++
  (if c.mat.w0.st ≠ 0 then [(0x360000, c.wbufSize 0 c.mat.w0)] else []) ++ (if c.mat.w1.st ≠ 0 then [(0x370000, c.wbufSize 1 c.mat.w1)] else []) ++
  (if c.group.isOpen then [(0x380000, 0x10000), (0x3A9000, 0x4000), (0x3AD000, 0x12000)] else [])

/-- The parts of a save block that a cut writes (R387). -/
def saveParts (c : Core) : List (Nat × Nat) := alwaysParts ++ attPart c ++ stateParts c

end Sys2Proof.Machine
end

