-- ==== Sys2Proof/Machine/Bar.lean ====
section
/-! DEFINITION. BAR0 as F and the host meet it: what a register reads (R401, R402, R432). -/
namespace Sys2Proof.Machine

/-- PROD or CONS with DROPS above it (R432). -/
def prodWord (drops prod : Nat) : Word := BitVec.ofNat 64 (drops * 2 ^ 32 + prod % 2 ^ 32)

/-- A doubleword of a ring of 16-byte entries. -/
def ringEntry (t : Tab (Word × Word)) (off : Nat) : Word :=
  let e := Tab.get (0, 0) t (off / 16)
  if off / 8 % 2 = 0 then e.1 else e.2

/-- A byte of the certificate area (R432): the identifier of XMSSMT-SHAKE_40/4_256 under RFC 8391, 0x14 (PRESUMED, log 13), the identity key, SERIAL,
the endorsement's length, the endorsement, zeros. -/
def certByte (i : Nat) : Byte :=
  if i < 3 then 0 else if i = 3 then 0x14
  else if 68 ≤ i ∧ i < 76 then BitVec.ofNat 8 (bitsOf (Config.ident 2) (8 * (i - 68)) 8)
  else if 76 ≤ i ∧ i < 80 then BitVec.ofNat 8 (9893 / 2 ^ (8 * (i - 76)))
  else if i < 9973 then Config.certByte i else 0

/-- Doubleword `i` of a job record. -/
def JobRec.dw (j : JobRec) (i : Nat) : Word := if i = 0 then j.j0 else if i = 1 then j.j1 else if i = 2 then j.j2 else j.j3

/-- Doubleword `i` of a submission ring (R309). -/
def SubRing.dw (r : SubRing) (i : Nat) : Word := if i = 0 then r.h0 else if i = 1 then r.h1 else if i = 2 then r.h2 else r.h3

/-- The doubleword of the debug window at an offset (R389, R401): the selected unit of the selected core, 0 while that core is
not debug-halted. The snapshot registers S0 to S7, for which the layout of R387 names no place, stand at 0x3F0000 (DESIGN CHOICE, log 41). -/
def State.debugRead (s : State) (off : Nat) : Word :=
  let n : CoreId := BitVec.ofNat 8 (bitsOf s.dev.dbgsel 0 8)
  if (s.core n).debugHalt = .stopped then
    let img := saveImage s n
    let base := bitsOf s.dev.dbgsel 16 6 * 2 ^ 16 + off / 8 * 8
    if 0x3F0000 ≤ base ∧ base < 0x3F0040 then Tab.get 0 (s.core n).snap ((base - 0x3F0000) / 8) else
    BitVec.ofNat 64 (ofBytes (Tab.range 0 img base 8))
  else 0

/-- The quote control word (R432). -/
def QuoteRegs.ctl (q : QuoteRegs) : Word := BitVec.ofNat 64 ((if q.go then 2 ^ 63 else 0) + q.status.toNat * 2 ^ 61)

/-- The doubleword a BAR0 register reads (R401, R402, R403, R432). -/
def State.barRead (s : State) (off : Nat) : Word :=
  let d := s.dev
  let w := fun (n : Nat) => (BitVec.ofNat 64 n : Word)
  if off = 0 then w ((if d.ready then 2 ^ 63 else 0) + (if d.fail then 2 ^ 62 else 0) + d.zup.toNat)
  else if 0x40 ≤ off ∧ off < 0x80 then
    (if off = 0x40 then 0x53594280 else if off < 0x58 then Config.ident ((off - 0x40) / 8) else 0)
  else if !d.ready then 0
  else if off = 0x100 then w ((if d.zen then 2 ^ 16 else 0) + d.dev.toNat)
  else if off = 0x1100 then d.inv0
  else if off = 0x1108 then d.inv1
  else if off = 0x1110 then d.inv2
  else if 0x1300 ≤ off ∧ off < 0x1328 then Tab.get 0 d.swcfg ((off - 0x1300) / 8)
  else if off = 0x1400 then d.dbgsel
  else if 0x10000 ≤ off ∧ off < 0x12000 then (Tab.get JobRec.none s.jobs ((off - 0x10000) / 32)).dw (off / 8 % 4)
  else if 0x14000 ≤ off ∧ off < 0x14800 then (Tab.get SubRing.reset s.subs ((off - 0x14000) / 32)).dw (off / 8 % 4)
  else if 0x18000 ≤ off ∧ off < 0x18800 then Tab.get 0 s.xlate ((off - 0x18000) / 8)
  else if 0x20000 ≤ off ∧ off < 0x21000 then Tab.get 0 d.route ((off - 0x20000) / 8)
  else if off = 0x30000 then prodWord d.evDrops d.evProd
  else if off = 0x30008 then prodWord 0 d.evCons
  else if off = 0x30010 then prodWord d.faqDrops d.faqProd
  else if off = 0x30018 then prodWord 0 d.faqCons
  else if 0x30020 ≤ off ∧ off < 0x30040 then prodWord 0 (s.die ((off - 0x30020) / 8)).fqProd
  else if 0x30040 ≤ off ∧ off < 0x30060 then prodWord 0 (s.die ((off - 0x30040) / 8)).fqCons
  else if 0x30080 ≤ off ∧ off < 0x300A0 then w (bitsOf d.fwfp (64 * ((off - 0x30080) / 8)) 64)
  else if off = 0x30100 then w ((if (s.core d.dbgctl).debugHalt = .stopped then 2 ^ 61 else 0) + d.dbgctl.toNat)
  else if off = 0x30110 then w ((if d.rungs.any fun r => decide (r.num ≤ 4) then 2 ^ 63 else 0) + (if d.refused then 2 ^ 62 else 0))
  else if 0x30140 ≤ off ∧ off < 0x30160 then w (bitsOf d.bar.nonce (64 * ((off - 0x30140) / 8)) 64)
  else if off = 0x30160 then d.bar.ctl
  else if off = 0x30180 then
    w ((if d.badGo then 2 ^ 63 else 0) + d.badResult.toNat * 2 ^ 61 + d.badCount * 2 ^ 44 + d.badPage)
  else if 0x31000 ≤ off ∧ off < 0x34000 then w (ofBytes ((d.bar.res.drop (off - 0x31000)).take 8))
  else if 0x34000 ≤ off ∧ off < 0x38000 then w (ofBytes ((List.range 8).map fun i => certByte (off - 0x34000 + i)))
  else if 0x38000 ≤ off ∧ off < 0x3C000 then ringEntry d.evq (off - 0x38000)
  else if 0x3C000 ≤ off ∧ off < 0x40000 then ringEntry d.faq (off - 0x3C000)
  else if 0x40000 ≤ off ∧ off < 0x50000 then ringEntry (s.die ((off - 0x40000) / 0x4000)).fq ((off - 0x40000) % 0x4000)
  else if 0x100000 ≤ off ∧ off < 0x200000 then
    Tab.get 0 (Tab.get [] s.streams ((off - 0x100000) / 256)) (off / 8 % 32)
  else if 0x400000 ≤ off ∧ off < 0x410000 then s.debugRead (off - 0x400000)
  else 0

/-- The last page of the memory (R432). -/
def lastPage : Nat := devSize / 2 ^ 16

/-- F's store to BADPAGE (R432): RESULT, COUNT and GO are writable to F; one that sets a reserved bit or names a page beyond the memory is
discarded, and a GO that was 0 is a request. -/
def State.badpageFields (s : State) (v : Word) : State :=
  let d := s.dev
  if bitsOf v 57 4 ≠ 0 ∨ bitsOf v 24 20 ≠ 0 ∨ lastPage ≤ bitsOf v 0 24 then s
  else
    let t : State := { s with dev := { d with badGo := v.getLsbD 63, badResult := BitVec.ofNat 2 (bitsOf v 61 2), badCount := bitsOf v 44 13, badPage := bitsOf v 0 24 } }
    if v.getLsbD 63 && !d.badGo then t.event 8 0 0 else t

/-- A store of F to a BAR0 register (R432): BADPAGE takes its fields, any other register starts its write's step next. -/
def State.barStore (s : State) (n : CoreId) (off : Nat) (v : Word) : State :=
  if off = 0x30180 then s.badpageFields v
  else { s with agenda := .bar (.firmware n) off 8 v :: s.agenda }

end Sys2Proof.Machine
end

