-- ==== Sys2Proof/Machine/Operands.lean ====
section
/-! DEFINITION. Operand forms of K-words: widths, predicates, the divider (R56, R119, R125). -/
namespace Sys2Proof.Machine

/-- The width of a class 0b000 word in bits (R56). -/
def kWidth (w : BitVec 2) : Nat := 8 * 2 ^ w.toNat

/-- The low w bits as a signed integer: sext(x, w) of R14. -/
def sx (x : Word) (w : Nat) : Int := sextNat x.toNat w

/-- The low w bits as a natural number: zext(x, w) of R14. -/
def zx (x : Word) (w : Nat) : Nat := x.toNat % 2 ^ w

/-- ws of R119: the low w bits, sign-extended to 64. -/
def ws (w : Nat) (x : Int) : Word := BitVec.ofInt 64 (sextNat (BitVec.ofInt w x).toNat w)

/-- wn of R119: the low w bits, zero-extended. -/
def wn (w : Nat) (x : Nat) : Word := BitVec.ofNat 64 (x % 2 ^ w)

/-- A word on the shared divider, not ready while the divider holds an earlier word (R125). -/
def divWord (s : State) (srcs : List (BitVec 5)) (body : State → Out) (lat : Nat) : Out :=
  if s.readyFor srcs && decide (s.here.divTill ≤ s.ccount) then
    body (s.modHere fun c => { c with divTill := s.ccount + lat })
  else stall s

/-- A word whose predicate field names p0 to p7: 8 to 31 is ILLEGAL_OPERAND (R56). -/
def predWord (s : State) (fields : List (BitVec 5)) (body : Out) : Out :=
  if !s.canIssue then stall s
  else if fields.any fun p => decide (8 ≤ p.toNat) then .next s.badOperand
  else body

/-- The 12-bit immediate, sign-extended (R57). -/
def imm12 (i : BitVec 12) : Word := i.signExtend 64

end Sys2Proof.Machine
end

