-- ==== Sys2Proof/Machine/KMem.lean ====
section
/-! DEFINITION. K-words of class 0b001: loads and stores (R126, R127, R175, R390). -/
namespace Sys2Proof.Machine

/-- The address checks of R126 (and R432 for BAR0 registers of F): range, alignment, translation and protection. -/
def kAddress (n : CoreId) (q : Ctx) (ea : Word) (size : Nat) (acc : Access) : Act Target := do
  Act.check (decide (ea.toNat < 2 ^ 57)) 0x05 ea
  Act.check (decide (ea.toNat % size = 0)) 0x04 ea
  let t ← resolve n q ea.toNat acc
  match t with
  | .bar _ => Act.check (decide (size = 8)) 0x04 ea
  | _ => pure ()
  pure t

/-- The value a load writes. -/
def loadValue (bytes : List Byte) (signed : Bool) : Word :=
  let n := ofBytes bytes
  if signed then BitVec.ofInt 64 (sextNat n (8 * bytes.length)) else BitVec.ofNat 64 n

/-- A blocking load (R126, R127): not ready until the writes its releases cover are performed (R261); the next word issues
no earlier than the fourth cycle after (R175). A load over a link is sent once K's writes over links are performed, and its data arrive by their
own event (R405, R407). -/
def kLoad (d a : BitVec 5) (i : BitVec 12) (size : Nat) (signed : Bool) (s : State) : Out :=
  let n := s.cur.1
  let q := s.cur.2
  let ea := s.reg a + imm12 i
  if s.readyFor [a] && s.covered s.seq.cover then
    runWord s (do
      let t ← kAddress n q ea size .read
      if q ≠ .f then watchCheck n ea.toNat size false
      match t with
      | .host _ | .remote _ _ =>
        let s ← get
        Act.need (s.linked t && s.farClear n t)
        pure ((s.putFar (s.farReq .load t size ea.toNat)).modCore n fun c => { c with kWait := some (.load d size signed t ea.toNat) }).mark
      | .bar off =>
        let s ← get
        pure ((s.setReg d (s.barRead off) 3).advance.blockTill (s.ccount + 4))
      | _ =>
        let b ← if q = .f then (do let r ← readTarget t size ea.toNat; pure r.1) else kRead n t ea.toNat size
        let s ← get
        pure ((s.setReg d (loadValue b signed) 3).advance.blockTill (s.ccount + 4)))
  else stall s

/-- A store (R126, R127): it retires once its address has passed; F's stores to device memory are performed at once, and to
BAR0 registers take effect as the register write they name (R432). -/
def kStore (d a : BitVec 5) (i : BitVec 12) (size : Nat) (s : State) : Out :=
  let n := s.cur.1
  let q := s.cur.2
  let ea := s.reg a + imm12 i
  let bytes := toBytes size (s.reg d).toNat
  if s.readyFor [d, a] then
    runWord s (do
      let t ← kAddress n q ea size .write
      if q ≠ .f then watchCheck n ea.toNat size true
      match t with
      | .bar off =>
        modify fun s => s.barStore n off (s.reg d)
      | .dev pa =>
        if q = .f then
          let s ← get
          Act.need (!s.siteHeld pa size && !s.locked t size)
          set (s.writeDev pa bytes).1
        else kWrite n t ea.toNat bytes
      | _ => kWrite n t ea.toNat bytes
      pure (← get).advance)
  else stall s

/-- `ld.b`: loads 1 byte(s), zero-extended (R126). -/
def execLdB (d a : BitVec 5) (i : BitVec 12) (s : State) : Out := kLoad d a i 1 false s

/-- `ld.h`: loads 2 byte(s), zero-extended (R126). -/
def execLdH (d a : BitVec 5) (i : BitVec 12) (s : State) : Out := kLoad d a i 2 false s

/-- `ld.w`: loads 4 byte(s), zero-extended (R126). -/
def execLdW (d a : BitVec 5) (i : BitVec 12) (s : State) : Out := kLoad d a i 4 false s

/-- `ld.d`: loads 8 byte(s), zero-extended (R126). -/
def execLdD (d a : BitVec 5) (i : BitVec 12) (s : State) : Out := kLoad d a i 8 false s

/-- `lds.b`: loads 1 byte(s), sign-extended (R126). -/
def execLdsB (d a : BitVec 5) (i : BitVec 12) (s : State) : Out := kLoad d a i 1 true s

/-- `lds.h`: loads 2 byte(s), sign-extended (R126). -/
def execLdsH (d a : BitVec 5) (i : BitVec 12) (s : State) : Out := kLoad d a i 2 true s

/-- `lds.w`: loads 4 byte(s), sign-extended (R126). -/
def execLdsW (d a : BitVec 5) (i : BitVec 12) (s : State) : Out := kLoad d a i 4 true s

/-- `st.b`: stores the low 1 byte(s) (R126). -/
def execStB (d a : BitVec 5) (i : BitVec 12) (s : State) : Out := kStore d a i 1 s

/-- `st.h`: stores the low 2 byte(s) (R126). -/
def execStH (d a : BitVec 5) (i : BitVec 12) (s : State) : Out := kStore d a i 2 s

/-- `st.w`: stores the low 4 byte(s) (R126). -/
def execStW (d a : BitVec 5) (i : BitVec 12) (s : State) : Out := kStore d a i 4 s

/-- `st.d`: stores the low 8 byte(s) (R126). -/
def execStD (d a : BitVec 5) (i : BitVec 12) (s : State) : Out := kStore d a i 8 s

end Sys2Proof.Machine
end

