-- ==== Sys2Proof/Machine/Atomics.lean ====
section
/-! DEFINITION. Scalar atomics (R263, R271 to R274): their checks at issue, their effect at the home, and the completion of K's
stores at their homes (R127, R174, R329). -/
namespace Sys2Proof.Machine

/-- The new value of an atomic, none for a `cas` that does not write, and its flags (R272); `op` is the index of R60, `w` the width. -/
def amoValue (op w : Nat) (fcsr : BitVec 17) (a b cmp : Nat) : Option Nat × Flags :=
  let f : Fmt := if w = 64 then .f64 else .f32
  let sa := sextNat a w
  let sb := sextNat b w
  let fl2 := fun (isMax : Bool) =>
    let z := Fv.minmax isMax false (f.decode a) (f.decode b)
    let r := f.round .rne false (if z.1.isNan then .nan false else z.1)
    (some r.1, z.2)
  if op = 1 then (some ((a + b) % 2 ^ w), 0)
  else if op = 2 then (some (a &&& b), 0)
  else if op = 3 then (some (a ||| b), 0)
  else if op = 4 then (some (a ^^^ b), 0)
  else if op = 5 then (some (if sa ≤ sb then a else b), 0)
  else if op = 6 then (some (if sb ≤ sa then a else b), 0)
  else if op = 7 then (some (if a ≤ b then a else b), 0)
  else if op = 8 then (some (if b ≤ a then a else b), 0)
  else if op = 9 then (some b, 0)
  else if op = 10 then (if a = cmp then some b else none, 0)
  else if op = 11 then (some (if b ≤ a then 0 else a + 1), 0)
  else if op = 12 then
    let r := f.addBits (modeOf (frmOf fcsr)) (ftzOf fcsr f) a b
    (some r.1, r.2)
  else if op = 13 then fl2 false
  else fl2 true

/-- A slice byte with every write presented so far, as an atomic reads it (R273). -/
def sliceNow (c : Core) (now off : Nat) : Byte := sliceByte c (now + 6) off

/-- An atomic at a local home (R273): the old value and the flags; it waits for a site in self-refresh. -/
def amoAt (w : Writer) (t : Target) (va op bits : Nat) (fcsr : BitVec 17) (b cmp : Nat) : Act (Nat × Flags) := do
  let s ← get
  let k := bits / 8
  match t with
  | .slice m off =>
    let c := s.core m
    Act.check (!c.frozen) 0x0E (w64 va)
    let ecc := Tab.get 0 s.latent (2 ^ 48 + m.toNat * 2 ^ 18 + off / 8)
    Act.check (decide (ecc < 2)) 0x0F (w64 va)
    let s := s.modCore w.core fun c => { c with xstK := c.xstK ||| (if ecc = 1 then 8 else 0) }
    set s
    let a := ofBytes ((List.range k).map fun i => sliceNow c s.ccount (off + i))
    let r := amoValue op bits fcsr a b cmp
    match r.1 with
    | some v => set (s.writeSlice w m off (toBytes k v))
    | none => pure ()
    pure (a, r.2)
  | .dev pa =>
    let x ← readDev pa k (w64 va)
    let a := ofBytes x.1
    let r := amoValue op bits fcsr a b cmp
    match r.1 with
    | some v => modify fun s => (s.writeDev pa (toBytes k v)).1
    | none => pure ()
    pure (a, r.2)
  | .bar off =>
    let a := (s.barRead off).toNat
    let r := amoValue op bits fcsr a b cmp
    match r.1 with
    | some v => set (s.barStore w.core off (w64 v))
    | none => pure ()
    pure (a, r.2)
  | _ => pure (0, 0)

/-- Whether an atomic goes to the slice of its own core. -/
def AmoReq.own (n : CoreId) (r : AmoReq) : Bool := match r.tgt with | .slice m _ => decide (m = n) | _ => false

/-- Whether an atomic may be presented (R254, R273): the writes it follows are readable by the earliest cycle in which K could go on after
it, and K's earlier atomics are presented, for one to the own slice there too. -/
def State.amoMay (s : State) (n : CoreId) (r : AmoReq) : Bool :=
  (s.core n).fwd.all (fun x => decide (r.seq ≤ x.seq) || doneBy x.doneAt (s.ccount + 11)) &&
  (s.core n).amos.all (fun x => decide (r.seq ≤ x.seq) || (x.pres.isSome && (!r.own n || x.own n))) &&
  decide (r.cover.till ≤ s.ccount + 11) && r.cover.stores.all fun x => decide (x.1 = n) || (s.core x.1).writtenBy x.2 (s.ccount + 11)

/-- Every atomic of a K that has not been applied, with its core: of a running unit, or of a cut one (R343). -/
def State.pendingAmos (s : State) : List (Nat × AmoReq) :=
  (s.cores.flatMap fun x => x.2.amos.map fun r => (x.1, r)) ++
  s.orphans.filterMap fun o => match o.req with | .inl _ => none | .inr r => some (o.core.toNat, r)

/-- The place of an atomic presented to a word now among those presented to it in this cycle, after the home core's (R171, R273). -/
def State.amoPlace (s : State) (t : Target) : Nat :=
  let k := s.amoq.foldl (fun a y => if y.pres.1 = s.ccount ∧ t.meets 1 y.tgt then Nat.max a (y.pres.2 + 1) else a) 1
  s.pendingAmos.foldl (fun a y => match y.2.pres with
    | some z => if z.1 = s.ccount ∧ t.meets 1 y.2.tgt then Nat.max a (z.2 + 1) else a
    | none => a) k

/-- An atomic as a word (R272, R273): the checks in order, then the request goes to its home, in the own slice in the cycle of issue; the
return form waits for the old value. F's atomics go to their physical addresses, those to a BAR0 register being applied at once (R432). -/
def amoWord (op : Nat) (ret : Bool) (d a b : BitVec 5) (t : BitVec 1) (s : State) : Out :=
  let n := s.cur.1
  let q := s.cur.2
  let bits := if t = 1 then 64 else 32
  let ea := s.reg a
  let opnd := (s.reg b).toNat % 2 ^ bits
  let cmp := (s.reg d).toNat % 2 ^ bits
  if s.readyFor ([a, b] ++ (if op = 10 then [d] else [])) && s.covered s.seq.cover then
    runWord s (do
      let tg ← kAddress n q ea (bits / 8) .atomic
      if q = .f then
        match tg with
        | .bar _ =>
          let r ← amoAt { core := n, agent := 0, rank := 3 } tg ea.toNat op bits s.seq.fcsr opnd cmp
          let s ← get
          pure (if ret then ((s.setFlags r.2 (s.ccount + 9)).setReg d (w64 r.1) 9).advance.blockTill (s.ccount + 10) else s.advance)
        | _ =>
          let s ← get
          let req : HomeAmo :=
            { who := .firmware n (if ret then some d else none), pres := (s.ccount, s.amoPlace tg), op := op, dbl := t = 1, va := ea.toNat, tgt := tg,
              opnd := w64 opnd, cmp := w64 cmp, fcsr := s.seq.fcsr, applied := false }
          let t : State := { s with amoq := s.amoq ++ [req] }
          pure (if ret then t.mark else t.advance)
      else
        Act.check (!s.here.capturing) 0x01 s.wordVal
        watchCheck n ea.toNat (bits / 8) false
        watchCheck n ea.toNat (bits / 8) true
        let s ← get
        let id := s.here.nextId + 1
        let req : AmoReq :=
          { id := id, seq := s.here.storeSeq + 1, pres := none, op := op, dbl := t = 1, ret := if ret then some d else none, va := ea.toNat, tgt := tg,
            opnd := w64 opnd, cmp := w64 cmp, fcsr := s.seq.fcsr, cover := s.covering, src := (s.seq.off, s.seq.mpos) }
        Act.need (!req.own n || s.amoMay n req)
        let req := if req.own n then { req with pres := some (s.ccount, 0) } else req
        let t := s.modHere fun c => { c with amos := c.amos ++ [req], nextId := id, storeSeq := req.seq }
        pure (if ret then (t.modHere fun c => { c with kWait := some (.atomic id) }).mark else t.advance))
  else stall s

/-- The word that K or F waits in ends (R127, R273): it receives the value, readable three cycles on, and goes on to its next word. -/
def State.waitEnds (s : State) (n : CoreId) (q : Ctx) (d : BitVec 5) (v : Word) (fl : Flags) : State :=
  let t := ({ s with cur := (n, q) } : State).modSeq fun q => { q with fcsr := withFlags q.fcsr fl }
  let t := ((t.setReg d v 3).advance).blockTill (s.ccount + 4)
  { t with cur := s.cur, issued := s.issued }

/-- The word K waits in ends (R127, R273). -/
def State.kEnds (s : State) (n : CoreId) (d : BitVec 5) (v : Word) (fl : Flags) : State :=
  (s.modCore n fun c => { c with kWait := none }).waitEnds n .k d v fl

/-- The return form of an atomic ends with the old value (R273). -/
def State.amoReturn (s : State) (n : CoreId) (r : AmoReq) (old : Word) (fl : Flags) : State :=
  match r.ret with
  | none => s
  | some d => s.kEnds n d old fl

/-- A fault of the word K waits in (R127, R273): the wait ends and the trap is taken at that word. -/
def State.waitFault (s : State) (n : CoreId) (code : Nat) (val : Word) : State :=
  let s := s.modCore n fun c => { c with kWait := none }
  let q := (s.core n).k
  s.takeTrap n .k code val (causeWord q.off q.mpos false 0 code) 0

/-- The home of a target, for the service of atomics (R273): a core's slice, or from 256 a site. -/
def Target.homeNo : Target → Option Nat
  | .slice n _ => some n.toNat
  | .dev pa => some (256 + siteOf pa)
  | _ => none

/-- Whether an atomic of core `n` is the next of its word (R263, R273): no other atomic to the word was presented before it. Of those of
one cycle the home core's come first, then the others in order of arrival (R171). -/
def State.amoNext (s : State) (n : CoreId) (r : AmoReq) (p : Nat × Nat) : Bool :=
  (s.pendingAmos.all fun y => match y.2.pres with
    | none => true
    | some z => !(r.tgt.meets 1 y.2.tgt) || (decide (y.1 = n.toNat) && decide (y.2.id = r.id)) || decide (p.1 < z.1) || (decide (p.1 = z.1) && decide (p.2 < z.2))) &&
  s.amoq.all fun y => y.applied || !(r.tgt.meets 1 y.tgt) || decide (p.1 < y.pres.1) || (decide (p.1 = y.pres.1) && decide (p.2 < y.pres.2))

/-- An atomic reaches its home in this cycle (R273): its place follows those presented to its word in this cycle. -/
def State.amoPresent (s : State) (n : CoreId) (r : AmoReq) : State :=
  s.modCore n fun c => { c with amos := c.amos.map fun y => if y.id = r.id then { y with pres := some (s.ccount, s.amoPlace r.tgt) } else y }

/-- Whether the oldest atomic of a core may be applied (R263, R273): six cycles after its presentation or later, as the next of its word,
with its home free in this cycle, and with every write that it follows readable by the time its own is, and by the time an atomic that
reads it lets K go on (R254, R261). -/
def State.amoDue (s : State) (n : CoreId) (r : AmoReq) : Bool :=
  match r.pres with
  | none => false
  | some p => decide (p.1 + 6 ≤ s.ccount) && s.amoNext n r p && s.coverBy r.cover (s.ccount + r.tgt.delay - 1) &&
    (match r.tgt.homeNo with | some h => decide (Tab.get 0 s.homeAt h ≠ s.ccount + 1) | none => true)

/-- The home of an atomic has served one in this cycle (R273). -/
def State.served (s : State) (t : Target) : State :=
  match t.homeNo with | some h => { s with homeAt := Tab.put s.homeAt h (s.ccount + 1) } | none => s

/-- What an atomic applied in cycle `now` leaves until its write is readable, after the exposed latency (R174, R273). -/
def AmoReq.written (r : AmoReq) (now : Nat) : Store :=
  { seq := r.seq, va := r.va, tgt := r.tgt, bytes := [], cover := Cover.none, doneAt := some (now + r.tgt.delay), src := r.src, sent := false }

/-- An atomic leaves the queue at its application: its home has served it in this cycle, and its write is readable after the exposed
latency (R174, R273). -/
def State.amoApplied (s : State) (n : CoreId) (r : AmoReq) : State :=
  (s.served r.tgt).modCore n fun c => { c with amos := c.amos.filter (fun x => x.id ≠ r.id), fwd := c.liveFwd s.ccount ++ [r.written s.ccount] }

/-- A failure of a write of K that has retired is to be delivered to K (R127, R377): its cause, with LATE and the word's place, and address
(log 36). -/
def State.lateFault (s : State) (n : CoreId) (src : Nat × Option MacroPos) (code va : Nat) : State :=
  s.modCore n fun c => { c with late := c.late ++ [(code, causeWord src.1 src.2 true 0 code, w64 va)] }

/-- An atomic leaves to another device (R258, R274). -/
def State.sendAmo (s : State) (d pa : Nat) (r : AmoReq) : State :=
  s.putFar { s.farReq (.amo r.id (.amo d pa r.op r.dbl r.opnd r.cmp r.fcsr)) (.remote d pa) (if r.dbl then 8 else 4) r.va with src := r.src }

/-- The oldest atomic of a core reaches its home, or is applied there (R263, R273); to another device it is sent once the writes before it
are performed (R258, R274). A return form faults precisely, and what K reads next follows its write (R257); a no-return form that fails
changes nothing, its write treated as a K store's, whose QUIRE_PEER_FAULT K takes late (R127, R178). -/
def execAtomicApply (n : CoreId) (s : State) : Out :=
  match (s.core n).amos.find? fun r => r.pres.isNone || decide (((s.core n).amos.head?.map AmoReq.id) = some r.id) with
  | none => stall s
  | some r =>
    match r.pres, r.tgt with
    | none, .remote d pa =>
      if ((s.core n).amos.head?.map AmoReq.id) = some r.id ∧ s.coverBy r.cover s.ccount ∧ s.dev.zen then
        let s : State := { s.amoPresent n r with reader := (n, 0, r.seq) }
        .next (s.sendAmo d pa r)
      else stall s
    | none, _ => if s.amoMay n r then .next (s.amoPresent n r) else stall s
    | some _, .remote _ _ => stall s
    | some _, _ =>
      if !s.amoDue n r then stall s
      else
        let bits := if r.dbl then 64 else 32
        match (amoAt { core := n, agent := 0, rank := 3 } r.tgt r.va r.op bits r.fcsr r.opnd.toNat r.cmp.toNat).run (s.amoApplied n r) with
        | (.ok x, t) =>
          let t := if r.ret.isSome then t.modCore n fun c => { c with k := { c.k with cover := { c.k.cover with till := Nat.max c.k.cover.till (s.ccount + r.tgt.delay) } } } else t
          .next (t.amoReturn n r (w64 x.1) x.2)
        | (.error (.wait _), _) => stall s
        | (.error (.fault code v), t) | (.error (.late code v), t) =>
          let u := restore (s.amoApplied n r) t
          .next (if r.ret.isSome then u.waitFault n code v
            else match r.tgt with
              | .dev pa => u.faultAddr 3 pa
              | _ => if code = 0x0E then u.lateFault n r.src 0x0E r.va else u)

/-- The atomics of cores to their own slices that are due: the home is free at once for them (R273). -/
def State.ownAmos (s : State) : State :=
  s.listed.foldl (fun s n => match (s.core n).amos.head? with
    | some r => if r.own n then (match execAtomicApply n s with | .next t => t | _ => s) else s
    | none => s) s

/-- Whether a home takes a store of K now: its site is not in self-refresh, its words are not locked, and its link carries traffic (R273, R343,
R402). -/
def State.homeTakes (s : State) (t : Store) : Bool :=
  !(match t.tgt with | .dev pa => s.siteHeld pa t.bytes.length | _ => false) && !s.locked t.tgt t.bytes.length && s.linked t.tgt

/-- A store reaches its home: the state, and the store as it is then. It is performed at a slice or in device memory, or its request leaves,
for the agent `agent` of core `n`, to host memory or another device. -/
def State.storeHome (s : State) (n : CoreId) (agent : Nat) (t : Store) : State × Store :=
  let s : State := { s with reader := (n, agent, t.seq) }
  if t.tgt.isFar then
    let s1 := match t.tgt with | .host pa => { s with dev := { s.dev with hostOut := s.dev.hostOut ++ [(pa, t.bytes)] } } | _ => s
    (s1.putFar { s1.farReq (.store t.seq t.bytes) t.tgt t.bytes.length t.va with src := t.src }, { t with sent := true })
  else ((s.writeTarget { core := n, agent := 0, rank := 3 } t.tgt t.va t.bytes).1, { t with doneAt := some (s.ccount + t.tgt.delay) })

/-- Whether a store goes to a frozen slice (R178). -/
def State.toFrozen (s : State) (t : Store) : Bool := match t.tgt with | .slice m _ => (s.core m).frozen | _ => false

/-- The oldest pending store of K reaches its home (R174, R329): a slice or device memory, or leaves for the host tier or another device, where
it is performed once the read that follows it or the response has come (R405, R408); K's earlier writes and all that K had acquired are
readable no later (R254 to R258), and a locked word is waited for (R273). A write of a poisoned block is discarded there (R340); one to a
frozen slice is discarded and its QUIRE_PEER_FAULT taken late (R127, R178, R377). -/
def execWritePerformed (n : CoreId) (s : State) : Out :=
  let c := s.core n
  match c.fwd.find? fun t => t.doneAt.isNone with
  | none => stall s
  | some t =>
    if t.sent || !s.inOrder n t.seq t.cover t.tgt || !s.homeTakes t then stall s
    else
      let r := s.storeHome n 0 t
      let s1 := r.1.modCore n fun c => { c with fwd := c.fwd.map fun x => if x.seq = t.seq then r.2 else x }
      .next (if s.toFrozen t then s1.lateFault n t.src 0x0E t.va else s1)

/-! ## The requests of cut units that wait at sites (R343) -/

/-- A failure of a write of a cut unit is to be delivered to its K when the unit resumes (R127, R377; log 36). -/
def State.lateSaved (s : State) (o : Orphan) (src : Nat × Option MacroPos) (code va : Nat) : State :=
  let g := fun (l : Launch) => if l.job = o.job ∧ l.task = o.task then
      { l with resume := l.resume.map fun u => if u.core = o.core then { u with kept := { u.kept with late := u.kept.late ++ [(code, causeWord src.1 src.2 true 0 code, w64 va)] } } else u }
    else l
  { s with parked := s.parked.map g, dies := s.dies.map fun d => (d.1, { d.2 with launches := d.2.launches.map fun x => (x.1, g x.2) }) }

/-- The performing of request `i` of the cut units (R343), as of a unit that runs: in the order of its core, and behind what it follows (log
40). -/
def performOrphan (i : Nat) (s : State) : Out :=
  match s.orphans[i]? with
  | none => stall s
  | some o =>
    let n := o.core
    let behind := fun (d : Nat) => (s.orphans.take i).all fun x => decide (x.core ≠ n) || doneBy x.doneAt (s.ccount + d)
    let put := fun (t : State) (x : Store ⊕ AmoReq) => ({ t with orphans := t.orphans.set i { o with req := x } } : State)
    match o.req with
    | .inl t =>
      if t.sent || t.doneAt.isSome || !behind t.tgt.delay || !s.coverBy t.cover (s.ccount + t.tgt.delay) || !s.homeTakes t then stall s
      else
        let r := s.storeHome n 11 t
        let s1 := put r.1 (.inl r.2)
        .next (if s.toFrozen t then s1.lateSaved o t.src 0x0E t.va else s1)
    | .inr r =>
      if !behind 0 || !s.coverBy r.cover s.ccount then stall s
      else match r.pres, r.tgt with
      | none, .remote d pa =>
        if s.dev.zen then
          let s1 := put { s with reader := (n, 11, r.seq) } (.inr { r with pres := some (s.ccount, 0) })
          .next (s1.sendAmo d pa r)
        else stall s
      | none, _ => .next (put s (.inr { r with pres := some (s.ccount, s.amoPlace r.tgt) }))
      | some _, .remote _ _ => stall s
      | some _, _ =>
        if !s.amoDue n r then stall s
        else
          let s1 := put (s.served r.tgt) (.inl (r.written s.ccount))
          match (amoAt { core := n, agent := 0, rank := 3 } r.tgt r.va r.op (if r.dbl then 64 else 32) r.fcsr r.opnd.toNat r.cmp.toNat).run s1 with
          | (.ok _, t) => .next t
          | (.error (.wait _), _) => stall s
          | (.error (.fault code _), t) | (.error (.late code _), t) =>
            let u := restore s1 t
            .next (match r.tgt with
              | .dev pa => u.faultAddr 3 pa
              | _ => if code = 0x0E then u.lateSaved o r.src 0x0E r.va else u)

/-- `amo.add` (R272). -/
def execAmoAdd (d a b : BitVec 5) (t : BitVec 1) (s : State) : Out := amoWord 1 true d a b t s
/-- `amo.add.nr` (R272). -/
def execAmoAddNr (a b : BitVec 5) (t : BitVec 1) (s : State) : Out := amoWord 1 false 0 a b t s
/-- `amo.and` (R272). -/
def execAmoAnd (d a b : BitVec 5) (t : BitVec 1) (s : State) : Out := amoWord 2 true d a b t s
/-- `amo.and.nr` (R272). -/
def execAmoAndNr (a b : BitVec 5) (t : BitVec 1) (s : State) : Out := amoWord 2 false 0 a b t s
/-- `amo.or` (R272). -/
def execAmoOr (d a b : BitVec 5) (t : BitVec 1) (s : State) : Out := amoWord 3 true d a b t s
/-- `amo.or.nr` (R272). -/
def execAmoOrNr (a b : BitVec 5) (t : BitVec 1) (s : State) : Out := amoWord 3 false 0 a b t s
/-- `amo.xor` (R272). -/
def execAmoXor (d a b : BitVec 5) (t : BitVec 1) (s : State) : Out := amoWord 4 true d a b t s
/-- `amo.xor.nr` (R272). -/
def execAmoXorNr (a b : BitVec 5) (t : BitVec 1) (s : State) : Out := amoWord 4 false 0 a b t s
/-- `amo.min` (R272). -/
def execAmoMin (d a b : BitVec 5) (t : BitVec 1) (s : State) : Out := amoWord 5 true d a b t s
/-- `amo.min.nr` (R272). -/
def execAmoMinNr (a b : BitVec 5) (t : BitVec 1) (s : State) : Out := amoWord 5 false 0 a b t s
/-- `amo.max` (R272). -/
def execAmoMax (d a b : BitVec 5) (t : BitVec 1) (s : State) : Out := amoWord 6 true d a b t s
/-- `amo.max.nr` (R272). -/
def execAmoMaxNr (a b : BitVec 5) (t : BitVec 1) (s : State) : Out := amoWord 6 false 0 a b t s
/-- `amo.minn` (R272). -/
def execAmoMinn (d a b : BitVec 5) (t : BitVec 1) (s : State) : Out := amoWord 7 true d a b t s
/-- `amo.minn.nr` (R272). -/
def execAmoMinnNr (a b : BitVec 5) (t : BitVec 1) (s : State) : Out := amoWord 7 false 0 a b t s
/-- `amo.maxn` (R272). -/
def execAmoMaxn (d a b : BitVec 5) (t : BitVec 1) (s : State) : Out := amoWord 8 true d a b t s
/-- `amo.maxn.nr` (R272). -/
def execAmoMaxnNr (a b : BitVec 5) (t : BitVec 1) (s : State) : Out := amoWord 8 false 0 a b t s
/-- `amo.swap` (R272). -/
def execAmoSwap (d a b : BitVec 5) (t : BitVec 1) (s : State) : Out := amoWord 9 true d a b t s
/-- `amo.swap.nr` (R272). -/
def execAmoSwapNr (a b : BitVec 5) (t : BitVec 1) (s : State) : Out := amoWord 9 false 0 a b t s
/-- `amo.cas` (R272). -/
def execAmoCas (d a b : BitVec 5) (t : BitVec 1) (s : State) : Out := amoWord 10 true d a b t s
/-- `amo.cas.nr`: rd is only the compare value (R60, R272). -/
def execAmoCasNr (d a b : BitVec 5) (t : BitVec 1) (s : State) : Out := amoWord 10 false d a b t s
/-- `amo.inc` (R272). -/
def execAmoInc (d a b : BitVec 5) (t : BitVec 1) (s : State) : Out := amoWord 11 true d a b t s
/-- `amo.inc.nr` (R272). -/
def execAmoIncNr (a b : BitVec 5) (t : BitVec 1) (s : State) : Out := amoWord 11 false 0 a b t s
/-- `amo.fadd` (R272). -/
def execAmoFadd (d a b : BitVec 5) (t : BitVec 1) (s : State) : Out := amoWord 12 true d a b t s
/-- `amo.fadd.nr` (R272). -/
def execAmoFaddNr (a b : BitVec 5) (t : BitVec 1) (s : State) : Out := amoWord 12 false 0 a b t s
/-- `amo.fmin` (R272). -/
def execAmoFmin (d a b : BitVec 5) (t : BitVec 1) (s : State) : Out := amoWord 13 true d a b t s
/-- `amo.fmin.nr` (R272). -/
def execAmoFminNr (a b : BitVec 5) (t : BitVec 1) (s : State) : Out := amoWord 13 false 0 a b t s
/-- `amo.fmax` (R272). -/
def execAmoFmax (d a b : BitVec 5) (t : BitVec 1) (s : State) : Out := amoWord 14 true d a b t s
/-- `amo.fmax.nr` (R272). -/
def execAmoFmaxNr (a b : BitVec 5) (t : BitVec 1) (s : State) : Out := amoWord 14 false 0 a b t s

end Sys2Proof.Machine
end

