-- ==== Sys2Proof/Machine/MatNum.lean ====
section
/-! DEFINITION. The arithmetic of matrix steps (R25, R37 to R43, R211 to R214): products, the K-step sum, the accumulator pair, the
bound and the read-out. Values are exact integers in units of 2^-2304. -/
namespace Sys2Proof.Machine

/-- The format of an M-word's fmt code (R66). -/
def mFmt (c : Nat) : Fmt := if c = 0 then .t8 else if c = 1 then .f16 else if c = 2 then .bf16 else if c = 3 then .f32 else .f64

/-- The format and window of an accumulator fed by a format (R38). -/
def accFmt (c : Nat) : Fmt × Nat := if c = 4 then (.f64, 160) else (.f32, 96)

/-- A value scaled by 2^σ (R25). -/
def Fv.scale (x : Fv) (σ : Int) : Fv :=
  match x with
  | .fin n m => .fin n (if 0 ≤ σ then m * 2 ^ σ.toNat else m / 2 ^ (-σ).toNat)
  | y => y

/-- The absolute value; a NaN stays a NaN (R211). -/
def Fv.abs : Fv → Fv
  | .nan s => .nan s
  | .inf _ => .inf false
  | .fin _ m => .fin false m

/-- Element `i` of `sz` bytes, as a pattern. -/
def elemAt (a : Array Byte) (i sz : Nat) : Nat := ofBytes ((List.range sz).map fun j => (a[i * sz + j]?).getD 0)

/-- Operand `i` of an image whose block scale is the byte at `scaleAt` (R25, R35, R199, R204): value and the flag of a flush. -/
def operandAt (fmt : Nat) (ftz : Bool) (a : Array Byte) (i scaleAt : Nat) : Fv × Flags :=
  let x := elemAt a i (2 ^ mEsz fmt)
  if fmt = 0 then (((Fmt.t8).decode x).scale (sextNat ((a[scaleAt]?).getD 0).toNat 8), 0) else (mFmt fmt).read ftz x

/-- The sum of a K-step (R38, R39): t as a pattern, ρ in units, the weight q and whether a product lost bits, with the flags. -/
structure KStep where
  t : Nat
  rho : Int
  q : Nat
  dropped : Bool
  flags : Flags
  deriving DecidableEq, Repr

/-- The K-step sum (R38, R39) of pairs of operands. -/
def kstepSum (af : Fmt) (ww : Nat) (ps : List (Fv × Fv)) : KStep :=
  let prods := ps.map fun p => Fv.mul p.1 p.2
  let nv : Flags := if prods.any fun p => p.2 ≠ 0 then fNV else 0
  let pos := prods.any fun p => decide (p.1 = .inf false)
  let neg := prods.any fun p => decide (p.1 = .inf true)
  if prods.any fun p => p.1.isNan then { t := af.qnan, rho := 0, q := 0, dropped := false, flags := nv }
  else if pos && neg then { t := af.qnan, rho := 0, q := 0, dropped := false, flags := fNV }
  else if pos || neg then { t := signBit neg af.width + af.emax * 2 ^ af.fw, rho := 0, q := 0, dropped := false, flags := 0 }
  else
    let xs := prods.map fun p => p.1.int
    let big := xs.foldl (fun m x => Nat.max m x.natAbs) 0
    if big = 0 then { t := 0, rho := 0, q := 0, dropped := false, flags := 0 }
    else
      let q := 2 ^ (Nat.log2 big + 1 - ww)
      let r := xs.foldl (fun (a : Int × Bool) (x : Int) =>
        let m : Nat := x.natAbs / q * q
        (a.1 + (if x < 0 then -(m : Int) else (m : Int)), a.2 || decide (m ≠ x.natAbs))) (0, false)
      let t := if r.1 = 0 then (0, (0 : Flags)) else af.round .rne false (Fv.ofInt r.1 false)
      let v := af.decode t.1
      { t := t.1, rho := if v.isFin then r.1 - v.int else 0, q := q, dropped := r.2, flags := t.2 ||| (if r.2 then fNX else 0) }

/-- An accumulator element: sum, comp and bound (R40). -/
structure AccEl where
  sum : Nat
  comp : Nat
  bound : Nat
  deriving DecidableEq, Repr

/-- +∞ in FP32. -/
def inf32 : Nat := 0x7F800000

/-- `round_rup` of a bound and further magnitudes, added exactly (R40, R41): +∞ where the bound is not finite. -/
def boundAdd (bound : Nat) (m : Nat) : Nat :=
  match Fmt.f32.decode bound with
  | .fin _ b => (Fmt.f32.round .rup false (.fin false (b + m))).1
  | _ => inf32

/-- One K-step of one element (R40, R41, R42). -/
def accumulate (af : Fmt) (ww : Nat) (enc : Bool) (a : AccEl) (ps : List (Fv × Fv)) : AccEl × Flags :=
  let k := kstepSum af ww ps
  let x := af.decode a.sum
  let t := af.decode k.t
  let z := Fv.add .rne x t
  let fin := x.isFin && t.isFin
  let s := af.round .rne false z.1
  let ovf := fin && decide (s.2 &&& fOF ≠ 0)
  let e : Int := if fin && !ovf then z.1.int - (af.decode s.1).int else 0
  let cm := af.decode a.comp
  let y := Fv.add .rne cm (Fv.ofInt e false)
  let c := af.round .rne false y.1
  let fl := k.flags ||| (if fin then (if ovf then fOF ||| fNX else 0) else z.2) ||| (if cm.isFin then c.2 else 0)
  let cv := af.decode c.1
  let bound :=
    if !enc then a.bound
    else if !((af.decode s.1).isFin && cv.isFin && t.isFin) then inf32
    else boundAdd a.bound ((if k.dropped then 64 * k.q else 0) + k.rho.natAbs + (y.1.int - cv.int).natAbs)
  ({ sum := s.1, comp := c.1, bound := bound }, fl)

/-- The quadratic bound of `mma.a` (R212): +∞ where an operand is not finite. -/
def quadAdd (bound : Nat) (g : List Fv) (ys : List (List Fv)) : Nat :=
  if g.any (fun x => !x.isFin) || ys.any (fun y => y.any fun x => !x.isFin) then inf32
  else
    let total := ys.foldl (fun a y => (g.zip y).foldl (fun a p => a + (match Fv.mul p.1 p.2 with | (.fin _ m, _) => m | _ => 0)) a) 0
    let q := (Fmt.f32.round .rup false (.fin false total)).1
    match Fmt.f32.decode q with
    | .fin _ m => boundAdd bound m
    | _ => inf32

/-- The read-out of an element (R43): the value, the radius and the flags. -/
def foldEl (af rf : Fmt) (m : Mode) (ftz enc : Bool) (a : AccEl) : Nat × Nat × Flags :=
  let z := Fv.add m (af.decode a.sum) (af.decode a.comp)
  let v := rf.round m (ftz && !enc) z.1
  let vv := rf.decode v.1
  let rad := if vv.isFin && z.1.isFin then boundAdd a.bound (z.1.int - vv.int).natAbs else inf32
  (v.1, if enc then rad else 0, z.2 ||| v.2)

/-! ## The operands of a step (R199, R211 to R214) -/

/-- Row m of a weight image (R204). -/
def wRow (f : MFlight) (ftz : Bool) (img : Array Byte) (m : Nat) : List (Fv × Flags) :=
  (List.range 64).map fun k =>
    let v := operandAt f.fmt ftz img (64 * m + k) (8192 + m)
    if f.op = 3 then (v.1.abs, v.2) else v

/-- Column n of the B operand for row m, element by element (R199, R213, R214). -/
def bCol (f : MFlight) (ftz : Bool) (b : Array Byte) (m n : Nat) : List (Fv × Flags) :=
  let zero : Fv × Flags := (.fin false 0, 0)
  let cols := bitsOf f.n 0 10
  if f.op = 8 then
    let c := bitsOf f.n 10 7
    (List.range 64).map fun k =>
      if k < bitsOf f.n 17 8 * c then operandAt f.fmt ftz b ((n * bitsOf f.n 25 8 + k / c) * c + k % c) 0 else zero
  else if f.op = 9 then
    (List.range 64).map fun k =>
      if k < bitsOf f.n 10 8 then operandAt f.fmt ftz b (m * bitsOf f.n 26 10 + n * bitsOf f.n 18 8 + k) 0 else zero
  else (List.range 64).map fun k => operandAt f.fmt ftz b (64 * n + k) (64 * cols + n)

/-- The pairs of a K-step; a depth-wise step reads w only below T (R214). -/
def stepPairs (f : MFlight) (row col : List (Fv × Flags)) : List (Fv × Fv) :=
  let row := if f.op = 9 then (row.zipIdx).map (fun x => if x.2 < bitsOf f.n 10 8 then x.1.1 else Fv.fin false 0) else row.map (·.1)
  row.zip (col.map (·.1))

/-- The union of the flags of flushed operands (R35). -/
def flushFlags (l : List (Fv × Flags)) : Flags := l.foldl (fun a x => a ||| x.2) 0

/-- Columns `lo` to `hi - 1` of a step applied to its accumulator and the bound plane (R211 to R214, R42): with the flags. -/
def stepColumns (f : MFlight) (lo hi : Nat) (el : Tab (BitVec 64 × BitVec 64)) (bound : Tab (BitVec 32)) :
    Tab (BitVec 64 × BitVec 64) × Tab (BitVec 32) × Flags :=
  let (af, ww) := accFmt f.fmt
  let ftz := !f.enc && decide (f.fmt ≠ 0) && f.ftz.getLsbD (if f.fmt = 1 then 1 else if f.fmt = 2 then 0 else if f.fmt = 3 then 2 else 3)
  let img := f.img.toArray
  let b := f.opnd.toArray
  let cols := bitsOf f.n 0 10
  let rows := (List.range 128).map fun m => wRow f ftz img m
  let run := fun (keys : List Nat) (g : Nat → AccEl → AccEl × Flags) (el : Tab (BitVec 64 × BitVec 64)) (bound : Tab (BitVec 32)) =>
    let olds := keys.zip ((Tab.pick (0, 0) el keys).zip (Tab.pick 0 bound keys))
    let news := olds.map fun x => (x.1, g x.1 { sum := x.2.1.1.toNat, comp := x.2.1.2.toNat, bound := x.2.2.toNat })
    (Tab.merge (0, 0) el (news.map fun x => (x.1, (BitVec.ofNat 64 x.2.1.sum, BitVec.ofNat 64 x.2.1.comp))),
     Tab.merge 0 bound (news.map fun x => (x.1, BitVec.ofNat 32 x.2.1.bound)),
     news.foldl (fun a x => a ||| x.2.2) (0 : Flags))
  let rowA := rows.toArray
  let rowOf := fun (m : Nat) => (rowA[m]?).getD []
  if f.op = 2 then
    if hi < cols ∨ hi ≤ lo then (el, bound, 0)
    else
      let cy := bCol f ftz b 0 0
      let ys := (List.range (cols - 1)).map fun j => (bCol f ftz b 0 (j + 1)).map (·.1)
      let r := run ((List.range 128).map fun m => 512 * m + f.ctlEntry)
        (fun k a => accumulate .f32 96 true a (stepPairs f (rowOf (k / 512)) cy)) el bound
      let r2 := run ((List.range 128).map fun m => 512 * m)
        (fun k a => ({ a with bound := quadAdd a.bound ((rowOf (k / 512)).map (·.1)) ys }, 0)) r.1 r.2.1
      (r2.1, r2.2.1, r.2.2)
  else
    let shared := ((List.range (hi - lo)).map fun i => bCol f ftz b 0 (lo + i)).toArray
    let colOf := fun (m n : Nat) => if f.op = 9 then bCol f ftz b m n else (shared[n - lo]?).getD []
    let keys := ((List.range 128).map fun m => (List.range (hi - lo)).map fun i => 512 * m + lo + i).flatten
    let r := run keys (fun k a =>
      let c := colOf (k / 512) (k % 512)
      let x := accumulate af ww f.enc a (stepPairs f (rowOf (k / 512)) c)
      (x.1, x.2 ||| flushFlags c)) el bound
    let wf : Flags := if lo < hi then rows.foldl (fun a l => a ||| flushFlags (if f.op = 9 then l.take (bitsOf f.n 10 8) else l)) 0 else 0
    (r.1, r.2.1, r.2.2 ||| wf)

/-- The bytes of columns of a read-out (R217): column `j` of the word, rows 64h to 64h + 63, as values or radii. -/
def readOutCol (af rf : Fmt) (m : Mode) (ftz enc rad : Bool) (els : List AccEl) : List Byte × Flags :=
  els.foldl (fun acc a =>
    let r := foldEl af rf m ftz enc a
    (acc.1 ++ (if rad then toBytes 4 r.2.1 else toBytes (rf.width / 8) r.1), acc.2 ||| r.2.2)) ([], 0)

end Sys2Proof.Machine
end

