-- ==== Sys2Proof/WellFormed.lean ====
section
/-! DEFINITION. The reserved field values of the instruction words (R49 rule 2): a word that holds one is no instruction. -/
namespace Sys2Proof

/-- The rounding codes of scalar floating point: 0b101 and 0b110 are reserved (R58). -/
def roundOk (r : BitVec 3) : Bool := r != 5 && r != 6

/-- `fcvt` types: 6 to 15 reserved, source and destination differ, and not both integers (R58). -/
def fcvtOk (src dst : BitVec 4) : Bool :=
  decide (src.toNat < 6) && decide (dst.toNat < 6) && src != dst && !(decide (2 ≤ src.toNat) && decide (2 ≤ dst.toNat))

/-- Format codes of steps that take every format (R66): 0b101 to 0b111 are reserved. -/
def fmtOk (f : BitVec 3) : Bool := decide (f.toNat < 5)

/-- A stamp with nreg 31 has no register to stand in (R68). -/
def stampOk (s : BitVec 1) (n : BitVec 5) : Bool := !(s == 1 && n == 31)

/-- The formats of `mwin` and `mdw` are FP16 and BF16 (R213, R214). -/
def winFmtOk (f : BitVec 3) : Bool := f == 1 || f == 2

/-- The modes of `tld` are all listed; those of one bit are ring and queue (R70). KEEP is for a ring only (R187). -/
def keepOk (m : BitVec 1) (o : BitVec 2) : Bool := !(m == 1 && bitKeep o)
where bitKeep (o : BitVec 2) : Bool := o.getLsbD 1

/-- The check of R49 rule 2: no field of the word holds a reserved value. -/
def Instr.wf : Instr → Bool
  | .sel _ _ _ p _ => decide (p.toNat < 8)                                  -- R56: aux 8-15 reserved
  | .lea _ _ _ s => decide (s.toNat < 4)                                    -- R56: aux 4-15 reserved
  | .cmp _ _ _ _ c _ => decide (c.toNat < 6)                                -- R56: conditions 6-15 reserved
  | .fadd _ _ _ _ r | .fsub _ _ _ _ r | .fmul _ _ _ _ r | .fdiv _ _ _ _ r | .fma _ _ _ _ r => roundOk r
  | .fsqrt _ _ _ r => roundOk r
  | .fcmp _ _ _ _ c _ => decide (c.toNat < 4)                               -- R58
  | .fcvt _ _ s t r => fcvtOk s t && roundOk r
  | .fsgn _ _ _ _ k _ => decide (k.toNat < 3)                               -- R58
  | .fence _ k => k != 3                                                    -- R59
  | .mma _ n _ f s _ _ _ | .mmaE _ n _ f s _ _ _ | .mabs _ n _ f s _ _ _ | .mabsE _ n _ f s _ _ _ => fmtOk f && stampOk s n
  | .mmaA _ _ n _ f s _ _ _ => decide (f.toNat < 4) && stampOk s n          -- R212: no FP64
  | .mwin _ n _ f _ s _ _ _ | .mdw _ n _ f _ s _ _ _ => winFmtOk f && stampOk s n
  | .wld _ f _ _ _ | .wstr _ f _ _ _ => fmtOk f
  | .accrd _ _ _ f _ _ _ | .accrdE _ _ _ _ f _ _ _ => fmtOk f && f != 0     -- R217: no T8 read-out
  | .tst _ _ _ _ m _ _ o | .sct _ _ _ _ m _ _ o => keepOk m o
  | .dxCur _ _ b s => s == 2 || b == 0                                       -- R357: rs2 is reserved unless SEL is 2
  | _ => true

end Sys2Proof
end

