-- ==== Sys2Proof/Decode.lean ====
section
/-! DEFINITION. The decoder, total on every 32-bit word of every section (R48, R49), and the encoder written from the same
tables. `none` is the fate of R49 rules 1 and 2: an unallocated opcode, or a reserved field that holds non-zero. -/
namespace Sys2Proof

/-- The common word: `n` with bits 31:29 = 0b111, by op (R51, R52). -/
def decodeCommon (n : Nat) : Option Instr :=
  match n / 2 ^ 23 % 64 with
  | 0 => if n / 2 ^ 0 % 2 ^ 23 = 0 then some (.nop) else none
  | 1 => if n / 2 ^ 0 % 2 ^ 8 = 0 then some (.add (fld n 18 5) (fld n 13 5) (fld n 8 5)) else none
  | 2 => if n / 2 ^ 0 % 2 ^ 8 = 0 then some (.sub (fld n 18 5) (fld n 13 5) (fld n 8 5)) else none
  | 3 => if n / 2 ^ 0 % 2 ^ 8 = 0 then some (.and (fld n 18 5) (fld n 13 5) (fld n 8 5)) else none
  | 4 => if n / 2 ^ 0 % 2 ^ 8 = 0 then some (.or (fld n 18 5) (fld n 13 5) (fld n 8 5)) else none
  | 5 => if n / 2 ^ 0 % 2 ^ 8 = 0 then some (.xor (fld n 18 5) (fld n 13 5) (fld n 8 5)) else none
  | 6 => if n / 2 ^ 0 % 2 ^ 8 = 0 then some (.shl (fld n 18 5) (fld n 13 5) (fld n 8 5)) else none
  | 7 => if n / 2 ^ 0 % 2 ^ 8 = 0 then some (.shr (fld n 18 5) (fld n 13 5) (fld n 8 5)) else none
  | 8 => if n / 2 ^ 0 % 2 ^ 8 = 0 then some (.sra (fld n 18 5) (fld n 13 5) (fld n 8 5)) else none
  | 9 => if n / 2 ^ 0 % 2 ^ 8 = 0 then some (.slt (fld n 18 5) (fld n 13 5) (fld n 8 5)) else none
  | 10 => if n / 2 ^ 0 % 2 ^ 8 = 0 then some (.sltn (fld n 18 5) (fld n 13 5) (fld n 8 5)) else none
  | 11 => some (.addi (fld n 18 5) (fld n 13 5) (fld n 0 13))
  | 12 => some (.andi (fld n 18 5) (fld n 13 5) (fld n 0 13))
  | 13 => some (.ori (fld n 18 5) (fld n 13 5) (fld n 0 13))
  | 14 => some (.xori (fld n 18 5) (fld n 13 5) (fld n 0 13))
  | 15 => if n / 2 ^ 6 % 2 ^ 7 = 0 then some (.shli (fld n 18 5) (fld n 13 5) (fld n 0 6)) else none
  | 16 => if n / 2 ^ 6 % 2 ^ 7 = 0 then some (.shri (fld n 18 5) (fld n 13 5) (fld n 0 6)) else none
  | 17 => if n / 2 ^ 6 % 2 ^ 7 = 0 then some (.srai (fld n 18 5) (fld n 13 5) (fld n 0 6)) else none
  | 18 => if n / 2 ^ 13 % 2 ^ 5 = 0 then some (.lui (fld n 18 5) (fld n 0 13)) else none
  | 19 => some (.beq (fld n 18 5) (fld n 13 5) (fld n 0 13))
  | 20 => some (.bne (fld n 18 5) (fld n 13 5) (fld n 0 13))
  | 21 => some (.blt (fld n 18 5) (fld n 13 5) (fld n 0 13))
  | 22 => some (.bge (fld n 18 5) (fld n 13 5) (fld n 0 13))
  | 23 => some (.bltn (fld n 18 5) (fld n 13 5) (fld n 0 13))
  | 24 => some (.bgen (fld n 18 5) (fld n 13 5) (fld n 0 13))
  | 25 => some (.jal (fld n 18 5) (fld n 0 18))
  | 26 => if n / 2 ^ 0 % 2 ^ 13 = 0 then some (.jr (fld n 18 5) (fld n 13 5)) else none
  | 27 => if n / 2 ^ 18 % 2 ^ 5 = 0 then some (.loop (fld n 13 5) (fld n 0 13)) else none
  | 28 => if n / 2 ^ 0 % 2 ^ 13 = 0 then some (.qpush (fld n 18 5) (fld n 13 5)) else none
  | 29 => if n / 2 ^ 0 % 2 ^ 13 = 0 then some (.qpop (fld n 18 5) (fld n 13 5)) else none
  | 30 => if n / 2 ^ 4 % 2 ^ 19 = 0 then some (.tkpost (fld n 0 4)) else none
  | 31 => if n / 2 ^ 4 % 2 ^ 19 = 0 then some (.tkwait (fld n 0 4)) else none
  | 32 => if n / 2 ^ 8 % 2 ^ 15 = 0 then some (.tkmask (fld n 4 4) (fld n 0 4)) else none
  | 33 => if n / 2 ^ 0 % 2 ^ 23 = 0 then some (.halt) else none
  | _ => none

/-- K-words of class 0 by op: Integer and predicate words (R56). -/
def decodeK0 (n : Nat) : Option Instr :=
  match n / 2 ^ 22 % 128 with
  | 1 => if n / 2 ^ 2 % 2 ^ 5 = 0 then some (.mul (fld n 17 5) (fld n 12 5) (fld n 7 5) (fld n 0 2)) else none
  | 2 => if n / 2 ^ 2 % 2 ^ 5 = 0 then some (.mulh (fld n 17 5) (fld n 12 5) (fld n 7 5) (fld n 0 2)) else none
  | 3 => if n / 2 ^ 2 % 2 ^ 5 = 0 then some (.mulhn (fld n 17 5) (fld n 12 5) (fld n 7 5) (fld n 0 2)) else none
  | 4 => if n / 2 ^ 2 % 2 ^ 5 = 0 then some (.div (fld n 17 5) (fld n 12 5) (fld n 7 5) (fld n 0 2)) else none
  | 5 => if n / 2 ^ 2 % 2 ^ 5 = 0 then some (.divn (fld n 17 5) (fld n 12 5) (fld n 7 5) (fld n 0 2)) else none
  | 6 => if n / 2 ^ 2 % 2 ^ 5 = 0 then some (.rem (fld n 17 5) (fld n 12 5) (fld n 7 5) (fld n 0 2)) else none
  | 7 => if n / 2 ^ 2 % 2 ^ 5 = 0 then some (.remn (fld n 17 5) (fld n 12 5) (fld n 7 5) (fld n 0 2)) else none
  | 8 => if n / 2 ^ 2 % 2 ^ 5 = 0 then some (.min (fld n 17 5) (fld n 12 5) (fld n 7 5) (fld n 0 2)) else none
  | 9 => if n / 2 ^ 2 % 2 ^ 5 = 0 then some (.max (fld n 17 5) (fld n 12 5) (fld n 7 5) (fld n 0 2)) else none
  | 10 => if n / 2 ^ 2 % 2 ^ 5 = 0 then some (.minn (fld n 17 5) (fld n 12 5) (fld n 7 5) (fld n 0 2)) else none
  | 11 => if n / 2 ^ 2 % 2 ^ 5 = 0 then some (.maxn (fld n 17 5) (fld n 12 5) (fld n 7 5) (fld n 0 2)) else none
  | 12 => if n / 2 ^ 2 % 2 ^ 10 = 0 then some (.clz (fld n 17 5) (fld n 12 5) (fld n 0 2)) else none
  | 13 => if n / 2 ^ 2 % 2 ^ 10 = 0 then some (.ctz (fld n 17 5) (fld n 12 5) (fld n 0 2)) else none
  | 14 => if n / 2 ^ 2 % 2 ^ 10 = 0 then some (.popc (fld n 17 5) (fld n 12 5) (fld n 0 2)) else none
  | 15 => if n / 2 ^ 6 % 2 ^ 1 = 0 then some (.sel (fld n 17 5) (fld n 12 5) (fld n 7 5) (fld n 2 4) (fld n 0 2)) else none
  | 16 => some (.cmp (fld n 17 5) (fld n 12 5) (fld n 7 5) (fld n 6 1) (fld n 2 4) (fld n 0 2))
  | 17 => if n / 2 ^ 0 % 2 ^ 7 = 0 then some (.pand (fld n 17 5) (fld n 12 5) (fld n 7 5)) else none
  | 18 => if n / 2 ^ 0 % 2 ^ 7 = 0 then some (.por (fld n 17 5) (fld n 12 5) (fld n 7 5)) else none
  | 19 => if n / 2 ^ 0 % 2 ^ 12 = 0 then some (.pnot (fld n 17 5) (fld n 12 5)) else none
  | 20 => if n / 2 ^ 0 % 2 ^ 2 = 0 ∧ n / 2 ^ 6 % 2 ^ 1 = 0 then some (.lea (fld n 17 5) (fld n 12 5) (fld n 7 5) (fld n 2 4)) else none
  | 21 => if n / 2 ^ 2 % 2 ^ 5 = 0 then some (.bfx (fld n 17 5) (fld n 12 5) (fld n 7 5) (fld n 0 2)) else none
  | 22 => if n / 2 ^ 2 % 2 ^ 5 = 0 then some (.bfi (fld n 17 5) (fld n 12 5) (fld n 7 5) (fld n 0 2)) else none
  | _ => none

/-- K-words of class 1 by op: Loads and stores (R57). -/
def decodeK1 (n : Nat) : Option Instr :=
  match n / 2 ^ 22 % 128 with
  | 1 => some (.ldB (fld n 17 5) (fld n 12 5) (fld n 0 12))
  | 2 => some (.ldH (fld n 17 5) (fld n 12 5) (fld n 0 12))
  | 3 => some (.ldW (fld n 17 5) (fld n 12 5) (fld n 0 12))
  | 4 => some (.ldD (fld n 17 5) (fld n 12 5) (fld n 0 12))
  | 5 => some (.ldsB (fld n 17 5) (fld n 12 5) (fld n 0 12))
  | 6 => some (.ldsH (fld n 17 5) (fld n 12 5) (fld n 0 12))
  | 7 => some (.ldsW (fld n 17 5) (fld n 12 5) (fld n 0 12))
  | 9 => some (.stB (fld n 17 5) (fld n 12 5) (fld n 0 12))
  | 10 => some (.stH (fld n 17 5) (fld n 12 5) (fld n 0 12))
  | 11 => some (.stW (fld n 17 5) (fld n 12 5) (fld n 0 12))
  | 12 => some (.stD (fld n 17 5) (fld n 12 5) (fld n 0 12))
  | _ => none

/-- K-words of class 2 by op: Scalar floating point (R58). -/
def decodeK2 (n : Nat) : Option Instr :=
  match n / 2 ^ 22 % 128 with
  | 2 | 3 => if n / 2 ^ 3 % 2 ^ 4 = 0 then some (.fadd (fld n 22 1) (fld n 17 5) (fld n 12 5) (fld n 7 5) (fld n 0 3)) else none
  | 4 | 5 => if n / 2 ^ 3 % 2 ^ 4 = 0 then some (.fsub (fld n 22 1) (fld n 17 5) (fld n 12 5) (fld n 7 5) (fld n 0 3)) else none
  | 6 | 7 => if n / 2 ^ 3 % 2 ^ 4 = 0 then some (.fmul (fld n 22 1) (fld n 17 5) (fld n 12 5) (fld n 7 5) (fld n 0 3)) else none
  | 8 | 9 => if n / 2 ^ 3 % 2 ^ 4 = 0 then some (.fdiv (fld n 22 1) (fld n 17 5) (fld n 12 5) (fld n 7 5) (fld n 0 3)) else none
  | 10 | 11 => if n / 2 ^ 3 % 2 ^ 9 = 0 then some (.fsqrt (fld n 22 1) (fld n 17 5) (fld n 12 5) (fld n 0 3)) else none
  | 12 | 13 => if n / 2 ^ 3 % 2 ^ 4 = 0 then some (.fma (fld n 22 1) (fld n 17 5) (fld n 12 5) (fld n 7 5) (fld n 0 3)) else none
  | 14 | 15 => if n / 2 ^ 3 % 2 ^ 4 = 0 then some (.fmin (fld n 22 1) (fld n 17 5) (fld n 12 5) (fld n 7 5) (fld n 0 3)) else none
  | 16 | 17 => if n / 2 ^ 3 % 2 ^ 4 = 0 then some (.fmax (fld n 22 1) (fld n 17 5) (fld n 12 5) (fld n 7 5) (fld n 0 3)) else none
  | 18 | 19 => if n / 2 ^ 3 % 2 ^ 4 = 0 then some (.fminn (fld n 22 1) (fld n 17 5) (fld n 12 5) (fld n 7 5) (fld n 0 3)) else none
  | 20 | 21 => if n / 2 ^ 3 % 2 ^ 4 = 0 then some (.fmaxn (fld n 22 1) (fld n 17 5) (fld n 12 5) (fld n 7 5) (fld n 0 3)) else none
  | 22 | 23 => some (.fcmp (fld n 22 1) (fld n 17 5) (fld n 12 5) (fld n 7 5) (fld n 3 4) (fld n 0 3))
  | 24 | 25 => if n / 2 ^ 3 % 2 ^ 9 = 0 then some (.fclass (fld n 22 1) (fld n 17 5) (fld n 12 5) (fld n 0 3)) else none
  | 26 => if n / 2 ^ 11 % 2 ^ 1 = 0 then some (.fcvt (fld n 17 5) (fld n 12 5) (fld n 7 4) (fld n 3 4) (fld n 0 3)) else none
  | 28 | 29 => if n / 2 ^ 12 % 2 ^ 5 = 0 then some (.fmvi (fld n 22 1) (fld n 17 5) (fld n 0 12)) else none
  | 30 | 31 => some (.fsgn (fld n 22 1) (fld n 17 5) (fld n 12 5) (fld n 7 5) (fld n 3 4) (fld n 0 3))
  | _ => none

/-- K-words of class 3 by op: System words (R59). -/
def decodeK3 (n : Nat) : Option Instr :=
  match n / 2 ^ 22 % 128 with
  | 1 => some (.call (fld n 17 5) (fld n 12 5) (fld n 0 12))
  | 2 => if n / 2 ^ 0 % 2 ^ 12 = 0 ∧ n / 2 ^ 17 % 2 ^ 5 = 0 then some (.ret (fld n 12 5)) else none
  | 3 => if n / 2 ^ 12 % 2 ^ 5 = 0 then some (.csrr (fld n 17 5) (fld n 0 12)) else none
  | 4 => if n / 2 ^ 17 % 2 ^ 5 = 0 then some (.csrw (fld n 12 5) (fld n 0 12)) else none
  | 5 => if n / 2 ^ 17 % 2 ^ 5 = 0 then some (.csrs (fld n 12 5) (fld n 0 12)) else none
  | 6 => if n / 2 ^ 17 % 2 ^ 5 = 0 then some (.csrc (fld n 12 5) (fld n 0 12)) else none
  | 7 => if n / 2 ^ 4 % 2 ^ 18 = 0 then some (.fence (fld n 2 2) (fld n 0 2)) else none
  | 8 => if n / 2 ^ 12 % 2 ^ 10 = 0 then some (.trap (fld n 0 12)) else none
  | 9 => if n / 2 ^ 0 % 2 ^ 22 = 0 then some (.tret) else none
  | 10 => if n / 2 ^ 0 % 2 ^ 22 = 0 then some (.wfi) else none
  | 11 => if n / 2 ^ 8 % 2 ^ 4 = 0 ∧ n / 2 ^ 17 % 2 ^ 5 = 0 then some (.mcall (fld n 12 5) (fld n 6 2) (fld n 0 6)) else none
  | 12 => if n / 2 ^ 12 % 2 ^ 10 = 0 then some (.brk (fld n 0 12)) else none
  | 13 => if n / 2 ^ 0 % 2 ^ 22 = 0 then some (.snap) else none
  | _ => none

/-- K-words of class 4 by op: Atomics and commit groups (R60, R61). -/
def decodeK4 (n : Nat) : Option Instr :=
  match n / 2 ^ 22 % 128 with
  | 2 => if n / 2 ^ 1 % 2 ^ 6 = 1 then some (.amoAdd (fld n 17 5) (fld n 12 5) (fld n 7 5) (fld n 0 1)) else none
  | 3 => if n / 2 ^ 1 % 2 ^ 6 = 1 ∧ n / 2 ^ 17 % 2 ^ 5 = 0 then some (.amoAddNr (fld n 12 5) (fld n 7 5) (fld n 0 1)) else none
  | 4 => if n / 2 ^ 1 % 2 ^ 6 = 1 then some (.amoAnd (fld n 17 5) (fld n 12 5) (fld n 7 5) (fld n 0 1)) else none
  | 5 => if n / 2 ^ 1 % 2 ^ 6 = 1 ∧ n / 2 ^ 17 % 2 ^ 5 = 0 then some (.amoAndNr (fld n 12 5) (fld n 7 5) (fld n 0 1)) else none
  | 6 => if n / 2 ^ 1 % 2 ^ 6 = 1 then some (.amoOr (fld n 17 5) (fld n 12 5) (fld n 7 5) (fld n 0 1)) else none
  | 7 => if n / 2 ^ 1 % 2 ^ 6 = 1 ∧ n / 2 ^ 17 % 2 ^ 5 = 0 then some (.amoOrNr (fld n 12 5) (fld n 7 5) (fld n 0 1)) else none
  | 8 => if n / 2 ^ 1 % 2 ^ 6 = 1 then some (.amoXor (fld n 17 5) (fld n 12 5) (fld n 7 5) (fld n 0 1)) else none
  | 9 => if n / 2 ^ 1 % 2 ^ 6 = 1 ∧ n / 2 ^ 17 % 2 ^ 5 = 0 then some (.amoXorNr (fld n 12 5) (fld n 7 5) (fld n 0 1)) else none
  | 10 => if n / 2 ^ 1 % 2 ^ 6 = 1 then some (.amoMin (fld n 17 5) (fld n 12 5) (fld n 7 5) (fld n 0 1)) else none
  | 11 => if n / 2 ^ 1 % 2 ^ 6 = 1 ∧ n / 2 ^ 17 % 2 ^ 5 = 0 then some (.amoMinNr (fld n 12 5) (fld n 7 5) (fld n 0 1)) else none
  | 12 => if n / 2 ^ 1 % 2 ^ 6 = 1 then some (.amoMax (fld n 17 5) (fld n 12 5) (fld n 7 5) (fld n 0 1)) else none
  | 13 => if n / 2 ^ 1 % 2 ^ 6 = 1 ∧ n / 2 ^ 17 % 2 ^ 5 = 0 then some (.amoMaxNr (fld n 12 5) (fld n 7 5) (fld n 0 1)) else none
  | 14 => if n / 2 ^ 1 % 2 ^ 6 = 1 then some (.amoMinn (fld n 17 5) (fld n 12 5) (fld n 7 5) (fld n 0 1)) else none
  | 15 => if n / 2 ^ 1 % 2 ^ 6 = 1 ∧ n / 2 ^ 17 % 2 ^ 5 = 0 then some (.amoMinnNr (fld n 12 5) (fld n 7 5) (fld n 0 1)) else none
  | 16 => if n / 2 ^ 1 % 2 ^ 6 = 1 then some (.amoMaxn (fld n 17 5) (fld n 12 5) (fld n 7 5) (fld n 0 1)) else none
  | 17 => if n / 2 ^ 1 % 2 ^ 6 = 1 ∧ n / 2 ^ 17 % 2 ^ 5 = 0 then some (.amoMaxnNr (fld n 12 5) (fld n 7 5) (fld n 0 1)) else none
  | 18 => if n / 2 ^ 1 % 2 ^ 6 = 1 then some (.amoSwap (fld n 17 5) (fld n 12 5) (fld n 7 5) (fld n 0 1)) else none
  | 19 => if n / 2 ^ 1 % 2 ^ 6 = 1 ∧ n / 2 ^ 17 % 2 ^ 5 = 0 then some (.amoSwapNr (fld n 12 5) (fld n 7 5) (fld n 0 1)) else none
  | 20 => if n / 2 ^ 1 % 2 ^ 6 = 1 then some (.amoCas (fld n 17 5) (fld n 12 5) (fld n 7 5) (fld n 0 1)) else none
  | 21 => if n / 2 ^ 1 % 2 ^ 6 = 1 then some (.amoCasNr (fld n 17 5) (fld n 12 5) (fld n 7 5) (fld n 0 1)) else none
  | 22 => if n / 2 ^ 1 % 2 ^ 6 = 1 then some (.amoInc (fld n 17 5) (fld n 12 5) (fld n 7 5) (fld n 0 1)) else none
  | 23 => if n / 2 ^ 1 % 2 ^ 6 = 1 ∧ n / 2 ^ 17 % 2 ^ 5 = 0 then some (.amoIncNr (fld n 12 5) (fld n 7 5) (fld n 0 1)) else none
  | 24 => if n / 2 ^ 1 % 2 ^ 6 = 1 then some (.amoFadd (fld n 17 5) (fld n 12 5) (fld n 7 5) (fld n 0 1)) else none
  | 25 => if n / 2 ^ 1 % 2 ^ 6 = 1 ∧ n / 2 ^ 17 % 2 ^ 5 = 0 then some (.amoFaddNr (fld n 12 5) (fld n 7 5) (fld n 0 1)) else none
  | 26 => if n / 2 ^ 1 % 2 ^ 6 = 1 then some (.amoFmin (fld n 17 5) (fld n 12 5) (fld n 7 5) (fld n 0 1)) else none
  | 27 => if n / 2 ^ 1 % 2 ^ 6 = 1 ∧ n / 2 ^ 17 % 2 ^ 5 = 0 then some (.amoFminNr (fld n 12 5) (fld n 7 5) (fld n 0 1)) else none
  | 28 => if n / 2 ^ 1 % 2 ^ 6 = 1 then some (.amoFmax (fld n 17 5) (fld n 12 5) (fld n 7 5) (fld n 0 1)) else none
  | 29 => if n / 2 ^ 1 % 2 ^ 6 = 1 ∧ n / 2 ^ 17 % 2 ^ 5 = 0 then some (.amoFmaxNr (fld n 12 5) (fld n 7 5) (fld n 0 1)) else none
  | 64 => if n / 2 ^ 0 % 2 ^ 22 = 0 then some (.grpOpen) else none
  | 65 => if n / 2 ^ 0 % 2 ^ 17 = 0 then some (.grpCommit (fld n 17 5)) else none
  | 66 => if n / 2 ^ 0 % 2 ^ 17 = 0 then some (.grpAbort (fld n 17 5)) else none
  | 67 => if n / 2 ^ 0 % 2 ^ 17 = 0 then some (.grpStat (fld n 17 5)) else none
  | _ => none

/-- K-words of class 5 by op: Tasks, rings and symbols (R61). -/
def decodeK5 (n : Nat) : Option Instr :=
  match n / 2 ^ 22 % 128 with
  | 1 => if n / 2 ^ 1 % 2 ^ 11 = 0 ∧ n / 2 ^ 17 % 2 ^ 5 = 0 then some (.spawn (fld n 12 5) (fld n 0 1)) else none
  | 2 => if n / 2 ^ 1 % 2 ^ 11 = 0 ∧ n / 2 ^ 17 % 2 ^ 5 = 0 then some (.texit (fld n 12 5) (fld n 0 1)) else none
  | 3 => if n / 2 ^ 0 % 2 ^ 7 = 0 ∧ n / 2 ^ 17 % 2 ^ 5 = 0 then some (.cntAdd (fld n 12 5) (fld n 7 5)) else none
  | 4 => if n / 2 ^ 0 % 2 ^ 7 = 0 then some (.cntWait (fld n 17 5) (fld n 12 5) (fld n 7 5)) else none
  | 5 => if n / 2 ^ 2 % 2 ^ 10 = 0 ∧ n / 2 ^ 17 % 2 ^ 5 = 0 then some (.cancel (fld n 12 5) (fld n 0 2)) else none
  | 6 => if n / 2 ^ 2 % 2 ^ 20 = 0 then some (.barArrive (fld n 0 2)) else none
  | 7 => if n / 2 ^ 2 % 2 ^ 15 = 0 then some (.barWait (fld n 17 5) (fld n 0 2)) else none
  | 8 => if n / 2 ^ 0 % 2 ^ 12 = 0 then some (.keyq (fld n 17 5) (fld n 12 5)) else none
  | 16 => if n / 2 ^ 5 % 2 ^ 2 = 0 ∧ n / 2 ^ 17 % 2 ^ 5 = 0 then some (.rgSet (fld n 12 5) (fld n 7 5) (fld n 0 5)) else none
  | 17 => if n / 2 ^ 7 % 2 ^ 5 = 0 then some (.rgStat (fld n 17 5) (fld n 12 5) (fld n 5 2) (fld n 0 5)) else none
  | 18 => if n / 2 ^ 5 % 2 ^ 17 = 0 then some (.rgReset (fld n 0 5)) else none
  | 32 => if n / 2 ^ 0 % 2 ^ 12 = 0 then some (.symAlloc (fld n 17 5) (fld n 12 5)) else none
  | 33 => if n / 2 ^ 0 % 2 ^ 7 = 0 ∧ n / 2 ^ 17 % 2 ^ 5 = 0 then some (.symFree (fld n 12 5) (fld n 7 5)) else none
  | 34 => if n / 2 ^ 0 % 2 ^ 12 = 0 then some (.symRef (fld n 17 5) (fld n 12 5)) else none
  | 35 => if n / 2 ^ 0 % 2 ^ 12 = 0 then some (.symUnref (fld n 17 5) (fld n 12 5)) else none
  | 36 => if n / 2 ^ 2 % 2 ^ 10 = 0 then some (.symStat (fld n 17 5) (fld n 12 5) (fld n 0 2)) else none
  | 37 => if n / 2 ^ 0 % 2 ^ 12 = 0 ∧ n / 2 ^ 17 % 2 ^ 5 = 0 then some (.condSet (fld n 12 5)) else none
  | 38 => if n / 2 ^ 0 % 2 ^ 7 = 0 then some (.condRun (fld n 17 5) (fld n 12 5) (fld n 7 5)) else none
  | 39 => if n / 2 ^ 1 % 2 ^ 6 = 0 then some (.afAdd (fld n 17 5) (fld n 12 5) (fld n 7 5) (fld n 0 1)) else none
  | _ => none

/-- K-words of class 6 by op: KV blocks, streams, attention and collectives (R61). -/
def decodeK6 (n : Nat) : Option Instr :=
  match n / 2 ^ 22 % 128 with
  | 1 => if n / 2 ^ 0 % 2 ^ 7 = 0 then some (.kvSlot (fld n 17 5) (fld n 12 5) (fld n 7 5)) else none
  | 2 => if n / 2 ^ 0 % 2 ^ 7 = 0 then some (.kvAppend (fld n 17 5) (fld n 12 5) (fld n 7 5)) else none
  | 3 => if n / 2 ^ 0 % 2 ^ 7 = 0 then some (.kvEvict (fld n 17 5) (fld n 12 5) (fld n 7 5)) else none
  | 4 => if n / 2 ^ 0 % 2 ^ 7 = 0 then some (.kvTrunc (fld n 17 5) (fld n 12 5) (fld n 7 5)) else none
  | 5 => if n / 2 ^ 0 % 2 ^ 7 = 0 then some (.kvShare (fld n 17 5) (fld n 12 5) (fld n 7 5)) else none
  | 16 => if n / 2 ^ 2 % 2 ^ 5 = 0 then some (.dxCur (fld n 17 5) (fld n 12 5) (fld n 7 5) (fld n 0 2)) else none
  | 17 => if n / 2 ^ 0 % 2 ^ 12 = 0 then some (.dxTrunc (fld n 17 5) (fld n 12 5)) else none
  | 18 => if n / 2 ^ 0 % 2 ^ 12 = 0 then some (.dxFrame (fld n 17 5) (fld n 12 5)) else none
  | 19 => if n / 2 ^ 0 % 2 ^ 7 = 0 then some (.dxEmit (fld n 17 5) (fld n 12 5) (fld n 7 5)) else none
  | 20 => if n / 2 ^ 0 % 2 ^ 12 = 0 then some (.dxCkpt (fld n 17 5) (fld n 12 5)) else none
  | 21 => if n / 2 ^ 3 % 2 ^ 9 = 0 then some (.dxStat (fld n 17 5) (fld n 12 5) (fld n 0 3)) else none
  | 32 => if n / 2 ^ 0 % 2 ^ 7 = 0 ∧ n / 2 ^ 17 % 2 ^ 5 = 0 then some (.asLoad (fld n 12 5) (fld n 7 5)) else none
  | 33 => if n / 2 ^ 0 % 2 ^ 12 = 0 ∧ n / 2 ^ 17 % 2 ^ 5 = 0 then some (.asGo (fld n 12 5)) else none
  | 34 => if n / 2 ^ 1 % 2 ^ 16 = 0 then some (.asWait (fld n 17 5) (fld n 0 1)) else none
  | 48 => if n / 2 ^ 0 % 2 ^ 12 = 0 ∧ n / 2 ^ 17 % 2 ^ 5 = 0 then some (.bpSend (fld n 12 5)) else none
  | 49 => if n / 2 ^ 0 % 2 ^ 12 = 0 ∧ n / 2 ^ 17 % 2 ^ 5 = 0 then some (.bpRecv (fld n 12 5)) else none
  | 50 => if n / 2 ^ 0 % 2 ^ 7 = 0 then some (.bpWait (fld n 17 5) (fld n 12 5) (fld n 7 5)) else none
  | 51 => if n / 2 ^ 0 % 2 ^ 7 = 0 ∧ n / 2 ^ 17 % 2 ^ 5 = 0 then some (.bpCancel (fld n 12 5) (fld n 7 5)) else none
  | 52 => if n / 2 ^ 0 % 2 ^ 12 = 0 then some (.bpStat (fld n 17 5) (fld n 12 5)) else none
  | 53 => if n / 2 ^ 0 % 2 ^ 12 = 0 ∧ n / 2 ^ 17 % 2 ^ 5 = 0 then some (.collRed (fld n 12 5)) else none
  | _ => none

/-- K-words by class (R54, R55). -/
def decodeK (n : Nat) : Option Instr :=
  match n / 2 ^ 29 with
  | 0 => decodeK0 n
  | 1 => decodeK1 n
  | 2 => decodeK2 n
  | 3 => decodeK3 n
  | 4 => decodeK4 n
  | 5 => decodeK5 n
  | 6 => decodeK6 n
  | _ => none

/-- V-words by op (R62, R65). -/
def decodeV (n : Nat) : Option Instr :=
  match n / 2 ^ 25 with
  | 1 => if n / 2 ^ 0 % 2 ^ 2 = 0 then some (.vshape (fld n 4 21) (fld n 3 1) (fld n 2 1)) else none
  | 2 => some (.vadd (fld n 18 7) (fld n 11 7) (fld n 4 7) (fld n 3 1) (fld n 2 1) (fld n 0 2))
  | 3 => some (.vsub (fld n 18 7) (fld n 11 7) (fld n 4 7) (fld n 3 1) (fld n 2 1) (fld n 0 2))
  | 4 => some (.vmul (fld n 18 7) (fld n 11 7) (fld n 4 7) (fld n 3 1) (fld n 2 1) (fld n 0 2))
  | 5 => some (.vfma (fld n 18 7) (fld n 11 7) (fld n 4 7) (fld n 3 1) (fld n 2 1) (fld n 0 2))
  | 6 => some (.vfms (fld n 18 7) (fld n 11 7) (fld n 4 7) (fld n 3 1) (fld n 2 1) (fld n 0 2))
  | 7 => some (.vdiv (fld n 18 7) (fld n 11 7) (fld n 4 7) (fld n 3 1) (fld n 2 1) (fld n 0 2))
  | 8 => if n / 2 ^ 4 % 2 ^ 7 = 0 then some (.vsqrt (fld n 18 7) (fld n 11 7) (fld n 3 1) (fld n 2 1) (fld n 0 2)) else none
  | 9 => if n / 2 ^ 4 % 2 ^ 7 = 0 then some (.vrcp (fld n 18 7) (fld n 11 7) (fld n 3 1) (fld n 2 1) (fld n 0 2)) else none
  | 10 => some (.vmin (fld n 18 7) (fld n 11 7) (fld n 4 7) (fld n 3 1) (fld n 2 1) (fld n 0 2))
  | 11 => some (.vmax (fld n 18 7) (fld n 11 7) (fld n 4 7) (fld n 3 1) (fld n 2 1) (fld n 0 2))
  | 12 => some (.vminn (fld n 18 7) (fld n 11 7) (fld n 4 7) (fld n 3 1) (fld n 2 1) (fld n 0 2))
  | 13 => some (.vmaxn (fld n 18 7) (fld n 11 7) (fld n 4 7) (fld n 3 1) (fld n 2 1) (fld n 0 2))
  | 14 => if n / 2 ^ 4 % 2 ^ 7 = 0 then some (.vabs (fld n 18 7) (fld n 11 7) (fld n 3 1) (fld n 2 1) (fld n 0 2)) else none
  | 15 => if n / 2 ^ 4 % 2 ^ 7 = 0 then some (.vneg (fld n 18 7) (fld n 11 7) (fld n 3 1) (fld n 2 1) (fld n 0 2)) else none
  | 16 => some (.vcmp (fld n 18 7) (fld n 11 7) (fld n 4 7) (fld n 3 1) (fld n 2 1) (fld n 0 2))
  | 17 => some (.vsel (fld n 18 7) (fld n 11 7) (fld n 4 7) (fld n 3 1) (fld n 2 1) (fld n 0 2))
  | 18 => some (.vand (fld n 18 7) (fld n 11 7) (fld n 4 7) (fld n 3 1) (fld n 2 1) (fld n 0 2))
  | 19 => some (.vor (fld n 18 7) (fld n 11 7) (fld n 4 7) (fld n 3 1) (fld n 2 1) (fld n 0 2))
  | 20 => some (.vxor (fld n 18 7) (fld n 11 7) (fld n 4 7) (fld n 3 1) (fld n 2 1) (fld n 0 2))
  | 21 => if n / 2 ^ 4 % 2 ^ 7 = 0 then some (.vnot (fld n 18 7) (fld n 11 7) (fld n 3 1) (fld n 2 1) (fld n 0 2)) else none
  | 22 => some (.vshl (fld n 18 7) (fld n 11 7) (fld n 4 7) (fld n 3 1) (fld n 2 1) (fld n 0 2))
  | 23 => some (.vshr (fld n 18 7) (fld n 11 7) (fld n 4 7) (fld n 3 1) (fld n 2 1) (fld n 0 2))
  | 24 => some (.vsra (fld n 18 7) (fld n 11 7) (fld n 4 7) (fld n 3 1) (fld n 2 1) (fld n 0 2))
  | 25 => some (.vcvt (fld n 18 7) (fld n 11 7) (fld n 4 7) (fld n 3 1) (fld n 2 1) (fld n 0 2))
  | 26 => some (.vscale (fld n 18 7) (fld n 11 7) (fld n 4 7) (fld n 3 1) (fld n 2 1) (fld n 0 2))
  | 27 => if n / 2 ^ 4 % 2 ^ 7 = 0 then some (.vexp2 (fld n 18 7) (fld n 11 7) (fld n 3 1) (fld n 2 1) (fld n 0 2)) else none
  | 28 => if n / 2 ^ 4 % 2 ^ 7 = 0 then some (.vlog2 (fld n 18 7) (fld n 11 7) (fld n 3 1) (fld n 2 1) (fld n 0 2)) else none
  | 29 => if n / 2 ^ 4 % 2 ^ 7 = 0 then some (.vsum (fld n 18 7) (fld n 11 7) (fld n 3 1) (fld n 2 1) (fld n 0 2)) else none
  | 30 => if n / 2 ^ 4 % 2 ^ 7 = 0 then some (.vmaxr (fld n 18 7) (fld n 11 7) (fld n 3 1) (fld n 2 1) (fld n 0 2)) else none
  | 31 => some (.vperm (fld n 18 7) (fld n 11 7) (fld n 4 7) (fld n 3 1) (fld n 2 1) (fld n 0 2))
  | 32 => if n / 2 ^ 4 % 2 ^ 7 = 0 then some (.vbcast (fld n 18 7) (fld n 11 7) (fld n 3 1) (fld n 2 1) (fld n 0 2)) else none
  | 33 => if n / 2 ^ 4 % 2 ^ 7 = 0 then some (.vmov (fld n 18 7) (fld n 11 7) (fld n 3 1) (fld n 2 1) (fld n 0 2)) else none
  | 34 => if n / 2 ^ 4 % 2 ^ 7 = 0 then some (.vclass (fld n 18 7) (fld n 11 7) (fld n 3 1) (fld n 2 1) (fld n 0 2)) else none
  | 35 => if n / 2 ^ 4 % 2 ^ 7 = 0 then some (.vpopc (fld n 18 7) (fld n 11 7) (fld n 3 1) (fld n 2 1) (fld n 0 2)) else none
  | 36 => if n / 2 ^ 4 % 2 ^ 7 = 0 then some (.vmagsum (fld n 18 7) (fld n 11 7) (fld n 3 1) (fld n 2 1) (fld n 0 2)) else none
  | 37 => some (.vrelax (fld n 18 7) (fld n 11 7) (fld n 4 7) (fld n 3 1) (fld n 2 1) (fld n 0 2))
  | 38 => some (.vrule (fld n 18 7) (fld n 11 7) (fld n 4 7) (fld n 3 1) (fld n 2 1) (fld n 0 2))
  | 39 => if n / 2 ^ 1 % 2 ^ 1 = 0 then some (.mcfg (fld n 18 7) (fld n 4 14) (fld n 3 1) (fld n 2 1) (fld n 0 1)) else none
  | 40 => if n / 2 ^ 4 % 2 ^ 14 = 0 then some (.mzero (fld n 18 7) (fld n 3 1) (fld n 2 1) (fld n 0 2)) else none
  | 41 => if n / 2 ^ 4 % 2 ^ 7 = 0 then some (.mtr (fld n 18 7) (fld n 11 7) (fld n 3 1) (fld n 2 1) (fld n 0 2)) else none
  | _ => none

/-- M-words by op (R66, R67). -/
def decodeM (n : Nat) : Option Instr :=
  match n / 2 ^ 25 with
  | 65 => if n / 2 ^ 1 % 2 ^ 1 = 0 ∧ n / 2 ^ 5 % 2 ^ 1 = 0 ∧ n / 2 ^ 20 % 2 ^ 5 = 0 then some (.mma (fld n 15 5) (fld n 10 5) (fld n 9 1) (fld n 6 3) (fld n 4 1) (fld n 3 1) (fld n 2 1) (fld n 0 1)) else if n / 2 ^ 1 % 2 ^ 1 = 0 ∧ n / 2 ^ 5 % 2 ^ 1 = 1 ∧ n / 2 ^ 20 % 2 ^ 5 = 0 then some (.mmaE (fld n 15 5) (fld n 10 5) (fld n 9 1) (fld n 6 3) (fld n 4 1) (fld n 3 1) (fld n 2 1) (fld n 0 1)) else none
  | 66 => if n / 2 ^ 1 % 2 ^ 1 = 0 ∧ n / 2 ^ 5 % 2 ^ 1 = 1 then some (.mmaA (fld n 20 5) (fld n 15 5) (fld n 10 5) (fld n 9 1) (fld n 6 3) (fld n 4 1) (fld n 3 1) (fld n 2 1) (fld n 0 1)) else none
  | 67 => if n / 2 ^ 1 % 2 ^ 1 = 0 ∧ n / 2 ^ 5 % 2 ^ 1 = 0 ∧ n / 2 ^ 20 % 2 ^ 5 = 0 then some (.mabs (fld n 15 5) (fld n 10 5) (fld n 9 1) (fld n 6 3) (fld n 4 1) (fld n 3 1) (fld n 2 1) (fld n 0 1)) else if n / 2 ^ 1 % 2 ^ 1 = 0 ∧ n / 2 ^ 5 % 2 ^ 1 = 1 ∧ n / 2 ^ 20 % 2 ^ 5 = 0 then some (.mabsE (fld n 15 5) (fld n 10 5) (fld n 9 1) (fld n 6 3) (fld n 4 1) (fld n 3 1) (fld n 2 1) (fld n 0 1)) else none
  | 68 => if n / 2 ^ 1 % 2 ^ 1 = 0 ∧ n / 2 ^ 4 % 2 ^ 2 = 0 ∧ n / 2 ^ 9 % 2 ^ 11 = 0 then some (.wld (fld n 20 5) (fld n 6 3) (fld n 3 1) (fld n 2 1) (fld n 0 1)) else none
  | 69 => if n / 2 ^ 1 % 2 ^ 1 = 0 ∧ n / 2 ^ 4 % 2 ^ 2 = 0 ∧ n / 2 ^ 9 % 2 ^ 11 = 0 then some (.wstr (fld n 20 5) (fld n 6 3) (fld n 3 1) (fld n 2 1) (fld n 0 1)) else none
  | 70 => if n / 2 ^ 4 % 2 ^ 2 = 0 ∧ n / 2 ^ 15 % 2 ^ 5 = 0 then some (.accrd (fld n 20 5) (fld n 10 5) (fld n 9 1) (fld n 6 3) (fld n 3 1) (fld n 2 1) (fld n 0 2)) else if n / 2 ^ 4 % 2 ^ 2 = 2 then some (.accrdE (fld n 20 5) (fld n 15 5) (fld n 10 5) (fld n 9 1) (fld n 6 3) (fld n 3 1) (fld n 2 1) (fld n 0 2)) else none
  | 71 => if n / 2 ^ 0 % 2 ^ 2 = 0 ∧ n / 2 ^ 4 % 2 ^ 2 = 0 ∧ n / 2 ^ 10 % 2 ^ 15 = 0 then some (.acczr (fld n 9 1) (fld n 6 3) (fld n 3 1) (fld n 2 1)) else none
  | 72 => if n / 2 ^ 1 % 2 ^ 1 = 0 ∧ n / 2 ^ 20 % 2 ^ 5 = 0 then some (.mwin (fld n 15 5) (fld n 10 5) (fld n 9 1) (fld n 6 3) (fld n 5 1) (fld n 4 1) (fld n 3 1) (fld n 2 1) (fld n 0 1)) else none
  | 73 => if n / 2 ^ 1 % 2 ^ 1 = 0 ∧ n / 2 ^ 20 % 2 ^ 5 = 0 then some (.mdw (fld n 15 5) (fld n 10 5) (fld n 9 1) (fld n 6 3) (fld n 5 1) (fld n 4 1) (fld n 3 1) (fld n 2 1) (fld n 0 1)) else none
  | _ => none

/-- T-words by op (R69, R70). -/
def decodeT (n : Nat) : Option Instr :=
  match n / 2 ^ 26 with
  | 1 => if n / 2 ^ 1 % 2 ^ 1 = 0 then some (.tld (fld n 21 5) (fld n 16 5) (fld n 11 5) (fld n 6 5) (fld n 4 2) (fld n 3 1) (fld n 2 1) (fld n 0 1)) else none
  | 2 => if n / 2 ^ 5 % 2 ^ 1 = 0 then some (.tst (fld n 21 5) (fld n 16 5) (fld n 11 5) (fld n 6 5) (fld n 4 1) (fld n 3 1) (fld n 2 1) (fld n 0 2)) else none
  | 3 => if n / 2 ^ 1 % 2 ^ 1 = 0 ∧ n / 2 ^ 4 % 2 ^ 2 = 0 ∧ n / 2 ^ 11 % 2 ^ 5 = 0 then some (.cpy (fld n 21 5) (fld n 16 5) (fld n 6 5) (fld n 3 1) (fld n 2 1) (fld n 0 1)) else none
  | 4 => if n / 2 ^ 1 % 2 ^ 1 = 0 ∧ n / 2 ^ 5 % 2 ^ 1 = 0 then some (.gat (fld n 21 5) (fld n 16 5) (fld n 11 5) (fld n 6 5) (fld n 4 1) (fld n 3 1) (fld n 2 1) (fld n 0 1)) else none
  | 5 => if n / 2 ^ 5 % 2 ^ 1 = 0 then some (.sct (fld n 21 5) (fld n 16 5) (fld n 11 5) (fld n 6 5) (fld n 4 1) (fld n 3 1) (fld n 2 1) (fld n 0 2)) else none
  | 6 => if n / 2 ^ 1 % 2 ^ 1 = 0 ∧ n / 2 ^ 5 % 2 ^ 1 = 0 then some (.win (fld n 21 5) (fld n 16 5) (fld n 11 5) (fld n 6 5) (fld n 4 1) (fld n 3 1) (fld n 2 1) (fld n 0 1)) else none
  | 7 => if n / 2 ^ 0 % 2 ^ 2 = 0 ∧ n / 2 ^ 4 % 2 ^ 12 = 0 then some (.rclone (fld n 21 5) (fld n 16 5) (fld n 3 1) (fld n 2 1)) else none
  | 8 => if n / 2 ^ 0 % 2 ^ 2 = 0 ∧ n / 2 ^ 4 % 2 ^ 12 = 0 then some (.rinit (fld n 21 5) (fld n 16 5) (fld n 3 1) (fld n 2 1)) else none
  | 9 => if n / 2 ^ 0 % 2 ^ 2 = 0 ∧ n / 2 ^ 4 % 2 ^ 2 = 3 then some (.wfeed (fld n 21 5) (fld n 16 5) (fld n 11 5) (fld n 6 5) (fld n 3 1) (fld n 2 1)) else none
  | 10 => if n / 2 ^ 0 % 2 ^ 2 = 0 ∧ n / 2 ^ 4 % 2 ^ 7 = 0 ∧ n / 2 ^ 21 % 2 ^ 5 = 0 then some (.rgwf (fld n 16 5) (fld n 11 5) (fld n 3 1) (fld n 2 1)) else none
  | 11 => if n / 2 ^ 0 % 2 ^ 2 = 0 ∧ n / 2 ^ 4 % 2 ^ 7 = 0 ∧ n / 2 ^ 21 % 2 ^ 5 = 0 then some (.rgwe (fld n 16 5) (fld n 11 5) (fld n 3 1) (fld n 2 1)) else none
  | 12 => if n / 2 ^ 0 % 2 ^ 2 = 0 ∧ n / 2 ^ 4 % 2 ^ 7 = 0 ∧ n / 2 ^ 21 % 2 ^ 5 = 0 then some (.rgclaim (fld n 16 5) (fld n 11 5) (fld n 3 1) (fld n 2 1)) else none
  | 13 => if n / 2 ^ 0 % 2 ^ 2 = 0 ∧ n / 2 ^ 4 % 2 ^ 7 = 0 ∧ n / 2 ^ 21 % 2 ^ 5 = 0 then some (.rgpush (fld n 16 5) (fld n 11 5) (fld n 3 1) (fld n 2 1)) else none
  | 14 => if n / 2 ^ 0 % 2 ^ 2 = 0 ∧ n / 2 ^ 4 % 2 ^ 7 = 0 ∧ n / 2 ^ 21 % 2 ^ 5 = 0 then some (.rgpop (fld n 16 5) (fld n 11 5) (fld n 3 1) (fld n 2 1)) else none
  | 15 => if n / 2 ^ 0 % 2 ^ 2 = 0 ∧ n / 2 ^ 4 % 2 ^ 7 = 0 ∧ n / 2 ^ 16 % 2 ^ 10 = 0 then some (.rgend (fld n 11 5) (fld n 3 1) (fld n 2 1)) else none
  | 16 => if n / 2 ^ 0 % 2 ^ 2 = 0 ∧ n / 2 ^ 4 % 2 ^ 2 = 0 ∧ n / 2 ^ 11 % 2 ^ 10 = 0 then some (.tdset (fld n 21 5) (fld n 6 5) (fld n 3 1) (fld n 2 1)) else none
  | _ => none

/-- The allocated encodings of a section (R48), before the reserved field values of R49 are looked at. -/
def decodeRow (sec : Section) (n : Nat) : Option Instr :=
  if n / 2 ^ 29 = 7 then decodeCommon n
  else match sec with
    | .kcode => decodeK n
    | .tcode => decodeT n
    | .ccode => if n / 2 ^ 31 = 0 then decodeV n else if n / 2 ^ 30 = 2 then decodeM n else none

/-- Decoding of a word fetched from a section (R48, R49): `none` raises ILLEGAL_INSTR. -/
def decode (sec : Section) (w : BitVec 32) : Option Instr :=
  match decodeRow sec w.toNat with
  | some i => if i.wf then some i else none
  | none => none

/-- Decoding of code bytes, little-endian (R47): the instruction and the bytes after it. -/
def decodeBytes (sec : Section) : List Byte → Option (Instr × List Byte)
  | b0 :: b1 :: b2 :: b3 :: rest =>
    (decode sec (BitVec.ofNat 32 (Machine.ofBytes [b0, b1, b2, b3]))).map fun i => (i, rest)
  | _ => none

/-- A word from its fixed bits and its fields, each shifted to its place. -/
def word (base : Nat) (fs : List (Nat × Nat)) : BitVec 32 :=
  BitVec.ofNat 32 (fs.foldl (fun a f => a + f.1 * 2 ^ f.2) base)

/-- The encoding of an instruction (R51 to R70); the steps that are no words have none. -/
def encode : Instr → Option (BitVec 32)
  | .nop => some (word 0xE0000000 [])
  | .add d a b => some (word 0xE0800000 [(d.toNat, 18), (a.toNat, 13), (b.toNat, 8)])
  | .sub d a b => some (word 0xE1000000 [(d.toNat, 18), (a.toNat, 13), (b.toNat, 8)])
  | .and d a b => some (word 0xE1800000 [(d.toNat, 18), (a.toNat, 13), (b.toNat, 8)])
  | .or d a b => some (word 0xE2000000 [(d.toNat, 18), (a.toNat, 13), (b.toNat, 8)])
  | .xor d a b => some (word 0xE2800000 [(d.toNat, 18), (a.toNat, 13), (b.toNat, 8)])
  | .shl d a b => some (word 0xE3000000 [(d.toNat, 18), (a.toNat, 13), (b.toNat, 8)])
  | .shr d a b => some (word 0xE3800000 [(d.toNat, 18), (a.toNat, 13), (b.toNat, 8)])
  | .sra d a b => some (word 0xE4000000 [(d.toNat, 18), (a.toNat, 13), (b.toNat, 8)])
  | .slt d a b => some (word 0xE4800000 [(d.toNat, 18), (a.toNat, 13), (b.toNat, 8)])
  | .sltn d a b => some (word 0xE5000000 [(d.toNat, 18), (a.toNat, 13), (b.toNat, 8)])
  | .addi d a i => some (word 0xE5800000 [(d.toNat, 18), (a.toNat, 13), (i.toNat, 0)])
  | .andi d a i => some (word 0xE6000000 [(d.toNat, 18), (a.toNat, 13), (i.toNat, 0)])
  | .ori d a i => some (word 0xE6800000 [(d.toNat, 18), (a.toNat, 13), (i.toNat, 0)])
  | .xori d a i => some (word 0xE7000000 [(d.toNat, 18), (a.toNat, 13), (i.toNat, 0)])
  | .shli d a s => some (word 0xE7800000 [(d.toNat, 18), (a.toNat, 13), (s.toNat, 0)])
  | .shri d a s => some (word 0xE8000000 [(d.toNat, 18), (a.toNat, 13), (s.toNat, 0)])
  | .srai d a s => some (word 0xE8800000 [(d.toNat, 18), (a.toNat, 13), (s.toNat, 0)])
  | .lui d i => some (word 0xE9000000 [(d.toNat, 18), (i.toNat, 0)])
  | .beq d a i => some (word 0xE9800000 [(d.toNat, 18), (a.toNat, 13), (i.toNat, 0)])
  | .bne d a i => some (word 0xEA000000 [(d.toNat, 18), (a.toNat, 13), (i.toNat, 0)])
  | .blt d a i => some (word 0xEA800000 [(d.toNat, 18), (a.toNat, 13), (i.toNat, 0)])
  | .bge d a i => some (word 0xEB000000 [(d.toNat, 18), (a.toNat, 13), (i.toNat, 0)])
  | .bltn d a i => some (word 0xEB800000 [(d.toNat, 18), (a.toNat, 13), (i.toNat, 0)])
  | .bgen d a i => some (word 0xEC000000 [(d.toNat, 18), (a.toNat, 13), (i.toNat, 0)])
  | .jal d i => some (word 0xEC800000 [(d.toNat, 18), (i.toNat, 0)])
  | .jr d a => some (word 0xED000000 [(d.toNat, 18), (a.toNat, 13)])
  | .loop a n => some (word 0xED800000 [(a.toNat, 13), (n.toNat, 0)])
  | .qpush q a => some (word 0xEE000000 [(q.toNat, 18), (a.toNat, 13)])
  | .qpop d q => some (word 0xEE800000 [(d.toNat, 18), (q.toNat, 13)])
  | .tkpost t => some (word 0xEF000000 [(t.toNat, 0)])
  | .tkwait t => some (word 0xEF800000 [(t.toNat, 0)])
  | .tkmask p w => some (word 0xF0000000 [(p.toNat, 4), (w.toNat, 0)])
  | .halt => some (word 0xF0800000 [])
  | .mul d a b w => some (word 0x00400000 [(d.toNat, 17), (a.toNat, 12), (b.toNat, 7), (w.toNat, 0)])
  | .mulh d a b w => some (word 0x00800000 [(d.toNat, 17), (a.toNat, 12), (b.toNat, 7), (w.toNat, 0)])
  | .mulhn d a b w => some (word 0x00C00000 [(d.toNat, 17), (a.toNat, 12), (b.toNat, 7), (w.toNat, 0)])
  | .div d a b w => some (word 0x01000000 [(d.toNat, 17), (a.toNat, 12), (b.toNat, 7), (w.toNat, 0)])
  | .divn d a b w => some (word 0x01400000 [(d.toNat, 17), (a.toNat, 12), (b.toNat, 7), (w.toNat, 0)])
  | .rem d a b w => some (word 0x01800000 [(d.toNat, 17), (a.toNat, 12), (b.toNat, 7), (w.toNat, 0)])
  | .remn d a b w => some (word 0x01C00000 [(d.toNat, 17), (a.toNat, 12), (b.toNat, 7), (w.toNat, 0)])
  | .min d a b w => some (word 0x02000000 [(d.toNat, 17), (a.toNat, 12), (b.toNat, 7), (w.toNat, 0)])
  | .max d a b w => some (word 0x02400000 [(d.toNat, 17), (a.toNat, 12), (b.toNat, 7), (w.toNat, 0)])
  | .minn d a b w => some (word 0x02800000 [(d.toNat, 17), (a.toNat, 12), (b.toNat, 7), (w.toNat, 0)])
  | .maxn d a b w => some (word 0x02C00000 [(d.toNat, 17), (a.toNat, 12), (b.toNat, 7), (w.toNat, 0)])
  | .clz d a w => some (word 0x03000000 [(d.toNat, 17), (a.toNat, 12), (w.toNat, 0)])
  | .ctz d a w => some (word 0x03400000 [(d.toNat, 17), (a.toNat, 12), (w.toNat, 0)])
  | .popc d a w => some (word 0x03800000 [(d.toNat, 17), (a.toNat, 12), (w.toNat, 0)])
  | .sel d a b p w => some (word 0x03C00000 [(d.toNat, 17), (a.toNat, 12), (b.toNat, 7), (p.toNat, 2), (w.toNat, 0)])
  | .cmp d a b n c w => some (word 0x04000000 [(d.toNat, 17), (a.toNat, 12), (b.toNat, 7), (n.toNat, 6), (c.toNat, 2), (w.toNat, 0)])
  | .pand d a b => some (word 0x04400000 [(d.toNat, 17), (a.toNat, 12), (b.toNat, 7)])
  | .por d a b => some (word 0x04800000 [(d.toNat, 17), (a.toNat, 12), (b.toNat, 7)])
  | .pnot d a => some (word 0x04C00000 [(d.toNat, 17), (a.toNat, 12)])
  | .lea d a b s => some (word 0x05000000 [(d.toNat, 17), (a.toNat, 12), (b.toNat, 7), (s.toNat, 2)])
  | .bfx d a b w => some (word 0x05400000 [(d.toNat, 17), (a.toNat, 12), (b.toNat, 7), (w.toNat, 0)])
  | .bfi d a b w => some (word 0x05800000 [(d.toNat, 17), (a.toNat, 12), (b.toNat, 7), (w.toNat, 0)])
  | .ldB d a i => some (word 0x20400000 [(d.toNat, 17), (a.toNat, 12), (i.toNat, 0)])
  | .ldH d a i => some (word 0x20800000 [(d.toNat, 17), (a.toNat, 12), (i.toNat, 0)])
  | .ldW d a i => some (word 0x20C00000 [(d.toNat, 17), (a.toNat, 12), (i.toNat, 0)])
  | .ldD d a i => some (word 0x21000000 [(d.toNat, 17), (a.toNat, 12), (i.toNat, 0)])
  | .ldsB d a i => some (word 0x21400000 [(d.toNat, 17), (a.toNat, 12), (i.toNat, 0)])
  | .ldsH d a i => some (word 0x21800000 [(d.toNat, 17), (a.toNat, 12), (i.toNat, 0)])
  | .ldsW d a i => some (word 0x21C00000 [(d.toNat, 17), (a.toNat, 12), (i.toNat, 0)])
  | .stB d a i => some (word 0x22400000 [(d.toNat, 17), (a.toNat, 12), (i.toNat, 0)])
  | .stH d a i => some (word 0x22800000 [(d.toNat, 17), (a.toNat, 12), (i.toNat, 0)])
  | .stW d a i => some (word 0x22C00000 [(d.toNat, 17), (a.toNat, 12), (i.toNat, 0)])
  | .stD d a i => some (word 0x23000000 [(d.toNat, 17), (a.toNat, 12), (i.toNat, 0)])
  | .fadd p d a b r => some (word 0x40800000 [(p.toNat, 22), (d.toNat, 17), (a.toNat, 12), (b.toNat, 7), (r.toNat, 0)])
  | .fsub p d a b r => some (word 0x41000000 [(p.toNat, 22), (d.toNat, 17), (a.toNat, 12), (b.toNat, 7), (r.toNat, 0)])
  | .fmul p d a b r => some (word 0x41800000 [(p.toNat, 22), (d.toNat, 17), (a.toNat, 12), (b.toNat, 7), (r.toNat, 0)])
  | .fdiv p d a b r => some (word 0x42000000 [(p.toNat, 22), (d.toNat, 17), (a.toNat, 12), (b.toNat, 7), (r.toNat, 0)])
  | .fsqrt p d a r => some (word 0x42800000 [(p.toNat, 22), (d.toNat, 17), (a.toNat, 12), (r.toNat, 0)])
  | .fma p d a b r => some (word 0x43000000 [(p.toNat, 22), (d.toNat, 17), (a.toNat, 12), (b.toNat, 7), (r.toNat, 0)])
  | .fmin p d a b x => some (word 0x43800000 [(p.toNat, 22), (d.toNat, 17), (a.toNat, 12), (b.toNat, 7), (x.toNat, 0)])
  | .fmax p d a b x => some (word 0x44000000 [(p.toNat, 22), (d.toNat, 17), (a.toNat, 12), (b.toNat, 7), (x.toNat, 0)])
  | .fminn p d a b x => some (word 0x44800000 [(p.toNat, 22), (d.toNat, 17), (a.toNat, 12), (b.toNat, 7), (x.toNat, 0)])
  | .fmaxn p d a b x => some (word 0x45000000 [(p.toNat, 22), (d.toNat, 17), (a.toNat, 12), (b.toNat, 7), (x.toNat, 0)])
  | .fcmp p d a b c x => some (word 0x45800000 [(p.toNat, 22), (d.toNat, 17), (a.toNat, 12), (b.toNat, 7), (c.toNat, 3), (x.toNat, 0)])
  | .fclass p d a x => some (word 0x46000000 [(p.toNat, 22), (d.toNat, 17), (a.toNat, 12), (x.toNat, 0)])
  | .fcvt d a s t r => some (word 0x46800000 [(d.toNat, 17), (a.toNat, 12), (s.toNat, 7), (t.toNat, 3), (r.toNat, 0)])
  | .fmvi p d i => some (word 0x47000000 [(p.toNat, 22), (d.toNat, 17), (i.toNat, 0)])
  | .fsgn p d a b k x => some (word 0x47800000 [(p.toNat, 22), (d.toNat, 17), (a.toNat, 12), (b.toNat, 7), (k.toNat, 3), (x.toNat, 0)])
  | .call d a i => some (word 0x60400000 [(d.toNat, 17), (a.toNat, 12), (i.toNat, 0)])
  | .ret a => some (word 0x60800000 [(a.toNat, 12)])
  | .csrr d c => some (word 0x60C00000 [(d.toNat, 17), (c.toNat, 0)])
  | .csrw a c => some (word 0x61000000 [(a.toNat, 12), (c.toNat, 0)])
  | .csrs a c => some (word 0x61400000 [(a.toNat, 12), (c.toNat, 0)])
  | .csrc a c => some (word 0x61800000 [(a.toNat, 12), (c.toNat, 0)])
  | .fence s k => some (word 0x61C00000 [(s.toNat, 2), (k.toNat, 0)])
  | .trap c => some (word 0x62000000 [(c.toNat, 0)])
  | .tret => some (word 0x62400000 [])
  | .wfi => some (word 0x62800000 [])
  | .mcall p q m => some (word 0x62C00000 [(p.toNat, 12), (q.toNat, 6), (m.toNat, 0)])
  | .brk c => some (word 0x63000000 [(c.toNat, 0)])
  | .snap => some (word 0x63400000 [])
  | .amoAdd d a b t => some (word 0x80800002 [(d.toNat, 17), (a.toNat, 12), (b.toNat, 7), (t.toNat, 0)])
  | .amoAddNr a b t => some (word 0x80C00002 [(a.toNat, 12), (b.toNat, 7), (t.toNat, 0)])
  | .amoAnd d a b t => some (word 0x81000002 [(d.toNat, 17), (a.toNat, 12), (b.toNat, 7), (t.toNat, 0)])
  | .amoAndNr a b t => some (word 0x81400002 [(a.toNat, 12), (b.toNat, 7), (t.toNat, 0)])
  | .amoOr d a b t => some (word 0x81800002 [(d.toNat, 17), (a.toNat, 12), (b.toNat, 7), (t.toNat, 0)])
  | .amoOrNr a b t => some (word 0x81C00002 [(a.toNat, 12), (b.toNat, 7), (t.toNat, 0)])
  | .amoXor d a b t => some (word 0x82000002 [(d.toNat, 17), (a.toNat, 12), (b.toNat, 7), (t.toNat, 0)])
  | .amoXorNr a b t => some (word 0x82400002 [(a.toNat, 12), (b.toNat, 7), (t.toNat, 0)])
  | .amoMin d a b t => some (word 0x82800002 [(d.toNat, 17), (a.toNat, 12), (b.toNat, 7), (t.toNat, 0)])
  | .amoMinNr a b t => some (word 0x82C00002 [(a.toNat, 12), (b.toNat, 7), (t.toNat, 0)])
  | .amoMax d a b t => some (word 0x83000002 [(d.toNat, 17), (a.toNat, 12), (b.toNat, 7), (t.toNat, 0)])
  | .amoMaxNr a b t => some (word 0x83400002 [(a.toNat, 12), (b.toNat, 7), (t.toNat, 0)])
  | .amoMinn d a b t => some (word 0x83800002 [(d.toNat, 17), (a.toNat, 12), (b.toNat, 7), (t.toNat, 0)])
  | .amoMinnNr a b t => some (word 0x83C00002 [(a.toNat, 12), (b.toNat, 7), (t.toNat, 0)])
  | .amoMaxn d a b t => some (word 0x84000002 [(d.toNat, 17), (a.toNat, 12), (b.toNat, 7), (t.toNat, 0)])
  | .amoMaxnNr a b t => some (word 0x84400002 [(a.toNat, 12), (b.toNat, 7), (t.toNat, 0)])
  | .amoSwap d a b t => some (word 0x84800002 [(d.toNat, 17), (a.toNat, 12), (b.toNat, 7), (t.toNat, 0)])
  | .amoSwapNr a b t => some (word 0x84C00002 [(a.toNat, 12), (b.toNat, 7), (t.toNat, 0)])
  | .amoCas d a b t => some (word 0x85000002 [(d.toNat, 17), (a.toNat, 12), (b.toNat, 7), (t.toNat, 0)])
  | .amoCasNr d a b t => some (word 0x85400002 [(d.toNat, 17), (a.toNat, 12), (b.toNat, 7), (t.toNat, 0)])
  | .amoInc d a b t => some (word 0x85800002 [(d.toNat, 17), (a.toNat, 12), (b.toNat, 7), (t.toNat, 0)])
  | .amoIncNr a b t => some (word 0x85C00002 [(a.toNat, 12), (b.toNat, 7), (t.toNat, 0)])
  | .amoFadd d a b t => some (word 0x86000002 [(d.toNat, 17), (a.toNat, 12), (b.toNat, 7), (t.toNat, 0)])
  | .amoFaddNr a b t => some (word 0x86400002 [(a.toNat, 12), (b.toNat, 7), (t.toNat, 0)])
  | .amoFmin d a b t => some (word 0x86800002 [(d.toNat, 17), (a.toNat, 12), (b.toNat, 7), (t.toNat, 0)])
  | .amoFminNr a b t => some (word 0x86C00002 [(a.toNat, 12), (b.toNat, 7), (t.toNat, 0)])
  | .amoFmax d a b t => some (word 0x87000002 [(d.toNat, 17), (a.toNat, 12), (b.toNat, 7), (t.toNat, 0)])
  | .amoFmaxNr a b t => some (word 0x87400002 [(a.toNat, 12), (b.toNat, 7), (t.toNat, 0)])
  | .grpOpen => some (word 0x90000000 [])
  | .grpCommit d => some (word 0x90400000 [(d.toNat, 17)])
  | .grpAbort d => some (word 0x90800000 [(d.toNat, 17)])
  | .grpStat d => some (word 0x90C00000 [(d.toNat, 17)])
  | .spawn a m => some (word 0xA0400000 [(a.toNat, 12), (m.toNat, 0)])
  | .texit a m => some (word 0xA0800000 [(a.toNat, 12), (m.toNat, 0)])
  | .cntAdd a b => some (word 0xA0C00000 [(a.toNat, 12), (b.toNat, 7)])
  | .cntWait d a b => some (word 0xA1000000 [(d.toNat, 17), (a.toNat, 12), (b.toNat, 7)])
  | .cancel a l => some (word 0xA1400000 [(a.toNat, 12), (l.toNat, 0)])
  | .barArrive b => some (word 0xA1800000 [(b.toNat, 0)])
  | .barWait d b => some (word 0xA1C00000 [(d.toNat, 17), (b.toNat, 0)])
  | .keyq d a => some (word 0xA2000000 [(d.toNat, 17), (a.toNat, 12)])
  | .rgSet a b n => some (word 0xA4000000 [(a.toNat, 12), (b.toNat, 7), (n.toNat, 0)])
  | .rgStat d a s n => some (word 0xA4400000 [(d.toNat, 17), (a.toNat, 12), (s.toNat, 5), (n.toNat, 0)])
  | .rgReset n => some (word 0xA4800000 [(n.toNat, 0)])
  | .symAlloc d a => some (word 0xA8000000 [(d.toNat, 17), (a.toNat, 12)])
  | .symFree a b => some (word 0xA8400000 [(a.toNat, 12), (b.toNat, 7)])
  | .symRef d a => some (word 0xA8800000 [(d.toNat, 17), (a.toNat, 12)])
  | .symUnref d a => some (word 0xA8C00000 [(d.toNat, 17), (a.toNat, 12)])
  | .symStat d a s => some (word 0xA9000000 [(d.toNat, 17), (a.toNat, 12), (s.toNat, 0)])
  | .condSet a => some (word 0xA9400000 [(a.toNat, 12)])
  | .condRun d a b => some (word 0xA9800000 [(d.toNat, 17), (a.toNat, 12), (b.toNat, 7)])
  | .afAdd d a b m => some (word 0xA9C00000 [(d.toNat, 17), (a.toNat, 12), (b.toNat, 7), (m.toNat, 0)])
  | .kvSlot d a b => some (word 0xC0400000 [(d.toNat, 17), (a.toNat, 12), (b.toNat, 7)])
  | .kvAppend d a b => some (word 0xC0800000 [(d.toNat, 17), (a.toNat, 12), (b.toNat, 7)])
  | .kvEvict d a b => some (word 0xC0C00000 [(d.toNat, 17), (a.toNat, 12), (b.toNat, 7)])
  | .kvTrunc d a b => some (word 0xC1000000 [(d.toNat, 17), (a.toNat, 12), (b.toNat, 7)])
  | .kvShare d a b => some (word 0xC1400000 [(d.toNat, 17), (a.toNat, 12), (b.toNat, 7)])
  | .dxCur d a b s => some (word 0xC4000000 [(d.toNat, 17), (a.toNat, 12), (b.toNat, 7), (s.toNat, 0)])
  | .dxTrunc d a => some (word 0xC4400000 [(d.toNat, 17), (a.toNat, 12)])
  | .dxFrame d a => some (word 0xC4800000 [(d.toNat, 17), (a.toNat, 12)])
  | .dxEmit d a b => some (word 0xC4C00000 [(d.toNat, 17), (a.toNat, 12), (b.toNat, 7)])
  | .dxCkpt d a => some (word 0xC5000000 [(d.toNat, 17), (a.toNat, 12)])
  | .dxStat d a s => some (word 0xC5400000 [(d.toNat, 17), (a.toNat, 12), (s.toNat, 0)])
  | .asLoad a b => some (word 0xC8000000 [(a.toNat, 12), (b.toNat, 7)])
  | .asGo a => some (word 0xC8400000 [(a.toNat, 12)])
  | .asWait d n => some (word 0xC8800000 [(d.toNat, 17), (n.toNat, 0)])
  | .bpSend a => some (word 0xCC000000 [(a.toNat, 12)])
  | .bpRecv a => some (word 0xCC400000 [(a.toNat, 12)])
  | .bpWait d a b => some (word 0xCC800000 [(d.toNat, 17), (a.toNat, 12), (b.toNat, 7)])
  | .bpCancel a b => some (word 0xCCC00000 [(a.toNat, 12), (b.toNat, 7)])
  | .bpStat d a => some (word 0xCD000000 [(d.toNat, 17), (a.toNat, 12)])
  | .collRed a => some (word 0xCD400000 [(a.toNat, 12)])
  | .vshape i w p => some (word 0x02000000 [(i.toNat, 4), (w.toNat, 3), (p.toNat, 2)])
  | .vadd d a b w p r => some (word 0x04000000 [(d.toNat, 18), (a.toNat, 11), (b.toNat, 4), (w.toNat, 3), (p.toNat, 2), (r.toNat, 0)])
  | .vsub d a b w p r => some (word 0x06000000 [(d.toNat, 18), (a.toNat, 11), (b.toNat, 4), (w.toNat, 3), (p.toNat, 2), (r.toNat, 0)])
  | .vmul d a b w p r => some (word 0x08000000 [(d.toNat, 18), (a.toNat, 11), (b.toNat, 4), (w.toNat, 3), (p.toNat, 2), (r.toNat, 0)])
  | .vfma d a b w p r => some (word 0x0A000000 [(d.toNat, 18), (a.toNat, 11), (b.toNat, 4), (w.toNat, 3), (p.toNat, 2), (r.toNat, 0)])
  | .vfms d a b w p r => some (word 0x0C000000 [(d.toNat, 18), (a.toNat, 11), (b.toNat, 4), (w.toNat, 3), (p.toNat, 2), (r.toNat, 0)])
  | .vdiv d a b w p r => some (word 0x0E000000 [(d.toNat, 18), (a.toNat, 11), (b.toNat, 4), (w.toNat, 3), (p.toNat, 2), (r.toNat, 0)])
  | .vsqrt d a w p r => some (word 0x10000000 [(d.toNat, 18), (a.toNat, 11), (w.toNat, 3), (p.toNat, 2), (r.toNat, 0)])
  | .vrcp d a w p r => some (word 0x12000000 [(d.toNat, 18), (a.toNat, 11), (w.toNat, 3), (p.toNat, 2), (r.toNat, 0)])
  | .vmin d a b w p x => some (word 0x14000000 [(d.toNat, 18), (a.toNat, 11), (b.toNat, 4), (w.toNat, 3), (p.toNat, 2), (x.toNat, 0)])
  | .vmax d a b w p x => some (word 0x16000000 [(d.toNat, 18), (a.toNat, 11), (b.toNat, 4), (w.toNat, 3), (p.toNat, 2), (x.toNat, 0)])
  | .vminn d a b w p x => some (word 0x18000000 [(d.toNat, 18), (a.toNat, 11), (b.toNat, 4), (w.toNat, 3), (p.toNat, 2), (x.toNat, 0)])
  | .vmaxn d a b w p x => some (word 0x1A000000 [(d.toNat, 18), (a.toNat, 11), (b.toNat, 4), (w.toNat, 3), (p.toNat, 2), (x.toNat, 0)])
  | .vabs d a w p x => some (word 0x1C000000 [(d.toNat, 18), (a.toNat, 11), (w.toNat, 3), (p.toNat, 2), (x.toNat, 0)])
  | .vneg d a w p x => some (word 0x1E000000 [(d.toNat, 18), (a.toNat, 11), (w.toNat, 3), (p.toNat, 2), (x.toNat, 0)])
  | .vcmp m a b w p c => some (word 0x20000000 [(m.toNat, 18), (a.toNat, 11), (b.toNat, 4), (w.toNat, 3), (p.toNat, 2), (c.toNat, 0)])
  | .vsel d a b w p k => some (word 0x22000000 [(d.toNat, 18), (a.toNat, 11), (b.toNat, 4), (w.toNat, 3), (p.toNat, 2), (k.toNat, 0)])
  | .vand d a b w p x => some (word 0x24000000 [(d.toNat, 18), (a.toNat, 11), (b.toNat, 4), (w.toNat, 3), (p.toNat, 2), (x.toNat, 0)])
  | .vor d a b w p x => some (word 0x26000000 [(d.toNat, 18), (a.toNat, 11), (b.toNat, 4), (w.toNat, 3), (p.toNat, 2), (x.toNat, 0)])
  | .vxor d a b w p x => some (word 0x28000000 [(d.toNat, 18), (a.toNat, 11), (b.toNat, 4), (w.toNat, 3), (p.toNat, 2), (x.toNat, 0)])
  | .vnot d a w p x => some (word 0x2A000000 [(d.toNat, 18), (a.toNat, 11), (w.toNat, 3), (p.toNat, 2), (x.toNat, 0)])
  | .vshl d a b w p x => some (word 0x2C000000 [(d.toNat, 18), (a.toNat, 11), (b.toNat, 4), (w.toNat, 3), (p.toNat, 2), (x.toNat, 0)])
  | .vshr d a b w p x => some (word 0x2E000000 [(d.toNat, 18), (a.toNat, 11), (b.toNat, 4), (w.toNat, 3), (p.toNat, 2), (x.toNat, 0)])
  | .vsra d a b w p x => some (word 0x30000000 [(d.toNat, 18), (a.toNat, 11), (b.toNat, 4), (w.toNat, 3), (p.toNat, 2), (x.toNat, 0)])
  | .vcvt d a t w p r => some (word 0x32000000 [(d.toNat, 18), (a.toNat, 11), (t.toNat, 4), (w.toNat, 3), (p.toNat, 2), (r.toNat, 0)])
  | .vscale d a b w p r => some (word 0x34000000 [(d.toNat, 18), (a.toNat, 11), (b.toNat, 4), (w.toNat, 3), (p.toNat, 2), (r.toNat, 0)])
  | .vexp2 d a w p r => some (word 0x36000000 [(d.toNat, 18), (a.toNat, 11), (w.toNat, 3), (p.toNat, 2), (r.toNat, 0)])
  | .vlog2 d a w p r => some (word 0x38000000 [(d.toNat, 18), (a.toNat, 11), (w.toNat, 3), (p.toNat, 2), (r.toNat, 0)])
  | .vsum d a w p r => some (word 0x3A000000 [(d.toNat, 18), (a.toNat, 11), (w.toNat, 3), (p.toNat, 2), (r.toNat, 0)])
  | .vmaxr d a w p x => some (word 0x3C000000 [(d.toNat, 18), (a.toNat, 11), (w.toNat, 3), (p.toNat, 2), (x.toNat, 0)])
  | .vperm d a b w p x => some (word 0x3E000000 [(d.toNat, 18), (a.toNat, 11), (b.toNat, 4), (w.toNat, 3), (p.toNat, 2), (x.toNat, 0)])
  | .vbcast d a w p x => some (word 0x40000000 [(d.toNat, 18), (a.toNat, 11), (w.toNat, 3), (p.toNat, 2), (x.toNat, 0)])
  | .vmov d a w p x => some (word 0x42000000 [(d.toNat, 18), (a.toNat, 11), (w.toNat, 3), (p.toNat, 2), (x.toNat, 0)])
  | .vclass d a w p x => some (word 0x44000000 [(d.toNat, 18), (a.toNat, 11), (w.toNat, 3), (p.toNat, 2), (x.toNat, 0)])
  | .vpopc d a w p x => some (word 0x46000000 [(d.toNat, 18), (a.toNat, 11), (w.toNat, 3), (p.toNat, 2), (x.toNat, 0)])
  | .vmagsum d a w p r => some (word 0x48000000 [(d.toNat, 18), (a.toNat, 11), (w.toNat, 3), (p.toNat, 2), (r.toNat, 0)])
  | .vrelax d a b w p x => some (word 0x4A000000 [(d.toNat, 18), (a.toNat, 11), (b.toNat, 4), (w.toNat, 3), (p.toNat, 2), (x.toNat, 0)])
  | .vrule d a b w p x => some (word 0x4C000000 [(d.toNat, 18), (a.toNat, 11), (b.toNat, 4), (w.toNat, 3), (p.toNat, 2), (x.toNat, 0)])
  | .mcfg t c w p k => some (word 0x4E000000 [(t.toNat, 18), (c.toNat, 4), (w.toNat, 3), (p.toNat, 2), (k.toNat, 0)])
  | .mzero t w p x => some (word 0x50000000 [(t.toNat, 18), (w.toNat, 3), (p.toNat, 2), (x.toNat, 0)])
  | .mtr t s w p x => some (word 0x52000000 [(t.toNat, 18), (s.toNat, 11), (w.toNat, 3), (p.toNat, 2), (x.toNat, 0)])
  | .mma b n c f s w p u => some (word 0x82000000 [(b.toNat, 15), (n.toNat, 10), (c.toNat, 9), (f.toNat, 6), (s.toNat, 4), (w.toNat, 3), (p.toNat, 2), (u.toNat, 0)])
  | .mmaE b n c f s w p u => some (word 0x82000020 [(b.toNat, 15), (n.toNat, 10), (c.toNat, 9), (f.toNat, 6), (s.toNat, 4), (w.toNat, 3), (p.toNat, 2), (u.toNat, 0)])
  | .mmaA a b n c f s w p u => some (word 0x84000020 [(a.toNat, 20), (b.toNat, 15), (n.toNat, 10), (c.toNat, 9), (f.toNat, 6), (s.toNat, 4), (w.toNat, 3), (p.toNat, 2), (u.toNat, 0)])
  | .mabs b n c f s w p u => some (word 0x86000000 [(b.toNat, 15), (n.toNat, 10), (c.toNat, 9), (f.toNat, 6), (s.toNat, 4), (w.toNat, 3), (p.toNat, 2), (u.toNat, 0)])
  | .mabsE b n c f s w p u => some (word 0x86000020 [(b.toNat, 15), (n.toNat, 10), (c.toNat, 9), (f.toNat, 6), (s.toNat, 4), (w.toNat, 3), (p.toNat, 2), (u.toNat, 0)])
  | .wld a f w p u => some (word 0x88000000 [(a.toNat, 20), (f.toNat, 6), (w.toNat, 3), (p.toNat, 2), (u.toNat, 0)])
  | .wstr a f w p u => some (word 0x8A000000 [(a.toNat, 20), (f.toNat, 6), (w.toNat, 3), (p.toNat, 2), (u.toNat, 0)])
  | .accrd a n c f w p r => some (word 0x8C000000 [(a.toNat, 20), (n.toNat, 10), (c.toNat, 9), (f.toNat, 6), (w.toNat, 3), (p.toNat, 2), (r.toNat, 0)])
  | .accrdE a b n c f w p r => some (word 0x8C000020 [(a.toNat, 20), (b.toNat, 15), (n.toNat, 10), (c.toNat, 9), (f.toNat, 6), (w.toNat, 3), (p.toNat, 2), (r.toNat, 0)])
  | .acczr c x w p => some (word 0x8E000000 [(c.toNat, 9), (x.toNat, 6), (w.toNat, 3), (p.toNat, 2)])
  | .mwin b n c f e s w p u => some (word 0x90000000 [(b.toNat, 15), (n.toNat, 10), (c.toNat, 9), (f.toNat, 6), (e.toNat, 5), (s.toNat, 4), (w.toNat, 3), (p.toNat, 2), (u.toNat, 0)])
  | .mdw b n c f e s w p u => some (word 0x92000000 [(b.toNat, 15), (n.toNat, 10), (c.toNat, 9), (f.toNat, 6), (e.toNat, 5), (s.toNat, 4), (w.toNat, 3), (p.toNat, 2), (u.toNat, 0)])
  | .tld a l t d m w p o => some (word 0x04000000 [(a.toNat, 21), (l.toNat, 16), (t.toNat, 11), (d.toNat, 6), (m.toNat, 4), (w.toNat, 3), (p.toNat, 2), (o.toNat, 0)])
  | .tst a l t d m w p o => some (word 0x08000000 [(a.toNat, 21), (l.toNat, 16), (t.toNat, 11), (d.toNat, 6), (m.toNat, 4), (w.toNat, 3), (p.toNat, 2), (o.toNat, 0)])
  | .cpy a l d w p o => some (word 0x0C000000 [(a.toNat, 21), (l.toNat, 16), (d.toNat, 6), (w.toNat, 3), (p.toNat, 2), (o.toNat, 0)])
  | .gat a l t d m w p o => some (word 0x10000000 [(a.toNat, 21), (l.toNat, 16), (t.toNat, 11), (d.toNat, 6), (m.toNat, 4), (w.toNat, 3), (p.toNat, 2), (o.toNat, 0)])
  | .sct a l t d m w p o => some (word 0x14000000 [(a.toNat, 21), (l.toNat, 16), (t.toNat, 11), (d.toNat, 6), (m.toNat, 4), (w.toNat, 3), (p.toNat, 2), (o.toNat, 0)])
  | .win a l t d m w p o => some (word 0x18000000 [(a.toNat, 21), (l.toNat, 16), (t.toNat, 11), (d.toNat, 6), (m.toNat, 4), (w.toNat, 3), (p.toNat, 2), (o.toNat, 0)])
  | .rclone a l w p => some (word 0x1C000000 [(a.toNat, 21), (l.toNat, 16), (w.toNat, 3), (p.toNat, 2)])
  | .rinit a l w p => some (word 0x20000000 [(a.toNat, 21), (l.toNat, 16), (w.toNat, 3), (p.toNat, 2)])
  | .wfeed a l t d w p => some (word 0x24000030 [(a.toNat, 21), (l.toNat, 16), (t.toNat, 11), (d.toNat, 6), (w.toNat, 3), (p.toNat, 2)])
  | .rgwf l t w p => some (word 0x28000000 [(l.toNat, 16), (t.toNat, 11), (w.toNat, 3), (p.toNat, 2)])
  | .rgwe l t w p => some (word 0x2C000000 [(l.toNat, 16), (t.toNat, 11), (w.toNat, 3), (p.toNat, 2)])
  | .rgclaim l t w p => some (word 0x30000000 [(l.toNat, 16), (t.toNat, 11), (w.toNat, 3), (p.toNat, 2)])
  | .rgpush l t w p => some (word 0x34000000 [(l.toNat, 16), (t.toNat, 11), (w.toNat, 3), (p.toNat, 2)])
  | .rgpop l t w p => some (word 0x38000000 [(l.toNat, 16), (t.toNat, 11), (w.toNat, 3), (p.toNat, 2)])
  | .rgend t w p => some (word 0x3C000000 [(t.toNat, 11), (w.toNat, 3), (p.toNat, 2)])
  | .tdset a d w p => some (word 0x40000000 [(a.toNat, 21), (d.toNat, 6), (w.toNat, 3), (p.toNat, 2)])
  | .asEnd _ _ => none
  | .asAdd _ _ => none
  | .asLoop _ _ => none
  | .asStep _ _ => none
  | .asAccrd _ _ => none
  | .asAcczr _ _ => none
  | .asWld _ _ => none
  | .asTld _ _ => none
  | .kvg _ _ => none
  | .exp _ _ => none
  | .stage _ _ => none
  | .stageLanding _ _ => none
  | .submissionNotify _ => none
  | .submit _ => none
  | .cancelTask _ => none
  | .cancelGraph _ => none
  | .cancelPhase _ => none
  | .cancelJob _ => none
  | .frameNotify _ => none
  | .preemptNode _ => none
  | .preemptCut _ => none
  | .inval _ => none
  | .invalidationComplete => none
  | .replayResume _ => none
  | .replayFail _ => none
  | .swcfgGo _ => none
  | .swcfgReply _ => none
  | .jobRecordWrite _ _ _ => none
  | .submissionRingWrite _ _ _ => none
  | .translationRecordWrite _ _ => none
  | .streamDescriptorWrite _ _ _ => none
  | .debugWindowAccess _ _ _ => none
  | .registerWrite _ _ => none
  | .evconsWrite _ => none
  | .faqconsWrite _ => none
  | .fqconsWrite _ _ => none
  | .fwfpClear _ _ => none
  | .debugHaltRequest _ => none
  | .debugHaltRelease _ => none
  | .debugHaltComplete _ => none
  | .resetQueue _ _ => none
  | .resetEngine _ _ => none
  | .resetPartition _ _ => none
  | .resetDie _ _ => none
  | .resetFunctionLevel => none
  | .resetDevice => none
  | .resetRungComplete => none
  | .firmwareImageVerify .. => none
  | .quoteRequest _ _ => none
  | .quoteComplete => none
  | .badpageRequest _ => none
  | .badpageAnswer => none
  | .bar2Write _ _ => none
  | .bar2Read _ _ => none
  | .fetchadd _ _ _ => none
  | .swap _ _ _ => none
  | .cas _ _ _ _ => none
  | .cas128 _ => none
  | .feventPop _ => none
  | .fActivationStart _ => none
  | .fusedReset => none
  | .keyReservation _ _ => none
  | .hung _ => none
  | .scheduleMiss _ => none
  | .memoryStall _ => none
  | .selfRefreshEnter _ => none
  | .selfRefreshExit _ => none
  | .capped => none
  | .remoteRequest _ => none
  | .remoteResponse _ _ => none
  | .remoteTimeout _ => none
  | .hostTierCompletion _ _ _ => none
  | .contributionArrival _ => none
  | .contributionAdmit _ => none
  | .collRequestComplete _ => none
  | .planeSend _ _ => none
  | .planeArrival _ => none
  | .openReq _ => none
  | .openAnswer _ _ _ _ => none
  | .openRetry _ _ _ => none
  | .prune _ => none
  | .vwordRetire _ => none
  | .matrixStepRetire _ => none
  | .transferRetire _ _ => none
  | .ringClaimGrant _ _ => none
  | .colophonMeet _ _ => none
  | .atomicApply _ => none
  | .translationWalk _ _ => none
  | .sequencerHaltRetire _ _ => none
  | .unitHaltRetire _ => none
  | .poolSubmit => none
  | .taskDispatch _ => none
  | .unitStart _ => none
  | .quireStart _ => none
  | .cutResume _ => none
  | .trapTake _ => none
  | .cutComplete _ => none
  | .snapshotCapture _ => none
  | .unallocatedOpcode _ => none
  | .writePerformed _ => none
  | .mWordRetire _ => none
  | .zuorePortUp _ => none
  | .zuorePortDown _ => none
  | .powerLoss => none
  | .packagePowerLimitWrite _ => none

/-- Whether a section holds words of an instruction (R48): common words stand in every section, and the steps that are no words in none. -/
def Instr.fits (sec : Section) : Instr → Bool
  | .nop | .add .. | .sub .. | .and .. | .or .. | .xor .. | .shl .. | .shr .. | .sra .. | .slt .. | .sltn .. | .addi .. | .andi .. | .ori ..
  | .xori .. | .shli .. | .shri .. | .srai .. | .lui .. | .beq .. | .bne .. | .blt .. | .bge .. | .bltn .. | .bgen .. | .jal .. | .jr .. | .loop ..
  | .qpush .. | .qpop .. | .tkpost .. | .tkwait .. | .tkmask .. | .halt => true
  | .mul .. | .mulh .. | .mulhn .. | .div .. | .divn .. | .rem .. | .remn .. | .min .. | .max .. | .minn .. | .maxn .. | .clz .. | .ctz ..
  | .popc .. | .sel .. | .cmp .. | .pand .. | .por .. | .pnot .. | .lea .. | .bfx .. | .bfi .. | .ldB .. | .ldH .. | .ldW .. | .ldD .. | .ldsB ..
  | .ldsH .. | .ldsW .. | .stB .. | .stH .. | .stW .. | .stD .. | .fadd .. | .fsub .. | .fmul .. | .fdiv .. | .fsqrt .. | .fma .. | .fmin ..
  | .fmax .. | .fminn .. | .fmaxn .. | .fcmp .. | .fclass .. | .fcvt .. | .fmvi .. | .fsgn .. | .call .. | .ret .. | .csrr .. | .csrw .. | .csrs ..
  | .csrc .. | .fence .. | .trap .. | .tret | .wfi | .mcall .. | .brk .. | .snap | .amoAdd .. | .amoAddNr .. | .amoAnd .. | .amoAndNr ..
  | .amoOr .. | .amoOrNr .. | .amoXor .. | .amoXorNr .. | .amoMin .. | .amoMinNr .. | .amoMax .. | .amoMaxNr .. | .amoMinn .. | .amoMinnNr ..
  | .amoMaxn .. | .amoMaxnNr .. | .amoSwap .. | .amoSwapNr .. | .amoCas .. | .amoCasNr .. | .amoInc .. | .amoIncNr .. | .amoFadd .. | .amoFaddNr ..
  | .amoFmin .. | .amoFminNr .. | .amoFmax .. | .amoFmaxNr .. | .grpOpen | .grpCommit .. | .grpAbort .. | .grpStat .. | .spawn .. | .texit ..
  | .cntAdd .. | .cntWait .. | .cancel .. | .barArrive .. | .barWait .. | .keyq .. | .rgSet .. | .rgStat .. | .rgReset .. | .symAlloc ..
  | .symFree .. | .symRef .. | .symUnref .. | .symStat .. | .condSet .. | .condRun .. | .afAdd .. | .kvSlot .. | .kvAppend .. | .kvEvict ..
  | .kvTrunc .. | .kvShare .. | .dxCur .. | .dxTrunc .. | .dxFrame .. | .dxEmit .. | .dxCkpt .. | .dxStat .. | .asLoad .. | .asGo .. | .asWait ..
  | .bpSend .. | .bpRecv .. | .bpWait .. | .bpCancel .. | .bpStat .. | .collRed .. => sec == .kcode
  | .vshape .. | .vadd .. | .vsub .. | .vmul .. | .vfma .. | .vfms .. | .vdiv .. | .vsqrt .. | .vrcp .. | .vmin .. | .vmax .. | .vminn ..
  | .vmaxn .. | .vabs .. | .vneg .. | .vcmp .. | .vsel .. | .vand .. | .vor .. | .vxor .. | .vnot .. | .vshl .. | .vshr .. | .vsra .. | .vcvt ..
  | .vscale .. | .vexp2 .. | .vlog2 .. | .vsum .. | .vmaxr .. | .vperm .. | .vbcast .. | .vmov .. | .vclass .. | .vpopc .. | .vmagsum ..
  | .vrelax .. | .vrule .. | .mcfg .. | .mzero .. | .mtr .. | .mma .. | .mmaE .. | .mmaA .. | .mabs .. | .mabsE .. | .wld .. | .wstr .. | .accrd ..
  | .accrdE .. | .acczr .. | .mwin .. | .mdw .. => sec == .ccode
  | .tld .. | .tst .. | .cpy .. | .gat .. | .sct .. | .win .. | .rclone .. | .rinit .. | .wfeed .. | .rgwf .. | .rgwe .. | .rgclaim .. | .rgpush ..
  | .rgpop .. | .rgend .. | .tdset .. => sec == .tcode
  | .asEnd .. | .asAdd .. | .asLoop .. | .asStep .. | .asAccrd .. | .asAcczr .. | .asWld .. | .asTld .. | .kvg .. | .exp .. | .stage ..
  | .stageLanding .. | .submissionNotify .. | .submit .. | .cancelTask .. | .cancelGraph .. | .cancelPhase .. | .cancelJob .. | .frameNotify ..
  | .preemptNode .. | .preemptCut .. | .inval .. | .invalidationComplete | .replayResume .. | .replayFail .. | .swcfgGo .. | .swcfgReply ..
  | .jobRecordWrite .. | .submissionRingWrite .. | .translationRecordWrite .. | .streamDescriptorWrite .. | .debugWindowAccess ..
  | .registerWrite .. | .evconsWrite .. | .faqconsWrite .. | .fqconsWrite .. | .fwfpClear .. | .debugHaltRequest .. | .debugHaltRelease ..
  | .debugHaltComplete .. | .resetQueue .. | .resetEngine .. | .resetPartition .. | .resetDie .. | .resetFunctionLevel | .resetDevice
  | .resetRungComplete | .firmwareImageVerify .. | .quoteRequest .. | .quoteComplete | .badpageRequest .. | .badpageAnswer | .bar2Write ..
  | .bar2Read .. | .fetchadd .. | .swap .. | .cas .. | .cas128 .. | .feventPop .. | .fActivationStart .. | .fusedReset | .keyReservation ..
  | .hung .. | .scheduleMiss .. | .memoryStall .. | .selfRefreshEnter .. | .selfRefreshExit .. | .capped | .remoteRequest .. | .remoteResponse ..
  | .remoteTimeout .. | .hostTierCompletion .. | .contributionArrival .. | .contributionAdmit .. | .collRequestComplete .. | .planeSend ..
  | .planeArrival .. | .openReq .. | .openAnswer .. | .openRetry .. | .prune .. | .vwordRetire .. | .matrixStepRetire .. | .transferRetire ..
  | .ringClaimGrant .. | .colophonMeet .. | .atomicApply .. | .translationWalk .. | .sequencerHaltRetire .. | .unitHaltRetire .. | .poolSubmit
  | .taskDispatch .. | .unitStart .. | .quireStart .. | .cutResume .. | .trapTake .. | .cutComplete .. | .snapshotCapture ..
  | .unallocatedOpcode .. | .writePerformed .. | .mWordRetire .. | .zuorePortUp .. | .zuorePortDown .. | .powerLoss | .packagePowerLimitWrite .. => false

/-- The section a table word is read in. The table does not name it, and words of different sections share bits: K if it has such
a word, else T or C; of these two, C first where bit 25 is set, which is an opcode bit of a V-word and an operand bit of a T-word. -/
def tableSection (v : BitVec 32) : Section :=
  if (decode .kcode v).isSome then .kcode
  else if v.getLsbD 25 then (if (decode .ccode v).isSome then .ccode else .tcode)
  else if (decode .tcode v).isSome then .tcode else .ccode

/-- The instruction of a table word, decoded in its section. -/
def decodeTableWord (nbits w : Nat) : Option Instr :=
  if nbits = 32 then decode (tableSection (BitVec.ofNat 32 w)) (BitVec.ofNat 32 w) else none

end Sys2Proof
end

