-- ==== Sys2Proof/Machine/Cycle.lean ====
section
/-! DEFINITION. What a cycle boundary does (R4, R34, R81, R117, R392), K's shared slot (R81), and fetching the next word of a
sequencer: from its macro (R104 to R108), its code store (R439) or memory (R47, R336). -/
namespace Sys2Proof.Machine

/-! ## The vector CSRs (R142) -/

/-- A write of `shape` (R142): RSHP is cleared by a 1, and BT going from 0 to 1 clears eb. A `csrs` or `csrc` that was legal on the value read
at its issue, and leaves a reserved TYPE only because a `vshape` has retired since, is dropped whole and raises nothing (DESIGN CHOICE, log
47: R117, R118 and R142 do not say which value is checked). -/
def VUnit.writeShape (u : VUnit) (v : Word) : VUnit :=
  let rshp := u.shape.getLsbD 23 && !v.getLsbD 23
  if 5 ≤ bitsOf v 0 4 ∧ bitsOf v 0 4 ≤ 7 then u else
  { u with
    shape := BitVec.ofNat 24 (bitsOf v 0 21 + (if rshp then 2 ^ 23 else 0))
    eb := if !u.shape.getLsbD 4 && v.getLsbD 4 then [] else u.eb }

/-- The value a write, set or clear leaves (R118). -/
def csrNew (kind : Nat) (old v : Word) : Word := if kind = 0 then v else if kind = 1 then old ||| v else old &&& ~~~v

/-- A CSR of L, C or S after a deferred write (R117). -/
def Core.applyCsr (c : Core) (p : Nat × Nat × Word) : Core :=
  let fc := fun (q : Seq) => { q with fcsr := BitVec.ofNat 17 (csrNew p.2.1 (q.fcsr.setWidth 64) p.2.2).toNat }
  if p.1 = 2 then { c with l := fc c.l }
  else if p.1 = 3 then { c with c := fc c.c }
  else if p.1 = 4 then { c with s := fc c.s }
  else if p.1 = 0x20 then { c with vec := c.vec.writeShape (csrNew p.2.1 (c.vec.shape.setWidth 64) p.2.2) }
  else { c with vec := { c.vec with tix := BitVec.ofNat 16 (csrNew p.2.1 (c.vec.tix.setWidth 64) p.2.2).toNat } }

/-- A ring word of K that acts at the start of this cycle (R194): `rg.set`, `rg.reset`, or the clearing of status bits. -/
def Core.applyRing (c : Core) (p : Nat × Nat × Word × Word) : Core :=
  if p.1 = 0 then c.setRing p.2.1 { Ring.reset with base := p.2.2.1, ctl := p.2.2.2, waits := (c.ring p.2.1).waits }
  else if p.1 = 1 then
    let r := c.ring p.2.1
    c.setRing p.2.1 { Ring.reset with base := r.base, ctl := r.ctl, waits := r.waits }
  else
    let m : BitVec 4 := BitVec.ofNat 4 p.2.2.1.toNat
    if p.2.1 = 0 then { c with xstK := c.xstK &&& ~~~m }
    else if p.2.1 = 1 then { c with tl := { c.tl with xst := c.tl.xst &&& ~~~m } }
    else { c with ts := { c.ts with xst := c.ts.xst &&& ~~~m } }

/-! ## Snapshots (R392, R393) -/

/-- A snapshot word of a sequencer (R392). -/
def Seq.snapWord (q : Seq) : Word :=
  BitVec.ofNat 64 (bitsOf q.pc 2 55 * 4 + (if q.stop.isSome then 2 else 0) + (if q.halted then 1 else 0))

/-- The core after a capture in cycle `now` (R392). -/
def Core.capture (c : Core) (now : Nat) : Core :=
  let four := fun (f : Nat → Nat) (n : Nat) => (List.range n).foldl (fun a i => a + f i % 16 * 2 ^ (4 * i)) 0
  let oq := four (fun i => (c.oqOf i).entries.length) 4
  let iq := four (fun i => (c.iqOf i).entries.length) 4
  let dq := four (fun i => (c.dq i).entries.length) 8
  let ncap := (bitsOf (Tab.get 0 c.snap 7) 32 32 + 1) % 2 ^ 32
  let task := match c.unit with | some u => u.task.toNat | none => 0
  let c := if c.snapctl.getLsbD 2 then c.beginHalt now else c
  { c with
    snap := [(0, w64 now), (1, c.k.snapWord), (2, c.l.snapWord), (3, c.c.snapWord), (4, c.s.snapWord), (5, w64 (c.tok now)),
      (6, w64 (oq * 2 ^ 48 + iq * 2 ^ 32 + dq)), (7, w64 (ncap * 2 ^ 32 + task))]
    snapAt := c.snapAt.filter (· ≠ now) }

/-! ## The cycle boundary -/

/-- A core at the start of cycle `now`: the flags of words that retired in the last cycle are in `fcsr` (R34), deferred CSR
writes act and K's reads of `shape` and `tix` see the values of now (R117), FUSED is cleared every 256 cycles (R81), and captures due now
are made (R393). -/
def Core.tick (now : Nat) (c : Core) : Core :=
  let fl := fun (q : Seq) => { q with fcsr := withFlags q.fcsr q.flagPend, flagPend := 0 }
  let c := { c with l := fl c.l, c := fl c.c, s := fl c.s }
  let c := { c.csrPend.foldl Core.applyCsr c with csrPend := [] }
  let c := { c with vec := { c.vec with shape0 := c.vec.shape, tix0 := c.vec.tix } }
  let c := { c.ringPend.foldl Core.applyRing c with ringPend := [] }
  let c := if now % 256 = 0 then { c with fused := 0 } else c
  if c.snapAt.contains now then c.capture now else c

/-- SWCFG's RESULT written and GO cleared (R409). -/
def State.swcfgEnd (s : State) (result : Nat) : State :=
  let m := Tab.get 0 s.dev.swcfg 0
  { s with dev := { s.dev with swcfg := Tab.set 0 s.dev.swcfg 0 (putBits m 61 3 result), swcfgDown := false } }

/-- Whether the write of a slice word that becomes readable in cycle `now` replaces a word with an error (R173): any byte a single-bit
error, all eight an uncorrectable one. -/
def State.rewritten (s : State) (now : Nat) (x : Nat × Nat) : Bool :=
  decide (2 ^ 48 ≤ x.1) &&
  (let k := x.1 - 2 ^ 48
   let hit := fun (b : Nat) => (s.core (BitVec.ofNat 8 (k / 2 ^ 18))).recent.any fun w => decide (w.cyc + 6 = now) && decide (w.off = 8 * (k % 2 ^ 18) + b)
   if x.2 = 1 then (List.range 8).any hit else (List.range 8).all hit)

/-- The next cycle of the core clock (R4). -/
def State.tick (s : State) : State :=
  let now := s.ccount + 1
  let s := if s.latent.isEmpty then s else { s with latent := s.latent.filter fun x => !s.rewritten now x }
  let s := if s.dev.swcfgDown then s.swcfgEnd 2 else s
  { s with
    ccount := now, amoq := s.amoq.filter (fun r => !r.applied), orphans := s.orphans.filter (fun o => !doneBy o.doneAt now), sealed := s.sealed.filter (fun x => decide (now < x.2))
    cores := s.cores.map fun x => (x.1, x.2.tick now) }

/-! ## K's slot (R81) -/

/-- Which of K and F takes K's slot: rules 1 to 3 of R81; the flag tells that FUSED counts the slot. -/
def slotWinner (k f : Bool) (c : Core) : Option Ctx × Bool :=
  match k, f with
  | false, false => (none, false)
  | true, false => (some .k, false)
  | false, true => (some .f, false)
  | true, true => if c.fpri then (some .f, false) else if c.fused.toNat < c.quota.toNat then (some .f, true) else (some .k, false)

/-- The outcome of a word that took K's slot: the slot is used in this cycle, and FUSED counts it (R81). -/
def useSlot (n : CoreId) (count : Bool) (o : Out) : Out :=
  match o with
  | .next t => .next (t.modCore n fun c => { c with slotAt := t.ccount + 1, fused := if count then c.fused + 1 else c.fused })
  | x => x

/-- Whether the word of an outcome issued. -/
def outIssued : Out → Bool
  | .next t => t.issued
  | _ => true

/-! ## Macros (R104 to R109) -/

/-- Fetches a macro of sequencer code `q` into its store at its first call (R104): it reads all 32 entries and keeps those up to the first
with END, so that a block that fails past END faults too (DESIGN CHOICE, log 45: the manual does not say how far a fetch reads). The reads are
checked as code fetches, so that the image needs X and may not lie in the slice window (DESIGN CHOICE, log 45: R104 does not say which access
they are). -/
def fetchMacro (n : CoreId) (q i : Nat) : Act Unit := do
  let c := (← get).core n
  if (Tab.get [] c.mstore (q * 64 + i)).isEmpty then
    let base := c.mimage.toNat + 0x4000 * q + 0x100 * i
    let ws ← (List.range 32).foldlM (init := ([] : List Word)) fun acc j => do
      let t ← resolve n .k (base + 8 * j) .fetch
      let r ← readTarget t 8 (base + 8 * j)
      pure (acc ++ [w64 (ofBytes r.1)])
    let cut := ws.takeWhile fun e => !e.getLsbD 41
    let words := ws.take (cut.length + 1)
    modify fun s => s.modCore n fun c => { c with mstore := Tab.put c.mstore (q * 64 + i) words }

/-- The position of the first operand field of a word by its format, and the field width; the second and third lie below it
(R106). -/
def macroField (sec : Section) (w : Nat) : Nat × Nat :=
  if w / 2 ^ 29 % 8 = 7 then (18, 5)
  else match sec with
  | .kcode => (17, 5)
  | .tcode => (21, 5)
  | .ccode => if w / 2 ^ 31 = 0 then (18, 7) else (20, 5)

/-- The word of a macro entry with its parameters substituted, or none for a malformed entry (R105, R106). -/
def macroWord (sec : Section) (e : Word) (p : Nat) : Option (BitVec 32) :=
  let w := BitVec.ofNat 32 (bitsOf e 0 32)
  let tags := [bitsOf e 32 3, bitsOf e 35 3, bitsOf e 38 3]
  if bitsOf e 42 22 ≠ 0 ∨ tags.any (fun t => decide (4 < t)) then none
  else
    let f := macroField sec w.toNat
    some ((tags.zipIdx).foldl (fun w t => if t.1 = 0 then w else putBits w (f.1 - f.2 * t.2) f.2 (p + t.1 - 1)) w)

/-! ## Fetch -/

/-- The words a code store holds: 192 KiB (R1). -/
def codeWords : Nat := 49152

/-- A core's code store keeps a fetched word; a full one drops a word that the free value names (R1; log 8). -/
def State.keepWord (s : State) (n : CoreId) (pc : Nat) (w : BitVec 32) : State :=
  let l := (s.core n).code
  if l.length < codeWords then s.modCore n fun c => { c with code := Tab.put l pc w }
  else (s.modCore n fun c => { c with code := Tab.put (l.eraseIdx ((Config.freeBits 64 s.free).toNat % l.length)) pc w }).bump

/-- The word at the program counter: from the core's code store, else from memory, which the store then keeps (R439); F reads
physical memory (R432). -/
def fetchCode (n : CoreId) (q : Ctx) : Act (BitVec 32) := do
  let s ← get
  let pc := ((s.core n).seq q).pc.toNat
  match (if q = .f then none else (s.core n).code.find? fun x => x.1 == pc) with
  | some x => pure x.2
  | none =>
    let t ← resolve n q pc .fetch
    let r ← readTarget t 4 pc
    let w : BitVec 32 := BitVec.ofNat 32 (ofBytes r.1)
    if q ≠ .f then modify fun s => s.keepWord n pc w
    pure w

/-- The code store of a core that runs a unit fetches a word ahead of its use, as a cache may, so that a later fetch returns the word as it
was then (R439; log 8). -/
def fetchAhead (n : CoreId) (pc : Nat) (s : State) : Out :=
  let c := s.core n
  if c.unit.isNone || decide (pc % 4 ≠ 0) || (c.code.any fun x => x.1 == pc) then stall s
  else match (do let t ← resolve n .k pc .fetch
                 let r ← readTarget t 4 pc
                 modify fun s => s.keepWord n pc (BitVec.ofNat 32 (ofBytes r.1)) : Act Unit).run { s with reader := (n, 8, pc) } with
    | (.ok _, t) => .next t
    | (.error (.wait r), _) => stall (({ s with reader := (n, 8, pc) } : State).ask r)
    | (.error _, _) => stall s

/-- The next word of a context: the word of its running macro or of a visible request (R108), else of its own stream. A
malformed macro entry is ILLEGAL_INSTR (R105). After a return into a macro of K the first parameter is read from the `mcall` at the pc
(R106, R382). A request queued before `mimage` was written again runs from the new image, and a fault of that second fetch is raised at
the target's word; a macro that runs when `mimage` is written takes its later words from the new image (DESIGN CHOICE, log 45: the manual does
not say which image they run from). A request leaves the macro queue when the target first fetches its macro, even where that word is not ready
or waits, and its place is free for an `mcall` from then on (DESIGN CHOICE, log 45: R107 does not say when). -/
def fetchWord (n : CoreId) (q : Ctx) : Act (BitVec 32) := do
  let s ← get
  let x := (s.core n).seq q
  let x := match x.mpos, x.macroQ with
    | none, r :: rest => if r.vis ≤ s.ccount then { x with mpos := some { idx := r.idx, p := some r.p, word := 0, last := false }, macroQ := rest } else x
    | _, _ => x
  match x.mpos with
  | none => fetchCode n q
  | some m =>
    let p ← (match m.p with
      | some p => pure p
      | none => do pure (bitsOf (← fetchCode n q) 12 5))
    modify fun s => s.modCore n fun c => c.setSeq q { x with mpos := some { m with p := some p } }
    Act.keeping (fetchMacro n (ctxNum q) m.idx)
    let ws := ((← get).core n).macroWords q m.idx
    let e := (ws[m.word]?).getD 0
    modify fun s => s.modCore n fun c => c.setSeq q { x with mpos := some { m with p := some p, last := decide (ws.length ≤ m.word + 1) } }
    match macroWord q.sect e p with
    | some w => pure w
    | none => throw (.late 0x01 (w64 (bitsOf e 0 32)))

/-- The outcome of an issue: a word that has issued, or raised its cause, has no more use for what it has read over links. -/
def endReads (a : CoreId × Nat × Nat) (o : Out) : Out :=
  match o with
  | .next t => .next (if t.issued then t.dropReads a else t)
  | x => x

/-- One issue of a context: its next word is fetched and given, decoded, to `ex`; a word that is not ready, or whose fetch
waits, changes nothing but what it asks for over a link. `un` is the fate of a word that is no instruction (R49). K's next word follows the
writes over links of a blocking word (R227, R268). -/
def issueWith (ex : Instr → State → Out) (un : BitVec 32 → State → Out) (n : CoreId) (q : Ctx) (s : State) : Out :=
  let s := { s with cur := (n, q), issued := false, reader := (n, if q = .f then 7 else ctxNum q, 0) }
  if !s.canIssue || (decide (q = .k) && s.farWrites s.reader) then stall s
  else match (fetchWord n q).run s with
    | (.ok w, t) =>
      let t := { t with word := w }
      endReads s.reader (match decode q.sect w with
       | some i => ex i t
       | none => un w t)
    | (.error (.wait r), _) => stall (s.ask r)
    | (.error (.fault c v), t) => .next ((undo s t).raise c v)
    | (.error (.late c v), t) => .next ((t.dropReads s.reader).raise c v)

end Sys2Proof.Machine
end

