-- ==== Sys2Proof/Machine/Rings.lean ====
section
/-! DEFINITION. Ring registers (R181 to R186): fields, homes, counts, claims, positions, pushes and pops; the ring words of K
(R194) and the grant of a claim (R184). Positions are absolute counts; RGST shows them modulo 2^21. -/
namespace Sys2Proof.Machine

/-- HOME, HREG, PROXY, FWD, FWDEN, LES, LCNT, VALID of RGCTL (R181). -/
def Ring.home (r : Ring) : CoreId := BitVec.ofNat 8 (bitsOf r.ctl 40 8)
/-- HREG. -/
def Ring.hreg (r : Ring) : Nat := bitsOf r.ctl 35 5
/-- PROXY. -/
def Ring.proxy (r : Ring) : Bool := r.ctl.getLsbD 34
/-- FWD. -/
def Ring.fwd (r : Ring) : Nat := bitsOf r.ctl 29 5
/-- FWDEN. -/
def Ring.fwdEn (r : Ring) : Bool := r.ctl.getLsbD 28
/-- The entry size in bytes (R182). -/
def Ring.size (r : Ring) : Nat := 2 ^ (bitsOf r.ctl 24 4 + 6)
/-- The entry count (R182). -/
def Ring.count (r : Ring) : Nat := 2 ^ bitsOf r.ctl 20 4
/-- VALID. -/
def Ring.valid (r : Ring) : Bool := r.ctl.getLsbD 19
/-- The address of a position, by the naming register's own fields (R182). -/
def Ring.addr (r : Ring) (p : Nat) : Nat := r.base.toNat + p % r.count * r.size
/-- Free entries (R182). -/
def Ring.free (r : Ring) : Nat := r.count - (r.claim - r.head)
/-- Claimed and not pushed (R182). -/
def Ring.claimed (r : Ring) : Nat := r.claim - r.tail
/-- Whether a position is pushed, its writes readable (R184). -/
def Ring.isFilled (r : Ring) (now p : Nat) : Bool := r.pushed.contains p && decide (Tab.get 0 r.fill p ≤ now)

/-- Positions filled without a gap from HEAD (R182, R184). -/
def Ring.filledFrom (r : Ring) (now : Nat) : Nat → Nat → Nat
  | 0, _ => 0
  | k + 1, p => if r.isFilled now p then 1 + r.filledFrom now k (p + 1) else 0
/-- Filled entries (R182, R184). -/
def Ring.filled (r : Ring) (now : Nat) : Nat := r.filledFrom now r.count r.head

/-- The colophon's position: the last one claimed while COLO is 1 (R185). -/
def Ring.colophon (r : Ring) : Option Nat := if r.colo then some (r.claim - 1) else none

/-- Whether a position holds a pushed colophon (R185). -/
def Ring.isColophon (r : Ring) (p : Nat) : Bool := r.colophon == some p && r.pushed.contains p

/-- The core and number of the register that keeps a ring's counts (R182). -/
def State.ringHome (s : State) (n : CoreId) (i : Nat) : CoreId × Nat :=
  let r := (s.core n).ring i
  if r.proxy then (r.home, r.hreg) else (n, i)

/-- The home register of a ring. -/
def State.homeRing (s : State) (n : CoreId) (i : Nat) : Ring :=
  let h := s.ringHome n i
  (s.core h.1).ring h.2

/-- Changes the home register of a ring. -/
def State.modHome (s : State) (n : CoreId) (i : Nat) (g : Ring → Ring) : State :=
  let h := s.ringHome n i
  s.modCore h.1 fun c => c.setRing h.2 (g (c.ring h.2))

/-- The oldest position from HEAD that is neither popped nor held (R183). -/
def Ring.nextRead (r : Ring) : Nat :=
  ((List.range (r.holders.length + r.marks.length + 1)).map (· + r.head)).find? (fun p => !r.marks.contains p && !r.holders.contains p) |>.getD r.head

/-- The place of a reader among those that take positions in one cycle (R183): L, C, S, the attention sequencer, other cores. -/
def readerRank (home n : CoreId) (q : Ctx) : Nat :=
  if home ≠ n then 4 else match q with
  | .l => 0
  | .c => 1
  | .s => 2
  | _ => 3

/-- Whether a reader of a place may still take a position in cycle `now`: none that comes after it has taken one (R183). -/
def Ring.mayTake (r : Ring) (now rank : Nat) : Bool := decide (r.takeAt.1 ≠ now + 1) || decide (r.takeAt.2 ≤ rank)

/-- A read position taken in cycle `now` by a reader of a place (R183). -/
def Ring.take (r : Ring) (now rank : Nat) : Ring := { r with holders := r.holders ++ [r.nextRead], takeAt := (now + 1, rank) }

/-- HEAD advanced over marked positions (R183). -/
def Ring.advance (r : Ring) : Nat → Ring
  | 0 => r
  | k + 1 =>
    if r.marks.contains r.head then
      ({ r with head := r.head + 1, marks := r.marks.filter (· ≠ r.head), pushed := r.pushed.filter (· ≠ r.head), fill := Tab.del r.fill r.head } : Ring).advance k
    else r

/-- A position released unpopped (R183). -/
def Ring.release (r : Ring) (p : Nat) : Ring := { r with holders := r.holders.filter (· ≠ p) }

/-- A position popped (R183); one that a met colophon has passed already changes nothing. -/
def Ring.pop (r : Ring) (p : Nat) : Ring :=
  let r := r.release p
  if p < r.head then r else ({ r with marks := r.marks ++ [p] } : Ring).advance (r.marks.length + 1)

/-- The claimed positions that are not pushed, the lowest first. -/
def Ring.unpushed (r : Ring) : List Nat := ((List.range (r.claim - r.head)).map (· + r.head)).filter fun p => !r.pushed.contains p

/-- A position pushed (R184): it counts as filled from cycle `at_`. A position that a met colophon has passed leaves the push to the lowest one
that is not pushed. A push that an `rgpush` has counted already leaves TAIL (log 48). -/
def Ring.push (r : Ring) (p : Nat) (cov : Cover) (at_ : Nat) : Ring :=
  let p := if p < r.head ∨ r.pushed.contains p then r.unpushed.headD r.tail else p
  { r with tail := if r.head + r.pushed.length < r.tail then r.tail else r.tail + 1, pushed := r.pushed ++ [p], fill := Tab.put r.fill p at_, cov := r.cov.join cov, direct := r.direct.filter fun x => x.1 ≠ p }

/-- The position that `rgpush` of a core pushes next: the lowest that its `rgclaim`s claimed, else that any `rgclaim` claimed (DESIGN CHOICE,
log 48: R192 does not say which of the claimed positions). A position granted to a T-word is filled by that word alone (R184). -/
def Ring.nextPush (r : Ring) (n : CoreId) : Option Nat :=
  let u := r.unpushed
  (u.filter (fun p => r.direct.contains (p, n)) ++ u.filter (fun p => r.direct.any fun x => x.1 == p)).head?

/-- `k` positions pushed by `rgpush` of a core, each filled from the cycle that `at_` gives it (R184, R192). Where only positions of T-words are
left, TAIL advances alone, and those words' pushes leave it (DESIGN CHOICE, log 48). -/
def Ring.pushN (r : Ring) (n : CoreId) (cov : Cover) (at_ : Nat → Nat) : Nat → Ring
  | 0 => r
  | k + 1 => (match r.nextPush n with
    | some p => r.push p cov (at_ p)
    | none => { r with tail := r.tail + 1, cov := r.cov.join cov }).pushN n cov at_ k

/-- `k` positions claimed by `rgclaim` of a core (R192). -/
def Ring.claimN (r : Ring) (n : CoreId) (k : Nat) : Ring :=
  { r with claim := r.claim + k, direct := r.direct ++ (List.range k).map fun i => (r.claim + i, n) }

/-- A met colophon (R185): HEAD becomes TAIL. -/
def Ring.meet (r : Ring) : Ring :=
  { r with head := r.tail, colo := false, marks := [], pushed := [], fill := [], direct := r.direct.filter fun x => decide (r.tail ≤ x.1) }

/-- What a release of a sequencer of a core covers (R261). -/
def State.coverOf (s : State) (n : CoreId) (q : Ctx) : Cover :=
  let c := s.core n
  let own : Cover := { stores := if q = .k then [(n, c.storeSeq)] else [], till := s.slicesTill }
  (c.seq q).cover.join own

/-- The cycle from which every write so far presented to a ring entry's bytes is readable, at the earliest now (R174, R184). -/
def State.fillAt (s : State) (n : CoreId) (i p : Nat) : Nat :=
  let r := (s.core n).ring i
  match s.targetOf n .l (r.addr p) .read with
  | .ok (.slice m off) => (s.core m).recent.foldl (fun t w => if off ≤ w.off ∧ w.off < off + r.size then Nat.max t (w.cyc + 6) else t) s.ccount
  | _ => s.ccount

/-- Whether a T-word in flight names a ring (R69): `cpy` and `tdset` name none. -/
def TFlight.namesRing (f : TFlight) : Bool :=
  match f.kind with
  | .move => f.mode == 0 && f.op != 3
  | .ringWord => f.op != 0x10
  | _ => false

/-- Whether an issued and unretired word of core `n` names ring `i` (R194). -/
def State.ringNamed (s : State) (n : CoreId) (i : Nat) : Bool :=
  let c := s.core n
  let t := fun (u : TUnit) => u.flight.any fun f => f.namesRing && f.target == i
  t c.tl || t c.ts || t c.ta || (match c.att.exp with | some f => f.target == i || f.code == i | none => false) || c.mat.flight.any fun f => (f.posA.isSome && f.ringA == i) || (f.posB.isSome && f.ringB == i)

/-! ## Ring words of K (R194) -/

/-- Whether RGBASE and RGCTL may be set for ring `i` of core `n` in a job (R181). -/
def State.ringOk (s : State) (job : BitVec 8) (n : CoreId) (i : Nat) (base ctl : Word) : Bool :=
  let r : Ring := { Ring.reset with base := base, ctl := ctl }
  let win := s.swin job
  decide (bitsOf base 57 7 = 0) && decide (bitsOf base 0 6 = 0) && decide (bitsOf ctl 48 16 = 0) && decide (bitsOf ctl 0 19 = 0) &&
  (!r.valid ||
    (decide (bitsOf ctl 24 4 ≤ 10) && decide (bitsOf ctl 20 4 ≤ 10) && decide (base.toNat % r.size = 0) &&
     decide (win ≤ base.toNat) && decide (base.toNat + r.count * r.size ≤ win + 2 ^ 29) &&
     decide ((base.toNat - win) / sliceSize = (base.toNat + r.count * r.size - 1 - win) / sliceSize) &&
     (r.proxy || (r.home == n && r.hreg == i))))

/-- `rg.set` (R194): not ready while an issued word names the ring; acts at the start of the next cycle. -/
def execRgSet (a b n : BitVec 5) (s : State) : Out :=
  let i := n.toNat
  if s.readyFor [a, b] then
    if !s.ringOk (s.jobOf s.cur.1) s.cur.1 i (s.reg a) (s.reg b) then .next s.badOperand
    else if s.ringNamed s.cur.1 i then stall s
    else .next (s.modHere fun c => { c with ringPend := c.ringPend ++ [(0, i, s.reg a, s.reg b)] }).advance
  else stall s

/-- `rg.reset` (R194): a proxy is ILLEGAL_OPERAND. -/
def execRgReset (n : BitVec 5) (s : State) : Out :=
  let i := n.toNat
  if !s.canIssue then stall s
  else if (s.here.ring i).proxy then .next s.badOperand
  else if s.ringNamed s.cur.1 i then stall s
  else .next (s.modHere fun c => { c with ringPend := c.ringPend ++ [(1, i, 0, 0)] }).advance

/-- `rg.stat` (R194): RGST (of the home for a proxy), RGBASE, RGCTL, or a transfer status whose bits set in rs1 are cleared. -/
def execRgStat (d a : BitVec 5) (sel : BitVec 2) (n : BitVec 5) (s : State) : Out :=
  let i := n.toNat
  if !s.readyFor [a] then stall s
  else if sel = 3 then
    if i = 2 ∨ 4 ≤ i then .next s.badOperand
    else
      let x : BitVec 4 := if i = 0 then s.here.xstK else if i = 1 then s.here.tl.xst else s.here.ts.xst
      .next ((s.modHere fun c => { c with ringPend := c.ringPend ++ [(2, i, s.reg a &&& x.setWidth 64, 0)] }).finish d (x.setWidth 64) 1)
  else if s.reg a ≠ 0 then .next s.badOperand
  else
    let r := s.here.ring i
    if sel = 1 then .next (s.finish d r.base 1)
    else if sel = 2 then .next (s.finish d r.ctl 1)
    else if r.proxy then
      (if s.covered s.seq.cover then .next ((s.finish d (w64 (s.homeRing s.cur.1 i).stat) 3).blockTill (s.ccount + 4)) else stall s)
    else .next (s.finish d (w64 r.stat) 1)

/-! ## Grants (R184) -/

/-- Changes one flight of a core's L or S. -/
def Core.modFlight (c : Core) (q : Ctx) (id : Nat) (g : TFlight → TFlight) : Core :=
  let u := c.tu q
  c.setTu q { u with flight := u.flight.map fun f => if f.id = id then g f else f }

/-- A home grants its oldest claim (R184, R185): COLO 1 raises RING_COLOPHON_MISUSE at the claiming word; else, with a free entry,
the word receives position CLAIM. -/
def execRingClaimGrant (n : CoreId) (r : BitVec 5) (s : State) : Out :=
  let i := r.toNat
  let h := (s.core n).ring i
  match h.waits with
  | [] => stall s
  | w :: rest =>
    if !h.valid then stall s
    else if h.colo then
      .next ((s.modCore n fun c => c.setRing i { h with waits := rest }).modCore w.core fun c =>
        c.modFlight w.ctx w.id fun f => { f with failed := some (0x13, f.word.setWidth 64), needsClaim := false })
    else if 1 ≤ h.free then
      .next ((s.modCore n fun c => c.setRing i { h with waits := rest, claim := h.claim + 1, colo := w.colo }).modCore w.core fun c =>
        c.modFlight w.ctx w.id fun f => { f with claimed := some h.claim, needsClaim := false })
    else stall s

end Sys2Proof.Machine
end

