-- ==== Sys2Proof/Machine/Steps.lean ====
section
/-! DEFINITION. When an M-word or attention step is ready: its fields, the checks of R202 in their three groups, the conditions of R201,
weight buffers (R204, R205), and whose step goes first (R200, R205). -/
namespace Sys2Proof.Machine

/-- Whether an issued step or `wstr` that reads buffer `i` has not passed its last column slot (R205). A `wstr` holds its buffer until the
cycle in which it is due to retire (DESIGN CHOICE, log 30: R205 does not say which its last column slot is). -/
def Core.bufRead (c : Core) (i now : Nat) : Bool :=
  c.mat.flight.any fun f => f.buf == i && (isStep f.op || f.op == 5) && (match f.cut with | some k => decide (k < f.slotsOf) || f.op == 5 | none => decide (now < f.issued + f.slots))

/-- A weight buffer of a core (R204). -/
def Core.wbuf (c : Core) (i : Nat) : WBuf := if i = 0 then c.mat.w0 else c.mat.w1
/-- A weight buffer replaced. -/
def Core.setWbuf (c : Core) (i : Nat) (b : WBuf) : Core :=
  if i = 0 then { c with mat := { c.mat with w0 := b } } else { c with mat := { c.mat with w1 := b } }

/-- An M-word's fields with the value of its register (R66), for C and for the attention sequencer (R370). -/
structure MArgs where
  op : Nat
  ra : Nat
  rb : Nat
  acc : Nat
  fmt : Nat
  e : Bool
  buf : Nat
  n : Word
  rnd : BitVec 2
  deriving DecidableEq, Repr

/-- The rings an M-word reads, in the order in which it takes positions (R198, R212, R215). -/
def MArgs.reads (a : MArgs) : List Nat := if a.op = 2 then [a.ra, a.rb] else if isStep a.op then [a.rb] else if a.op = 4 then [a.ra] else []

/-- The rings an M-word writes (R215, R217). -/
def MArgs.writes (a : MArgs) : List Nat := if a.op = 5 then [a.ra] else if a.op = 6 then a.ra :: (if a.e then [a.rb] else []) else []

/-- N of a step, Nr of a read-out. -/
def MArgs.cols (a : MArgs) : Nat := bitsOf a.n 0 10

/-- The element size of an M-word's format. -/
def MArgs.sz (a : MArgs) : Nat := 2 ^ mEsz a.fmt

/-- The bytes of its first read ring that an M-word uses, the control entry of `mma.a` apart (R199, R213 to R215). -/
def MArgs.readLen (a : MArgs) : Nat :=
  if a.op = 4 then imageSize (mEsz a.fmt)
  else if a.op = 8 then ((a.cols - 1) * bitsOf a.n 25 8 + bitsOf a.n 17 8) * bitsOf a.n 10 7 * a.sz
  else if a.op = 9 then 128 * bitsOf a.n 26 10 * a.sz
  else 64 * a.cols * a.sz + (if a.fmt = 0 then a.cols else 0)

/-- The limits on s[nreg] (R211 to R214, R217). -/
def MArgs.limits (a : MArgs) : Bool :=
  let n := a.cols
  let step := decide (n % 16 = 0) && decide (16 ≤ n) && decide (n ≤ if a.fmt = 4 then 256 else 512)
  if a.op = 1 ∨ a.op = 2 ∨ a.op = 3 then step && decide (a.n.toNat < 1024)
  else if a.op = 8 then
    let c := bitsOf a.n 10 7
    let f := bitsOf a.n 17 8
    step && decide (a.n.toNat < 2 ^ 33) && decide (1 ≤ bitsOf a.n 25 8) && decide (1 ≤ f) && decide (f ≤ 64) &&
      [1, 2, 4, 8, 16, 32, 64].contains c && decide (f * c ≤ 64)
  else if a.op = 9 then
    let t := bitsOf a.n 10 8
    let p := bitsOf a.n 26 10
    step && decide (a.n.toNat < 2 ^ 36) && decide (1 ≤ p) && decide (p ≤ 512) && decide (1 ≤ bitsOf a.n 18 8) && decide (1 ≤ t) && decide (t ≤ 64) &&
      decide ((n - 1) * bitsOf a.n 18 8 + t ≤ p)
  else if a.op = 6 then
    decide (bitsOf a.n 26 38 = 0) && decide (bitsOf a.n 10 6 = 0) && decide (n % 16 = 0) && decide (16 ≤ n) && decide (bitsOf a.n 16 10 % 16 = 0)
  else true

/-- Whether a ring may be named by an M-word (R181, R198): VALID, no proxy, its bytes in the executing core's own slice. -/
def State.mRing (s : State) (n : CoreId) (i : Nat) : Bool :=
  let r := (s.core n).ring i
  let win := s.swin (s.jobOf n)
  r.valid && !r.proxy && decide (win ≤ r.base.toNat) && decide ((r.base.toNat - win) / sliceSize = n.toNat)

/-- Group 1 of R202: the rings, their entry sizes, the limits on s[nreg]. -/
def mGroup1 (s : State) (n : CoreId) (a : MArgs) : Bool :=
  let size := fun (i : Nat) => ((s.core n).ring i).size
  (a.reads ++ a.writes).all (s.mRing n) && a.limits &&
  (if isStep a.op then decide (a.readLen ≤ size a.rb)
   else if a.op = 4 ∨ a.op = 5 then decide (imageSize (mEsz a.fmt) ≤ size a.ra)
   else if a.op = 6 then decide (128 * a.cols * a.sz ≤ size a.ra) && (!a.e || decide (512 * a.cols ≤ size a.rb))
   else true)

/-- The occupancy of the array (R197) for a number of columns. -/
def MArgs.occupancy (a : MArgs) (cols : Nat) : Nat :=
  if a.op = 9 then 2 * cols else if a.fmt = 0 then (cols + 1) / 2 else if a.fmt = 3 then 4 * cols else if a.fmt = 4 then 16 * cols else cols

/-- The cycles of `wld` and `wstr` (R215). -/
def fillTime (fmt : Nat) : Nat := (imageSize (mEsz fmt) + 511) / 512 + 4

/-- Whether a fill has taken a buffer and not retired (R205). -/
def Core.fillTaken (c : Core) (i : Nat) : Bool :=
  (c.tl.flight.any fun f => decide (f.kind = .move) && f.mode == 3 && f.target == i) || c.mat.flight.any fun f => f.op == 4 && f.buf == i

/-- The place of C or of the attention sequencer among the readers of one cycle (R183). -/
def mRank (att : Bool) : Nat := if att then 3 else 1

/-- The read positions an M-word would take, with the rings after taking them (R183). -/
def mPositions (now rank : Nat) (c : Core) : List Nat → Core × List Nat
  | [] => (c, [])
  | i :: is =>
    let r := c.ring i
    let x := mPositions now rank (c.setRing i (r.take now rank)) is
    (x.1, r.nextRead :: x.2)

/-- The conditions of R201, with those of R80 on rings; the writes that a ring's pushes cover are readable (R184, R261). -/
def mReady (s : State) (n : CoreId) (a : MArgs) (att : Bool) : Bool :=
  let c := s.core n
  let now := s.ccount
  let m := c.mat
  let pos := a.reads.zip (mPositions now (mRank att) c a.reads).2
  let mine := fun (ops : List Nat) => m.flight.any fun f => f.acc == a.acc && ops.contains f.op
  let seen := fun (ks : List Nat) => ks.all fun k => decide (Tab.get 0 m.accAt (a.acc + k) ≤ now)
  let b := c.wbuf a.buf
  pos.all (fun x => (c.ring x.1).isFilled now x.2 && (c.ring x.1).mayTake now (mRank att) && s.covered (c.ring x.1).cov) &&
  a.writes.all (fun i => (c.ring i).colo || (decide (a.writes.count i ≤ (c.ring i).free) && (c.ring i).waits.isEmpty)) &&
  (if isStep a.op then decide (m.arrayTill ≤ now) && decide (b.st = 2) && !c.fillTaken a.buf && !mine [6, 7] && seen [0, 4]
   else if a.op = 4 then !c.bufRead a.buf now
   else if a.op = 5 then decide (b.st = 2) && !c.fillTaken a.buf
   else if a.op = 6 then !mine [1, 2, 3, 7, 8, 9] && seen [0, 2]
   else !mine [1, 2, 3, 6, 7, 8, 9] && seen [0, 2, 4])

/-- The accumulator an M-word names. -/
def MUnit.accOf (m : MUnit) (i : Nat) : Acc := if i = 0 then m.a0 else m.a1
/-- An accumulator replaced. -/
def MUnit.setAcc (m : MUnit) (i : Nat) (a : Acc) : MUnit := if i = 0 then { m with a0 := a } else { m with a1 := a }

/-- The slice offset of byte `o` of position `p` of a ring of core `n` (R182, R198). -/
def State.ringOff (s : State) (n : CoreId) (i p o : Nat) : Nat := (((s.core n).ring i).addr p - s.swin (s.jobOf n)) % sliceSize + o

/-- The column of an accumulator: 256 columns in FP64, else 512 (R209). -/
def Acc.columns (a : Acc) : Nat := if a.afmt = 2 then 256 else 512

/-- The bytes an M-word reads of its core's slice in this cycle, and the failures of its doublewords (R173, R177): code, value, and the first
byte and the byte after the last within what it reads. -/
def mRead (s : State) (n : CoreId) (off len : Nat) : List Byte × List (Nat × Word × Nat × Nat) :=
  let c := s.core n
  let bad := (List.range ((off + len + 7) / 8 - off / 8)).filterMap fun i =>
    let d := off / 8 + i
    let at_ := (w64 (s.sliceVa n (8 * d)), 8 * d - off, Nat.min len (8 * d + 8 - off))
    if 2 ≤ Tab.get 0 s.latent (2 ^ 48 + n.toNat * 2 ^ 18 + d) then some (0x0F, at_)
    else if c.snapctl.getLsbD 1 && slicePending c s.ccount d then some (0x08, at_)
    else none
  ((List.range len).map fun i => sliceByte c s.ccount (off + i), bad)

/-- The control word of `mma.a` at its read position (R212), or none where its read fails, which the word raises at its retirement (R202). -/
def mControl (s : State) (n : CoreId) (a : MArgs) : Option Nat :=
  let r := mRead s n (s.ringOff n a.ra ((s.core n).ring a.ra).nextRead 0) 8
  if r.2.isEmpty then some (ofBytes r.1) else none

/-- Group 3 of R202: ESIZE, AFMT and columns, the bound plane, the control entry; the cause of the first that fails. A claim on a ring
with COLO raises RING_COLOPHON_MISUSE (R184). -/
def mGroup3 (s : State) (n : CoreId) (a : MArgs) : Option Nat :=
  let c := s.core n
  let m := c.mat
  let x := m.accOf a.acc
  let family := if a.fmt = 4 then 2 else 1
  let mineB := m.bown == a.acc + 1
  let bad :=
    if isStep a.op then
      (c.wbuf a.buf).esize ≠ a.sz || (x.afmt ≠ 0 && x.afmt ≠ family) ||
      (if a.e then m.bown ≠ 0 && !mineB else mineB) ||
      (decide (a.op = 2) && (match mControl s n a with | some v => decide (v < 1) || decide (511 < v) | none => false))
    else if a.op = 5 then (c.wbuf a.buf).esize ≠ a.sz
    else if a.op = 6 then decide (x.columns < bitsOf a.n 16 10 + a.cols) || (a.e && !mineB)
    else false
  if bad then some 0x02 else if a.writes.any fun i => (c.ring i).colo then some 0x13 else none

/-- The read ring whose next position is a colophon, if any (R198). -/
def mMeets (c : Core) (a : MArgs) : Option Nat :=
  (a.reads.zip (mPositions 0 0 c a.reads).2).findSome? fun x => if (c.ring x.1).isColophon x.2 then some x.1 else none

/-! ## The attention sequencer's next microword (R370) -/

/-- UOP, RA, RB, X, Y, CTL, IMM of a microword (R370). -/
def microFields (w : Word) : Nat × Micro :=
  (bitsOf w 58 6, { ra := BitVec.ofNat 5 (bitsOf w 53 5), rb := BitVec.ofNat 5 (bitsOf w 48 5), x := BitVec.ofNat 4 (bitsOf w 44 4),
                    y := BitVec.ofNat 4 (bitsOf w 40 4), ctl := BitVec.ofNat 8 (bitsOf w 32 8), imm := BitVec.ofNat 32 w.toNat })

/-- STEP as an M-word (R370). -/
def stepArgs (m : Micro) : MArgs :=
  let kind := bitsOf m.ctl 0 2
  { op := if kind = 0 then 1 else if kind = 1 then 3 else 2, ra := m.ra.toNat, rb := m.rb.toNat, acc := bitsOf m.ctl 3 1, fmt := bitsOf m.ctl 5 3,
    e := m.ctl.getLsbD 4, buf := bitsOf m.ctl 2 1, n := w64 (bitsOf m.imm 0 10), rnd := 0 }

/-- Whether the reserved fields of a STEP are in order (R66, R212, R370). -/
def stepOk (m : Micro) : Bool :=
  decide (bitsOf m.ctl 0 2 ≠ 3) && decide (bitsOf m.ctl 5 3 < 5) && (decide (bitsOf m.ctl 0 2 ≠ 2) || (m.ctl.getLsbD 4 && decide (bitsOf m.ctl 5 3 < 4)))

/-- ACCRD as an M-word (R370): c0 and Nr stand as in s[nreg] of `accrd`. -/
def accrdArgs (m : Micro) : MArgs :=
  { op := 6, ra := m.ra.toNat, rb := m.rb.toNat, acc := bitsOf m.ctl 3 1, fmt := bitsOf m.ctl 5 3, e := m.ctl.getLsbD 4, buf := 0
    n := w64 (bitsOf m.imm 0 10 + bitsOf m.imm 16 10 * 2 ^ 16), rnd := BitVec.ofNat 2 (bitsOf m.ctl 0 2) }

/-- ACCZR as an M-word (R370). -/
def acczrArgs (m : Micro) : MArgs := { op := 7, ra := 0, rb := 0, acc := bitsOf m.ctl 3 1, fmt := 0, e := false, buf := 0, n := 0, rnd := 0 }

/-- WLD as an M-word (R370). -/
def wldArgs (m : Micro) : MArgs := { op := 4, ra := m.ra.toNat, rb := 0, acc := 0, fmt := bitsOf m.ctl 5 3, e := false, buf := bitsOf m.ctl 2 1, n := 0, rnd := 0 }

/-- The M-word that a microword is, where it is one (R370). -/
def microMArgs (w : Word) : Option MArgs :=
  let u := microFields w
  let fmt := bitsOf u.2.ctl 5 3
  if u.1 = 3 then (if stepOk u.2 then some (stepArgs u.2) else none)
  else if u.1 = 4 then (if 1 ≤ fmt ∧ fmt < 5 then some (accrdArgs u.2) else none)
  else if u.1 = 5 then some (acczrArgs u.2)
  else if u.1 = 6 then (if fmt < 5 then some (wldArgs u.2) else none)
  else none

/-- Whether the attention sequencer may issue in this cycle (R371). -/
def State.attIssues (s : State) (n : CoreId) : Bool :=
  let c := s.core n
  c.att.busy && !c.att.fault && c.att.parked.isNone && decide (c.att.nextIssue ≤ s.ccount) && decide (c.cutting = .running) && decide (c.debugHalt = .running)

/-- Whether a step of the attention sequencer is ready to issue, and so precedes C's (R200). -/
def attStepReady (s : State) (n : CoreId) : Bool :=
  let a := (s.core n).att
  let u := microFields (Tab.get 0 a.store a.upc)
  s.attIssues n && decide (u.1 = 3) && stepOk u.2 && mGroup1 s n (stepArgs u.2) && mReady s n (stepArgs u.2) true && s.covered a.cover && (mMeets (s.core n) (stepArgs u.2)).isNone && (mGroup3 s n (stepArgs u.2)).isNone

/-- A matrix step of C as its word names it: arguments without s[nreg], and nreg, S, W, P (R66 to R68). -/
def stepWord : Instr → Option (MArgs × BitVec 5 × BitVec 1 × BitVec 1 × BitVec 1)
  | .mma b n c f sh w p u => some (mk 1 0 b c f false u, n, sh, w, p)
  | .mmaE b n c f sh w p u => some (mk 1 0 b c f true u, n, sh, w, p)
  | .mmaA a b n c f sh w p u => some (mk 2 a b c f true u, n, sh, w, p)
  | .mabs b n c f sh w p u => some (mk 3 0 b c f false u, n, sh, w, p)
  | .mabsE b n c f sh w p u => some (mk 3 0 b c f true u, n, sh, w, p)
  | .mwin b n c f e sh w p u => some (mk 8 0 b c f (e = 1) u, n, sh, w, p)
  | .mdw b n c f e sh w p u => some (mk 9 0 b c f (e = 1) u, n, sh, w, p)
  | _ => none
where
  mk (op : Nat) (a b : BitVec 5) (c : BitVec 1) (f : BitVec 3) (e : Bool) (u : BitVec 1) : MArgs :=
    { op := op, ra := a.toNat, rb := b.toNat, acc := c.toNat, fmt := f.toNat, e := e, buf := u.toNat, n := 0, rnd := 0 }

/-- The M-word that a word of C is, without s[nreg] (R66). -/
def mWordArgs (i : Instr) : Option MArgs :=
  match i with
  | .wld a f _ _ u => some { op := 4, ra := a.toNat, rb := 0, acc := 0, fmt := f.toNat, e := false, buf := u.toNat, n := 0, rnd := 0 }
  | .wstr a f _ _ u => some { op := 5, ra := a.toNat, rb := 0, acc := 0, fmt := f.toNat, e := false, buf := u.toNat, n := 0, rnd := 0 }
  | .accrd a _ c f _ _ r => some { op := 6, ra := a.toNat, rb := 0, acc := c.toNat, fmt := f.toNat, e := false, buf := 0, n := 0, rnd := r }
  | .accrdE a b _ c f _ _ r => some { op := 6, ra := a.toNat, rb := b.toNat, acc := c.toNat, fmt := f.toNat, e := true, buf := 0, n := 0, rnd := r }
  | .acczr c _ _ _ => some { op := 7, ra := 0, rb := 0, acc := c.toNat, fmt := 0, e := false, buf := 0, n := 0, rnd := 0 }
  | i => (stepWord i).map fun x => x.1

/-- The difference of the cycle counter and a stamp's target (R203). -/
def stampDiff (now : Nat) (stamp : Word) : Int := sextNat (now % 2 ^ 52 + (2 ^ 52 - bitsOf stamp 0 52)) 52

/-- The matrix step that is C's next word, of its macro or its own stream, if it is one (R108). -/
def State.nextStep (s : State) (n : CoreId) : Option (MArgs × BitVec 5 × BitVec 1 × BitVec 1 × BitVec 1) :=
  match (fetchWord n .c).run { s with cur := (n, .c), reader := (n, 2, 0) } with
  | (.ok w, _) => (decode .ccode w).bind stepWord
  | _ => none

/-- Whether C's next word is a step that reads buffer `i` and could issue in this cycle, so that a fill of L lets it go first (R205). -/
def stepFirst (s : State) (n : CoreId) (i : Nat) : Bool :=
  let t := { s with cur := (n, .c) }
  let q := t.seq
  match (if t.canIssue then s.nextStep n else none) with
  | none => false
  | some (a0, nreg, sh, w, p) =>
    let a := { a0 with n := t.reg nreg }
    let stamp := t.reg (nreg + 1)
    let d := stampDiff s.ccount stamp
    let wc := if w = 1 then waitCodes 2 q.wmask else []
    let pc := if p = 1 then postCodes 2 q.pmask else []
    a.buf == i && t.readyFor (nreg :: if sh = 1 then [nreg + 1] else []) && mGroup1 s n a && (sh = 0 || (decide (0 ≤ d) && decide (d ≤ (bitsOf stamp 52 12 : Int)))) &&
    t.here.tokensVisible wc s.ccount && t.here.tokensFree pc s.ccount && mReady s n a false && t.covered (q.cover.join (t.here.tokenCover wc s.ccount)) &&
    !attStepReady s n && (mMeets t.here a).isNone && (mGroup3 s n a).isNone

end Sys2Proof.Machine
end

