-- ==== Sys2Proof/Machine/Transfers.lean ====
section
/-! DEFINITION. T-words (R69, R70, R179 to R193, R206 to R208): their checks and effects at issue, the data they move when they
retire, faults and resume cursors. The blocks of a transfer, and of the attention sequencer's copies, are read and written by steps of their own
between its issue and its retirement, or by its retirement (log 30). -/
namespace Sys2Proof.Machine

/-! ## Checks at issue (R180, R187, R188, R206) -/

/-- Sizes, strides and capacity as the word checks them at issue (R180, R187, R188, R206); `cap` bytes, or elements for a data queue. -/
def tCheck (word : Word) (op mode : Nat) (t : BitVec 512) (a l : Word) (cap : Nat) : Act Unit := do
  let sz := (cvtSizes op t).1
  let nt := tCount op t
  Act.check (decide (tdCvt t = 0) || decide (sz = tdSize t)) 0x02 word
  Act.check (!((op = 4 ∨ op = 5) && decide (tdN t 2 ≠ 1))) 0x02 word
  if op = 6 then
    let (_, _, f, sw, _, _) := winDims t
    Act.check (decide (tdN t 1 = 1) && decide (tdN t 2 = 1) && decide (f ≠ 0) && decide (sw ≠ 0)) 0x02 word
  if mode = 2 then Act.check (decide (nt ≤ 8)) 0x02 word
  else if mode = 3 then
    Act.check (decide (tdCvt t = 0) && decide (nt * tdSize t = imageSize (tdEsz t))) 0x02 word
  else if op ≠ 3 then Act.check (decide (nt * (cvtSizes op t).2 ≤ cap)) 0x02 word
  let base := tBase op a l (tdW t 3)
  let sz := tdSize t
  let aligned := fun (x : Word) => Act.check (decide (x.toNat % sz = 0)) 0x04 x
  aligned base
  aligned (tdS t 1)
  aligned (tdS t 2)
  aligned (tdW t 3)

/-! ## Issue (R179) -/

/-- The agent of L, S or the attention sequencer as a writer (R174, R390). -/
def tWriter (n : CoreId) (q : Ctx) : Writer := if q = .f then attWriter n else { core := n, agent := ctxNum q, rank := rankOf q }

/-- The context whose translation a copy side uses: the attention sequencer reads and writes for its core's job. -/
def tCtx (q : Ctx) : Ctx := if q = .f then .c else q

/-- A T-word at its sequencer: ILLEGAL_INSTR where the sequencer may not run it (R70); ready with its registers, the tokens of W
and the reservations of P (R80, R89); then tokens are popped and reserved and `body` runs. -/
def tWord (s : State) (allowed : Bool) (srcs : List (BitVec 5)) (w p : BitVec 1) (ready : Bool) (bad : Bool)
    (body : Act State) : Out :=
  let me := ctxNum s.cur.2
  let wc := if w = 1 then waitCodes me s.seq.wmask else []
  let pc := if p = 1 then postCodes me s.seq.pmask else []
  if !s.canIssue then stall s
  else if !allowed then .next s.illegal
  else if bad then .next s.badOperand
  else if s.readyFor srcs && ready && s.here.tokensVisible wc s.ccount && s.here.tokensFree pc s.ccount then
    runWord s (do
      let cov := s.here.tokenCover wc s.ccount
      modify fun s =>
        let s := s.modHere fun c => (c.popTokens wc s.ccount).reserveTokens pc
        if wc.isEmpty then s else s.acquire cov
      body)
  else stall s

/-- The flight record of a T-word at issue. -/
def tFlight (s : State) (kind : TKind) (op : Nat) (a l : Word) (target : Nat) (w p : BitVec 1) : TFlight :=
  { TFlight.blank s with
    kind := kind, op := op, a := a, l := l, target := target
    post := if p = 1 then s.seq.pmask else 0, popTok := if w = 1 then s.seq.wmask else 0 }

/-- Transfers of a flight list, which hold slots (R179). -/
def slotsUsed (u : TUnit) : Nat := (u.flight.filter fun f => f.kind = .move ∨ f.kind = .rows).length

/-- Sends the claim of a flight to the ring's home (R184). -/
def State.claimFor (s : State) (n : CoreId) (q : Ctx) (id ring : Nat) (colo : Bool) : State :=
  s.modHome n ring fun r => { r with waits := r.waits ++ [{ core := n, ctx := q, id := id, colo := colo }] }

/-- Sends a claim for the word just flown. -/
def State.sendClaim (s : State) (ring : Nat) (colo : Bool) : State := s.claimFor s.cur.1 s.cur.2 s.here.nextId ring colo

/-- The issue of a transfer into a ring, operand queue, data queue or weight buffer, or to memory (R179, R187). -/
def moveWord (s : State) (op : Nat) (allowed : Bool) (a l t d : BitVec 5) (mode : Nat) (w p : BitVec 1) (ord keep : Bool) : Out :=
  let n := s.cur.1
  let q := s.cur.2
  let u := s.here.tu q
  let td := Tab.get 0 u.td d.toNat
  let tgt := t.toNat
  let src := memIsDst op
  let nt := tCount op td
  let ring := mode == 0 && op != 3
  let bad := (mode == 1 && decide (4 ≤ tgt)) || (mode == 2 && tgt != 4 && tgt != 7) || (mode == 3 && decide (2 ≤ tgt))
  let ready := decide (slotsUsed u < 16) &&
    (if mode = 1 then (if src then ((s.here.oqOf tgt).front s.ccount).isSome else (s.here.iqOf tgt).canPush 4 s.ccount)
     else if mode = 2 then
       decide ((s.here.dq tgt).entries.length + (if s.ccount < (s.here.dq tgt).freeAt then (s.here.dq tgt).freed else 0) + Nat.min nt 8 ≤ 8)
     else true) &&
    (if ring && src then !(s.here.ring tgt).valid || ((s.homeRing n tgt).valid && (s.homeRing n tgt).mayTake s.ccount (readerRank (s.ringHome n tgt).1 n q)) else true)
  tWord s allowed [a, l] w p ready bad (do
    let r := s.here.ring tgt
    if ring then Act.check r.valid 0x02 s.wordVal
    tCheck s.wordVal op mode td (s.reg a) (s.reg l) (if mode = 1 then 256 else r.size)
    let reading := s.here.bufRead tgt s.ccount
    if mode = 3 then Act.need (!reading && !stepFirst s n tgt)
    let empty := op = 6 && (let (h, wd, f, sw, plo, phi) := winDims td
      winOut h f sw plo phi == 0 || winOut wd f sw plo phi == 0 || decide (winOut h f sw plo phi ≤ (s.reg l).toNat))
    modify fun s =>
      let oqv := if mode = 1 && src then ((s.here.oqOf tgt).front s.ccount) else none
      -- the pop of a result queue and the read of a ring are acquires (R260)
      let s := match oqv with
        | some (_, cov) => (s.modHere fun c => c.setOq tgt ((c.oqOf tgt).pop s.ccount)).acquire cov
        | none => if ring && src then s.acquire Cover.none else s
      let f0 := tFlight s .move op (s.reg a) (s.reg l) tgt w p
      let rp := if ring && src then some (s.homeRing n tgt).nextRead else none
      let f := { f0 with td := td, mode := mode, ord := ord, keep := keep, rpos := rp, pvec := oqv.map (·.1), needsClaim := ring && !src && !empty }
      let s := s.fly f
      let s := if ring && src then s.modHome n tgt fun r => r.take s.ccount (readerRank (s.ringHome n tgt).1 n q) else s
      let s := if ring && !src && !empty then s.sendClaim tgt false else s
      let s := if mode = 1 && !src && !empty then s.modHere fun c => c.setIq tgt (c.iqOf tgt).reserve else s
      let s := if mode = 2 then s.modHere fun c => c.setDq tgt ((List.range nt).foldl (fun x _ => x.reserve) (c.dq tgt)) else s
      if mode = 3 then s.modHere fun c => c.setWbuf tgt { c.wbuf tgt with st := 1 }
      else s
    pure (← get).advance)

/-! ## Reads and writes of a running transfer -/

/-- Neighbouring pieces joined into runs of addresses. -/
def coalesce : List (Nat × Nat) → List (Nat × Nat)
  | [] => []
  | (a, k) :: rest =>
    match coalesce rest with
    | [] => [(a, k)]
    | (b, j) :: more => if a + k = b then (a, k + j) :: more else (a, k) :: (b, j) :: more

/-- Whether words of a slice range hold a write of a copy side that is not yet readable (R176). -/
def State.ownPending (s : State) (n : CoreId) (q : Ctx) (m : CoreId) (off len : Nat) : Bool :=
  decide (s.ccount < ((s.core n).tu q).wrTill) &&
  (s.core m).recent.any fun w => decide (s.ccount < w.cyc + 6) && decide (off / 8 ≤ w.off / 8) && decide (w.off / 8 ≤ (off + len - 1) / 8) &&
    decide (w.rank = if m = n then (tWriter n q).rank else 0)

/-- The stale-read check of a read by a copy side (R177), and with `watch` the CORE-scope watchpoints (R390: the transfers of L and S, not
the attention sequencer nor `tdset`); a word that its own earlier words have just written is waited for (R176). -/
def tReadCheck (watch : Bool) (n : CoreId) (q : Ctx) (t : Target) (va len : Nat) : Act Unit := do
  if watch && decide (q ≠ .f) then watchCheck n va len false
  let s ← get
  match t with
  | .slice m off => Act.need (!s.ownPending n q m off len)
  | _ => pure ()
  staleCheck n t va len

/-- A read of L, S or the attention sequencer, piece by piece: the bytes and the status bits it sets (R173, R178). -/
def tReadBy (watch : Bool) (n : CoreId) (q : Ctx) (va len : Nat) : Act (List Byte × BitVec 4) :=
  (pieces va len (len / 64 + 2)).foldlM (init := ([], 0)) fun acc p => do
    let t ← resolve n (tCtx q) p.1 .read
    tReadCheck watch n q t p.1 p.2
    let r ← readTarget t p.2 p.1
    let x : BitVec 4 := (if r.2.1 then 8 else 0) ||| (if r.2.2 then 4 else 0)
    pure (acc.1 ++ r.1, acc.2 ||| x)

/-- A read of a transfer. -/
def tRead (n : CoreId) (q : Ctx) (va len : Nat) : Act (List Byte × BitVec 4) := tReadBy true n q va len

/-- A write of a copy side: watchpoints (R390), then piece by piece, each no sooner readable than the side's earlier writes, which are
readable from `till` (R254). -/
def tWrite (n : CoreId) (q : Ctx) (till : Nat) (va : Nat) (bytes : List Byte) : Act Unit := do
  if q ≠ .f then watchCheck n va bytes.length true
  let _ ← (pieces va bytes.length (bytes.length / 64 + 2)).foldlM (init := bytes) fun rest p => do
    let t ← resolve n (tCtx q) p.1 .write
    Act.need (decide (till ≤ (← get).ccount + t.delay))
    writeVirt n (tCtx q) (tWriter n q) p.1 (rest.take p.2)
    modify fun s => s.modCore n fun c => let u := c.tu q; c.setTu q { u with wrTill := Nat.max u.wrTill (s.ccount + t.delay) }
    pure (rest.drop p.2)
  pure ()

/-- Reads of several runs, in order. -/
def tReadAll (n : CoreId) (q : Ctx) (l : List (Nat × Nat)) : Act (List Byte × BitVec 4) :=
  (coalesce l).foldlM (init := ([], 0)) fun acc p => do
    let r ← tRead n q p.1 p.2
    pure (acc.1 ++ r.1, acc.2 ||| r.2)

/-- Writes of several runs, in order. -/
def tWriteAll (n : CoreId) (q : Ctx) (till : Nat) (l : List (Nat × Nat)) (bytes : List Byte) : Act Unit := do
  let _ ← (coalesce l).foldlM (init := bytes) fun rest p => do
    tWrite n q till p.1 (rest.take p.2)
    pure (rest.drop p.2)
  pure ()

/-- The address of memory-side element `i` of a pattern (R180). -/
def patAddr (base : Word) (t : BitVec 512) (i : Nat) : Nat :=
  let n0 := tdN t 0
  let n1 := tdN t 1
  let x : Word := w64 (i % n0 * tdSize t)
  (base + x + w64 (i / n0 % n1) * tdS t 1 + w64 (i / (n0 * n1)) * tdS t 2).toNat

/-- Index `j` of a gather or scatter (R187). -/
def idxOf (n : CoreId) (q : Ctx) (f : TFlight) (j : Nat) : Act (Nat × BitVec 4) := do
  let a := (f.l + w64 (4 * j)).toNat
  Act.check (decide (a % 4 = 0)) 0x04 (w64 a)
  let r ← tRead n q a 4
  pure (ofBytes r.1, r.2)

/-- The address of element `i` of a gather or scatter (R187). -/
def gatAddr (n : CoreId) (q : Ctx) (f : TFlight) (i : Nat) : Act (Nat × BitVec 4) := do
  let n0 := tdN f.td 0
  let x ← idxOf n q f (i / n0)
  pure ((f.a + w64 x.1 * tdS f.td 1 + w64 (i % n0 * tdSize f.td)).toNat, x.2)

/-- The tap of packed element `i` of a window row: its address, or none for padding (R188). -/
def winAddr (f : TFlight) (i : Nat) : Option Nat :=
  let (h, w, fs, sw, plo, _) := winDims f.td
  let n0 := tdN f.td 0
  let ch := i % n0
  let fx := i / n0 % fs
  let fy := i / (n0 * fs) % fs
  let ox := i / (n0 * fs * fs)
  let y : Int := (f.l.toNat * sw + fy : Nat) - (plo : Int)
  let x : Int := (ox * sw + fx : Nat) - (plo : Int)
  if 0 ≤ y ∧ y < h ∧ 0 ≤ x ∧ x < w then
    let base := tBase 6 f.a f.l (tdW f.td 3)
    some (base + w64 y.toNat * tdS f.td 1 + w64 ((x.toNat * n0 + ch) * tdSize f.td)).toNat
  else none

/-- Converts one element (R180, R179): its bytes at the other side and the flags. -/
def convert (cvt : Nat) (fcsr : BitVec 17) (b : List Byte) : List Byte × Flags :=
  if cvt = 0 then (b, 0) else
  let p := cvtPair cvt
  let x := p.1.read (ftzOf fcsr p.1) (ofBytes b)
  let r := p.2.round (modeOf (frmOf fcsr)) (ftzOf fcsr p.2) x.1
  (toBytes (p.2.width / 8) r.1, x.2 ||| r.2)

/-- Splits bytes into elements of `sz` and converts each. -/
def convertAll (cvt : Nat) (fcsr : BitVec 17) (sz : Nat) (b : List Byte) : List Byte × Flags :=
  (List.range (b.length / sz)).foldl (fun acc i =>
    let r := convert cvt fcsr ((b.drop (i * sz)).take sz)
    (acc.1 ++ r.1, acc.2 ||| r.2)) ([], 0)

/-! ## Blocks (R179) -/

/-- The packed bytes of a transfer (R179, R187); of `wfeed` its stream, of KVG its gather. -/
def TFlight.bytes (f : TFlight) : Nat := if f.op = 9 then f.l.toNat else if f.op = 0x11 then f.got.length else tCount f.op f.td * (cvtSizes f.op f.td).2
/-- The 64-byte blocks of a transfer. -/
def TFlight.blocks (f : TFlight) : Nat := Nat.max 1 ((f.bytes + 63) / 64)
/-- The elements of block `k` in packed order. -/
def TFlight.elems (f : TFlight) (k : Nat) : List Nat :=
  let epb := 64 / (cvtSizes f.op f.td).2
  (List.range (Nat.min epb (tCount f.op f.td - k * epb))).map (· + k * epb)
/-- The bytes of block `k`. -/
def TFlight.blockLen (f : TFlight) (k : Nat) : Nat := Nat.min 64 (f.bytes - 64 * k)

/-- The address of byte `o` of the ring entry a word holds (R182). -/
def entryAddr (s : State) (n : CoreId) (ring p o : Nat) : Nat := ((s.core n).ring ring).addr p + o

/-- The packed bytes of block `k` of a word that reads memory (tld, cpy, gat, win, wfeed), with flags and status bits. -/
def blockIn (n : CoreId) (q : Ctx) (f : TFlight) (k : Nat) : Act (List Byte × Flags × BitVec 4) := do
  if f.op = 9 then
    let r ← tRead n q (f.a + w64 (64 * k)).toNat (f.blockLen k)
    pure (r.1, 0, r.2)
  else
  let sz := tdSize f.td
  let is := f.elems k
  let r ← (if f.op = 6 then
      is.foldlM (init := (([] : List Byte), (0 : BitVec 4))) fun acc i => do
        match winAddr f i with
        | some a => let r ← tRead n q a sz; pure (acc.1 ++ r.1, acc.2 ||| r.2)
        | none => pure (acc.1 ++ toBytes sz (tdW f.td 5).toNat, acc.2)
    else if f.op = 4 then do
      let xs ← is.foldlM (init := (([] : List (Nat × Nat)), (0 : BitVec 4))) fun acc i => do
        let x ← gatAddr n q f i
        pure (acc.1 ++ [(x.1, sz)], acc.2 ||| x.2)
      let r ← tReadAll n q xs.1
      pure (r.1, r.2 ||| xs.2)
    else tReadAll n q (is.map fun i => (patAddr (tBase f.op f.a f.l (tdW f.td 3)) f.td i, sz)))
  let c := convertAll (tdCvt f.td) f.fcsr sz r.1
  pure (c.1, c.2, r.2)

/-- The packed bytes of block `k` of any transfer at its source: memory, a ring entry, or what it has taken already. -/
def blockSrc (n : CoreId) (q : Ctx) (f : TFlight) (k : Nat) : Act (List Byte × Flags × BitVec 4) := do
  let len := f.blockLen k
  if f.op = 0x11 then pure ((f.got.drop (64 * k)).take len, 0, 0)
  else if memIsDst f.op then
    if f.mode = 1 then pure (toBytes len (bitsOf (f.pvec.getD 0) (512 * k) (8 * len)), 0, 0)
    else
      let s ← get
      let r ← tRead n q (entryAddr s n f.target (f.rpos.getD 0) (64 * k)) len
      pure (r.1, 0, r.2)
  else blockIn n q f k

/-- Writes block `k` of a word whose destination is memory: contiguous for cpy, by pattern for tst, by index for sct. -/
def blockOut (n : CoreId) (q : Ctx) (till : Nat) (f : TFlight) (k : Nat) (packed : List Byte) : Act (Flags × BitVec 4) := do
  if f.op = 3 then
    tWrite n q till (f.a + w64 (64 * k)).toNat packed
    pure (0, 0)
  else
    let psz := (cvtSizes f.op f.td).2
    let sz := tdSize f.td
    let is := f.elems k
    let c := convertAll (tdCvt f.td) f.fcsr psz packed
    if f.op = 5 then
      let xs ← is.foldlM (init := (([] : List (Nat × Nat)), (0 : BitVec 4))) fun acc i => do
        let x ← gatAddr n q f i
        pure (acc.1 ++ [(x.1, sz)], acc.2 ||| x.2)
      tWriteAll n q till xs.1 c.1
      pure (c.2, xs.2)
    else
      tWriteAll n q till (is.map fun i => (patAddr (tBase f.op f.a f.l (tdW f.td 3)) f.td i, sz)) c.1
      pure (c.2, 0)

/-- Changes a flight. -/
def modF (n : CoreId) (q : Ctx) (id : Nat) (g : TFlight → TFlight) : Act Unit :=
  modify fun s => s.modCore n fun c => c.modFlight q id g

/-- A vector with bytes written from an offset. -/
def vecPut (v : Vec) (off : Nat) (b : List Byte) : Vec := putBits v (8 * off) (8 * b.length) (ofBytes b)

/-- Decompresses a weight stream row by row (R207, R208): the rows that are complete, and the offset of the byte that tval names where
the stream is malformed. -/
def unpackRows (esz : Nat) (b : List Byte) : Nat → Nat → Tab Byte → Tab Byte × Option Nat
  | 0, off, img => (img, if off < b.length then some off else none)
  | k + 1, off, img =>
    let row := 127 - k
    let m := ofBytes ((b.drop off).take 8)
    let sz := 2 ^ esz
    let hd := if esz = 0 then 9 else 8
    let len := hd + popcount 64 m * sz
    if b.length < off + 8 ∨ b.length < off + len then (img, some off)
    else
      let img := if esz = 0 then Tab.set 0 img (8192 + row) ((b[off + 8]?).getD 0) else img
      let r := (List.range 64).foldl (fun (acc : Tab Byte × Nat) j =>
        if m.testBit j then (Tab.setRange 0 acc.1 ((64 * row + j) * sz) ((b.drop acc.2).take sz), acc.2 + sz) else acc) (img, off + hd)
      unpackRows esz b k (off + len) r.1

/-- Moves block `k` of a transfer (R179), read before or now: its cursor passes it when it is done. The last block of a ring entry brings
zero bits in the rest of the entry (R184). -/
def moveBlock (n : CoreId) (q : Ctx) (f : TFlight) (k : Nat) : Act Unit := do
  let till := (((← get).core n).tu q).wrTill
  let src ← (match f.ahead.find? fun b => b.1 == k with
    | some b => pure b.2
    | none => blockSrc n q f k)
  let x ← (if memIsDst f.op ∨ f.op = 3 then blockOut n q till f k src.1
    else if f.mode = 0 then do
      let s ← get
      let p := f.claimed.getD 0
      tWrite n q till (entryAddr s n f.target p (64 * k)) src.1
      if k + 1 = f.blocks then
        tWrite n q till (entryAddr s n f.target p f.bytes) (List.replicate (((s.core n).ring f.target).size - f.bytes) 0)
      pure (0, 0)
    else if f.op = 9 then do
      let img := (unpackRows (tdEsz f.td) (f.got ++ src.1) 128 0 []).1
      modF n q f.id fun f => { f with got := f.got ++ src.1 }
      modify fun s => s.modCore n fun c => c.setWbuf f.target { c.wbuf f.target with img := img }
      pure (0, 0)
    else if f.mode = 3 then do
      modify fun s => s.modCore n fun c => c.setWbuf f.target { c.wbuf f.target with img := Tab.setRange 0 (c.wbuf f.target).img (64 * k) src.1 }
      pure (0, 0)
    else do
      modF n q f.id fun f => { f with pvec := some (vecPut (f.pvec.getD 0) (64 * k) src.1) }
      pure (0, 0))
  modF n q f.id fun f => { f with cursor := k + 1, flags := f.flags ||| src.2.1 ||| x.1, xst := f.xst ||| src.2.2 ||| x.2, ahead := f.ahead.filter fun b => b.1 ≠ k }

/-! ## `rclone` and `rinit` (R190, R331) -/

/-- Whether two granules are co-located (R328, R331). -/
def colocated (a b : Nat) : Bool :=
  let ga := a / 1024
  let gb := b / 1024
  let h := fun (g : Nat) => g / 12 / 384
  ga % 12 == gb % 12 && ga / 12 % 384 == gb / 12 % 384 && h ga % 32 == h gb % 32 && h ga / 16384 == h gb / 16384

/-- The whole effect of `rclone` or `rinit` at retirement (R190, R331): one write of the destination granule, once the sequencer's earlier
writes are readable (R254). -/
def rowsEffect (n : CoreId) (q : Ctx) (f : TFlight) : Act Unit := do
  let td ← resolve n q f.a.toNat .write
  Act.need (decide ((((← get).core n).tu q).wrTill ≤ (← get).ccount))
  if f.op = 7 then
    if f.a ≠ f.l then
      let ts ← resolve n q f.l.toNat .read
      let r ← readTarget ts 1024 f.l.toNat
      writeVirt n q (tWriter n q) f.a.toNat r.1
      let near := match ts, td with
        | .dev x, .dev y => colocated x y
        | _, _ => false
      modF n q f.id fun f => { f with xst := f.xst ||| (if near then 0 else 1) ||| (if r.2.1 then 8 else 0) }
  else
    writeVirt n q (tWriter n q) f.a.toNat ((List.replicate 128 (toBytes 8 f.l.toNat)).flatten)
    let near := match td with | .dev _ => true | _ => false
    modF n q f.id fun f => { f with xst := f.xst ||| (if near then 0 else 1) }

/-! ## Retirement (R179) -/

/-- Removes a flight. -/
def Core.dropFlight (c : Core) (q : Ctx) (id : Nat) : Core :=
  let u := c.tu q
  c.setTu q { u with flight := u.flight.filter fun f => f.id ≠ id }

/-- The sequencer whose flags and stop a copy side's words set: the attention sequencer's flags are those of C (R369). -/
def flagCtx (q : Ctx) : Ctx := if q = .f then .c else q

/-- Ends a flight of a copy side: its P tokens become visible, its flags and status bits are set, and it leaves the list. -/
def State.endFlight (s : State) (n : CoreId) (q : Ctx) (f : TFlight) (cov : Cover) : State :=
  s.modCore n fun c =>
    let c := c.fillTokens (postCodes (ctxNum q) f.post) cov s.ccount
    let c := c.setSeq (flagCtx q) ((c.seq (flagCtx q)).retireFlags f.flags)
    let u := c.tu q
    let c := c.setTu q { u with xst := u.xst ||| f.xst }
    { c.dropFlight q f.id with lastRetire := if q = .f then c.lastRetire else s.ccount }

/-- Whether a cause of an engine access of a job is replayable: TRANSLATION, with REPLAY set and room in the die's queue (R339). -/
def State.mayReplay (s : State) (job : BitVec 8) (n : CoreId) (code : Nat) : Bool :=
  decide (code = 0x05) && (Tab.get 0 s.xlate job.toNat).getLsbD 1 && decide ((s.die (dieOf n)).replay.length < 512)

/-- A replay entry of an engine's access (R339): its address, and whether it is a write. -/
def State.replayPut (s : State) (job : BitVec 8) (n : CoreId) (q : Ctx) (va : Word) (write : Bool) : State :=
  s.modDie (dieOf n) fun x => { x with replay := x.replay ++ [{ job := job, core := n, ctx := q, va := va.toNat, write := write }] }

/-- The ranges that block `k` of a transfer reads in memory; none where they rest on an index in memory. -/
def blockReads (s : State) (n : CoreId) (f : TFlight) (k : Nat) : Option (List (Nat × Nat)) :=
  if f.op = 9 then some [((f.a + w64 (64 * k)).toNat, f.blockLen k)]
  else if f.op = 0x11 ∨ (memIsDst f.op ∧ f.mode = 1) then some []
  else if memIsDst f.op then some [(entryAddr s n f.target (f.rpos.getD 0) (64 * k), f.blockLen k)]
  else if f.op = 4 then none
  else if f.op = 6 then some ((f.elems k).filterMap fun i => (winAddr f i).map fun a => (a, tdSize f.td))
  else some ((f.elems k).map fun i => (patAddr (tBase f.op f.a f.l (tdW f.td 3)) f.td i, tdSize f.td))

/-- The ranges of memory that a word in flight is still to write (R176); none where they rest on an index in memory. -/
def pendingWrites (s : State) (n : CoreId) (f : TFlight) : Option (List (Nat × Nat)) :=
  let r := (s.core n).ring f.target
  if f.kind = .rows then some [(f.a.toNat, 1024)]
  else if f.op = 3 then some [((f.a + w64 (64 * f.cursor)).toNat, f.bytes - 64 * f.cursor)]
  else if f.op = 5 then none
  else if f.op = 2 then some (((List.range (f.blocks - f.cursor)).flatMap fun i => f.elems (f.cursor + i)).map fun i =>
    (patAddr (tBase f.op f.a f.l (tdW f.td 3)) f.td i, tdSize f.td))
  else match f.claimed with
    | some p => some [(r.addr p, r.size)]
    | none => some [(r.base.toNat, r.count * r.size)]

/-- Whether two ranges lead to common bytes. -/
def State.clash (s : State) (n : CoreId) (q : Ctx) (x y : Nat × Nat) : Bool :=
  (pieces x.1 x.2 (x.2 / 64 + 2)).any fun a => (pieces y.1 y.2 (y.2 / 64 + 2)).any fun b =>
    match s.targetOf n (tCtx q) a.1 .read, s.targetOf n (tCtx q) b.1 .write with
    | .ok t, .ok u => t.overlaps a.2 u b.2
    | _, _ => false

/-- A word of L or S that fails when it would retire (R179, R381): its sequencer stops with it held at its cursor; with REPLAY a
TRANSLATION parks it instead, while its die's replay queue has room (R339). A failing fill leaves its buffer EMPTY (R205). A failing copy of
the attention sequencer is left to the caller. -/
def State.failFlight (s : State) (n : CoreId) (q : Ctx) (id : Nat) (code : Nat) (val : Word) (mayReplay : Bool) : State :=
  let c := s.core n
  let job := s.jobOf n
  match (c.tu q).flight.find? fun f => f.id = id with
  | none => s
  | some f =>
    if mayReplay && s.mayReplay job n code then
      -- the access is a read unless it goes to the destination in memory (R339)
      let a := val.toNat
      let reads := if f.op = 5 then decide (f.l.toNat ≤ a) && decide (a < f.l.toNat + 4 * tdN f.td 1)
        else match blockReads s n f f.cursor with | some l => l.any fun x => decide (x.1 ≤ a) && decide (a < x.1 + x.2) | none => true
      (s.modCore n fun c => c.modFlight q id fun f => { f with parked := some (a / 2 ^ 16) }).replayPut job n q val ((memIsDst f.op || f.op == 3) && !reads)
    else
      let s := if f.mode = 3 then s.modCore n fun c => c.setWbuf f.target { c.wbuf f.target with st := 0 }
        else s
      s.modCore n fun c =>
        let x := c.seq q
        let c := c.modFlight q id fun f => { f with failed := none }
        c.setSeq q { x with stop := some { code := code, val := val, off := (f.pc - x.entry).toNat / 4, mac := f.mac, late := code ≠ 0x11, held := some id }, taken := false }

/-- The effect of a transfer's end on its queues, rings and buffer (R179, R183 to R185, R205). -/
def State.endMove (s : State) (n : CoreId) (q : Ctx) (f : TFlight) : State :=
  let cov := s.coverOf n q
  let s := match f.rpos with
    | some p => s.modHome n f.target fun r => if f.keep then r.release p else r.pop p
    | none => s
  let s := match f.claimed with
    | some p => s.modHome n f.target fun r => r.push p cov ((s.core n).tu q).wrTill
    | none => s
  let s := if f.mode = 1 ∧ !memIsDst f.op then
      (if f.xst.getLsbD 1 then s else s.modCore n fun c => c.setIq f.target ((c.iqOf f.target).fill (f.pvec.getD 0) cov s.ccount))
    else if f.mode = 2 then
      let psz := (cvtSizes f.op f.td).2
      (List.range (tCount f.op f.td)).foldl (fun s i => s.modCore n fun c =>
        c.setDq f.target ((c.dq f.target).fill (w64 (bitsOf (f.pvec.getD 0) (8 * psz * i) (8 * psz))) cov s.ccount)) s
    else if f.mode = 3 then s.modCore n fun c => c.setWbuf f.target { c.wbuf f.target with st := 2, esize := tdSize f.td }
    else s
  s.endFlight n q f cov

/-- Sends the claim of a word again that RING_COLOPHON_MISUSE had stopped and the handler restarted (R382). -/
def State.reclaim (s : State) (n : CoreId) (q : Ctx) (f : TFlight) : State :=
  if !((s.core n).ring f.target).valid then s.modCore n fun c => c.modFlight q f.id fun f => { f with failed := some (0x02, f.word.setWidth 64) }
  else (s.modCore n fun c => c.modFlight q f.id fun f => { f with needsClaim := true }).claimFor n q f.id f.target (decide (f.op = 0x0F))

/-- Whether a flight writes memory (R176). -/
def TFlight.writesMem (f : TFlight) : Bool :=
  decide (f.kind = .rows) || (decide (f.kind = .move) && (memIsDst f.op || decide (f.op = 3) || decide (f.mode = 0)))

/-- Whether a word in flight has made all its accesses to memory. -/
def TFlight.accessed (f : TFlight) : Bool :=
  match f.kind with
  | .move => f.emptyWin || decide (f.blocks ≤ f.cursor)
  | .rows => false
  | _ => true

/-- Whether a word is the one its sequencer is stopped at. -/
def Core.holdsT (c : Core) (q : Ctx) (f : TFlight) : Bool := match (c.seq q).stop with | some r => r.held == some f.id | none => false

/-- Whether the read position of a word is a filled entry whose writes may be read (R183, R184, R261). -/
def State.posReady (s : State) (n : CoreId) (f : TFlight) : Bool :=
  match f.rpos with
  | some p => let h := s.homeRing n f.target; !h.isColophon p && h.isFilled s.ccount p && s.covered h.cov
  | none => true

/-- Whether a copy side has an issued row word that a cut or halt waits for, after the word `id` (R190): every one, but for those behind a
word that a fault holds or a page parks, which is cut as it stands (R339, R381; log 40). -/
def State.rowsAfter (s : State) (n : CoreId) (q : Ctx) (id : Nat) : Bool :=
  (((s.core n).tu q).flight.takeWhile fun f => f.parked.isNone && !(s.core n).holdsT q f).any fun f => decide (f.kind = .rows) && decide (id ≤ f.id)
/-- Whether a copy side has an issued row word that a cut or halt waits for. -/
def State.rowsDue (s : State) (n : CoreId) (q : Ctx) : Bool := s.rowsAfter n q 0

/-- Whether the words of a copy side go on: no cut or halt is under way that does not wait for a row word behind this one (R190, R385). -/
def State.goesOn (s : State) (n : CoreId) (q : Ctx) (f : TFlight) : Bool :=
  let c := s.core n
  (decide (c.cutting = .running) && decide (c.debugHalt = .running)) ||
  (decide (c.cutting ≠ .stopped) && decide (c.debugHalt ≠ .stopped) && s.rowsAfter n q f.id)

/-- The agent that a word of a copy side is over the links (R405, R407). -/
def TFlight.agent (f : TFlight) (n : CoreId) (q : Ctx) : CoreId × Nat × Nat := (n, if q = .f then 4 else ctxNum q, f.id)

/-- Whether a word has a read over a link under way or arrived: a cut or halt waits until its block has taken it (R385). -/
def State.reading (s : State) (a : CoreId × Nat × Nat) : Bool := s.far.any fun r => r.ofAgent a && decide (r.kind = .read)

/-- Whether a transfer runs: it is neither at a boundary of a cut or halt nor failed, parked or held. -/
def State.runs (s : State) (n : CoreId) (q : Ctx) (f : TFlight) : Bool :=
  let c := s.core n
  (s.goesOn n q f || (decide (c.cutting ≠ .stopped) && decide (c.debugHalt ≠ .stopped) && s.reading (f.agent n q))) && decide (f.kind = .move) && !f.emptyWin && f.failed.isNone && f.parked.isNone && !c.holdsT q f

/-- What any access of the word at place `i` waits for (R179, R254, R261, R381): an ORD word is the oldest; the words before the latest
acquire have made their accesses, those that acquire by a ring position have it, and what was acquired is performed. A word held by a
fault lets later ones pass. -/
def State.accessReady (s : State) (n : CoreId) (q : Ctx) (i : Nat) (f : TFlight) : Bool :=
  let c := s.core n
  let earlier := (c.tu q).flight.take i
  s.runs n q f && (!f.ord || earlier.isEmpty) && s.covered f.cover && s.posReady n f &&
  (earlier.filter fun g => !c.holdsT q g).all fun g => g.accessed || (decide (f.after < g.id) && s.posReady n g)

/-- Whether the word at place `i` may read block `k` now (R174, R176, R254): no earlier word of its sequencer is still to write its bytes. -/
def State.readReady (s : State) (n : CoreId) (q : Ctx) (i : Nat) (f : TFlight) (k : Nat) : Bool :=
  let c := s.core n
  decide (f.cursor ≤ k) && decide (k < f.blocks) && s.accessReady n q i f &&
  (((c.tu q).flight.take i).filter fun g => g.writesMem && !g.accessed && !c.holdsT q g).all fun g =>
    match blockReads s n f k, pendingWrites s n g with
    | some x, some y => !(x.any fun a => y.any fun b => s.clash n q a b)
    | some [], _ => true
    | _, _ => false

/-- Whether the word at place `i` may move its next block (R174, R179, R254): read now or before, and written behind every write of the
earlier words. -/
def State.blockReady (s : State) (n : CoreId) (q : Ctx) (i : Nat) (f : TFlight) : Bool :=
  let c := s.core n
  decide (f.cursor < f.blocks) && (!f.fillsRing || f.claimed.isSome) &&
  (if f.ahead.any fun b => b.1 == f.cursor then s.accessReady n q i f else s.readReady n q i f f.cursor) &&
  (!f.writesMem || ((c.tu q).flight.take i).all fun g => !g.writesMem || g.accessed || c.holdsT q g)

/-- The next block of a transfer between its issue and its retirement (R174, R179); a block that faults is tried again at the retirement,
where its fault is raised. -/
def blockMove (n : CoreId) (q : Ctx) (i : Nat) (s : State) : Out :=
  match ((s.core n).tu q).flight[i]? with
  | none => stall s
  | some f =>
    if s.blockReady n q i f then
      let s := { s with reader := f.agent n q }
      match (moveBlock n q f f.cursor).run s with
      | (.ok _, t) => .next (t.dropReads s.reader)
      | (.error (.wait r), _) => stall (s.ask r)
      | (.error _, _) => stall s
    else stall s

/-- A block of a transfer read before it is written (R174: the reads of one word may be presented in any order): a word keeps two. -/
def readAhead (n : CoreId) (q : Ctx) (i k : Nat) (s : State) : Out :=
  match ((s.core n).tu q).flight[i]? with
  | none => stall s
  | some f =>
    if s.readReady n q i f k && decide (f.ahead.length < 2) && !(f.ahead.any fun b => b.1 == k) && decide (f.op ≠ 9) then
      let s := { s with reader := f.agent n q }
      match (do let b ← blockSrc n q f k
                modF n q f.id fun f => { f with ahead := f.ahead ++ [(k, b)] } : Act Unit).run s with
      | (.ok _, t) => .next t
      | (.error (.wait r), _) => stall (s.ask r)
      | (.error _, _) => stall s
    else stall s

/-- The state in which the blocks that succeeded stand, and the cause of the first that failed. -/
def runBlocks (n : CoreId) (q : Ctx) (id : Nat) : Nat → State → State × Option Stop
  | 0, s => (s, none)
  | k + 1, s =>
    match ((s.core n).tu q).flight with
    | f :: _ =>
      if f.id ≠ id ∨ f.accessed then (s, none)
      else if !s.blockReady n q 0 f then (s, some (.wait none))
      else match (moveBlock n q f f.cursor).run s with
        | (.ok _, t) => runBlocks n q id k t
        | (.error (.wait r), _) => (s, some (.wait r))
        | (.error e, t) => (undo s t, some e)
    | [] => (s, none)

/-- The oldest transfer of a copy side retires (R179): its last blocks move, then its end takes effect, at its ring's home once that is VALID
(R182), and its writes over links are performed (R179, R405, R408). `fail` raises a cause at it. -/
def retireMove (n : CoreId) (q : Ctx) (s : State) (f : TFlight) (fail : State → Nat → Word → State) : Out :=
  if f.emptyWin then .next (s.endMove n q { f with xst := f.xst ||| 2, claimed := none })
  else if f.needsClaim then stall s
  else if f.fillsRing && f.claimed.isNone then .next (s.reclaim n q f)
  else
    let s := { s with reader := f.agent n q }
    let b := runBlocks n q f.id f.blocks s
    match b.2 with
    | some (.wait r) => .next (b.1.ask r)
    | some (.fault code v) | some (.late code v) => .next (fail b.1 code v)
    | none =>
      let t := b.1
      match (t.core n).tu q |>.flight with
      | [] => .next t
      | g :: _ =>
        if (g.namesRing && !(t.homeRing n g.target).valid) || t.farWrites (f.agent n q) then .next t
        else
          -- what the pushes of a ring position covered is acquired (R260)
          let t := match g.rpos with
            | some _ => t.modCore n fun c => let x := c.seq (flagCtx q); c.setSeq (flagCtx q) { x with cover := x.cover.join (t.homeRing n g.target).cov }
            | none => t
          match (if g.op = 9 then (unpackRows (tdEsz g.td) g.got 128 0 []).2 else none) with
          | some off => .next (fail t 0x02 (w64 off))
          | none => .next (t.endMove n q g)

/-- Retires the oldest word of L or S (R179, R34, R84): the effect of each kind, in program order. A cut waits for `rclone` and `rinit`
(R190). -/
def execTransferRetire (n : CoreId) (q : Ctx) (s : State) : Out :=
  let c := s.core n
  match (c.tu q).flight with
  | [] => stall s
  | f :: _ =>
    if !(decide (q = .l) || decide (q = .s)) || c.holdsT q f || f.parked.isSome || !s.goesOn n q f then stall s
    else match f.failed with
    | some (code, v) => .next (s.failFlight n q f.id code v false)
    | none =>
      let cov := s.coverOf n q
      let h := s.homeRing n f.target
      match f.kind with
      | .halt => stall s
      | .popped => .next (s.modCore n fun c => c.dropFlight q f.id)
      | .post =>
        .next (s.modCore n fun c =>
          let c := c.dropFlight q f.id
          if 16 ≤ f.code then c.setDq (f.code - 16) ((c.dq (f.code - 16)).fill f.val cov s.ccount)
          else c.fillTokens [f.code] cov s.ccount)
      | .ringWord =>
        if f.namesRing && !h.valid then stall s
        else if f.op = 0x0D then
          .next ((s.modHome n f.target fun r => r.pushN n cov (s.fillAt n f.target) f.l.toNat).endFlight n q f cov)
        else if f.op = 0x0F then
          match f.claimed with
          | none => if f.needsClaim then stall s else .next (s.reclaim n q f)
          | some p => .next ((s.modHome n f.target fun r => r.push p cov s.ccount).endFlight n q f cov)
        else if f.op = 0x0E then
          if f.taken.any h.isColophon || !f.taken.all (h.isFilled s.ccount) then stall s
          else .next ((f.taken.foldl (fun s p => s.modHome n f.target fun r => r.pop p) s).endFlight n q f cov)
        else if f.rpos.isSome then stall s
        else .next (s.endFlight n q f cov)
      | .rows =>
        let s := { s with reader := f.agent n q }
        if !s.covered f.cover || s.farWrites s.reader then stall s
        else if f.cursor = 1 then .next (s.endMove n q f)
        else match (rowsEffect n q f).run s with
         | (.ok _, t) => .next (if t.farWrites s.reader then t.modCore n fun c => c.modFlight q f.id fun f => { f with cursor := 1 } else match (((t.core n).tu q).flight.find? fun g => g.id = f.id) with
           | some g => t.endMove n q g
           | none => t)
         | (.error (.wait r), _) => stall (s.ask r)
         | (.error (.fault code v), t) | (.error (.late code v), t) => .next ((undo s t).failFlight n q f.id code v false)
      | .move => retireMove n q s f fun t code v => t.failFlight n q f.id code v true

end Sys2Proof.Machine
end

