-- ==== Sys2Proof/Machine/TWords.lean ====
section
/-! DEFINITION. The T-words (R187 to R193, R208): one meaning each over the shared issue and retirement of transfers. -/
namespace Sys2Proof.Machine

/-- Whether the executing sequencer is L. -/
def State.isL (s : State) : Bool := decide (s.cur.2 = .l)
/-- Whether the executing sequencer is S. -/
def State.isS (s : State) : Bool := decide (s.cur.2 = .s)
/-- Whether the executing sequencer is L or S. -/
def State.isLS (s : State) : Bool := s.isL || s.isS

/-- `tld` (R187): L only; a memory pattern to a ring, operand queue, data queue or weight buffer. -/
def execTld (a l t d : BitVec 5) (m : BitVec 2) (w p o : BitVec 1) (s : State) : Out :=
  moveWord s 1 s.isL a l t d m.toNat w p (o = 1) false
/-- `tst` (R187): S only; a ring or result-queue entry to a memory pattern. -/
def execTst (a l t d : BitVec 5) (m w p : BitVec 1) (o : BitVec 2) (s : State) : Out :=
  moveWord s 2 s.isS a l t d m.toNat w p (o.getLsbD 0) (o.getLsbD 1)
/-- `cpy` (R187): a memory pattern to contiguous bytes. -/
def execCpy (a l d : BitVec 5) (w p o : BitVec 1) (s : State) : Out :=
  moveWord s 3 s.isLS a l 0 d 0 w p (o = 1) false
/-- `gat` (R187): L only; indexed elements to a ring or operand queue. -/
def execGat (a l t d : BitVec 5) (m w p o : BitVec 1) (s : State) : Out :=
  moveWord s 4 s.isL a l t d m.toNat w p (o = 1) false
/-- `sct` (R187): S only; a ring or result-queue entry to indexed places. -/
def execSct (a l t d : BitVec 5) (m w p : BitVec 1) (o : BitVec 2) (s : State) : Out :=
  moveWord s 5 s.isS a l t d m.toNat w p (o.getLsbD 0) (o.getLsbD 1)
/-- `win` (R188): L only; one output row of image windows. -/
def execWin (a l t d : BitVec 5) (m w p o : BitVec 1) (s : State) : Out :=
  moveWord s 6 s.isL a l t d m.toNat w p (o = 1) false

/-! ## `rclone`, `rinit`, `wfeed` -/

/-- Whether an address lies in the slice window of the executing unit's job (R190, R191). -/
def State.inWindow (s : State) (va : Nat) : Bool :=
  let win := s.swin (s.jobOf s.cur.1)
  decide (win ≤ va) && decide (va < win + 2 ^ 29)

/-- A granule named by a row word: alignment, window, translation and protection, all precise (R190). -/
def rowCheck (va : Word) (acc : Access) : Act Unit := do
  let s ← get
  Act.check (decide (va.toNat % 1024 = 0)) 0x04 va
  Act.check (!s.inWindow va.toNat) 0x02 s.wordVal
  let _ ← resolve s.cur.1 s.cur.2 va.toNat acc

/-- `rclone` and `rinit` at issue: each holds a transfer slot until it retires (R190). -/
def rowWord (s : State) (op : Nat) (a l : BitVec 5) (w p : BitVec 1) : Out :=
  tWord s s.isLS [a, l] w p (decide (slotsUsed (s.here.tu s.cur.2) < 16)) false (do
    rowCheck (s.reg a) .write
    if op = 7 then rowCheck (s.reg l) .read
    modify fun s => s.fly (tFlight s .rows op (s.reg a) (s.reg l) 0 w p)
    pure (← get).advance)

/-- `rclone` (R190). -/
def execRclone (a l : BitVec 5) (w p : BitVec 1) (s : State) : Out := rowWord s 7 a l w p
/-- `rinit` (R190). -/
def execRinit (a l : BitVec 5) (w p : BitVec 1) (s : State) : Out := rowWord s 8 a l w p

/-- `wfeed` (R191, R205, R208): L only; takes its buffer at issue. -/
def execWfeed (a l t d : BitVec 5) (w p : BitVec 1) (s : State) : Out :=
  let td := Tab.get 0 s.here.tl.td d.toNat
  let tgt := t.toNat
  tWord s s.isL [a, l] w p (decide (slotsUsed s.here.tl < 16)) (decide (2 ≤ tgt)) (do
    Act.check (decide (s.reg l ≠ 0)) 0x02 s.wordVal
    Act.check (!s.inWindow (s.reg a).toNat) 0x02 s.wordVal
    Act.check (decide (tdCvt td = 0)) 0x02 s.wordVal
    Act.need (!s.here.bufRead tgt s.ccount && !stepFirst s s.cur.1 tgt)
    modify fun s => (s.fly { tFlight s .move 9 (s.reg a) (s.reg l) tgt w p with td := td, mode := 3 }).modHere
      fun c => c.setWbuf tgt { c.wbuf tgt with st := 1 }
    pure (← get).advance)

/-! ## Ring words (R192) -/

/-- Ends a T-word that has acted at issue: its P tokens are posted now, or behind the words in flight (R34, R84). -/
def State.actedAtIssue (s : State) (f : TFlight) : State :=
  if s.behind then (s.fly f).advance
  else
    let cov := s.covering
    (s.modHere fun c => c.fillTokens (postCodes (ctxNum s.cur.2) f.post) cov s.ccount).advance

/-- A ring word with its count n: VALID, then n against the ring's count (R181, R192). For a proxy the check takes the count of the register
that the word names (DESIGN CHOICE, log 48: the manual does not say whose count it is). -/
def ringWord (s : State) (op : Nat) (l t : BitVec 5) (w p : BitVec 1) (ready : Ring → Nat → Bool) (body : Ring → Nat → TFlight → Act State) : Out :=
  let n := (s.reg l).toNat
  let tgt := t.toNat
  let r := s.here.ring tgt
  let h := s.homeRing s.cur.1 tgt
  let bad := !r.valid || (decide (op ≠ 0x0D) && decide (r.count < n))
  tWord s s.isLS [l] w p (decide (n = 0) || (h.valid && ready h n)) (bad && s.readable l) (do
    let f := tFlight (← get) .ringWord op 0 (w64 n) tgt w p
    if n = 0 then pure ((← get).actedAtIssue { f with op := 0x0B }) else body h n f)

/-- `rgwf` (R192): an acquire of what the pushes cover; a lone colophon at HEAD is met (R185) once the word is the oldest. -/
def execRgwf (l t : BitVec 5) (w p : BitVec 1) (s : State) : Out :=
  ringWord s 0x0A l t w p (fun h n => decide (n ≤ h.filled s.ccount) || (h.colo && h.tail == h.claim)) fun h _ f => do
    modify fun s => s.acquire h.cov
    if h.isColophon h.head then pure ((← get).fly { f with rpos := some h.head }).advance
    else pure ((← get).actedAtIssue f)

/-- `rgwe` (R192). -/
def execRgwe (l t : BitVec 5) (w p : BitVec 1) (s : State) : Out :=
  ringWord s 0x0B l t w p (fun h n => decide (n ≤ h.free)) fun _ _ f => do pure ((← get).actedAtIssue f)

/-- `rgclaim` (R192): claims n positions at issue; COLO 1 raises RING_COLOPHON_MISUSE. Claims keep their order of arrival (R184). -/
def execRgclaim (l t : BitVec 5) (w p : BitVec 1) (s : State) : Out :=
  ringWord s 0x0C l t w p (fun h n => h.colo || (decide (n ≤ h.free) && h.waits.isEmpty)) fun h n f => do
    Act.check (!h.colo) 0x13 s.wordVal
    modify fun s => s.modHome s.cur.1 t.toNat fun r => r.claimN s.cur.1 n
    pure ((← get).actedAtIssue { f with taken := (List.range n).map (· + h.claim) })

/-- `rgpush` (R192): n is checked against the claimed entries at issue; TAIL rises at retirement, as a release. -/
def execRgpush (l t : BitVec 5) (w p : BitVec 1) (s : State) : Out :=
  ringWord s 0x0D l t w p (fun _ _ => true) fun h n f => do
    Act.check (decide (n ≤ h.claimed)) 0x02 s.wordVal
    pure ((← get).fly f).advance

/-- `rgpop` (R192): takes n read positions at issue, popped at retirement. -/
def execRgpop (l t : BitVec 5) (w p : BitVec 1) (s : State) : Out :=
  let rank := readerRank (s.ringHome s.cur.1 t.toNat).1 s.cur.1 s.cur.2
  ringWord s 0x0E l t w p (fun h n => h.mayTake s.ccount rank && (decide (n ≤ h.filled s.ccount) ||
      (match h.colophon with | some c => h.isColophon c && decide (c < h.head + n) | none => false))) fun h n f => do
    let h' := (List.range n).foldl (fun r _ => r.take s.ccount rank) h
    modify fun s => (s.modHome s.cur.1 t.toNat fun _ => h').acquire h.cov
    pure ((← get).fly { f with taken := h'.holders.drop h.holders.length }).advance

/-- `rgend` (R185, R192): claims the colophon's position; COLO 1 at issue raises RING_COLOPHON_MISUSE; pushed at retirement. -/
def execRgend (t : BitVec 5) (w p : BitVec 1) (s : State) : Out :=
  let r := s.here.ring t.toNat
  tWord s s.isLS [] w p true (!r.valid) (do
    let h := s.homeRing s.cur.1 t.toNat
    Act.check (!h.colo) 0x13 s.wordVal
    modify fun s => (s.fly { tFlight s .ringWord 0x0F 0 0 t.toNat w p with needsClaim := true }).sendClaim t.toNat true
    pure (← get).advance)

/-! ## `tdset` (R193) -/

/-- `tdset`: blocking, with precise faults, and no transfer for a watchpoint (R390); it reads what its sequencer's earlier transfers have written (R176). -/
def execTdset (a d : BitVec 5) (w p : BitVec 1) (s : State) : Out :=
  let u := s.here.tu s.cur.2
  tWord s s.isLS [a] w p (!(u.flight.any TFlight.writesMem) && s.covered s.seq.cover) false (do
    let n := s.cur.1
    let q := s.cur.2
    let va := s.reg a
    Act.check (decide (va.toNat % 64 = 0)) 0x04 va
    Act.need ((← get).covered (← get).seq.cover)
    let r ← tReadBy false n q va.toNat 64
    let img : BitVec 512 := BitVec.ofNat 512 (ofBytes r.1)
    Act.check (tdOk img) 0x02 s.wordVal
    let f := { tFlight (← get) .ringWord 0x10 va 0 d.toNat w p with td := Tab.get 0 u.td d.toNat, xst := r.2 }
    modify fun s => s.modHere fun c =>
      let u := c.tu q
      c.setTu q { u with td := Tab.set 0 u.td d.toNat img, xst := u.xst ||| (if s.behind then 0 else r.2) }
    pure (((← get).actedAtIssue f).blockTill (s.ccount + 4)))

/-! ## The colophon (R185) and discarded words (R90) -/

/-- Discards one issued word of L, S or the attention sequencer (R90): its reservations are released, its pops undone, and a granted claim is pushed with
zero bits in the rest of its entry. -/
def State.discard (s : State) (n : CoreId) (q : Ctx) (f : TFlight) : State :=
  let me := ctxNum q
  let cov := s.coverOf n q
  let now := s.ccount
  let s := s.modCore n fun c => ((c.unreserveTokens (postCodes me f.post)).unpopTokens (waitCodes me f.popTok) now).dropFlight q f.id
  let zero := fun (s : State) (p from_ : Nat) =>
    let r := (s.core n).ring f.target
    match (writeVirt n (tCtx q) (tWriter n q) (r.addr p + from_) (List.replicate (r.size - from_) 0)).run s with
    | (.ok _, t) => t
    | _ => s
  match f.kind with
  | .post => s.modCore n fun c =>
      if 16 ≤ f.code then c.setDq (f.code - 16) (c.dq (f.code - 16)).unreserve else c.unreserveTokens [f.code]
  | .popped => s.modCore n fun c =>
      if 16 ≤ f.code then c.setDq (f.code - 16) ((c.dq (f.code - 16)).unpop f.val now) else c.unpopTokens [f.code] now
  | .halt | .rows => s
  | .ringWord =>
    let s := s.modHome n f.target fun r => { r with waits := r.waits.filter fun w => !(w.core == n && w.ctx == q && w.id == f.id) }
    if f.op = 0x0E then f.taken.foldl (fun s p => s.modHome n f.target fun r => r.release p) s
    else if f.op = 0x0C then f.taken.foldl (fun s p => (zero s p 0).modHome n f.target fun r => r.push p cov (now + 6)) s
    else if f.op = 0x10 then s.modCore n fun c =>
      let u := c.tu q
      c.setTu q { u with td := Tab.set 0 u.td f.target f.td }
    else match f.claimed with
      | some p => s.modHome n f.target fun r => r.push p cov now
      | none => s
  | .move =>
    let s := if f.needsClaim then s.modHome n f.target fun r =>
        { r with waits := r.waits.filter fun w => !(w.core == n && w.ctx == q && w.id == f.id) } else s
    let s := match f.rpos with
      | some p => s.modHome n f.target fun r => r.release p
      | none => s
    let s := match f.claimed with
      | some p => (zero s p (Nat.min (64 * f.cursor) ((s.core n).ring f.target).size)).modHome n f.target fun r => r.push p cov (now + 6)
      | none => s
    if f.mode = 1 then s.modCore n fun c =>
      if memIsDst f.op then c.setOq f.target ((c.oqOf f.target).unpop (f.pvec.getD 0) now) else if f.emptyWin then c else c.setIq f.target (c.iqOf f.target).unreserve
    else if f.mode = 2 then s.modCore n fun c =>
      c.setDq f.target ((List.range (tCount f.op f.td)).foldl (fun x _ => x.unreserve) (c.dq f.target))
    else if f.mode = 3 then s.modCore n fun c => c.setWbuf f.target { c.wbuf f.target with st := 0 }
    else s

/-- The positions a flight reads, in order, with what it does when it meets the colophon among them. -/
def TFlight.reads (f : TFlight) : List Nat := if f.op = 0x0E ∧ f.kind = .ringWord then f.taken else f.rpos.toList

/-- The oldest word of L or S meets the colophon at its read position (R185): the colophon is popped, every later word is
discarded with the registers, masks, loops and pc as at the meeting word, the colophon is forwarded where FWDEN says so, and the
word takes the effect of `halt`; tokens it popped stay popped and it posts none. -/
def execColophonMeet (n : CoreId) (q : Ctx) (s : State) : Out :=
  let c := s.core n
  let x := c.seq q
  if !(decide (q = .l) || decide (q = .s)) || x.stop.isSome || c.cutting ≠ .running || c.debugHalt ≠ .running then stall s
  else match (c.tu q).flight with
  | [] => stall s
  | f :: later =>
    let h := s.homeRing n f.target
    let before := f.reads.takeWhile fun p => !h.isColophon p
    if !(f.reads.any h.isColophon && before.all (h.isFilled s.ccount)) || f.failed.isSome then stall s
    else
      let s := later.reverse.foldl (fun s g => s.discard n q g) s
      let s := before.foldl (fun s p => s.modHome n f.target fun r => r.pop p) s
      let s := f.reads.foldl (fun s p => s.modHome n f.target fun r => r.release p) s
      let s := s.modHome n f.target Ring.meet
      let s := s.modCore n fun c =>
        let x := c.seq q
        ((c.unreserveTokens (postCodes (ctxNum q) f.post)).dropFlight q f.id).setSeq q
          { f.seq0 with fcsr := x.fcsr, flagPend := x.flagPend, flagAt := x.flagAt, cover := x.cover, macroQ := x.macroQ,
                        halting := true, nextIssue := s.ccount + 1 }
      let r := (s.core n).ring f.target
      if !r.fwdEn then .next s
      else
        -- the effect of rgend on FWD, with its waits and faults
        let g : TFlight := { f with id := (s.core n).nextId + 1, kind := .ringWord, op := 0x0F, target := r.fwd, rpos := none, taken := [], pvec := none, needsClaim := true, post := 0, popTok := 0, cursor := 0, flags := 0, xst := 0, mode := 0 }
        let bad := if !((s.core n).ring r.fwd).valid then some (0x02, f.word.setWidth 64) else if (s.homeRing n r.fwd).colo then some (0x13, f.word.setWidth 64) else none
        let s := s.modCore n fun c =>
          let u := c.tu q
          { (c.setTu q { u with flight := u.flight ++ [{ g with failed := bad, needsClaim := bad.isNone }] }) with nextId := c.nextId + 1 }
        .next (if bad.isSome then s else s.claimFor n q (s.core n).nextId r.fwd true)

/-- A halt of L, C or S retires once every earlier word has retired and every transfer, step and pushed result has completed
(R99): its halt line is set. -/
def execSequencerHaltRetire (n : CoreId) (q : Ctx) (s : State) : Out :=
  let c := s.core n
  let x := c.seq q
  let idle := match q with
    | .l => c.tl.flight.isEmpty
    | .s => c.ts.flight.isEmpty
    | .c => c.vec.flight.isEmpty && (c.mat.flight.filter fun f => !f.att).isEmpty && c.cposts.isEmpty
    | _ => false
  if x.halting && x.stop.isNone && idle && decide (c.cutting = .running) && decide (c.debugHalt = .running) then
    .next (s.modCore n fun c => { (c.setSeq q { x with halting := false, halted := true }) with lastRetire := s.ccount })
  else stall s

end Sys2Proof.Machine
end

