-- ==== Sys2Proof/Machine/Matrix.lean ====
section
/-! DEFINITION. M-words and attention steps (R66 to R68, R197 to R217): stamps (R203), issue, the columns they enter, and their
retirement. -/
namespace Sys2Proof.Machine

/-- The column in which byte `o` of the B entry is first needed (R202). -/
def faultColumn (a : MArgs) (o : Nat) : Nat :=
  if a.op = 8 then
    let px := o / (bitsOf a.n 10 7 * a.sz)
    let sw := Nat.max 1 (bitsOf a.n 25 8)
    Nat.min (a.cols - 1) ((px + 1 - bitsOf a.n 17 8 + sw - 1) / sw)
  else if a.op = 9 then
    let px := o / a.sz % Nat.max 1 (bitsOf a.n 26 10)
    let sw := Nat.max 1 (bitsOf a.n 18 8)
    Nat.min (a.cols - 1) ((px + 1 - bitsOf a.n 10 8 + sw - 1) / sw)
  else if isStep a.op then (if o < 64 * a.cols * a.sz then o / (64 * a.sz) else o - 64 * a.cols * a.sz)
  else 0

/-- The column in which byte `o` of the B entry is last needed (R213, R214). -/
def lastColumn (a : MArgs) (o : Nat) : Nat :=
  if a.op = 8 then Nat.max (faultColumn a o) (Nat.min (a.cols - 1) (o / (bitsOf a.n 10 7 * a.sz) / Nat.max 1 (bitsOf a.n 25 8)))
  else if a.op = 9 then Nat.max (faultColumn a o) (Nat.min (a.cols - 1) (o / a.sz % Nat.max 1 (bitsOf a.n 26 10) / Nat.max 1 (bitsOf a.n 18 8)))
  else faultColumn a o

/-- The failure of a read of the B entry that the columns from `from_` on meet first (R202): of each failing doubleword the column that first
needs one of its bytes, and of the failures of one column that at the lowest address. -/
def firstBad (a : MArgs) (from_ : Nat) (l : List (Nat × Word × Nat × Nat)) : Option (Nat × Word × Nat) :=
  l.foldl (fun best x =>
    let ks := (((List.range (x.2.2.2 - x.2.2.1)).map (· + x.2.2.1)).filter fun o => decide (from_ ≤ lastColumn a o)).map (faultColumn a)
    match ks, best with
    | [], _ => best
    | k0 :: ks, none => some (x.1, x.2.1, ks.foldl Nat.min k0)
    | k0 :: ks, some b => if ks.foldl Nat.min k0 < b.2.2 then some (x.1, x.2.1, ks.foldl Nat.min k0) else best) none

/-- An M-word's operands as read in this cycle at the positions it holds, or the first failure with its column (R202): a failure of the
control entry of `mma.a` is met before every column, and one in bytes of the B entry that no column uses is raised too (DESIGN CHOICE, log 48:
the manual does not say whether such bytes are read). All its reads are presented in the cycle of its issue, or of its resume (DESIGN CHOICE,
log 30: R174 allows any cycle until the retirement). -/
def mOperands (s : State) (n : CoreId) (a : MArgs) (f : MFlight) : MFlight :=
  let ctl := if a.op = 2 then some (mRead s n (s.ringOff n a.ra (f.posA.getD 0) 0) 8) else none
  let f := match ctl with | some r => { f with ctlEntry := ofBytes r.1 } | none => f
  let rd := if a.op = 4 then some (a.ra, f.posA) else if isStep a.op then some (a.rb, f.posB) else none
  match rd with
  | none => f
  | some (i, p) =>
    let r := mRead s n (s.ringOff n i (p.getD 0) 0) a.readLen
    match ctl.bind fun x => x.2.head?, firstBad a f.from_ r.2 with
    | some (code, v, _), _ => { f with opnd := r.1, failed := some (code, v), cut := some f.from_ }
    | none, none => { f with opnd := r.1, failed := none }
    | none, some (code, v, k) => { f with opnd := r.1, failed := some (code, v), cut := some (Nat.max f.from_ k) }

/-- The cycle in which an M-word that starts at `now` retires (R197, R215 to R217). -/
def MArgs.dueAt (a : MArgs) (cols now : Nat) : Nat :=
  if isStep a.op then now + a.occupancy cols + 23
  else if a.op = 6 then now + cols + 7
  else if a.op = 7 then now + 1
  else now + fillTime a.fmt

/-- The flight of an M-word by its arguments, with the positions of its rings in the order of `MArgs.reads` and `MArgs.writes`; `f0` carries what
depends on the issuer. -/
def MFlight.of (f0 : MFlight) (a : MArgs) (fcsr : BitVec 17) (pos : List Nat) : MFlight :=
  { f0 with
    op := a.op, acc := if a.op = 4 ∨ a.op = 5 then 2 else a.acc, buf := if isStep a.op ∨ a.op = 4 ∨ a.op = 5 then a.buf else 2
    fmt := a.fmt, enc := a.e, n := a.n
    ringA := a.ra, posA := if a.op = 2 ∨ a.op = 4 ∨ a.op = 5 ∨ a.op = 6 then pos[0]? else none
    ringB := a.rb, posB := if a.op = 2 ∨ a.op = 6 then pos[1]? else if isStep a.op then pos[0]? else none
    frm := if a.rnd = 0 then frmOf fcsr else if a.rnd = 1 then 0 else if a.rnd = 2 then 2 else 3
    ftz := fcsr.extractLsb' 8 4 }

/-- Issues an M-word or an attention step: positions, claims, operands, buffer, bound plane and array (R197 to R217). `f0` carries
what depends on the issuer. -/
def mIssue (s : State) (n : CoreId) (a : MArgs) (f0 : MFlight) : State :=
  let now := s.ccount
  let c := s.core n
  let fcsr := c.c.fcsr
  let taken := mPositions now (mRank f0.att) c a.reads
  let c1 := a.writes.foldl (fun (x : Core × List Nat) i => let r := x.1.ring i; (x.1.setRing i { r with claim := r.claim + 1 }, x.2 ++ [r.claim])) (taken.1, [])
  let pos := taken.2 ++ c1.2
  let f : MFlight := { f0.of a fcsr pos with
    id := c.nextId + 1, issued := now, due := a.dueAt a.cols now
    slots := if isStep a.op then a.occupancy a.cols else a.dueAt a.cols now - now
    img := if isStep a.op ∨ a.op = 5 then (List.range (imageSize (mEsz a.fmt))).map (Tab.get 0 (c.wbuf a.buf).img) else [] }
  let f := mOperands s n a f
  s.setCore n (
    let c : Core := ({ c1.1 with nextId := c.nextId + 1 } : Core).pushed 0x42
    let m : MUnit := c.mat
    let x : Acc := m.accOf a.acc
    let m := if isStep a.op then
        let m : MUnit := if x.afmt = 0 then m.setAcc a.acc { x with afmt := if a.fmt = 4 then 2 else 1 } else m
        let m : MUnit := if a.e ∧ m.bown = 0 then { m with bown := a.acc + 1, bound := [] } else m
        { m with arrayTill := now + f.slots }
      else m
    let m := { m with flight := m.flight ++ [f], issuedN := if f.att then m.issuedN else m.issuedN + 1 }
    let c := { c with mat := m }
    if a.op = 4 then c.setWbuf a.buf { c.wbuf a.buf with st := 1 } else c)

/-- An empty M flight of a word. -/
def MFlight.blank (word : BitVec 32) (pc : Word) (mac : Option MacroPos) (att : Bool) : MFlight :=
  { id := 0, op := 0, word := word, pc := pc, mac := mac, att := att, issued := 0, slots := 0, due := 0, acc := 0, buf := 0, fmt := 0,
    enc := false, n := 0, img := [], opnd := [], stamp := 0, ctlEntry := 0, ringA := 0, posA := none, ringB := 0, posB := none, post := 0, popTok := 0,
    frm := 0, ftz := 0, from_ := 0, cut := none, flags := 0, failed := none }

/-! ## M-words of C -/

/-- C's word meets a colophon at its read position (R185, R198): the colophon is popped and forwarded where FWDEN says so, the word
takes the effect of `halt`, its popped tokens stay popped and it posts none. It waits until the forwarded claim can be granted; the faults
of the forwarding ring come after the pop. -/
def meetC (s : State) (i : Nat) (wc : List Nat) : Out :=
  let n := s.cur.1
  let r := s.here.ring i
  let met := fun (s : State) => s.modHere fun c => (c.popTokens wc s.ccount).setRing i (c.ring i).meet
  let done := fun (s : State) => .next { ((met s).modSeq fun q => { q with halting := true }) with issued := true }
  if !r.fwdEn then done s
  else
    let h := (met s).homeRing n r.fwd
    if !(s.here.ring r.fwd).valid then .next (met s).badOperand
    else if !h.valid then stall s
    else if h.colo then .next ((met s).raise 0x13 s.wordVal)
    else if decide (1 ≤ h.free) && h.waits.isEmpty then
      let cov := s.coverOf n .c
      let s := s.modHome n r.fwd fun h => { h with claim := h.claim + 1, colo := true }
      done (s.modHome n r.fwd fun h' => h'.push h.claim cov s.ccount)
    else stall s

/-- An M-word of C (R197 to R203). -/
def mWord (s : State) (op : Nat) (ra rb nreg : BitVec 5) (acc : BitVec 1) (fmt : BitVec 3) (e st : Bool) (w p : BitVec 1) (buf : Nat) (rnd : BitVec 2) : Out :=
  let n := s.cur.1
  let usesN := isStep op || op == 6
  let a : MArgs := { op := op, ra := ra.toNat, rb := rb.toNat, acc := acc.toNat, fmt := fmt.toNat, e := e, buf := buf, n := if usesN then s.reg nreg else 0, rnd := rnd }
  let stamp := s.reg (nreg + 1)
  let d := stampDiff s.ccount stamp
  let wc := if w = 1 then waitCodes 2 s.seq.wmask else []
  let pc := if p = 1 then postCodes 2 s.seq.pmask else []
  if !s.readyFor ((if usesN then [nreg] else []) ++ (if st then [nreg + 1] else [])) then stall s
  else if !mGroup1 s n a then .next s.badOperand
  else if st && decide ((bitsOf stamp 52 12 : Int) < d) then .next (s.raise 0x07 stamp)
  else if st && decide (d < 0) then stall s
  else if !(s.here.tokensVisible wc s.ccount && s.here.tokensFree pc s.ccount && mReady s n a false &&
      s.covered (s.seq.cover.join (s.here.tokenCover wc s.ccount)) && !(isStep op && attStepReady s n)) then stall s
  else match mMeets s.here a with
  | some i => meetC s i wc
  | none => match mGroup3 s n a with
    | some code => .next (s.raise code s.wordVal)
    | none =>
      let cov := s.here.tokenCover wc s.ccount
      let f := { MFlight.blank s.word s.seq.pc s.seq.mpos false with post := if p = 1 then s.seq.pmask else 0, popTok := if w = 1 then s.seq.wmask else 0, stamp := if st then stamp else 0 }
      let rc := a.reads.foldl (fun (x : Cover) i => x.join (s.here.ring i).cov) cov
      .next (((mIssue (s.modHere fun c => (c.popTokens wc s.ccount).reserveTokens pc) n a f).acquire rc).advance)

/-! ## Columns and retirement -/

/-- The arguments of an M flight, as its words named them. -/
def MFlight.args (f : MFlight) : MArgs :=
  { op := f.op, ra := f.ringA, rb := f.ringB, acc := f.acc, fmt := f.fmt, e := f.enc, buf := f.buf, n := f.n, rnd := 0 }

/-- The state after the columns from a step's cursor up to `hi` have been entered and completed, its cursor there (R202, R385). -/
def Core.enter (c : Core) (f : MFlight) (hi : Nat) : Core × MFlight :=
  let m := c.mat
  let x := m.accOf f.acc
  let r := stepColumns f f.from_ hi x.el m.bound
  ({ c with mat := { (m.setAcc f.acc { x with el := r.1 }) with bound := r.2.1 } }, { f with from_ := hi, flags := f.flags ||| r.2.2 })

/-- The writes of groups `lo` to `hi - 1` of an `accrd` to its rings (R217): values to ring A, radii to ring B. -/
def State.readOut (s : State) (n : CoreId) (f : MFlight) (lo hi : Nat) : State × Flags :=
  let m := (s.core n).mat
  let x := m.accOf f.acc
  let af : Fmt := if x.afmt = 2 then .f64 else .f32
  let rf := mFmt f.fmt
  let ftz := f.ftz.getLsbD (if f.fmt = 1 then 1 else if f.fmt = 2 then 0 else if f.fmt = 3 then 2 else 3)
  let nr := bitsOf f.n 0 10
  let c0 := bitsOf f.n 16 10
  let w := matWriter n
  let rsz := rf.width / 8
  (List.range (16 * (hi - lo))).foldl (fun (acc : State × Flags) i =>
    let col := 16 * lo + i
    let els := ((List.range 128).map fun r => 512 * r + c0 + col)
    let vs := ((Tab.pick (0, 0) x.el els).zip (Tab.pick 0 m.bound els)).map fun y => ({ sum := y.1.1.toNat, comp := y.1.2.toNat, bound := y.2.toNat } : AccEl)
    let out := fun (s : State) (ring : Nat) (pos : Option Nat) (sz : Nat) (rad : Bool) =>
      (List.range 2).foldl (fun (s : State) h =>
        let b := readOutCol af rf (modeOf f.frm) ftz f.enc rad ((vs.drop (64 * h)).take 64)
        s.writeSlice w n (s.ringOff n ring (pos.getD 0) ((h * nr + col) * 64 * sz)) b.1) s
    let fl := (readOutCol af rf (modeOf f.frm) ftz f.enc false vs).2
    let s := out acc.1 f.ringA f.posA rsz false
    (if f.enc then out s f.ringB f.posB 4 true else s, acc.2 ||| fl)) (s, 0)

/-- Removes an M flight. -/
def Core.dropM (c : Core) (id : Nat) : Core := { c with mat := { c.mat with flight := c.mat.flight.filter fun f => f.id ≠ id } }
/-- Changes an M flight. -/
def Core.modM (c : Core) (id : Nat) (g : MFlight → MFlight) : Core :=
  { c with mat := { c.mat with flight := c.mat.flight.map fun f => if f.id = id then g f else f } }

/-- C's posts and pushes behind words that have retired by now become visible (R34, R84). -/
def flushPosts (cov : Cover) (now : Nat) : List CPost → Core → Core
  | [], c => { c with cposts := [] }
  | p :: ps, c =>
    if p.afterV ≤ c.vec.retiredN ∧ p.afterM ≤ c.mat.retiredN then
      flushPosts cov now ps (if 16 ≤ p.code then c.setDq (p.code - 16) ((c.dq (p.code - 16)).fill p.val cov now) else c.fillTokens [p.code] cov now)
    else { c with cposts := p :: ps }

/-- Flushes the posts of a core's C. -/
def State.flushC (s : State) (n : CoreId) : State :=
  let cov := s.coverOf n .c
  s.modCore n fun c => flushPosts cov s.ccount c.cposts c

/-- The M flight that retires next among those `sel` picks (R197): due, the oldest of its issuer, and with no older word on its
accumulator. -/
def nextM (now : Nat) (sel : MFlight → Bool) : List MFlight → List MFlight → Option MFlight
  | _, [] => none
  | before, f :: rest =>
    if sel f && decide (f.due ≤ now) && !(before.any fun g => g.att == f.att || g.acc == f.acc) then some f
    else nextM now sel (before ++ [f]) rest

/-- Whether microwords of the attention sequencer are in flight: its steps, copies and exponents. -/
def Core.attFlying (c : Core) : Bool := (c.mat.flight.any fun f => f.att) || !c.ta.flight.isEmpty || c.att.exp.isSome

/-- After a fault the attention sequencer becomes idle once its issued microwords have retired or faulted (R371). -/
def Core.attSettle (c : Core) : Core :=
  if c.att.fault && c.att.busy && !c.attFlying then { c with att := { c.att with busy := false, ended := (c.att.ended + 1) % 2 ^ 32 } } else c

/-- A failing attention microword (R371): the sequencer records the first one and issues nothing further. -/
def Core.attFault (c : Core) (code upc : Nat) (v : Word) : Core :=
  let a := c.att
  (if a.fault then c else { c with att := { a with fault := true, cause := code, fupc := upc, tval := v } }).attSettle

/-- Ends an M flight: flags of `fcsr_c`, P tokens, posts of C behind it (R34, R42, R89). -/
def State.endM (s : State) (n : CoreId) (f : MFlight) : State :=
  let now := s.ccount
  let cov := s.coverOf n .c
  let key := if f.op = 7 then f.acc else if isStep f.op then f.acc + 2 else f.acc + 4
  (s.modCore n fun c =>
    let c := if f.att then c else c.fillTokens (postCodes 2 f.post) cov now
    let c := ({ (c.dropM f.id) with c := c.c.retireFlags f.flags, lastRetire := if f.att then c.lastRetire else now } : Core).attSettle
    let m := c.mat
    { c with mat := { m with
        accAt := if f.op = 4 ∨ f.op = 5 then m.accAt else Tab.put m.accAt key (now + 1), retiredN := if f.att then m.retiredN else m.retiredN + 1 } }).flushC n

/-- Discards an M-word in flight (R90, R371, R382): positions it reads are released, claimed ones pushed with zero bits where it has not
written, tokens returned. -/
def State.discardM (s : State) (n : CoreId) (f : MFlight) : State :=
  let cov := s.coverOf n .c
  let now := s.ccount
  -- zero bits in the ranges of the entry that the word has not written, then the push
  let push := fun (s : State) (i : Nat) (p : Option Nat) (half used : Nat) =>
    match p with
    | none => s
    | some p =>
      let r := (s.core n).ring i
      let z := fun (s : State) (lo hi : Nat) => s.writeSlice (matWriter n) n (s.ringOff n i p lo) (List.replicate (hi - lo) 0)
      (z (z s used half) (half + used) r.size).modCore n fun c => c.setRing i ((c.ring i).push p cov (now + 6))
  let free := fun (s : State) (i : Nat) (p : Option Nat) =>
    match p with
    | none => s
    | some p => s.modCore n fun c => c.setRing i ((c.ring i).release p)
  let nr := bitsOf f.n 0 10
  let sz := 2 ^ mEsz f.fmt
  let s := if f.op = 5 then (if f.from_ = 0 then push s f.ringA f.posA 0 0 else push s f.ringA f.posA ((s.core n).ring f.ringA).size 0)
    else if f.op = 6 then
      (let s := push s f.ringA f.posA (64 * nr * sz) (1024 * sz * f.from_)
       if f.enc then push s f.ringB f.posB (256 * nr) (4096 * f.from_) else s)
    else free (free s f.ringA f.posA) f.ringB f.posB
  (s.modCore n fun c =>
    let c := c.dropM f.id
    if f.att then c
    else
      let c := (c.unreserveTokens (postCodes 2 f.post)).unpopTokens (waitCodes 2 f.popTok) now
      { c with mat := { c.mat with retiredN := c.mat.retiredN + 1 } }).flushC n

/-- A word that fails while running (R202): the columns before its faulting column are updated, and it is held there; C stops. A
faulting step of the attention sequencer is recorded in its status (R371). A fill that faults sets its buffer EMPTY (R205). -/
def State.failM (s : State) (n : CoreId) (f : MFlight) (code : Nat) (v : Word) : State :=
  let c := s.core n
  let k := f.cut.getD f.from_
  let r := if isStep f.op then c.enter f k else (c, f)
  let g := { r.2 with failed := none, cut := some k }
  let c := r.1.modM f.id fun _ => g
  let c := if f.op = 4 then c.setWbuf f.buf { c.wbuf f.buf with st := 0 } else c
  if f.att then ((s.setCore n c).discardM n g).modCore n fun c => c.attFault code f.pc.toNat v
  else
    let x := c.c
    s.setCore n { c with c := { x with stop := some { code := code, val := v, off := (f.pc - x.entry).toNat / 4, mac := f.mac, late := true, held := some f.id }, taken := false } }

/-- A held or resumed word goes on from its cursor (R382, R388): its ring and buffer are read again and its remaining slots run from now. -/
def State.resumeM (s : State) (n : CoreId) (f : MFlight) : State :=
  let c := s.core n
  let now := s.ccount
  let a := f.args
  if isStep f.op && decide (now < c.mat.arrayTill) then s
  else
    let rest := if isStep f.op then a.cols - f.from_ else if f.op = 6 then a.cols - 16 * f.from_ else a.cols
    let due := a.dueAt rest now
    let slots := if isStep f.op then a.occupancy rest else due - now
    let img := if isStep f.op ∨ f.op = 5 then (List.range (imageSize (mEsz f.fmt))).map (Tab.get 0 (c.wbuf f.buf).img) else []
    let g := mOperands s n a { f with cut := none, failed := none, issued := now, due := due, slots := slots, img := img }
    s.modCore n fun c =>
      let c := c.modM f.id fun _ => g
      let c := if f.op = 4 then c.setWbuf f.buf { c.wbuf f.buf with st := 1 } else c
      if isStep f.op then { c with mat := { c.mat with arrayTill := now + slots } } else c

/-- At a boundary of a cut or debug halt (R385): the columns and groups that a stopped word has entered are complete. -/
def State.settleSteps (s : State) (n : CoreId) : State :=
  (s.core n).mat.flight.foldl (fun s f =>
    match f.cut with
    | none => s
    | some k =>
      if k ≤ f.from_ then s
      else if isStep f.op then
        let r := (s.core n).enter f k
        s.setCore n (r.1.modM f.id fun _ => r.2)
      else if f.op = 6 then
        let o := s.readOut n f f.from_ k
        o.1.modCore n fun c => c.modM f.id fun g => { g with from_ := k, flags := g.flags ||| o.2 }
      else s) s

/-- Whether a flight is the word C is stopped at. -/
def Core.holdsM (c : Core) (id : Nat) : Bool := match c.c.stop with | some r => r.held == some id | none => false

/-- The end of the accesses of a `wstr` or `accrd` (R215, R217): its entries are written whole, with zero bits after the data, and its cursor
says so. All the writes are presented in one step, in the cycle in which the word is due to retire or later (DESIGN CHOICE, log 30: R174 allows
any cycle between issue and retirement, and R217 any pace). -/
def State.writeOut (s : State) (n : CoreId) (f : MFlight) : State × MFlight :=
  let c := s.core n
  let zero := fun (s : State) (ring : Nat) (pos : Option Nat) (used : Nat) =>
    s.writeSlice (matWriter n) n (s.ringOff n ring (pos.getD 0) used) (List.replicate ((c.ring ring).size - used) 0)
  if f.op = 5 then
    if f.from_ ≠ 0 then (s, f)
    else (zero (s.writeSlice (matWriter n) n (s.ringOff n f.ringA (f.posA.getD 0) 0) f.img) f.ringA f.posA f.img.length, { f with from_ := 1, due := s.ccount })
  else if f.slotsOf ≤ f.from_ then (s, f)
  else
    let out := s.readOut n f f.from_ f.slotsOf
    let nr := bitsOf f.n 0 10
    let s' := zero out.1 f.ringA f.posA (128 * nr * 2 ^ mEsz f.fmt)
    (if f.enc then zero s' f.ringB f.posB (512 * nr) else s', { f with from_ := f.slotsOf, flags := f.flags ||| out.2, due := s.ccount })

/-- Whether a home holds words of the entries that an M-word writes locked (R273). -/
def State.outLocked (s : State) (n : CoreId) (f : MFlight) : Bool :=
  let r := fun (i : Nat) (p : Option Nat) => match p with | some p => s.locked (.slice n (s.ringOff n i p 0)) ((s.core n).ring i).size | none => false
  r f.ringA f.posA || r f.ringB f.posB

/-- The `wstr` or `accrd` behind a word that C is stopped at whose accesses are due, which complete before it retires (R381). -/
def Core.accessM (c : Core) (now : Nat) : Option MFlight :=
  c.mat.flight.find? fun f => (f.op == 5 && f.from_ == 0 || f.op == 6 && decide (f.from_ < f.slotsOf)) && !f.att && decide (f.due ≤ now) && f.cut.isNone &&
    c.mat.flight.any fun g => c.holdsM g.id && decide (g.id < f.id)

/-- Retires the next M flight picked by `sel` with its effect (R197, R215 to R217); a word stopped at a cursor first goes on. -/
def retireM (sel : MFlight → Bool) (n : CoreId) (s : State) : Out :=
  let c := s.core n
  if c.cutting = .stopped ∨ c.debugHalt = .stopped then stall s
  else match nextM s.ccount (fun f => sel f && !c.holdsM f.id) [] c.mat.flight with
  | none => match c.accessM s.ccount with
    | some f =>
      if s.outLocked n f then stall s
      else let w := s.writeOut n f; .next (w.1.modCore n fun c => c.modM f.id fun _ => w.2)
    | none => stall s
  | some f =>
    match f.failed with
    | some (code, v) => .next (s.failM n f code v)
    | none =>
      if (decide (f.op = 5) || decide (f.op = 6)) && f.cut.isNone && s.outLocked n f then stall s
      else if f.cut.isSome then (if c.cutting = .running ∧ c.debugHalt = .running then .next (s.resumeM n f) else stall s)
      else
        let cov := s.coverOf n .c
        if isStep f.op then
          let r := c.enter f f.slotsOf
          let s := s.setCore n r.1
          let s := s.modCore n fun c =>
            let c := match f.posB with | some p => c.setRing f.ringB ((c.ring f.ringB).pop p) | none => c
            match f.posA with | some p => c.setRing f.ringA ((c.ring f.ringA).pop p) | none => c
          .next (s.endM n r.2)
        else if f.op = 4 then
          let s := s.modCore n fun c =>
            let c := c.setWbuf f.buf { st := 2, esize := 2 ^ mEsz f.fmt, img := Tab.setRange 0 [] 0 f.opnd }
            match f.posA with | some p => c.setRing f.ringA ((c.ring f.ringA).pop p) | none => c
          .next (s.endM n f)
        else if f.op = 5 ∨ f.op = 6 then
          let w := s.writeOut n f
          let at_ := w.2.due + 6
          .next ((w.1.modCore n fun c =>
            let c := c.setRing f.ringA ((c.ring f.ringA).push (f.posA.getD 0) cov at_)
            if f.op = 6 ∧ f.enc then c.setRing f.ringB ((c.ring f.ringB).push (f.posB.getD 0) cov at_) else c).endM n w.2)
        else
          let s := s.modCore n fun c =>
            let m := c.mat.setAcc f.acc { afmt := 0, el := [] }
            { c with mat := if m.bown = f.acc + 1 then { m with bown := 0, bound := [] } else m }
          .next (s.endM n f)

/-- A matrix step retires (R197): its updates are complete, its rings popped, its tokens posted. -/
def execMatrixStepRetire (n : CoreId) (s : State) : Out := retireM (fun f => isStep f.op) n s

/-- A `wld`, `wstr`, `accrd` or `acczr` retires (R215 to R217). -/
def execMWordRetire (n : CoreId) (s : State) : Out := retireM (fun f => !isStep f.op) n s

/-! ## Meanings -/

/-- `mma` (R211). -/
def execMma (b n : BitVec 5) (c : BitVec 1) (f : BitVec 3) (sh w p u : BitVec 1) (s : State) : Out := mWord s 1 0 b n c f false (sh = 1) w p u.toNat 0
/-- `mma.e` (R211). -/
def execMmaE (b n : BitVec 5) (c : BitVec 1) (f : BitVec 3) (sh w p u : BitVec 1) (s : State) : Out := mWord s 1 0 b n c f true (sh = 1) w p u.toNat 0
/-- `mma.a` (R212). -/
def execMmaA (a b n : BitVec 5) (c : BitVec 1) (f : BitVec 3) (sh w p u : BitVec 1) (s : State) : Out := mWord s 2 a b n c f true (sh = 1) w p u.toNat 0
/-- `mabs` (R211). -/
def execMabs (b n : BitVec 5) (c : BitVec 1) (f : BitVec 3) (sh w p u : BitVec 1) (s : State) : Out := mWord s 3 0 b n c f false (sh = 1) w p u.toNat 0
/-- `mabs.e` (R211). -/
def execMabsE (b n : BitVec 5) (c : BitVec 1) (f : BitVec 3) (sh w p u : BitVec 1) (s : State) : Out := mWord s 3 0 b n c f true (sh = 1) w p u.toNat 0
/-- `wld` (R215). -/
def execWld (a : BitVec 5) (f : BitVec 3) (w p u : BitVec 1) (s : State) : Out := mWord s 4 a 0 0 0 f false false w p u.toNat 0
/-- `wstr` (R215). -/
def execWstr (a : BitVec 5) (f : BitVec 3) (w p u : BitVec 1) (s : State) : Out := mWord s 5 a 0 0 0 f false false w p u.toNat 0
/-- `accrd` (R217). -/
def execAccrd (a n : BitVec 5) (c : BitVec 1) (f : BitVec 3) (w p : BitVec 1) (r : BitVec 2) (s : State) : Out := mWord s 6 a 0 n c f false false w p 0 r
/-- `accrd.e` (R217). -/
def execAccrdE (a b n : BitVec 5) (c : BitVec 1) (f : BitVec 3) (w p : BitVec 1) (r : BitVec 2) (s : State) : Out := mWord s 6 a b n c f true false w p 0 r
/-- `acczr` (R216). -/
def execAcczr (c : BitVec 1) (_x : BitVec 3) (w p : BitVec 1) (s : State) : Out := mWord s 7 0 0 0 c 0 false false w p 0 0
/-- `mwin` (R213). -/
def execMwin (b n : BitVec 5) (c : BitVec 1) (f : BitVec 3) (e sh w p u : BitVec 1) (s : State) : Out := mWord s 8 0 b n c f (e = 1) (sh = 1) w p u.toNat 0
/-- `mdw` (R214). -/
def execMdw (b n : BitVec 5) (c : BitVec 1) (f : BitVec 3) (e sh w p u : BitVec 1) (s : State) : Out := mWord s 9 0 b n c f (e = 1) (sh = 1) w p u.toNat 0

end Sys2Proof.Machine
end

