-- ==== Sys2Proof/Machine/KFloat.lean ====
section
/-! DEFINITION. K-words of class 0b010: scalar floating point (R128 to R133). -/
namespace Sys2Proof.Machine

/-- The format of a precision bit (R58). -/
def fmtP (p : BitVec 1) : Fmt := if p = 1 then .f64 else .f32

/-- An operand of a format from a register (R128). -/
def fpBits (f : Fmt) (x : Word) : Nat := x.toNat % 2 ^ f.width

/-- The mode of a rounding field (R58, R129). -/
def fpMode (s : State) (r : BitVec 3) : Mode := if r = 7 then modeOf (frmOf s.seq.fcsr) else modeOf r

/-- An operand read under FTZ (R35). -/
def fpRead (s : State) (f : Fmt) (r : BitVec 5) : Fv × Flags := f.read (ftzOf s.seq.fcsr f) (fpBits f (s.reg r))

/-- Rounds an exact result into a register, with the flags of its operands (R21, R31). -/
def fpResult (s : State) (f : Fmt) (m : Mode) (x : Fv × Flags) (opFl : Flags) : Word × Flags :=
  let r := f.round m (ftzOf s.seq.fcsr f) x.1
  (BitVec.ofNat 64 r.1, opFl ||| x.2 ||| r.2)

/-- A two-operand arithmetic word (R129). -/
def fpArith (s : State) (p : BitVec 1) (d a b : BitVec 5) (r : BitVec 3) (op : Mode → Fv → Fv → Fv × Flags) : Out :=
  let f := fmtP p
  let m := fpMode s r
  let x := fpRead s f a
  let y := fpRead s f b
  let z := fpResult s f m (op m x.1 y.1) (x.2 ||| y.2)
  fpWord s [a, b] 4 z.2 (fun t => t.setReg d z.1 4)

/-- A word on the divider (R125). -/
def fpDivider (s : State) (f : Fmt) (srcs : List (BitVec 5)) (d : BitVec 5) (z : Word × Flags) : Out :=
  let lat := if f = .f64 then 24 else 12
  if decide (s.here.divTill ≤ s.ccount) then
    fpWord s srcs lat z.2 (fun t => (t.modHere fun c => { c with divTill := s.ccount + lat }).setReg d z.1 lat)
  else stall s

/-- A minimum or maximum word (R130): the chosen operand, exact; FTZ reads a subnormal as zero (R35). -/
def fpMinmax (s : State) (p : BitVec 1) (d a b : BitVec 5) (isMax num : Bool) : Out :=
  let f := fmtP p
  let x := fpRead s f a
  let y := fpRead s f b
  let z := Fv.minmax isMax num x.1 y.1
  let r := f.round .rne false (if z.1.isNan then .nan false else z.1)
  fpWord s [a, b] 1 (x.2 ||| y.2 ||| z.2) (fun t => t.setReg d (BitVec.ofNat 64 r.1) 1)

/-- `fadd` (R129). -/
def execFadd (p : BitVec 1) (d a b : BitVec 5) (r : BitVec 3) (s : State) : Out := fpArith s p d a b r Fv.add
/-- `fsub` (R129). -/
def execFsub (p : BitVec 1) (d a b : BitVec 5) (r : BitVec 3) (s : State) : Out :=
  fpArith s p d a b r fun m x y => Fv.add m x y.negate
/-- `fmul` (R129). -/
def execFmul (p : BitVec 1) (d a b : BitVec 5) (r : BitVec 3) (s : State) : Out := fpArith s p d a b r fun _ x y => Fv.mul x y

/-- `fdiv` (R129, R125). -/
def execFdiv (p : BitVec 1) (d a b : BitVec 5) (r : BitVec 3) (s : State) : Out :=
  let f := fmtP p
  let x := fpRead s f a
  let y := fpRead s f b
  fpDivider s f [a, b] d (fpResult s f (fpMode s r) (Fv.div x.1 y.1) (x.2 ||| y.2))

/-- `fsqrt` (R129, R125). -/
def execFsqrt (p : BitVec 1) (d a : BitVec 5) (r : BitVec 3) (s : State) : Out :=
  let f := fmtP p
  let x := fpRead s f a
  fpDivider s f [a] d (fpResult s f (fpMode s r) (Fv.sqrt x.1) x.2)

/-- `fma`: one rounding of a × b + c with c the old destination (R129). -/
def execFma (p : BitVec 1) (d a b : BitVec 5) (r : BitVec 3) (s : State) : Out :=
  let f := fmtP p
  let m := fpMode s r
  let x := fpRead s f a
  let y := fpRead s f b
  let c := fpRead s f d
  let z := fpResult s f m (Fv.fma m x.1 y.1 c.1) (x.2 ||| y.2 ||| c.2)
  fpWord s [a, b, d] 4 z.2 (fun t => t.setReg d z.1 4)

/-- `fmin` (R130). -/
def execFmin (p : BitVec 1) (d a b : BitVec 5) (_x : BitVec 3) (s : State) : Out := fpMinmax s p d a b false false
/-- `fmax` (R130). -/
def execFmax (p : BitVec 1) (d a b : BitVec 5) (_x : BitVec 3) (s : State) : Out := fpMinmax s p d a b true false
/-- `fminn` (R130). -/
def execFminn (p : BitVec 1) (d a b : BitVec 5) (_x : BitVec 3) (s : State) : Out := fpMinmax s p d a b false true
/-- `fmaxn` (R130). -/
def execFmaxn (p : BitVec 1) (d a b : BitVec 5) (_x : BitVec 3) (s : State) : Out := fpMinmax s p d a b true true

/-- The relation of an `fcmp` condition and its flag (R131). -/
def fpRel (c : Nat) (x y : Fv) : Bool × Flags :=
  let nan := x.isNan || y.isNan
  let sig : Flags := if x.isSig || y.isSig then fNV else 0
  if c = 0 then (!nan && x.eqv y, sig)
  else if c = 1 then (!nan && x.lt y, if nan then fNV else 0)
  else if c = 2 then (!nan && (x.lt y || x.eqv y), if nan then fNV else 0)
  else (nan, sig)

/-- `fcmp`: writes a predicate (R131). -/
def execFcmp (p : BitVec 1) (d a b : BitVec 5) (c : BitVec 4) (_x : BitVec 3) (s : State) : Out :=
  let f := fmtP p
  let x := fpRead s f a
  let y := fpRead s f b
  let r := fpRel c.toNat x.1 y.1
  predWord s [d] (fpWord s [a, b] 1 (x.2 ||| y.2 ||| r.2) (fun t => t.setPred d.toNat r.1))

/-- `fclass`: the 10-bit class, no flag (R131). -/
def execFclass (p : BitVec 1) (d a : BitVec 5) (_x : BitVec 3) (s : State) : Out :=
  regWord s [a] d (BitVec.ofNat 64 ((fmtP p).classOf (fpBits (fmtP p) (s.reg a)))) 1

/-- The float format of an `fcvt` type code 0 or 1 (R58). -/
def cvtFmt (t : BitVec 4) : Fmt := if t = 1 then .f64 else .f32

/-- The integer an `fcvt` source of type 2 to 5 holds (R132). -/
def cvtInt (t : BitVec 4) (x : Word) : Int :=
  if t = 2 then sextNat x.toNat 32 else if t = 3 then (x.toNat % 2 ^ 32 : Nat) else if t = 4 then x.toInt else (x.toNat : Nat)

/-- `fcvt`: between float formats, float to integer (R27) and integer to float (R132). -/
def execFcvt (d a : BitVec 5) (src dst : BitVec 4) (r : BitVec 3) (s : State) : Out :=
  let m := fpMode s r
  if decide (2 ≤ src.toNat) then
    let f := cvtFmt dst
    let z := fpResult s f m (Fv.ofInteger (cvtInt src (s.reg a)), 0) 0
    fpWord s [a] 4 z.2 (fun t => t.setReg d z.1 4)
  else
    let x := fpRead s (cvtFmt src) a
    if decide (2 ≤ dst.toNat) then
      let w := if dst = 2 ∨ dst = 3 then 32 else 64
      let i := Fv.toInt m w (dst = 2 ∨ dst = 4) x.1
      fpWord s [a] 4 (x.2 ||| i.2) (fun t => t.setReg d (BitVec.ofInt 64 i.1) 4)
    else
      let z := fpResult s (cvtFmt dst) m (x.1, 0) x.2
      fpWord s [a] 4 z.2 (fun t => t.setReg d z.1 4)

/-- `fmvi`: a 12-bit integer as a float, exactly (R133). -/
def execFmvi (p : BitVec 1) (d : BitVec 5) (i : BitVec 12) (s : State) : Out :=
  regWord s [] d (BitVec.ofNat 64 ((fmtP p).round .rne false (Fv.ofInteger i.toInt)).1) 1

/-- `fsgn`: a register's bits with the sign of the other, its inverse, or the exclusive-or (R133). -/
def execFsgn (p : BitVec 1) (d a b : BitVec 5) (k : BitVec 4) (_x : BitVec 3) (s : State) : Out :=
  let f := fmtP p
  let x := fpBits f (s.reg a)
  let sa := x.testBit (f.width - 1)
  let sb := (s.reg b).getLsbD (f.width - 1)
  let sg := if k = 0 then sb else if k = 1 then !sb else sa != sb
  regWord s [a, b] d (BitVec.ofNat 64 (x % 2 ^ (f.width - 1) + signBit sg f.width)) 1

end Sys2Proof.Machine
end

