-- ==== Sys2Proof/Machine/VNum.lean ====
section
/-! DEFINITION. Lane arithmetic of V-words (R140, R148, R151 to R165, R45) and the exponent unit (R46): each lane gives its bits,
its flags, and its error in units of 2^-2304. -/
namespace Sys2Proof.Machine

/-- The lane width of a type code (R140). -/
def laneW (t : Nat) : Nat := if t = 0 then 64 else if t = 1 then 32 else if t = 2 ∨ t = 3 then 16 else if t = 4 then 8 else 8 * 2 ^ (t % 4)
/-- The lane count L of a type code (R140). -/
def laneL (t : Nat) : Nat := 2048 / laneW t
/-- Whether a type code is reserved (R140). -/
def laneRsv (t : Nat) : Bool := t == 5 || t == 6 || t == 7
/-- The format of a float or T8 type code. -/
def laneFmt (t : Nat) : Fmt := if t = 0 then .f64 else if t = 1 then .f32 else if t = 2 then .f16 else if t = 3 then .bf16 else .t8
/-- Whether a type code is an integer type. -/
def laneInt (t : Nat) : Bool := decide (8 ≤ t)
/-- Whether a type code is a signed integer type. -/
def laneSigned (t : Nat) : Bool := decide (8 ≤ t) && decide (t < 12)

/-- Lane `i` of width w (R140). -/
def laneAt (w : Nat) (x : Vec) (i : Nat) : Nat := x.toNat / 2 ^ (w * i) % 2 ^ w

/-- A vector from its lanes, lane 0 first. -/
def packLanes (w : Nat) : List Nat → Nat
  | [] => 0
  | x :: xs => x % 2 ^ w + 2 ^ w * packLanes w xs

/-- What one lane delivers: bits, flags, and its contribution to `eb` (R148): none at all, or a magnitude, or +∞ (some none). -/
structure LaneOut where
  bits : Nat
  flags : Flags
  err : Option (Option Nat)
  deriving DecidableEq, Repr

/-- A lane without flags or contribution. -/
def LaneOut.plain (x : Nat) : LaneOut := { bits := x, flags := 0, err := none }

/-- |z − y|, +∞ where either is not finite (R148). -/
def errOf (z y : Fv) : Option Nat := if z.isFin && y.isFin then some (z.int - y.int).natAbs else none

/-- Delivers an exact result into a format with its error (R148). -/
def deliver (f : Fmt) (m : Mode) (ftz : Bool) (z : Fv) (fl : Flags) : LaneOut :=
  let r := f.round m ftz z
  { bits := r.1, flags := fl ||| r.2, err := some (errOf z (f.decode r.1)) }

/-! ## Integer lanes (R152) -/

/-- The integer of a lane under a type's signedness. -/
def laneIntVal (t x : Nat) : Int := if laneSigned t then sextNat x (laneW t) else (x : Int)

/-- An exact integer in an integer type: clamped under SAT, else wrapped (R152). -/
def fitInt (t : Nat) (sat : Bool) (i : Int) : Nat :=
  let w := laneW t
  let lo : Int := if laneSigned t then -(2 ^ (w - 1) : Int) else 0
  let hi : Int := if laneSigned t then 2 ^ (w - 1) - 1 else 2 ^ w - 1
  let i := if sat then (if i < lo then lo else if hi < i then hi else i) else i
  (BitVec.ofInt w i).toNat

/-! ## Arithmetic (R151) -/

/-- The exact result of an arithmetic opcode (2 add to 9 rcp, R65) with its invalid and divide-by-zero flags. -/
def exactArith (op : Nat) (m : Mode) (a b d : Fv) : Fv × Flags :=
  if op = 2 then Fv.add m a b
  else if op = 3 then Fv.add m a b.negate
  else if op = 4 then Fv.mul a b
  else if op = 5 then Fv.fma m a b d
  else if op = 6 then Fv.fma m a b d.negate
  else if op = 7 then Fv.div a b
  else if op = 8 then Fv.sqrt a
  else Fv.div (.fin false oneU) a

/-- A float or T8 lane of an arithmetic word; in T8 a quotient by zero is NaN with divide-by-zero only (R151). -/
def fpLane (op : Nat) (f : Fmt) (m : Mode) (ftz : Bool) (a b d : Nat) : LaneOut :=
  let x := f.read ftz a
  let y := if op = 8 ∨ op = 9 then (Fv.fin false 0, (0 : Flags)) else f.read ftz b
  let c := if op = 5 ∨ op = 6 then f.read ftz d else (Fv.fin false 0, (0 : Flags))
  let z := exactArith op m x.1 y.1 c.1
  let fl := x.2 ||| y.2 ||| c.2 ||| z.2
  if f = .t8 ∧ z.2 = fDZ then { bits := 0x80, flags := fDZ, err := some none } else deliver f m ftz z.1 fl

/-- An integer lane of an arithmetic word (R152). -/
def intLane (op t : Nat) (sat : Bool) (a b d : Nat) : LaneOut :=
  let x := laneIntVal t a
  let y := laneIntVal t b
  let c := laneIntVal t d
  .plain (fitInt t sat (if op = 2 then x + y else if op = 3 then x - y else if op = 4 then x * y else if op = 5 then x * y + c else x * y - c))

/-- A lane of `vmin`, `vmax`, `vminn`, `vmaxn` (R153). -/
def minmaxLane (t : Nat) (ftz : Bool) (isMax num : Bool) (a b : Nat) : LaneOut :=
  if laneInt t then
    let less := if num then decide (a ≤ b) else decide (laneIntVal t a ≤ laneIntVal t b)
    .plain (if less = isMax then b else a)
  else
    let f := laneFmt t
    let x := f.read ftz a
    let y := f.read ftz b
    let z := Fv.minmax isMax num x.1 y.1
    { bits := (f.round .rne false (if z.1.isNan then .nan false else z.1)).1, flags := x.2 ||| y.2 ||| z.2, err := none }

/-- A lane of `vabs` and `vneg` (R154). -/
def signLane (t : Nat) (sat : Bool) (isAbs : Bool) (a : Nat) : LaneOut :=
  let w := laneW t
  if laneInt t then
    let x := laneIntVal t a
    .plain (fitInt t sat (if isAbs then (if x < 0 then -x else x) else -x))
  else if t = 4 ∧ (a = 0 ∨ a = 0x80) then .plain a
  else
    let lo := a % 2 ^ (w - 1)
    .plain (if isAbs then lo else lo + (if a.testBit (w - 1) then 0 else 2 ^ (w - 1)))

/-- A lane of `vcmp` (R155): the bit and the flags. -/
def cmpLane (t : Nat) (ftz : Bool) (c : Nat) (a b : Nat) : Bool × Flags :=
  if laneInt t then
    let x := laneIntVal t a
    let y := laneIntVal t b
    (if c = 0 then decide (x = y) else if c = 1 then decide (x < y) else if c = 2 then decide (x ≤ y) else false, 0)
  else
    let f := laneFmt t
    let x := f.read ftz a
    let y := f.read ftz b
    let r := fpRel c x.1 y.1
    (r.1, x.2 ||| y.2 ||| r.2)

/-- A lane of `vshl`, `vshr`, `vsra` (kind 0 to 2), by zext(b) mod w (R158). -/
def shiftLane (w kind a b : Nat) : Nat :=
  let sh := b % w
  if kind = 0 then a * 2 ^ sh % 2 ^ w
  else if kind = 1 then a / 2 ^ sh
  else ((BitVec.ofNat w a).sshiftRight sh).toNat

/-- A value times a power of two, with a sticky last bit where bits fall below the unit (R160). -/
def Fv.scaleBy (x : Fv) (k : Int) : Fv :=
  let k := if k < -5000 then -5000 else if 5000 < k then 5000 else k
  match x with
  | .fin n m =>
    if 0 ≤ k then .fin n (m * 2 ^ k.toNat)
    else
      let q := m / 2 ^ (-k).toNat
      .fin n (if m = q * 2 ^ (-k).toNat then q else q ||| 1)
  | y => y

/-- A lane of `vscale` (R160). -/
def scaleLane (t : Nat) (m : Mode) (ftz : Bool) (a b : Nat) : LaneOut :=
  let f := laneFmt t
  let x := f.read ftz a
  deliver f m ftz (x.1.scaleBy (sextNat b (laneW t))) x.2

/-- A lane of `vcvt` from type `t` to `u` (R159); `ftz` tells whether a format flushes. -/
def cvtLane (t u : Nat) (m : Mode) (ftz : Fmt → Bool) (sat : Bool) (scale : Int) (a : Nat) : LaneOut :=
  if laneInt t && laneInt u then .plain (fitInt u sat (laneIntVal t a))
  else
    let src : Fv × Flags :=
      if laneInt t then (Fv.ofInteger (laneIntVal t a), 0)
      else
        let x := (laneFmt t).read (ftz (laneFmt t)) a
        (if t = 4 then x.1.scaleBy scale else x.1, x.2)
    if laneInt u then
      let i := Fv.toInt m (laneW u) (laneSigned u) src.1
      { bits := (BitVec.ofInt (laneW u) i.1).toNat, flags := src.2 ||| i.2, err := some (errOf src.1 (Fv.ofInteger i.1)) }
    else if u = 4 then
      deliver .t8 m false (src.1.scaleBy (-scale)) src.2
    else deliver (laneFmt u) m (ftz (laneFmt u)) src.1 src.2

/-- The class of a lane (R164). -/
def classLane (t a : Nat) : Nat :=
  if t = 4 then (if a = 0x80 then 8 else if a = 0 then 2 else if a.testBit 7 then 1 else 4) else (laneFmt t).classOf a

/-! ## The reduction tree (R45, R162) -/

/-- A reduction's running state: lanes, flags, errors so far (none: +∞). -/
structure Tree where
  xs : List Nat
  flags : Flags
  err : Option Nat
  deriving DecidableEq, Repr

/-- One level of the pairwise tree. -/
def Tree.level (op : Nat → Nat → LaneOut) (t : Tree) : Tree :=
  let h := t.xs.length / 2
  let outs := ((t.xs.take h).zip (t.xs.drop h)).map fun p => op p.1 p.2
  { xs := outs.map (·.bits), flags := outs.foldl (fun a o => a ||| o.flags) t.flags
    err := outs.foldl (fun a o => match a, o.err with
      | some x, some (some y) => some (x + y)
      | some x, none => some x
      | _, _ => none) t.err }

/-- `n` levels. -/
def Tree.reduce (op : Nat → Nat → LaneOut) : Nat → Tree → Tree
  | 0, t => t
  | n + 1, t => Tree.reduce op n (t.level op)

/-- The addition of `vsum` (R45, R162). -/
def sumOp (t : Nat) (m : Mode) (ftz sat : Bool) (a b : Nat) : LaneOut :=
  if laneInt t then intLane 2 t sat a b 0 else fpLane 2 (laneFmt t) m ftz a b 0

/-- What an inactive lane enters `vsum` with (R45, R162). -/
def sumZero (t : Nat) (m : Mode) : Nat := if laneInt t ∨ t = 4 ∨ m = .rdn then 0 else 2 ^ (laneW t - 1)

/-- What an inactive lane enters `vmaxr` with (R162). -/
def maxLeast (t : Nat) : Nat :=
  if laneInt t then (if laneSigned t then 2 ^ (laneW t - 1) else 0)
  else if t = 4 then 0xFF
  else 2 ^ (laneW t - 1) + (laneFmt t).emax * 2 ^ (laneFmt t).fw

/-! ## The exponent unit (R46) -/

/-- ⌊ln 2 · 2^512⌋. -/
def ln2Units : Nat :=
  0xb17217f7d1cf79abc9e3b39803f2f6af40f343267298b62d8a0d175b8baafa2be7b876206debac98559552fb4afa1b10ed2eae35c138214427573b291169b825

/-- The exponential series of t (in units of 2^-512) from term k on, the term before being `term`. -/
def expSeries (t : Nat) : Nat → Nat → Nat → Nat
  | 0, _, _ => 0
  | fuel + 1, k, term => term + expSeries t fuel (k + 1) (term * t / 2 ^ 512 / k)

/-- The odd series of atanh from power w^k on. -/
def atanhSeries (w2 : Nat) : Nat → Nat → Nat → Nat
  | 0, _, _ => 0
  | fuel + 1, k, p => p / k + atanhSeries w2 fuel (k + 2) (p * w2 / 2 ^ 512)

/-- 2^x for a finite x in units of 2^-2304, to some 500 bits with a sticky last bit; beyond ±4096 a bound that rounds alike. -/
def exp2Val (x : Int) : Nat :=
  let n := x / (oneU : Int)
  if n < -1800 then 1
  else if 1800 < n then 2 ^ (unitExp + 1800)
  else
    let f := (x % (oneU : Int)).toNat / 2 ^ (unitExp - 512)
    let s := expSeries (f * ln2Units / 2 ^ 512) 110 1 (2 ^ 512)
    let e : Int := (unitExp : Int) - 512 + n
    (if 0 ≤ e then s * 2 ^ e.toNat else s / 2 ^ (-e).toNat) ||| 1

/-- log2(x) for a positive magnitude in units of 2^-2304, to some 500 bits with a sticky last bit. -/
def log2Val (x : Nat) : Int :=
  let e := Nat.log2 x
  let m := x * 2 ^ 512 / 2 ^ e
  let w := (m - 2 ^ 512) * 2 ^ 512 / (m + 2 ^ 512)
  let l := 2 * atanhSeries (w * w / 2 ^ 512) 180 1 w
  let frac : Nat := l * 2 ^ 512 / ln2Units
  (((e : Int) - unitExp) * 2 ^ 512 + (frac : Int)) * 2 ^ (unitExp - 512) + 1

/-- ulp(y, f) of a magnitude pattern (R46). -/
def ulpOf (f : Fmt) (p : Nat) : Nat := 2 ^ (unitExp + Nat.max (p / 2 ^ f.fw) 1 - f.bias - f.fw)

/-- Whether R46 allows a finite y for an exact value z. -/
def expAllowed (m : Mode) (z y : Int) (ulp : Nat) : Bool :=
  match m with
  | .rne => decide ((z - y).natAbs ≤ ulp)
  | .rna => decide ((z - y).natAbs ≤ ulp)
  | .rdn => decide (y ≤ z) && decide (z - y ≤ 2 * ulp)
  | .rup => decide (z ≤ y) && decide (y - z ≤ 2 * ulp)
  | .rtz => decide (y.natAbs ≤ z.natAbs) && decide ((z - y).natAbs ≤ 2 * ulp)

/-- The patterns R46 allows for a value z that is not exact: the finite ones, and the overflow result where z rounded correctly
overflows under R29. -/
def expCands (f : Fmt) (m : Mode) (z : Int) : List Nat :=
  let neg := decide (z < 0)
  let p := (roundBin f .rtz false false z.natAbs).1
  let inf := f.emax * 2 ^ f.fw
  let near := ((List.range 7).map fun i => p + i).filter fun q => decide (2 ≤ q) && decide (q - 2 < inf)
  let fin := (near.map fun q => q - 2).filter fun q =>
    let v := (f.decode q).int
    expAllowed m z (if neg then -v else v) (ulpOf f q)
  let out := fin.map fun q => q + signBit neg f.width
  let r := roundBin f m false neg z.natAbs
  if 2 ^ (unitExp + f.bias + 1) ≤ z.natAbs then [overflowBits f m neg]
  else if r.2 &&& fOF ≠ 0 then out ++ [r.1] else out

/-- The type code of a format (R140). -/
def fmtCode (f : Fmt) : Nat := match f with | .f64 => 0 | .f32 => 1 | .f16 => 2 | .bf16 => 3 | .t8 => 4

/-- The result of the exponent unit for an inexact z (R46): one of the allowed patterns, chosen by `Config.expPick` (log 20), with
its flags, and its `eb` contribution. -/
def expPicked (key : Nat) (f : Fmt) (m : Mode) (ftz : Bool) (z : Int) (fl : Flags) : LaneOut :=
  let cs := expCands f m z
  let mc := match m with | .rne => 0 | .rtz => 1 | .rdn => 2 | .rup => 3 | .rna => 4
  let y := (cs[Config.expPick key (fmtCode f) mc cs.length % cs.length]?).getD (overflowBits f m (decide (z < 0)))
  let mag := y % 2 ^ (f.width - 1)
  let ovf : Bool := decide (2 ^ (unitExp + f.bias + 1) ≤ z.natAbs) || decide (mag = f.emax * 2 ^ f.fw)
  let tiny : Bool := decide ((roundBin f m true false z.natAbs).2 &&& fUF ≠ 0)
  let nrm := (decide (m = .rup) && decide (0 < z)) || (decide (m = .rdn) && decide (z < 0))
  let y := if ftz && tiny then signBit (decide (z < 0)) f.width + (if nrm then 2 ^ f.fw else 0) else y
  let ulp := (if m = .rne ∨ m = .rna then 1 else 2) * ulpOf f (y % 2 ^ (f.width - 1))
  { bits := y, flags := fl ||| fNX ||| (if ovf then fOF else 0) ||| (if tiny then fUF else 0)
    err := some (if (f.decode y).isFin then some ulp else none) }

/-- An exact or special result, flushed where it is tiny and its format flushes (R35); its contribution is the ulp as R46 says, +∞ for
a non-finite y. -/
def expExact (f : Fmt) (m : Mode) (ftz : Bool) (y : Fv) (fl : Flags) : LaneOut :=
  let r := f.round m ftz y
  let ulp := (if m = .rne ∨ m = .rna then 1 else 2) * ulpOf f (r.1 % 2 ^ (f.width - 1))
  { bits := r.1, flags := fl ||| r.2, err := some (if (f.decode r.1).isFin then some ulp else none) }

/-- A lane of `vexp2` (R46). -/
def exp2Lane (f : Fmt) (m : Mode) (ftz : Bool) (a : Nat) : LaneOut :=
  let x := f.read ftz a
  match x.1 with
  | .nan s => { bits := f.qnan, flags := x.2 ||| (if s then fNV else 0), err := some none }
  | .inf n => expExact f m ftz (if n then .fin false 0 else .inf false) x.2
  | y =>
    let i := y.int
    let n := i / (oneU : Int)
    let lo : Int := 1 - (f.bias : Int) - f.fw
    if decide (i % (oneU : Int) = 0) && decide (lo ≤ n) && decide (n ≤ f.bias) then expExact f m ftz (.fin false (2 ^ ((unitExp : Int) + n).toNat)) x.2
    else expPicked (2 * a) f m ftz (exp2Val i) x.2

/-- A lane of `vlog2` (R46). -/
def log2Lane (f : Fmt) (m : Mode) (ftz : Bool) (a : Nat) : LaneOut :=
  let x := f.read ftz a
  match x.1 with
  | .nan s => { bits := f.qnan, flags := x.2 ||| (if s then fNV else 0), err := some none }
  | .inf n => if n then { bits := f.qnan, flags := x.2 ||| fNV, err := some none } else expExact f m ftz (.inf false) x.2
  | .fin n mag =>
    if mag = 0 then expExact f m ftz (.inf true) (x.2 ||| fDZ)
    else if n then { bits := f.qnan, flags := x.2 ||| fNV, err := some none }
    else if mag = 2 ^ Nat.log2 mag then expExact f m ftz (Fv.ofInteger ((Nat.log2 mag : Int) - unitExp)) x.2
    else expPicked (2 * a + 1) f m ftz (log2Val mag) x.2

/-! ## `eb` (R148) -/

/-- `eb` after a contribution, rounded up in FP32; none is +∞ (R148). -/
def ebAdd (b : BitVec 32) (e : Option Nat) : BitVec 32 :=
  match Fmt.f32.decode b.toNat, e with
  | .fin _ x, some y => BitVec.ofNat 32 (Fmt.f32.round .rup false (.fin false (x + y))).1
  | _, _ => 0x7F800000

/-- A lane of `vmagsum` (R165) for the present `eb`; the operand is not flushed and only the rounding of the bound raises flags. -/
def magLane (f : Fmt) (m : Mode) (ftz : Bool) (eb : BitVec 32) (a : Nat) : LaneOut :=
  let e : Option Nat := match f.decode a with | .fin _ x => some x | _ => none
  let r := f.round m ftz (Fmt.f32.decode (ebAdd eb e).toNat)
  { bits := r.1, flags := r.2, err := some e }

end Sys2Proof.Machine
end

