-- ==== Sys2Proof/Machine/Vector.lean ====
section
/-! DEFINITION. V-words (R62 to R65, R140 to R165, R168, R169): operands, interlocks, issue and retirement of C's vector side. -/
namespace Sys2Proof.Machine

/-! ## Registers, masks, tiles (R140 to R145) -/

/-- Bits 20:0 of `shape` as they govern the next word: the latest `vshape` in flight, else the register (R146, R150). A write of K that acts
while a `vshape` is in flight governs only once that one has retired, which ends over it (DESIGN CHOICE, log 47: R117 has words from the
write's cycle on use it, R146 every word after the `vshape` use that). -/
def VUnit.gov (u : VUnit) : BitVec 21 := u.flight.foldl (fun g f => f.shape.getD g) (u.shape.setWidth 21)
/-- The lane type in force: `shape`.TYPE (R142). -/
def VUnit.ty (u : VUnit) : Nat := bitsOf u.gov 0 4
/-- BT (R142). -/
def VUnit.bt (u : VUnit) : Bool := u.gov.getLsbD 4
/-- SAT (R142). -/
def VUnit.sat (u : VUnit) : Bool := u.gov.getLsbD 17
/-- SCALE, signed (R142). -/
def VUnit.scale (u : VUnit) : Int := sextNat (bitsOf u.gov 9 8) 8
/-- PART (R142). -/
def VUnit.part (u : VUnit) : Nat := bitsOf u.gov 18 3
/-- Whether lane `i` is active (R141). -/
def VUnit.active (u : VUnit) (i : Nat) : Bool := !u.gov.getLsbD 8 || (Tab.get 0 u.vm (bitsOf u.gov 5 3)).getLsbD i
/-- The mask register that the active lanes come from, if any. -/
def VUnit.maskRead (u : VUnit) : List Nat := if u.gov.getLsbD 8 then [bitsOf u.gov 5 3] else []

/-- The configuration of a tile as the words issued so far leave it (R146: `mcfg` governs from the next word). -/
def VUnit.cfgOf (u : VUnit) (t : Nat) : BitVec 14 :=
  u.flight.foldl (fun c f => match f.tile with | some x => if x.1 = t then x.2.2 else c | none => c) (Tab.get cfgReset u.cfg t)

/-- Rows of a configuration (R144). -/
def cfgRows (c : BitVec 14) : Nat := 2 ^ bitsOf c 4 4
/-- Columns of a configuration (R144). -/
def cfgCols (c : BitVec 14) : Nat := 2 ^ bitsOf c 8 4
/-- The element width of a configuration. -/
def cfgW (c : BitVec 14) : Nat := laneW (bitsOf c 0 4)
/-- Whether a configuration is legal (R144). -/
def cfgLegal (c : BitVec 14) : Bool :=
  !laneRsv (bitsOf c 0 4) && decide (bitsOf c 12 2 = 0) && decide (cfgRows c ≤ laneL (bitsOf c 0 4)) && decide (cfgCols c ≤ laneL (bitsOf c 0 4)) &&
  decide (cfgRows c * cfgCols c * cfgW c ≤ 131072)

/-- The element number of lane `j` of a slice (R145). -/
def sliceElem (c : BitVec 14) (dir i j : Nat) : Nat :=
  let cols := cfgCols c
  if dir = 0 then i * cols + j
  else if dir = 1 then j * cols + i
  else if dir = 2 then j * cols + (i + j) % cols
  else j * cols + (i + cols * 256 - j) % cols

/-- The lanes of a slice (R145). -/
def sliceLanes (c : BitVec 14) (dir : Nat) : Nat := if dir = 0 then cfgCols c else cfgRows c

/-- A slice read as a vector (R145): lanes beyond it read zero bits. -/
def readTileSlice (m : BitVec 131072) (c : BitVec 14) (dir i : Nat) : Vec :=
  let w := cfgW c
  BitVec.ofNat 2048 (packLanes w ((List.range (sliceLanes c dir)).map fun j => m.toNat / 2 ^ (w * sliceElem c dir i j) % 2 ^ w))

/-- A slice written with the bits of `sel` (R141, R145). -/
def writeTileSlice (m : BitVec 131072) (c : BitVec 14) (dir i : Nat) (v sel : Vec) : BitVec 131072 :=
  let w := cfgW c
  let p := (List.range (sliceLanes c dir)).foldl (fun (a : Nat × Nat) j =>
    let k := w * sliceElem c dir i j
    (a.1 + 2 ^ k * laneAt w (v &&& sel) j, a.2 + 2 ^ k * laneAt w sel j)) (0, 0)
  (m &&& ~~~(BitVec.ofNat 131072 p.2)) ||| BitVec.ofNat 131072 p.1

/-! ## Operand codes (R63, R64) -/

/-- Whether a code may be read. -/
def srcCode (c : Nat) : Bool := decide (c < 68) || c == 72
/-- Whether a code may be written. -/
def dstCode (c : Nat) : Bool := decide (c < 64) || (decide (68 ≤ c) && decide (c ≤ 72))
/-- The tile a code names a slice of. -/
def tileOfCode (c : Nat) : Option Nat := if 32 ≤ c ∧ c < 64 then some ((c - 32) / 4) else none

/-- The form of a V-word: the codes it reads and writes, whether its fields name what they can name (`dec`, R49), the acceptance of the
lane type and of `shape` (`ok`, R149), what it reads besides, its latency (R146), and the units it needs. -/
structure VForm where
  srcs : List Nat
  dst : Option Nat
  dec : Bool
  ok : Bool
  masks : List Nat
  tiles : List Nat
  eb : Bool
  ruleTab : Bool
  lat : Nat
  divider : Bool
  expo : Bool
  deriving DecidableEq, Repr

/-- What a V-word delivers: value and replaced bits for its destination code, further destinations, a tile, flags, `eb`
contributions, and the marks of its flight. -/
structure VRes where
  out : Option (Vec × Vec)
  dst : List (VDst × Vec × Vec)
  tile : Option (Nat × BitVec 131072 × BitVec 14)
  flags : Flags
  eb : List (Nat × Option Nat)
  isRule : Bool
  clr : Bool
  rshp : Bool
  shape : Option (BitVec 21)
  deriving DecidableEq, Repr

/-- Nothing delivered. -/
def VRes.none : VRes := { out := .none, dst := [], tile := .none, flags := 0, eb := [], isRule := false, clr := false, rshp := false, shape := .none }

/-- Whether an unretired V-word writes a register, mask, tile or `eb` that a word reads (R146). -/
def VFlight.conflicts (f : VFlight) (x : VForm) : Bool :=
  (f.dst.any fun d => match d.1 with
    | .vreg i => x.srcs.contains i
    | .tileSlice t _ _ => x.tiles.contains t || x.srcs.any fun c => tileOfCode c == some t
    | .mask i => x.masks.contains i
    | .rule _ => false
    | .none => false) ||
  (match f.tile with
    | some y => x.tiles.contains y.1 || x.srcs.any fun c => tileOfCode c == some y.1
    | none => false) ||
  (x.eb && (!f.eb.isEmpty || f.clr)) || (x.ruleTab && f.isRule)

/-- Whether a word reads anything that a retirement of this cycle may have written (R146: readable from the next cycle). -/
def VForm.readsState (x : VForm) : Bool := x.srcs.any (fun c => decide (c < 64)) || !x.masks.isEmpty || !x.tiles.isEmpty || x.eb || x.ruleTab

/-- The interlocks of R146. -/
def State.vReady (s : State) (x : VForm) : Bool :=
  let u := s.here.vec
  !(u.flight.any fun f => f.conflicts x) && (!x.readsState || decide (u.lastRet ≠ s.ccount) || decide (u.retiredN = 0)) &&
  (!x.divider || decide (u.divTill ≤ s.ccount)) && (!x.expo || s.here.att.exp.isNone)

/-- Whether every slice a word names is within its range and of the lane width (R145). -/
def State.slicesOk (s : State) (x : VForm) : Bool :=
  let u := s.here.vec
  let i := bitsOf u.tix 0 8
  (x.srcs ++ x.dst.toList).all fun c => match tileOfCode c with
    | none => true
    | some t =>
      let g := u.cfgOf t
      decide (cfgW g = laneW u.ty) && decide (i < if (c - 32) % 4 = 0 then cfgRows g else cfgCols g)

/-- The operand a code names, at issue (R63, R64). -/
def State.vOperand (s : State) (c : Nat) : Vec :=
  let u := s.here.vec
  if c < 32 then Tab.get 0 u.v c
  else if c < 64 then
    let t := (c - 32) / 4
    readTileSlice (Tab.get 0 u.tile t) (u.cfgOf t) ((c - 32) % 4) (bitsOf u.tix 0 8)
  else if c < 68 then (match (s.here.iqOf (c - 64)).front s.ccount with | some x => x.1 | none => 0)
  else 0

/-- The destination a code names (R63, R64). -/
def State.vDst (s : State) (c : Nat) : VDst :=
  if c < 32 then .vreg c else if c < 64 then .tileSlice ((c - 32) / 4) ((c - 32) % 4) (bitsOf s.here.vec.tix 0 8) else .none

/-- Numbers without repeats. -/
def nub (l : List Nat) : List Nat := l.foldl (fun a x => if a.contains x then a else a ++ [x]) []

/-- A V-word (R146): its operand codes and fields (R49), its interlocks, queues and tokens (R80); then, read as it issues, the type and the
slices it names (R145, R149), FP_TRAP (R36), and its issue; `body` gives its results, or none for ILLEGAL_OPERAND. -/
def vWord (s : State) (w p : BitVec 1) (x : VForm) (body : Option VRes) : Out :=
  let wc := if w = 1 then waitCodes 2 s.seq.wmask else []
  let pc := if p = 1 then postCodes 2 s.seq.pmask else []
  let iqs := nub ((x.srcs.filter fun c => decide (64 ≤ c) && decide (c < 68)).map (· - 64))
  let oq := match x.dst with | some c => if 68 ≤ c ∧ c < 72 then some (c - 68) else none | none => none
  if !s.canIssue then stall s
  else if !(x.dec && x.srcs.all srcCode && (match x.dst with | some c => dstCode c | none => true)) then .next s.badOperand
  else if !s.vReady x then stall s
  else if !(iqs.all (fun i => ((s.here.iqOf i).front s.ccount).isSome) && (match oq with | some i => (s.here.oqOf i).canPush 4 s.ccount | none => true) &&
      s.here.tokensVisible wc s.ccount && s.here.tokensFree pc s.ccount) then stall s
  else if !(x.ok && s.slicesOk x) then .next s.badOperand
  else match body with
  | none => .next s.badOperand
  | some r =>
    if r.flags &&& teOf s.seq.fcsr ≠ 0 then .next (s.raise 0x09 (r.flags.setWidth 64))
    else
      let now := s.ccount
      let cov := iqs.foldl (fun (a : Cover) i => match (s.here.iqOf i).front now with | some y => a.join y.2 | none => a) (s.here.tokenCover wc now)
      let dst := match x.dst, r.out with
        | some c, some o => (match s.vDst c with | .none => [] | d => [(d, o.1, o.2)])
        | _, _ => []
      let f : VFlight :=
        { word := s.word, due := now + x.lat - 1, dst := dst ++ r.dst, tile := r.tile, flags := r.flags, eb := r.eb
          oq := match oq, r.out with | some i, some o => some (i, o.1 &&& o.2) | _, _ => none
          post := if p = 1 then s.seq.pmask else 0, isRule := r.isRule, clr := r.clr, rshp := r.rshp, shape := r.shape }
      let names := (x.srcs ++ x.dst.toList).any fun c => (tileOfCode c).isSome
      .next ((s.modHere fun c =>
        let c := (c.popTokens wc now).reserveTokens pc
        let c := iqs.foldl (fun c i => c.setIq i ((c.iqOf i).pop now)) c
        let c := match oq with | some i => c.setOq i (c.oqOf i).reserve | none => c
        let u := c.vec
        let c := if x.expo then c.pushed 0x43 else c
        { c with vec := { u with
            flight := u.flight ++ [f], issuedN := u.issuedN + 1
            divTill := if x.divider then now + x.lat else u.divTill
            tix := if names then BitVec.ofNat 16 (bitsOf u.tix 8 8 * 256 + (bitsOf u.tix 0 8 + bitsOf u.tix 8 8) % 256) else u.tix } }).acquire cov).advance

/-! ## Retirement (R146) -/

/-- The destination of a retiring word written. -/
def VUnit.write (u : VUnit) (d : VDst × Vec × Vec) : VUnit :=
  let mix := fun (old : Vec) => (old &&& ~~~d.2.2) ||| (d.2.1 &&& d.2.2)
  match d.1 with
  | .vreg i => { u with v := Tab.set 0 u.v i (mix (Tab.get 0 u.v i)) }
  | .tileSlice t k i => { u with tile := Tab.set 0 u.tile t (writeTileSlice (Tab.get 0 u.tile t) (Tab.get cfgReset u.cfg t) k i d.2.1 d.2.2) }
  | .mask i =>
    let old : Vec := (Tab.get 0 u.vm i).setWidth 2048
    { u with vm := Tab.set 0 u.vm i ((mix old).setWidth 256) }
  | .rule i => { u with rule := Tab.set 0 u.rule i d.2.1 }
  | .none => u

/-- The vector side after a flight's effects (R146, R148, R168). A `vshape` that takes BT from 0 to 1 clears `eb` before anything else of
that cycle (R142). A `vmagsum` in flight when K's write takes BT from 0 to 1 leaves in vd the bound made with the `eb` of its issue, while
its contribution is added to the cleared lane (DESIGN CHOICE, log 47: the manual does not say which `eb` the retirement then uses). -/
def VUnit.retire (u : VUnit) (f : VFlight) : VUnit :=
  let u := match f.shape with
    | some i => { u with shape := (u.shape &&& 0xE00000) ||| i.setWidth 24, eb := if !u.shape.getLsbD 4 && i.getLsbD 4 then [] else u.eb }
    | none => u
  let u := f.dst.foldl VUnit.write u
  let u := match f.tile with
    | some x => { u with tile := Tab.set 0 u.tile x.1 x.2.1, cfg := Tab.set cfgReset u.cfg x.1 x.2.2 }
    | none => u
  let u := { u with eb := f.eb.foldl (fun t e => Tab.set 0 t e.1 (ebAdd (Tab.get 0 t e.1) e.2)) u.eb }
  if f.rshp then { u with shape := u.shape ||| 0x800000 } else u

/-- The oldest V-word retires once it is ready (R146): destinations, `eb`, flags, result queue, tokens. -/
def execVwordRetire (n : CoreId) (s : State) : Out :=
  let c := s.core n
  match c.vec.flight with
  | [] => stall s
  | f :: rest =>
    if s.ccount < f.due ∨ c.cutting = .stopped ∨ c.debugHalt = .stopped then stall s
    else
      let cov := s.coverOf n .c
      let now := s.ccount
      .next ((s.modCore n fun c =>
        let u := c.vec.retire f
        let c := { c with vec := { u with flight := rest, lastRet := now, retiredN := u.retiredN + 1 }, c := c.c.retireFlags f.flags, lastRetire := now }
        let c := match f.oq with | some x => c.setOq x.1 ((c.oqOf x.1).fill x.2 cov now) | none => c
        c.fillTokens (postCodes 2 f.post) cov now).flushC n)

/-! ## Lane-wise words -/

/-- All 2048 bits. -/
def allBits : Vec := BitVec.allOnes 2048

/-- The lanes of width `w` that a predicate picks, as bits. -/
def selLanes (w : Nat) (act : Nat → Bool) : Vec :=
  BitVec.ofNat 2048 (packLanes w ((List.range (2048 / w)).map fun i => if act i then 2 ^ w - 1 else 0))

/-- The result of lanes of width `w`: none where a lane is inactive; `track` tells whether contributions reach `eb` (R148). -/
def lanesRes (w : Nat) (track : Bool) (outs : List (Option LaneOut)) : VRes :=
  let val : Vec := BitVec.ofNat 2048 (packLanes w (outs.map fun o => match o with | some x => x.bits | none => 0))
  let sel : Vec := BitVec.ofNat 2048 (packLanes w (outs.map fun o => if o.isSome then 2 ^ w - 1 else 0))
  { VRes.none with
    out := some (val, sel)
    flags := outs.foldl (fun a o => match o with | some x => a ||| x.flags | none => a) 0
    eb := if track then (outs.zipIdx).filterMap fun o => match o.1 with | some x => x.err.map fun e => (o.2, e) | none => none else [] }

/-- The active lanes under a lane function of the lane number. -/
def mapLanes (u : VUnit) (g : Nat → LaneOut) : List (Option LaneOut) :=
  (List.range (laneL u.ty)).map fun i => if u.active i then some (g i) else none

/-- A form that reads the lane masks (R141). -/
def VForm.lanes (u : VUnit) (srcs : List Nat) (d : Nat) (ok : Bool) (lat : Nat) : VForm :=
  { srcs := srcs, dst := some d, dec := true, ok := ok, masks := u.maskRead, tiles := [], eb := false, ruleTab := false, lat := lat, divider := false, expo := false }

/-- The FTZ bit that acts on a format (R35): none under BT. -/
def State.vFtz (s : State) (f : Fmt) : Bool := !s.here.vec.bt && ftzOf s.seq.fcsr f

/-- The mode of a rounding field in C (R30). -/
def State.vMode (s : State) (r : BitVec 2) : Mode := mode2 r (frmOf s.seq.fcsr)

/-- A lane-wise word: `lat` its latency, `track` whether it rounds (R148), `g` its lane function on lanes of the three operands; one that
also reads its destination (`vfma`, `vfms`) takes a register or slice there (R64). -/
def laneWord (s : State) (w p : BitVec 1) (srcs : List Nat) (d : Nat) (ok : Bool) (lat : Nat) (track divider expo : Bool)
    (g : Nat → Nat → Nat → LaneOut) : Out :=
  let u := s.here.vec
  let wd := laneW u.ty
  let vs := srcs.map s.vOperand
  let a := (vs[0]?).getD 0
  let b := (vs[1]?).getD 0
  let c := (vs[2]?).getD 0
  vWord s w p { VForm.lanes u srcs d ok lat with dec := decide (srcs.length < 3) || decide (d < 64), divider := divider, expo := expo }
    (some (lanesRes wd (track && u.bt) (mapLanes u fun i => g (laneAt wd a i) (laneAt wd b i) (laneAt wd c i))))

/-- An arithmetic word (R151, R152): `op` as in R65. -/
def arithWord (s : State) (op : Nat) (d a b : BitVec 7) (w p : BitVec 1) (r : BitVec 2) : Out :=
  let t := s.here.vec.ty
  let fma := op == 5 || op == 6
  let un := op == 8 || op == 9
  let div := decide (7 ≤ op)
  let srcs := if fma then [a.toNat, b.toNat, d.toNat] else if un then [a.toNat] else [a.toNat, b.toNat]
  let lat := if div then (if laneW t = 64 then 24 else 12) else 4
  let ok := !div || !laneInt t
  laneWord s w p srcs d.toNat ok lat true div false fun x y z =>
    if laneInt t then intLane op t s.here.vec.sat x y z
    else fpLane op (laneFmt t) (s.vMode r) (s.vFtz (laneFmt t)) x y z

/-- A word of two operands that raises no flag and does not round, on any lane type. -/
def bitWord (s : State) (d a b : BitVec 7) (w p : BitVec 1) (g : Nat → Nat → Nat) : Out :=
  laneWord s w p [a.toNat, b.toNat] d.toNat true 2 false false false fun x y _ => .plain (g x y)

/-- A minimum or maximum word (R153). -/
def minmaxWord (s : State) (isMax num : Bool) (d a b : BitVec 7) (w p : BitVec 1) : Out :=
  let t := s.here.vec.ty
  laneWord s w p [a.toNat, b.toNat] d.toNat true 2 false false false fun x y _ => minmaxLane t (s.vFtz (laneFmt t)) isMax num x y

/-- `vadd` (R151, R152). -/
def execVadd (d a b : BitVec 7) (w p : BitVec 1) (r : BitVec 2) (s : State) : Out := arithWord s 2 d a b w p r
/-- `vsub` (R151, R152). -/
def execVsub (d a b : BitVec 7) (w p : BitVec 1) (r : BitVec 2) (s : State) : Out := arithWord s 3 d a b w p r
/-- `vmul` (R151, R152). -/
def execVmul (d a b : BitVec 7) (w p : BitVec 1) (r : BitVec 2) (s : State) : Out := arithWord s 4 d a b w p r
/-- `vfma` (R151, R152). -/
def execVfma (d a b : BitVec 7) (w p : BitVec 1) (r : BitVec 2) (s : State) : Out := arithWord s 5 d a b w p r
/-- `vfms` (R151, R152). -/
def execVfms (d a b : BitVec 7) (w p : BitVec 1) (r : BitVec 2) (s : State) : Out := arithWord s 6 d a b w p r
/-- `vdiv` (R151). -/
def execVdiv (d a b : BitVec 7) (w p : BitVec 1) (r : BitVec 2) (s : State) : Out := arithWord s 7 d a b w p r
/-- `vsqrt` (R151). -/
def execVsqrt (d a : BitVec 7) (w p : BitVec 1) (r : BitVec 2) (s : State) : Out := arithWord s 8 d a 0 w p r
/-- `vrcp` (R151). -/
def execVrcp (d a : BitVec 7) (w p : BitVec 1) (r : BitVec 2) (s : State) : Out := arithWord s 9 d a 0 w p r
/-- `vmin` (R153). -/
def execVmin (d a b : BitVec 7) (w p : BitVec 1) (_x : BitVec 2) (s : State) : Out := minmaxWord s false false d a b w p
/-- `vmax` (R153). -/
def execVmax (d a b : BitVec 7) (w p : BitVec 1) (_x : BitVec 2) (s : State) : Out := minmaxWord s true false d a b w p
/-- `vminn` (R153). -/
def execVminn (d a b : BitVec 7) (w p : BitVec 1) (_x : BitVec 2) (s : State) : Out := minmaxWord s false true d a b w p
/-- `vmaxn` (R153). -/
def execVmaxn (d a b : BitVec 7) (w p : BitVec 1) (_x : BitVec 2) (s : State) : Out := minmaxWord s true true d a b w p

/-- `vabs` (R154). -/
def execVabs (d a : BitVec 7) (w p : BitVec 1) (_x : BitVec 2) (s : State) : Out :=
  laneWord s w p [a.toNat] d.toNat true 2 false false false fun x _ _ => signLane s.here.vec.ty s.here.vec.sat true x
/-- `vneg` (R154). -/
def execVneg (d a : BitVec 7) (w p : BitVec 1) (_x : BitVec 2) (s : State) : Out :=
  laneWord s w p [a.toNat] d.toNat true 2 false false false fun x _ _ => signLane s.here.vec.ty s.here.vec.sat false x

/-- `vcmp` (R155): writes mask bits of active lanes; bits L to 255 become 0. -/
def execVcmp (k a b : BitVec 7) (w p : BitVec 1) (c : BitVec 2) (s : State) : Out :=
  let u := s.here.vec
  let wd := laneW u.ty
  let x := s.vOperand a.toNat
  let y := s.vOperand b.toNat
  let rs := (List.range (laneL u.ty)).map fun i =>
    if u.active i then some (cmpLane u.ty (s.vFtz (laneFmt u.ty)) c.toNat (laneAt wd x i) (laneAt wd y i)) else none
  let val := packLanes 1 (rs.map fun r => match r with | some z => if z.1 then 1 else 0 | none => 0)
  let sel := packLanes 1 ((rs.map fun r => if r.isSome then 1 else 0) ++ List.replicate (256 - laneL u.ty) 1)
  vWord s w p { VForm.lanes u [a.toNat, b.toNat] 0 true 2 with dst := none, dec := decide (k.toNat < 8) }
    (some { VRes.none with
      dst := [(.mask k.toNat, BitVec.ofNat 2048 val, BitVec.ofNat 2048 sel)]
      flags := rs.foldl (fun a r => match r with | some z => a ||| z.2 | none => a) 0 })

/-- `vsel` (R156). -/
def execVsel (d a b : BitVec 7) (w p : BitVec 1) (k : BitVec 2) (s : State) : Out :=
  let u := s.here.vec
  let wd := laneW u.ty
  let x := s.vOperand a.toNat
  let y := s.vOperand b.toNat
  let m := Tab.get 0 u.vm k.toNat
  vWord s w p { VForm.lanes u [a.toNat, b.toNat] d.toNat true 2 with masks := k.toNat :: u.maskRead }
    (some (lanesRes wd false (mapLanes u fun i => .plain (laneAt wd (if m.getLsbD i then x else y) i))))

/-- `vand` (R157). -/
def execVand (d a b : BitVec 7) (w p : BitVec 1) (_x : BitVec 2) (s : State) : Out := bitWord s d a b w p Nat.land
/-- `vor` (R157). -/
def execVor (d a b : BitVec 7) (w p : BitVec 1) (_x : BitVec 2) (s : State) : Out := bitWord s d a b w p Nat.lor
/-- `vxor` (R157). -/
def execVxor (d a b : BitVec 7) (w p : BitVec 1) (_x : BitVec 2) (s : State) : Out := bitWord s d a b w p Nat.xor
/-- `vnot` (R157). -/
def execVnot (d a : BitVec 7) (w p : BitVec 1) (_x : BitVec 2) (s : State) : Out :=
  laneWord s w p [a.toNat] d.toNat true 2 false false false fun x _ _ => .plain (2 ^ laneW s.here.vec.ty - 1 - x)
/-- `vshl` (R158). -/
def execVshl (d a b : BitVec 7) (w p : BitVec 1) (_x : BitVec 2) (s : State) : Out := bitWord s d a b w p (shiftLane (laneW s.here.vec.ty) 0)
/-- `vshr` (R158). -/
def execVshr (d a b : BitVec 7) (w p : BitVec 1) (_x : BitVec 2) (s : State) : Out := bitWord s d a b w p (shiftLane (laneW s.here.vec.ty) 1)
/-- `vsra` (R158). -/
def execVsra (d a b : BitVec 7) (w p : BitVec 1) (_x : BitVec 2) (s : State) : Out := bitWord s d a b w p (shiftLane (laneW s.here.vec.ty) 2)

/-- `vcvt` (R159). A destination slice of a tile takes its index from the element width of `shape` (R145), and the lanes of the destination
type are written to it as one image of 2,048 bits (DESIGN CHOICE, log 47: the manual does not say how lanes of another width map to elements). -/
def execVcvt (d a t : BitVec 7) (w p : BitVec 1) (r : BitVec 2) (s : State) : Out :=
  let u := s.here.vec
  let src := u.ty
  let dst := t.toNat
  let ls := laneL src
  let ld := laneL dst
  let part := u.part
  let ok := decide (dst ≠ src) &&
    (decide (ls = ld) || (decide (ld < ls) && decide (part < ls / ld)) || (decide (ls < ld) && decide (part < ld / ls)))
  let x := s.vOperand a.toNat
  let from_ := fun (i : Nat) => if ls = ld then some i else if ld < ls then some (part * ld + i)
    else if part * ls ≤ i ∧ i < part * ls + ls then some (i - part * ls) else none
  let outs := (List.range ld).map fun i =>
    match from_ i with
    | some j => if u.active i then some (cvtLane src dst (s.vMode r) s.vFtz u.sat u.scale (laneAt (laneW src) x j)) else none
    | none => none
  vWord s w p { VForm.lanes u [a.toNat] d.toNat ok 4 with dec := decide (dst < 16) && !laneRsv dst } (some (lanesRes (laneW dst) u.bt outs))

/-- `vscale` (R160). -/
def execVscale (d a b : BitVec 7) (w p : BitVec 1) (r : BitVec 2) (s : State) : Out :=
  let t := s.here.vec.ty
  laneWord s w p [a.toNat, b.toNat] d.toNat (!laneInt t) 4 true false false fun x y _ => scaleLane t (s.vMode r) (s.vFtz (laneFmt t)) x y

/-- Whether a type is `.f32`, `.f16` or `.bf16` (R149). -/
def expTy (t : Nat) : Bool := t == 1 || t == 2 || t == 3

/-- `vexp2` (R161, R46). -/
def execVexp2 (d a : BitVec 7) (w p : BitVec 1) (r : BitVec 2) (s : State) : Out :=
  let f := laneFmt s.here.vec.ty
  laneWord s w p [a.toNat] d.toNat (expTy s.here.vec.ty) 8 true false true fun x _ _ => exp2Lane f (s.vMode r) (s.vFtz f) x
/-- `vlog2` (R161, R46). -/
def execVlog2 (d a : BitVec 7) (w p : BitVec 1) (r : BitVec 2) (s : State) : Out :=
  let f := laneFmt s.here.vec.ty
  laneWord s w p [a.toNat] d.toNat (expTy s.here.vec.ty) 8 true false true fun x _ _ => log2Lane f (s.vMode r) (s.vFtz f) x

/-- A reduction (R162, R45): lane 0 the result, the others zero bits. -/
def reduceWord (s : State) (d a : BitVec 7) (w p : BitVec 1) (idle : Nat) (track : Bool) (op : Nat → Nat → LaneOut) : Out :=
  let u := s.here.vec
  let wd := laneW u.ty
  let v := s.vOperand a.toNat
  let lg := Nat.log2 (laneL u.ty)
  let r := Tree.reduce op lg { xs := (List.range (laneL u.ty)).map fun i => if u.active i then laneAt wd v i else idle, flags := 0, err := some 0 }
  vWord s w p (VForm.lanes u [a.toNat] d.toNat true (4 + 2 * lg))
    (some { VRes.none with
      out := some (BitVec.ofNat 2048 (r.xs.headD 0), allBits), flags := r.flags
      eb := if track && u.bt && !laneInt u.ty then [(0, r.err)] else [] })

/-- `vsum` (R45, R162). -/
def execVsum (d a : BitVec 7) (w p : BitVec 1) (r : BitVec 2) (s : State) : Out :=
  let t := s.here.vec.ty
  reduceWord s d a w p (sumZero t (s.vMode r)) true (sumOp t (s.vMode r) (s.vFtz (laneFmt t)) s.here.vec.sat)
/-- `vmaxr` (R45, R162). -/
def execVmaxr (d a : BitVec 7) (w p : BitVec 1) (_x : BitVec 2) (s : State) : Out :=
  let t := s.here.vec.ty
  reduceWord s d a w p (maxLeast t) false (minmaxLane t (s.vFtz (laneFmt t)) true false)

/-- `vperm` (R163). -/
def execVperm (d a b : BitVec 7) (w p : BitVec 1) (_x : BitVec 2) (s : State) : Out :=
  let wd := laneW s.here.vec.ty
  let v := s.vOperand a.toNat
  laneWord s w p [a.toNat, b.toNat] d.toNat true 2 false false false fun _ y _ => .plain (laneAt wd v (y % laneL s.here.vec.ty))
/-- `vbcast` (R163). -/
def execVbcast (d a : BitVec 7) (w p : BitVec 1) (_x : BitVec 2) (s : State) : Out :=
  let wd := laneW s.here.vec.ty
  let v := s.vOperand a.toNat
  laneWord s w p [a.toNat] d.toNat true 2 false false false fun _ _ _ => .plain (laneAt wd v 0)
/-- `vmov` (R163). -/
def execVmov (d a : BitVec 7) (w p : BitVec 1) (_x : BitVec 2) (s : State) : Out :=
  laneWord s w p [a.toNat] d.toNat true 2 false false false fun x _ _ => .plain x
/-- `vclass` (R164). -/
def execVclass (d a : BitVec 7) (w p : BitVec 1) (_x : BitVec 2) (s : State) : Out :=
  let t := s.here.vec.ty
  laneWord s w p [a.toNat] d.toNat (!laneInt t) 2 false false false fun x _ _ => .plain (classLane t x)
/-- `vpopc` (R164). -/
def execVpopc (d a : BitVec 7) (w p : BitVec 1) (_x : BitVec 2) (s : State) : Out :=
  laneWord s w p [a.toNat] d.toNat true 2 false false false fun x _ _ => .plain (popcount 64 x)

/-- `vmagsum` (R165): it acts whatever BT holds. -/
def execVmagsum (d a : BitVec 7) (w p : BitVec 1) (r : BitVec 2) (s : State) : Out :=
  let u := s.here.vec
  let wd := laneW u.ty
  let v := s.vOperand a.toNat
  let f := laneFmt u.ty
  vWord s w p { VForm.lanes u [a.toNat] d.toNat (decide (u.ty < 4)) 4 with eb := true }
    (some (lanesRes wd true (mapLanes u fun i => magLane f (s.vMode r) (s.vFtz f) (Tab.get 0 u.eb i) (laneAt wd v i))))

/-! ## `shape` and tiles (R150, R168, R169) -/

/-- A form that names no operand code; `dec` tells whether its fields are legal (R49). -/
def VForm.bare (dec : Bool) (lat : Nat) (tiles : List Nat) : VForm :=
  { srcs := [], dst := none, dec := dec, ok := true, masks := [], tiles := tiles, eb := false, ruleTab := false, lat := lat, divider := false, expo := false }

/-- `vshape` (R150): writes bits 20:0 at its retirement (R146), after a write of K that acts in that cycle (R117); they govern from the next
word; BT from 0 to 1 clears `eb` (R142). -/
def execVshape (i : BitVec 21) (w p : BitVec 1) (s : State) : Out :=
  let u := s.here.vec
  vWord s w p (VForm.bare (!laneRsv (bitsOf i 0 4)) 2 []) (some { VRes.none with clr := !u.bt && i.getLsbD 4, shape := some i })

/-- `mcfg` (R168, R144). -/
def execMcfg (t : BitVec 7) (c : BitVec 14) (w p k : BitVec 1) (s : State) : Out :=
  let u := s.here.vec
  let old := u.cfgOf t.toNat
  let nb := cfgRows old * cfgCols old * cfgW old
  let st := Tab.get 0 u.tile t.toNat
  let kept : BitVec 131072 := BitVec.ofNat 131072 (st.toNat % 2 ^ Nat.min nb (cfgRows c * cfgCols c * cfgW c))
  vWord s w p (VForm.bare (decide (t.toNat < 8) && cfgLegal c) 2 (if k = 1 then [t.toNat] else []))
    (some { VRes.none with tile := some (t.toNat, if k = 1 then kept else 0, c), rshp := decide (k = 1) && decide (c ≠ old) })

/-- `mzero` (R169): the configuration stays. -/
def execMzero (t : BitVec 7) (w p : BitVec 1) (_x : BitVec 2) (s : State) : Out :=
  vWord s w p (VForm.bare (decide (t.toNat < 8)) 2 []) (some { VRes.none with tile := some (t.toNat, 0, s.here.vec.cfgOf t.toNat) })

/-- `mtr` (R169). -/
def execMtr (t m : BitVec 7) (w p : BitVec 1) (_x : BitVec 2) (s : State) : Out :=
  let u := s.here.vec
  let c := u.cfgOf m.toNat
  let rows := cfgRows c
  let cols := cfgCols c
  let wd := cfgW c
  let st := (Tab.get 0 u.tile m.toNat).toNat
  let out := packLanes wd (((List.range cols).map fun j => (List.range rows).map fun i => st / 2 ^ (wd * (i * cols + j)) % 2 ^ wd).flatten)
  let c' : BitVec 14 := BitVec.ofNat 14 (bitsOf c 4 4 * 256 + bitsOf c 8 4 * 16 + bitsOf c 0 4)
  vWord s w p (VForm.bare (decide (t.toNat < 8) && decide (m.toNat < 8)) 34 [m.toNat])
    (some { VRes.none with tile := some (t.toNat, BitVec.ofNat 131072 out, c') })

end Sys2Proof.Machine
end

