-- ==== Sys2Proof/Machine/Relax.lean ====
section
/-! DEFINITION. The rule table and the relaxation unit (R166, R167, R237 to R241). Numbers are FP32 patterns; reals are exact
integers in units of 2^-2304. -/
namespace Sys2Proof.Machine

/-- A segment of a slot (R237). -/
structure Seg where
  kind : Nat
  lo : Nat
  p0 : Nat
  p1 : Nat
  rsv : Nat
  deriving DecidableEq, Repr

/-- Segment `k` of a slot image. -/
def segOf (img : Vec) (k : Nat) : Seg :=
  let x := img.toNat / 2 ^ (128 * k)
  { kind := x % 16, rsv := x / 16 % 2 ^ 28, lo := x / 2 ^ 32 % 2 ^ 32, p0 := x / 2 ^ 64 % 2 ^ 32, p1 := x / 2 ^ 96 % 2 ^ 32 }

/-- The used segments of a slot (R237). -/
def usedSegs (img : Vec) : List Seg := ((List.range 16).map (segOf img)).takeWhile fun x => decide (x.kind ≠ 0)

/-- An FP32 pattern's value. -/
def f32v (p : Nat) : Fv := Fmt.f32.decode p
/-- Whether an FP32 pattern is finite. -/
def f32fin (p : Nat) : Bool := (f32v p).isFin
/-- a ≤ b for FP32 patterns (false for a NaN). -/
def f32le (a b : Nat) : Bool := !(f32v a).isNan && !(f32v b).isNan && ((f32v a).lt (f32v b) || (f32v a).eqv (f32v b))
/-- a < b for FP32 patterns (false for a NaN). -/
def f32lt (a b : Nat) : Bool := !(f32v a).isNan && !(f32v b).isNan && (f32v a).lt (f32v b)

/-- The parameter conditions of a kind (R237). -/
def Seg.paramsOk (x : Seg) : Bool :=
  if x.kind = 1 ∨ x.kind = 2 then x.p0 == 0 && x.p1 == 0
  else if x.kind = 3 then f32fin x.p0 && f32fin x.p1
  else if x.kind = 4 then f32le 0 x.p0 && f32le x.p0 0x3F800000 && x.p1 == 0
  else if x.kind = 5 then f32le 0 x.p0 && f32fin x.p0 && f32fin x.p1
  else if x.kind = 6 then f32le 0 x.p0 && f32fin x.p0 && f32fin x.p1 && f32lt 0 x.lo
  else f32fin x.p0 && f32fin x.p1 && f32le x.p0 x.p1

/-- Whether breakpoints increase strictly. -/
def increasing : List Nat → Bool
  | a :: b :: t => f32lt a b && increasing (b :: t)
  | _ => true

/-- The checks of `vrule` on a new image (R238). -/
def imageOk (img : Vec) : Bool :=
  let all := (List.range 16).map (segOf img)
  let used := usedSegs img
  (all.all fun x => x.rsv == 0 && decide (x.kind < 8)) && ((all.drop used.length).all fun x => x.kind == 0) &&
  (match used with | [] => true | x :: _ => x.lo == 0xFF800000) &&
  (used.all fun x => !(f32v x.lo).isNan) && increasing (used.map (·.lo)) && used.all Seg.paramsOk

/-! ## Intervals (R239) -/

/-- Rounds an exact value into FP32. -/
def rnd32 (m : Mode) (x : Fv) : Nat := (Fmt.f32.round m false x).1
/-- Rounds an exact real into FP32. -/
def rndInt (m : Mode) (i : Int) : Nat := rnd32 m (Fv.ofInt i false)
/-- A sum rounded under a mode. -/
def add32 (m : Mode) (a b : Nat) : Nat := rnd32 m (Fv.add m (f32v a) (f32v b)).1
/-- A product rounded under a mode; zero times an infinite bound is zero. -/
def mul32 (m : Mode) (a b : Nat) : Nat :=
  if a % 2 ^ 31 = 0 ∨ b % 2 ^ 31 = 0 then (if (f32v a).isNan || (f32v b).isNan then Fmt.f32.qnan else 0) else rnd32 m (Fv.mul (f32v a) (f32v b)).1
/-- A quotient rounded under a mode. -/
def div32 (m : Mode) (a b : Nat) : Nat := rnd32 m (Fv.div (f32v a) (f32v b)).1
/-- A negated pattern. -/
def neg32 (a : Nat) : Nat := if a < 2 ^ 31 then a + 2 ^ 31 else a - 2 ^ 31
/-- The lesser of two patterns; NaN if either is. -/
def min32 (a b : Nat) : Nat := if (f32v a).isNan || (f32v b).isNan then Fmt.f32.qnan else if (f32v b).lt (f32v a) then b else a
/-- The greater of two patterns; NaN if either is. -/
def max32 (a b : Nat) : Nat := if (f32v a).isNan || (f32v b).isNan then Fmt.f32.qnan else if (f32v a).lt (f32v b) then b else a

/-- An interval. -/
abbrev Ival := Nat × Nat
/-- The sum of intervals, outward. -/
def Ival.add (x y : Ival) : Ival := (add32 .rdn x.1 y.1, add32 .rup x.2 y.2)
/-- The difference of intervals, outward. -/
def Ival.sub (x y : Ival) : Ival := (add32 .rdn x.1 (neg32 y.2), add32 .rup x.2 (neg32 y.1))
/-- Four bounds combined, outward. -/
def Ival.four (op : Mode → Nat → Nat → Nat) (x y : Ival) : Ival :=
  let g := fun m (h : Nat → Nat → Nat) => h (h (op m x.1 y.1) (op m x.1 y.2)) (h (op m x.2 y.1) (op m x.2 y.2))
  (g .rdn min32, g .rup max32)
/-- The product of intervals, outward. -/
def Ival.mul (x y : Ival) : Ival := Ival.four mul32 x y
/-- The quotient of intervals whose divisor does not hold 0. -/
def Ival.div (x y : Ival) : Ival := Ival.four div32 x y
/-- 2^x of an interval by the exponent unit (R46). -/
def Ival.exp2 (x : Ival) : Ival := ((exp2Lane .f32 .rdn false x.1).bits, (exp2Lane .f32 .rup false x.2).bits)
/-- log2 of an interval by the exponent unit (R46). -/
def Ival.log2 (x : Ival) : Ival := ((log2Lane .f32 .rdn false x.1).bits, (log2Lane .f32 .rup false x.2).bits)
/-- A point. -/
def Ival.at (x : Nat) : Ival := (x, x)
/-- [round_rdn(ln 2), round_rup(ln 2)]. -/
def ivalLn2 : Ival := (0x3F317217, 0x3F317218)

/-- enc(f(x)) on a segment (R237, R239). -/
def Seg.enc (g : Seg) (x : Nat) : Ival :=
  if g.kind = 1 then (0, 0)
  else if g.kind = 2 then (x, x)
  else if g.kind = 3 then ((Ival.at g.p0).mul (Ival.at x)).add (Ival.at g.p1)
  else if g.kind = 4 then (let y := (Ival.at g.p0).mul (Ival.at x); (max32 x y.1, max32 x y.2))
  else if g.kind = 5 then (Ival.at g.p0).mul ((Ival.at g.p1).mul (Ival.at x)).exp2
  else if g.kind = 6 then ((Ival.at g.p0).mul (Ival.at x).log2).add (Ival.at g.p1)
  else (g.p0, g.p1)

/-- range_k(x0, x1) (R239). -/
def Seg.range (g : Seg) (x0 x1 : Nat) : Ival :=
  if g.kind = 1 then (0, 0)
  else if g.kind = 2 then (x0, x1)
  else if g.kind = 7 then (g.p0, g.p1)
  else
    let a := g.enc x0
    let b := g.enc x1
    (min32 a.1 b.1, max32 a.2 b.2)

/-- The exact product of two reals. -/
def rmul (x y : Int) : Int := x * y / (oneU : Int)

/-- f_n(x) of a chord kind (R241): the exponent unit under RNE and the whole expression rounded once; none if not finite. The unit's operand
B × x is formed by rounding the exact product into FP32 under RNE (DESIGN CHOICE, log 48: R241 does not say how it is formed). -/
def Seg.fn (g : Seg) (x : Nat) : Option Int :=
  let a := (f32v g.p0).int
  let e := if g.kind = 5 then (exp2Lane .f32 .rne false (mul32 .rne g.p1 x)).bits else (log2Lane .f32 .rne false x).bits
  let v := if f32fin e then rndInt .rne (rmul a (f32v e).int + (if g.kind = 5 then 0 else (f32v g.p1).int)) else e
  if f32fin v then some (f32v v).int else none

/-- The quotient of two reals rounded once under RNE. -/
def quot32 (x y : Int) : Nat := rnd32 .rne (Fv.div (Fv.ofInt x false) (Fv.ofInt y false)).1

/-- λ, Lo and Hi of one segment (R241). -/
def kindRule (g : Seg) (l u : Nat) : Nat × Nat × Nat :=
  let one := 0x3F800000
  let li := (f32v l).int
  let ui := (f32v u).int
  let nan := Fmt.f32.qnan
  if g.kind = 1 then (0, 0, 0)
  else if g.kind = 2 then (one, 0, 0)
  else if g.kind = 3 then (g.p0, g.p1, g.p1)
  else if g.kind = 7 then (0, g.p0, g.p1)
  else if g.kind = 4 then
    let al := (f32v g.p0).int
    if 0 ≤ li then (one, 0, 0)
    else if ui ≤ 0 then (g.p0, 0, 0)
    else
      let lam := quot32 (ui - rmul al li) (ui - li)
      let lv := (f32v lam).int
      (lam, 0, rndInt .rup (max (rmul (lv - al) (-li)) (rmul ((oneU : Int) - lv) ui)))
  else
    let lam := if li < ui then (match g.fn u, g.fn l with | some x, some y => quot32 (x - y) (ui - li) | _, _ => nan) else 0
    let gl := (g.enc l).sub ((Ival.at lam).mul (Ival.at l))
    let gu := (g.enc u).sub ((Ival.at lam).mul (Ival.at u))
    if g.kind = 5 then
      let f' := (((Ival.at g.p0).mul (Ival.at g.p1)).mul ivalLn2).mul ((Ival.at g.p1).mul (Ival.at l)).exp2
      let d := (f'.sub (Ival.at lam)).1
      let lo := if f32fin gl.1 && f32fin d then rndInt .rdn ((f32v gl.1).int + rmul (min 0 (f32v d).int) (ui - li)) else nan
      (lam, lo, max32 gl.2 gu.2)
    else
      let f' := (Ival.at g.p0).div ((Ival.at l).mul ivalLn2)
      let d := (f'.sub (Ival.at lam)).2
      let hi := if f32fin gl.2 && f32fin d then rndInt .rup ((f32v gl.2).int + rmul (max 0 (f32v d).int) (ui - li)) else nan
      (lam, min32 gl.1 gu.1, hi)

/-- The last segment whose LO does not exceed x. -/
def segIndex (segs : List Seg) (x : Nat) : Nat := (segs.takeWhile fun g => f32le g.lo x).length - 1

/-- One lane of `vrelax` (R240): slope, intercept, error. -/
def relaxLane (a ebv : Nat) (segs : List Seg) : Nat × Nat × Nat :=
  let bad := (0, 0, inf32)
  let l := add32 .rdn a (neg32 ebv)
  let u := add32 .rup a ebv
  if !(f32fin a && f32fin l && f32fin u) then bad
  else
    let sa := segIndex segs l
    let sb := segIndex segs u
    let r :=
      if sa ≠ sb then
        let rs := (List.range (sb + 1 - sa)).map fun i =>
          let k := sa + i
          match segs[k]? with
          | some g =>
            let next := match segs[k + 1]? with | some h => h.lo | none => inf32
            g.range (max32 l g.lo) (min32 u next)
          | none => (Fmt.f32.qnan, Fmt.f32.qnan)
        let x := rs.headD (Fmt.f32.qnan, Fmt.f32.qnan)
        (0, (rs.map (·.1)).foldl min32 x.1, (rs.map (·.2)).foldl max32 x.2)
      else match segs[sa]? with
        | some g => kindRule g l u
        | none => bad
    if !(f32fin r.1 && f32fin r.2.1 && f32fin r.2.2) then bad
    else
      let sum := (f32v r.2.1).int + (f32v r.2.2).int
      let mu := rndInt .rne (sum / 2)
      let mv := (f32v mu).int
      (r.1, mu, rndInt .rup (max ((f32v r.2.2).int - mv) (mv - (f32v r.2.1).int)))

/-- `vrelax` (R166, R240): slope to vd, intercept to v(vd + 1), error to v(vd + 2). -/
def execVrelax (d a b : BitVec 7) (w p : BitVec 1) (_x : BitVec 2) (s : State) : Out :=
  let u := s.here.vec
  let x := s.vOperand a.toNat
  let y := s.vOperand b.toNat
  let slot := fun (i : Nat) => Tab.get 0 u.rule (laneAt 32 y i % 16)
  let idle := (List.range 64).any fun i => u.active i && (usedSegs (slot i)).isEmpty
  let outs := (List.range 64).map fun i =>
    if u.active i then some (relaxLane (laneAt 32 x i) (Tab.get 0 u.eb i).toNat (usedSegs (slot i))) else none
  let part := fun (g : Nat × Nat × Nat → Nat) => (lanesRes 32 false (outs.map fun o => o.map fun t => .plain (g t))).out.getD (0, 0)
  vWord s w p { VForm.lanes u [a.toNat, b.toNat] d.toNat (decide (u.ty = 1)) 8 with dec := decide (d.toNat < 30), eb := true, ruleTab := true }
    (if idle then none else some { VRes.none with
      out := some (part (·.1))
      dst := [(.vreg (d.toNat + 1), (part (·.2.1)).1, (part (·.2.1)).2), (.vreg (d.toNat + 2), (part (·.2.2)).1, (part (·.2.2)).2)] })

/-- `vrule` (R167, R238): vd receives the slot's previous image; with RO 0 the image in va replaces it at retirement. With RO 1 an operand
queue that va names is waited for and popped all the same (DESIGN CHOICE, log 47: va is ignored, and the manual does not say whether the
queue is). -/
def execVrule (d a b : BitVec 7) (w p : BitVec 1) (_x : BitVec 2) (s : State) : Out :=
  let u := s.here.vec
  let sel := laneAt 32 (s.vOperand b.toNat) 0
  let img := s.vOperand a.toNat
  let ro := sel.testBit 31
  vWord s w p { VForm.bare true 2 [] with srcs := [a.toNat, b.toNat], dst := some d.toNat, ruleTab := true }
    (if !ro && !imageOk img then none else some { VRes.none with
      out := some (Tab.get 0 u.rule (sel % 16), allBits)
      dst := if ro then [] else [(.rule (sel % 16), img, allBits)], isRule := true })

end Sys2Proof.Machine
end

