-- ==== Sys2Proof/Machine/Groups.lean ====
section
/-! DEFINITION. Commit groups (R264 to R270), the memory view of K's stream and group words, and KV headers and pools (R345, R346). -/
namespace Sys2Proof.Machine

/-! ## K's view and K's writes (R264, R355) -/

/-- K's read through its forwarding table and group buffer, piece by piece (R358). -/
def kView (n : CoreId) (va len : Nat) : Act (List Byte) :=
  (pieces va len (len / 64 + 2)).foldlM (init := []) fun acc p => do
    let t ← resolve n .k p.1 .read
    let b ← kRead n t p.1 p.2
    pure (acc ++ b)

/-- K's read of a doubleword. -/
def kViewW (n : CoreId) (va : Nat) : Act Nat := do pure (ofBytes (← kView n va 8))

/-- K as a writer (R390). -/
def kWriter (n : CoreId) : Writer := { core := n, agent := 0, rank := 3 }

/-- K's own reads see bytes that a K-word has presented to a slice in this cycle before they read there (R176). -/
def State.kForward (s : State) (n m : CoreId) (off va : Nat) (bytes : List Byte) : State :=
  s.modCore n fun c => { c with storeSeq := c.storeSeq + 1, fwd := c.liveFwd s.ccount ++ [
    { seq := c.storeSeq + 1, va := va, tgt := .slice m off, bytes := bytes, cover := Cover.none, doneAt := some (s.ccount + 6), src := (c.k.off, c.k.mpos), sent := false }] }

/-- A write of a K-word performed at once, not captured (R359). -/
def kPut (n : CoreId) (va : Nat) (bytes : List Byte) : Act Unit := do
  writeVirt n .k (kWriter n) va bytes
  match ← resolve n .k va .write with
  | .slice m off => modify fun s => s.kForward n m off va bytes
  | _ => pure ()

/-- A doubleword written at once. -/
def kPutW (n : CoreId) (va v : Nat) : Act Unit := kPut n va (toBytes 8 v)

/-- A captured write of a K-word that names a group (R264 to R266). -/
def kCapture (n : CoreId) (va : Nat) (bytes : List Byte) : Act Unit := do
  match ← resolve n .k va .write with
  | .remote _ _ => Act.fault 0x06 (w64 va)
  | _ => pure ()
  let c := (← get).core n
  match captureAll c.storeSeq c.group.lines va bytes with
  | none => Act.fault 0x0A (w64 va)
  | some l => modify fun s => s.modCore n fun c => { c with group := { c.group with lines := l } }

/-- An action on what stands at the homes: K's captured writes are no part of it (R264). -/
def atHome {α : Type} (n : CoreId) (m : Act α) : Act α := fun s =>
  let g := (s.core n).group.lines
  let back := fun (t : State) => t.modCore n fun c => { c with group := { c.group with lines := g } }
  let r := m (s.modCore n fun c => { c with group := { c.group with lines := [] } })
  (r.1, back r.2)

/-- Memory faults of a word that has changed something stand with its changes (R355); the others are precise. -/
def lateMem {α : Type} (m : Act α) : Act α := fun s =>
  match m s with
  | (.error (.fault c v), s') => if c = 5 ∨ c = 6 ∨ c = 0xF ∨ c = 0x10 then (.error (.late c v), s') else (.error (.fault c v), s')
  | r => r

/-! ## KV headers and pools (R345, R346) -/

/-- A KV block header in its place (R345): its doublewords H0 to H3. -/
structure KvHdr where
  va : Nat
  h0 : Nat
  h1 : Nat
  h2 : Nat
  h3 : Nat
  deriving DecidableEq, Repr

/-- SURV. -/
def KvHdr.surv (h : KvHdr) : Nat := h.h0
/-- REF. -/
def KvHdr.ref (h : KvHdr) : Nat := h.h1 / 2 ^ 32
/-- OWNER. -/
def KvHdr.owner (h : KvHdr) : Nat := h.h1 / 2 ^ 20 % 4096
/-- LAYER. -/
def KvHdr.layer (h : KvHdr) : Nat := h.h1 / 2 ^ 8 % 4096
/-- TIER. -/
def KvHdr.tier (h : KvHdr) : Nat := h.h1 / 2 ^ 6 % 4
/-- LSLOT. -/
def KvHdr.lslot (h : KvHdr) : Nat := h.h1 % 16
/-- DATA. -/
def KvHdr.data (h : KvHdr) : Nat := h.h2
/-- NPOS. -/
def KvHdr.npos (h : KvHdr) : Nat := h.h3 % 128
/-- The bytes of a slot. -/
def KvHdr.slot (h : KvHdr) : Nat := 2 ^ (h.lslot + 6)

/-- Whether a header image is well formed (R345). -/
def kvHdrOk (ws : List Nat) : Bool :=
  let h := fun i => (ws[i]?).getD 0
  decide (h 1 / 64 % 4 < 2) && decide (h 1 / 16 % 4 < 3) && decide (h 1 % 16 < 9) &&
  decide (h 2 < 2 ^ 57) && decide (h 2 % 64 = 0) && decide (0x10000 ≤ h 2) &&
  decide (h 3 / 2 ^ 56 = 0) && decide (h 3 / 128 % 2 ^ 33 = 0) && decide (h 3 % 128 ≤ 64) && (ws.drop 4).all (· == 0) &&
  decide (h 0 < 2 ^ (h 3 % 128))

/-- The doublewords of a list of bytes. -/
def dwords (b : List Byte) : List Nat := (List.range (b.length / 8)).map fun i => ofBytes ((b.drop (8 * i)).take 8)

/-- A header from its bytes; a malformed one raises ILLEGAL_OPERAND with its address (R345). -/
def kvHdrOf (va : Nat) (b : List Byte) : Act KvHdr := do
  let ws := dwords b
  Act.check (kvHdrOk ws) 0x02 (w64 va)
  let h := fun i => (ws[i]?).getD 0
  pure { va := va, h0 := h 0, h1 := h 1, h2 := h 2, h3 := h 3 }

/-- K reads a header. -/
def kvHdr (n : CoreId) (va : Nat) : Act KvHdr := do kvHdrOf va (← kView n va 64)

/-- The address of packed slot `k` (R347). -/
def KvHdr.slotAt (h : KvHdr) (k : Nat) : Nat := h.data + k * h.slot

/-- A KV pool record read: its address, CAP, TOP, stack, TIER, LSLOT (R346). -/
structure Pool where
  va : Nat
  cap : Nat
  top : Nat
  stack : Nat
  tier : Nat
  lslot : Nat
  deriving DecidableEq, Repr

/-- K reads a pool record; a malformed one raises ILLEGAL_OPERAND with its address (R346). -/
def kvPool (n : CoreId) (va : Nat) : Act Pool := do
  let ws := dwords (← kView n va 64)
  let p := fun i => (ws[i]?).getD 0
  Act.check (decide (p 1 < 2 ^ 57) && decide (p 1 % 8 = 0) && decide (p 2 < 64) && decide (p 2 / 16 < 2) && decide (p 2 % 16 < 9) && (ws.drop 3).all (· == 0)) 0x02 (w64 va)
  pure { va := va, cap := p 0 / 2 ^ 32, top := p 0 % 2 ^ 32, stack := p 1, tier := p 2 / 16 % 4, lslot := p 2 % 16 }

/-- Writes CAP and TOP of a pool. -/
def poolTop (n : CoreId) (p : Pool) (top : Nat) : Act Unit := kPutW n p.va (p.cap * 2 ^ 32 + top)

/-- A take (R346): the block's header, initialised; none where the pool is empty. With `rec` K's group records the block (R359). -/
def kvTake (n : CoreId) (rec : Bool) (pool stream layer : Nat) : Act (Option Nat) := do
  let p ← kvPool n pool
  if p.top = 0 then pure none
  else
    let e ← kViewW n (p.stack + 8 * (p.top - 1))
    let h3 ← kViewW n (e + 24)
    poolTop n p (p.top - 1)
    if rec then modify fun s => s.modCore n fun c => { c with group := { c.group with takenBlks := c.group.takenBlks ++ [e] } }
    kPut n e (toBytes 8 0 ++ toBytes 8 (2 ^ 32 + stream * 2 ^ 20 + layer * 2 ^ 8 + p.tier * 64 + p.lslot))
    kPutW n (e + 24) (h3 / 128 * 128)
    pure (some e)

/-- The doubleword of a stream descriptor (R351). -/
def State.sd (s : State) (t i : Nat) : Word := Tab.get 0 (Tab.get [] s.streams t) i
/-- A doubleword of a stream descriptor written. -/
def State.setSd (s : State) (t i : Nat) (v : Word) : State := { s with streams := Tab.put s.streams t (Tab.set 0 (Tab.get [] s.streams t) i v) }
/-- A 32-bit field at a bit position of a descriptor doubleword increased by one, modulo 2^32 (R351). -/
def State.bumpSd (s : State) (t i lo : Nat) : State :=
  let v := s.sd t i
  s.setSd t i (putBits v lo 32 (bitsOf v lo 32 + 1))

/-- Pushes a block on its stream's pool; a full stack discards it and counts it in POOLX (R346, R351). -/
def poolPush (n : CoreId) (stream e : Nat) : Act Unit := do
  let p ← kvPool n ((← get).sd stream 4).toNat
  if p.cap ≤ p.top then modify fun s => s.bumpSd stream 18 0
  else
    kPutW n (p.stack + 8 * p.top) e
    poolTop n p (p.top + 1)

/-- The staged copies of blocks whose headers change no longer stand for them: KVG reads such a block where it lies (R373, R374). -/
def State.unland (s : State) (hs : Nat → Bool) : State := { s with landed := s.landed.filter fun x => !hs x.2.2.2 }

/-- A release (R346). -/
def kvRelease (n : CoreId) (stream e : Nat) : Act Unit := do
  let h ← kvHdr n e
  kPutW n (e + 8) ((h.ref - 1) * 2 ^ 32 + h.h1 % 2 ^ 32)
  if h.ref ≤ 1 then poolPush n stream e

/-! ## The end of a group (R267, R268, R359) -/

/-- The group of a core closed: its lines freed. -/
def Core.endGroup (c : Core) : Core := { c with group := Group.reset }

/-- The runs of valid bytes of a line: address and bytes. -/
def lineRuns (l : Line) : List (Nat × List Byte) :=
  (List.range 64).foldr (fun i acc =>
    if l.mask.getLsbD i then
      let b : Byte := BitVec.ofNat 8 (bitsOf l.data (8 * i) 8)
      match acc with
      | (a, bs) :: rest => if a = l.blk + i + 1 then (l.blk + i, b :: bs) :: rest else (l.blk + i, [b]) :: acc
      | [] => [(l.blk + i, [b])]
    else acc) []

/-- One line performed at its home (R267, R268), in a slice with its pending bits and exposed latency (R174, R177). A partial write to a
poisoned block of device memory is discarded with a DROPPED entry (R340). -/
def performLine (n : CoreId) (l : Line) : Act Unit := do
  let t ← resolve n .k l.blk .write
  let s ← get
  Act.need (!s.locked t 64 && s.linked t)
  match t with
  | .dev pa =>
    Act.need (!s.siteHeld pa 64)
    if l.mask = BitVec.allOnes 64 then set (s.writeBlock pa (toBytes 64 l.data.toNat)).1
    else
      let r := s.eccBlock (pa / 64)
      if r.2 = 0 ∨ r.2 = 1 then set ((lineRuns l).foldl (fun s x => s.setDev (pa + (x.1 - l.blk)) x.2) { r.1 with latent := Tab.set 0 r.1.latent (pa / 64) 0 })
      else set (r.1.faultAddr 3 (pa / 64 * 64))
  | .slice m off => set ((lineRuns l).foldl (fun (s : State) x =>
      let o := off + (x.1 - l.blk)
      (s.writeSlice (kWriter n) m o x.2).kForward n m o x.1 x.2) s)
  | t => set ((lineRuns l).foldl (fun (s : State) x =>
      let o := x.1 - l.blk
      (s.writeTarget (kWriter n) (match t with | .host pa => .host (pa + o) | .remote d pa => .remote d (pa + o) | y => y) x.1 x.2).1) s)

/-- Whether a line lies in a slice of the job of its core. -/
def State.lineInSlice (s : State) (n : CoreId) (l : Line) : Bool := match s.targetOf n .k l.blk .write with | .ok (.slice _ _) => true | _ => false

/-- The blocks outside slices that a group has written stay out of reach until its slice lines read too, so that no observer meets a part of
it (R267): blocks of device memory by their number, and for a line in host memory one that is none, for which the host's reads of slices wait
(log 46). -/
def State.sealLines (s : State) (n : CoreId) (ls : List Line) : State :=
  if ls.any (s.lineInSlice n) then
    { s with sealed := s.sealed ++ ls.filterMap fun l => match s.targetOf n .k l.blk .write with
      | .ok (.dev pa) => some (pa / 64, s.ccount + 6)
      | .ok (.host _) => some (2 ^ 48, s.ccount + 6)
      | _ => none }
  else s

/-- The commit of K's group (R267, R268): everything that precedes it is performed first, then all its lines in one step, the commit point.
A block in a frozen slice is QUIRE_PEER_FAULT and nothing is committed. Each block is translated again, and a fault of that is raised precisely
(DESIGN CHOICE, log 46: the manual does not say what a mapping changed since the capture does). At the commit point `at_` acts, and
deferred releases follow the captured writes (R359, R365). -/
def commitGroup (n : CoreId) (at_ : State → State) : Act Nat := do
  let s ← get
  let c := s.core n
  Act.need (s.storesDone n && s.covered c.k.cover)
  for l in c.group.lines do
    match ← resolve n .k l.blk .write with
    | .slice m _ => Act.check (!((← get).core m).frozen) 0x0E (w64 l.blk)
    | _ => pure ()
  for l in c.group.lines do performLine n l
  modify fun s => at_ ((s.unland fun h => c.group.lines.any fun l => l.blk == h).modCore n Core.endGroup)
  match c.group.bound with
  | some t => for e in c.group.deferred do kvRelease n t.toNat e
  | none => pure ()
  modify fun s => s.sealLines n c.group.lines
  pure c.group.lines.length

/-- The abort of K's group (R268, R359): every line is discarded, and every taken block returns to its pool. -/
def abortGroup (n : CoreId) : Act Nat := do
  let g := ((← get).core n).group
  modify fun s => s.modCore n Core.endGroup
  match g.bound with
  | some t => for e in g.takenBlks do poolPush n t.toNat e
  | none => pure ()
  pure (if g.isOpen then g.lines.length else 0)

/-- A group word: K only (R265), ending in the next word. -/
def groupWord (s : State) (bad : Bool) (body : Act State) : Out :=
  if !s.canIssue then stall s
  else if s.isF || bad then .next s.illegal
  else runWord s body

/-- `grp.open` (R268): groups do not nest. -/
def execGrpOpen (s : State) : Out :=
  groupWord s s.here.group.isOpen (do
    modify fun s => s.modHere fun c => { c with group := { Group.reset with isOpen := true } }
    pure (← get).advance)

/-- `grp.commit` (R267, R268): ILLEGAL_INSTR with no group or a bound one (R365); K goes on once every group write is performed. -/
def execGrpCommit (d : BitVec 5) (s : State) : Out :=
  groupWord s (!s.here.group.isOpen || s.here.group.bound.isSome) (do
    let k ← commitGroup s.cur.1 id
    pure (((← get).finish d (w64 k) 1).blockTill (s.ccount + 6)))

/-- `grp.abort` (R268): no fault with no group open. -/
def execGrpAbort (d : BitVec 5) (s : State) : Out :=
  groupWord s false (do
    let k ← lateMem (abortGroup s.cur.1)
    pure ((← get).finish d (w64 k) 1))

/-- `grp.stat` (R269). -/
def execGrpStat (d : BitVec 5) (s : State) : Out :=
  groupWord s false (do pure ((← get).finish d (w64 s.here.group.stat) 1))

end Sys2Proof.Machine
end

