-- ==== Sys2Proof/Machine/Streams.lean ====
section
/-! DEFINITION. KV words and duplex streams (R347 to R368). Each word holds its stream's lock by being one step (R348, R355). -/
namespace Sys2Proof.Machine

/-! ## Descriptors (R351) -/

/-- NLAYER of a stream. -/
def State.nlayer (s : State) (t : Nat) : Nat := bitsOf (s.sd t 0) 36 12
/-- MAXB of a stream. -/
def State.maxb (s : State) (t : Nat) : Nat := bitsOf (s.sd t 0) 16 12
/-- The generation cursor G. -/
def State.curG (s : State) (t : Nat) : Nat := bitsOf (s.sd t 1) 32 32
/-- The playback cursor P. -/
def State.curP (s : State) (t : Nat) : Nat := bitsOf (s.sd t 1) 0 32
/-- TSEQ. -/
def State.tseq (s : State) (t : Nat) : Nat := bitsOf (s.sd t 9) 0 32
/-- The cursors written. -/
def State.setCur (s : State) (t g p : Nat) : State := s.setSd t 1 (w64 (g % 2 ^ 32 * 2 ^ 32 + p % 2 ^ 32))
/-- P moved, with PSTAMP (R353). -/
def State.setP (s : State) (t p : Nat) : State := (s.setCur t (s.curG t) p).setSd t 2 (w64 s.ccount)
/-- The address of a block-table entry (R347). -/
def State.tableAt (s : State) (t l b : Nat) : Nat := (s.sd t 3).toNat + 8 * (l * s.maxb t + b)
/-- CKPOS of a checkpoint slot (R351). -/
def State.ckpos (s : State) (t k : Nat) : Nat := bitsOf (s.sd t (24 + k / 2)) (32 * (k % 2)) 32

/-- A stream operand (R355): its number, or ILLEGAL_OPERAND or PROTECTION with the word. -/
def streamOf (s : State) (v : Word) : Act Nat := do
  let t := v.toNat
  Act.check (decide (t < 4096)) 0x02 s.wordVal
  Act.check ((s.sd t 0).getLsbD 63 && decide (bitsOf (s.sd t 0) 48 8 = (s.jobOf s.cur.1).toNat)) 0x06 s.wordVal
  pure t

/-- A KV address word (R347): layer and position. -/
def kvAddr (s : State) (t : Nat) (v : Word) : Act (Nat × Nat) := do
  Act.check (decide (v.toNat < 2 ^ 44) && decide (bitsOf v 32 12 < s.nlayer t)) 0x02 s.wordVal
  pure (bitsOf v 32 12, bitsOf v 0 32)

/-- Whether K's group is open and bound to a stream. -/
def Core.boundTo (c : Core) (t : Nat) : Bool := c.group.isOpen && (match c.group.bound with | some x => x.toNat == t | none => false)

/-- A stream word (R355): K only, after K's earlier accesses; `body` gets the stream of s[rs1] and gives the value for rd. -/
def streamWord (s : State) (d : BitVec 5) (srcs : List (BitVec 5)) (a : BitVec 5) (bad : Bool) (body : State → Nat → Act (Option Word)) : Out :=
  if !s.canIssue then stall s
  else if s.isF then .next s.illegal
  else if bad then .next s.badOperand
  else if s.readyFor (a :: srcs) && s.covered s.seq.cover && s.storesDone s.cur.1 && s.here.amos.isEmpty then
    runWord s (lateMem do
      let t ← streamOf s (s.reg a)
      let v ← body s t
      let u ← get
      pure ((match v with | some x => u.finish d x 1 | none => u.advance).acquire { stores := [], till := u.slicesTill }))
  else stall s

/-! ## Copy, eviction, truncation (R349, R350) -/

/-- Copies a shared block for a stream and a limit (R350): the new header, or none where the pool is empty; with `rec` K's group records
the take. A block whose LSLOT differs from the pool's raises ILLEGAL_OPERAND. The table entry and the release of the old block are the caller's. -/
def kvCopy (s : State) (rec : Bool) (t layer b limit : Nat) (h : KvHdr) : Act (Option KvHdr) := do
  let n := s.cur.1
  let pool := (s.sd t 4).toNat
  let p ← kvPool n pool
  Act.check (p.lslot == h.lslot) 0x02 s.wordVal
  match ← kvTake n rec pool t layer with
  | none => pure none
  | some e =>
    let keep := limit - 64 * b
    let surv := if keep < 64 then h.surv % 2 ^ keep else h.surv
    let fresh ← kvHdr n e
    for k in List.range (popcount 64 surv) do
      let bytes ← kView n (h.slotAt k) h.slot
      kPut n (fresh.data + k * h.slot) bytes
    let npos := Nat.min h.npos keep
    kPutW n e surv
    kPutW n (e + 24) (fresh.h3 / 128 * 128 + npos)
    pure (some { fresh with h0 := surv, h3 := fresh.h3 / 128 * 128 + npos })

/-- The packed indexes of a bitmap's survivors, ascending, with their positions. -/
def packed (surv : Nat) : List Nat := (List.range 64).filter surv.testBit

/-- Moves survivors down to their new packed indexes in ascending order (R349). -/
def kvCompact (n : CoreId) (h : KvHdr) (new : Nat) : Act Unit := do
  for p in packed new do
    let i := popcount 64 (h.surv % 2 ^ p)
    let j := popcount 64 (new % 2 ^ p)
    if i ≠ j then
      let b ← kView n (h.slotAt i) h.slot
      kPut n (h.slotAt j) b

/-- The blocks of a truncation to q (R361): layer, block, table-entry address and header address of each non-zero entry. -/
def truncBlocks (s : State) (t q : Nat) : Act (List (Nat × Nat × Nat × Nat)) := do
  let mb := s.maxb t
  let cells := (List.range (s.nlayer t)).flatMap fun l => (List.range (mb - q / 64)).map fun i => (l, q / 64 + i)
  cells.foldlM (init := []) fun acc x => do
    let at_ := s.tableAt t x.1 x.2
    let e ← kViewW s.cur.1 at_
    pure (if e = 0 then acc else acc ++ [(x.1, x.2, at_, e)])

/-- The truncation of a stream to q (R361): false where the pool lacks blocks, with nothing changed. -/
def kvTruncate (s : State) (t q : Nat) : Act Bool := atHome s.cur.1 do
  let n := s.cur.1
  let cells ← truncBlocks s t q
  let heads ← cells.foldlM (init := []) fun acc x => do
    let h ← kvHdr n x.2.2.2
    pure (acc ++ [(x, h)])
  let p ← kvPool n (s.sd t 4).toNat
  let need := (heads.filter fun x => decide (64 * x.1.2.1 < q) && decide (1 < x.2.ref)).length
  if p.top < need then pure false
  else
    for x in heads do
      let (l, b, at_, e) := x.1
      if q ≤ 64 * b then
        kvRelease n t e
        kPutW n at_ 0
      else
        let keep := q % 64
        let h ← if 1 < x.2.ref then do
            match ← kvCopy s false t l b q x.2 with
            | some g =>
              kPutW n at_ g.va
              kvRelease n t e
              pure g
            | none => pure x.2
          else pure x.2
        kPutW n h.va (h.surv % 2 ^ keep)
        modify fun s => s.unland (· == h.va)
        kPutW n (h.va + 24) (h.h3 / 128 * 128 + keep)
    modify fun s =>
      let p := s.curP t
      let s := s.setCur t q p
      let s := if q < p then s.setP t q else s
      s.bumpSd t 9 0
    pure true

/-! ## KV words (R358 to R362) -/

/-- The address of a position's slot (R347), 0 for none. -/
def slotAddr (s : State) (t l p : Nat) : Act Nat := do
  let b := p / 64
  if s.curG t ≤ p ∨ s.maxb t ≤ b then pure 0
  else
    let e ← kViewW s.cur.1 (s.tableAt t l b)
    if e = 0 then pure 0
    else
      let h ← kvHdr s.cur.1 e
      pure (if h.surv.testBit (p % 64) then h.slotAt (popcount 64 (h.surv % 2 ^ (p % 64))) else 0)

/-- `kv.slot` (R358). -/
def execKvSlot (d a b : BitVec 5) (s : State) : Out :=
  streamWord s d [b] a false fun s t => do
    let x ← kvAddr s t (s.reg b)
    pure (some (w64 (← slotAddr s t x.1 x.2)))

/-- `kv.append` (R359). -/
def execKvAppend (d a b : BitVec 5) (s : State) : Out :=
  streamWord s d [b] a false fun s t => do
    let n := s.cur.1
    let g := s.here.group
    let l := (s.reg b).toNat
    Act.check s.here.capturing 0x01 s.wordVal
    Act.check (decide (l < 4096) && decide (l < s.nlayer t)) 0x02 s.wordVal
    Act.check (match g.bound with | some x => decide (x.toNat = t) && !g.layers.contains l | none => true) 0x02 s.wordVal
    if g.bound.isNone then
      modify fun s => s.modCore n fun c => { c with group := { c.group with bound := some (BitVec.ofNat 12 t), tseq := w64 (s.tseq t), layers := [], takenBlks := [], deferred := [] } }
    let p := s.curG t
    let bi := p / 64
    let j := p % 64
    if s.maxb t ≤ bi then pure (some 3)
    else
      let at_ := s.tableAt t l bi
      let e ← atHome n (kViewW n at_)
      let got : Option (KvHdr × Bool) ← atHome n do
        if e = 0 then do
          match ← kvTake n true (s.sd t 4).toNat t l with
          | none => pure none
          | some x => pure (some (← kvHdr n x, true))
        else do
          let h ← kvHdr n e
          if 1 < h.ref then do
            match ← kvCopy s true t l bi p h with
            | none => pure none
            | some x => pure (some (x, true))
          else pure (some (h, false))
      match got with
      | none => pure (some 2)
      | some (h, fresh) =>
        kCapture n h.va (toBytes 8 (h.surv ||| 2 ^ j))
        kCapture n (h.va + 24) [BitVec.ofNat 8 (j + 1)]
        if fresh then kCapture n at_ (toBytes 8 h.va)
        modify fun s => s.modCore n fun c =>
          { c with group := { c.group with
              layers := c.group.layers ++ [l]
              deferred := if fresh && decide (e ≠ 0) then c.group.deferred ++ [e] else c.group.deferred } }
        pure (some (w64 (h.slotAt (popcount 64 (h.surv % 2 ^ j)))))

/-- `kv.evict` (R349, R360). -/
def execKvEvict (d a b : BitVec 5) (s : State) : Out :=
  streamWord s d [b, d] a false fun s t => do
    let n := s.cur.1
    Act.check (!s.here.boundTo t) 0x01 s.wordVal
    let x ← kvAddr s t (s.reg b)
    Act.check (decide (x.2 % 64 = 0)) 0x02 s.wordVal
    let bi := x.2 / 64
    atHome n do
    let e ← if s.maxb t ≤ bi then pure 0 else kViewW n (s.tableAt t x.1 bi)
    if e = 0 then pure (some 0)
    else
      let h ← kvHdr n e
      let gone := (s.reg d).toNat % 2 ^ h.npos &&& h.surv
      if gone = 0 then pure (some (w64 (popcount 64 h.surv)))
      else
        let got : Option KvHdr ← if 1 < h.ref then do
            match ← kvCopy s false t x.1 bi (s.curG t) h with
            | some g =>
              kPutW n (s.tableAt t x.1 bi) g.va
              kvRelease n t e
              pure (some g)
            | none => pure none
          else pure (some h)
        match got with
        | none => pure (some 2)
        | some h =>
          let new := h.surv &&& (2 ^ 64 - 1 - gone)
          kvCompact n h new
          kPutW n h.va new
          modify fun s => s.unland (· == h.va)
          if s.curG t / 64 = bi then modify fun s => s.bumpSd t 9 0
          pure (some (w64 (popcount 64 new)))

/-- `kv.trunc` (R361). -/
def execKvTrunc (d a b : BitVec 5) (s : State) : Out :=
  streamWord s d [b] a false fun s t => do
    let q := (s.reg b).toNat
    Act.check (decide (q ≤ s.curG t)) 0x02 s.wordVal
    pure (some (if ← kvTruncate s t q then 0 else 2))

/-- Every table entry of a stream is 0, else ILLEGAL_OPERAND (R362). -/
def shareEmpty (s : State) (t : Nat) : Act Unit := do
  for l in List.range (s.nlayer t) do
    for i in List.range (s.maxb t) do
      let e ← kViewW s.cur.1 (s.tableAt t l i)
      Act.check (e == 0) 0x02 s.wordVal

/-- The blocks of the positions below q of one stream entered in another, each with one more reference (R362). -/
def shareBlocks (s : State) (t src q : Nat) : Act Unit := do
  let n := s.cur.1
  for l in List.range (s.nlayer t) do
    for i in List.range ((q + 63) / 64) do
      let e ← kViewW n (s.tableAt src l i)
      kPutW n (s.tableAt t l i) e
      if e ≠ 0 then
        let h ← kvHdr n e
        kPutW n (e + 8) ((h.ref + 1) % 2 ^ 32 * 2 ^ 32 + h.h1 % 2 ^ 32)

/-- `kv.share` (R362). -/
def execKvShare (d a b : BitVec 5) (s : State) : Out :=
  streamWord s d [b, d] a false fun s t => do
    let src ← streamOf s (s.reg b)
    let q := (s.reg d).toNat
    Act.check (decide (s.curG t = 0) && decide (s.nlayer t = s.nlayer src) && decide (s.sd t 4 = s.sd src 4) && decide (q ≤ s.curG src)) 0x02 s.wordVal
    atHome s.cur.1 do
      shareEmpty s t
      shareBlocks s t src q
    modify fun s => (s.setCur t q 0).setP t q
    pure (some 0)

/-! ## Frames (R352, R364) -/

/-- The address of frame `f` (R352). -/
def State.frameAt (s : State) (t f : Nat) : Nat :=
  (s.sd t 5).toNat + f % 2 ^ bitsOf (s.sd t 0) 32 4 * 2 ^ (bitsOf (s.sd t 0) 28 4 + 6)

/-- Registration (R352) with a reader of 16 bytes, at most `fuel` frames; a fault of the reader ends it at that entry. -/
def registerFrames (t : Nat) (rd : Nat → Act (List Byte)) : Nat → Act Unit
  | 0 => pure ()
  | fuel + 1 => do
    let s ← get
    let tail := bitsOf (s.sd t 7) 32 32
    let head := bitsOf (s.sd t 7) 0 32
    if (tail + 2 ^ 32 - head) % 2 ^ 32 < 2 ^ bitsOf (s.sd t 0) 32 4 then
      let ws := dwords (← rd (s.frameAt t tail))
      let f0 := (ws[0]?).getD 0
      let stamp := (ws[1]?).getD 0
      if f0 / 2 ^ 32 = tail then
        modify fun s =>
          let d9 := s.sd t 9
          let s := if f0.testBit 31 && (!d9.getLsbD 63 || decide (stamp < (s.sd t 8).toNat)) then (s.setSd t 8 (w64 stamp)).setSd t 9 (d9 ||| w64 (2 ^ 63)) else s
          s.bumpSd t 7 32
        registerFrames t rd fuel

/-- Registration as K's words run it. -/
def kRegister (s : State) (t : Nat) : Act Unit := registerFrames t (fun a => kView s.cur.1 a 16) 4097

/-- `dx.cur` (R363). -/
def execDxCur (d a b : BitVec 5) (sel : BitVec 2) (s : State) : Out :=
  streamWord s d (if sel = 2 then [b] else []) a (sel == 3) fun s t => do
    if sel = 0 then pure (some (w64 (s.curG t)))
    else if sel = 1 then pure (some (w64 (s.curP t)))
    else
      let p := bitsOf (s.reg b) 0 32
      Act.check (decide (s.curP t ≤ p) && decide (p ≤ s.curG t)) 0x02 s.wordVal
      modify fun s => s.setP t p
      pure (some (w64 (s.curP t)))

/-- `dx.frame` (R364). -/
def execDxFrame (d a : BitVec 5) (s : State) : Out :=
  streamWord s d [] a false fun s t => do
    let n := s.cur.1
    kRegister s t
    let s ← get
    let tail := bitsOf (s.sd t 7) 32 32
    let head := bitsOf (s.sd t 7) 0 32
    if tail = head then pure (some 0)
    else
      let at_ := s.frameAt t head
      modify fun s => s.bumpSd t 7 0
      kPutW n (s.sd t 6).toNat ((head + 1) % 2 ^ 32 + 2 ^ bitsOf (s.sd t 0) 32 4)
      let stamp ← kViewW n (at_ + 8)
      if stamp < (s.sd t 2).toNat then
        modify fun s => s.bumpSd t 16 32
        if (s.sd t 0).getLsbD 62 then throw (.late 0x0C (w64 at_))
        pure (some (w64 (at_ + 1)))
      else pure (some (w64 at_))

/-- `dx.emit` (R365). -/
def execDxEmit (d a b : BitVec 5) (s : State) : Out :=
  streamWord s d [b] a false fun s t => do
    let n := s.cur.1
    let g := s.here.group
    Act.check s.here.capturing 0x01 s.wordVal
    Act.check (s.here.boundTo t && (List.range (s.nlayer t)).all fun l => g.layers.contains l) 0x02 s.wordVal
    kRegister s t
    let s1 ← get
    let d9 := s1.sd t 9
    if decide (s1.tseq t ≠ g.tseq.toNat) || (d9.getLsbD 63 && decide ((s1.sd t 8).toNat ≤ s.ccount)) then
      let _ ← abortGroup n
      modify fun s => s.bumpSd t 17 32
      pure (some 1)
    else
      kCapture n ((s1.sd t 15).toNat + 4 * s1.curG t) (toBytes 4 (bitsOf (s.reg b) 0 32))
      let _ ← commitGroup n fun s => s.setCur t (s.curG t + 1) (s.curP t)
      modify fun s => s.blockTill (s.ccount + 6)
      pure (some 0)

/-- The checkpoint a truncation to P restores (R366): the valid slot with the greatest CKPOS at most P, ties the newest. -/
def bestCk (s : State) (t : Nat) : Option Nat :=
  let v := bitsOf (s.sd t 12) 16 16
  let new := bitsOf (s.sd t 12) 36 4
  let order := (List.range 16).map fun i => (new + 16 - i) % 16
  (order.filter fun k => v.testBit k && decide (s.ckpos t k ≤ s.curP t)).foldl
    (fun (best : Option Nat) k => match best with
      | none => some k
      | some j => if s.ckpos t j < s.ckpos t k then some k else best) none

/-- Copies blocks of 64 bytes. -/
def copyBlocks (n : CoreId) (src dst k : Nat) : Act Unit := do
  for i in List.range k do
    let b ← kView n (src + 64 * i) 64
    kPut n (dst + 64 * i) b

/-- RSZ in 64-byte blocks. -/
def State.rsz (s : State) (t : Nat) : Nat := bitsOf (s.sd t 12) 40 24

/-- `dx.trunc` (R366). -/
def execDxTrunc (d a : BitVec 5) (s : State) : Out :=
  streamWord s d [] a false fun s t => do
    let n := s.cur.1
    let p := s.curP t
    match bestCk s t with
    | none => Act.fault 0x0D (w64 p)
    | some c =>
      if s.here.boundTo t then let _ ← abortGroup n
      if ← kvTruncate s t p then
        let sz := s.rsz t
        copyBlocks n ((s.sd t 11).toNat + c * sz * 64) (s.sd t 10).toNat sz
        modify fun s =>
          let d12 := s.sd t 12
          let v := (List.range 16).foldl (fun v k => if s.ckpos t k ≤ p then v else v &&& (2 ^ 16 - 1 - 2 ^ k)) (bitsOf d12 16 16)
          let s := s.setSd t 12 (putBits (putBits d12 16 16 v) 36 4 c)
          s.setSd t 9 (putBits (s.sd t 9) 63 1 0)
        pure (some 0)
      else pure (some 2)

/-- `dx.ckpt` (R367). -/
def execDxCkpt (d a : BitVec 5) (s : State) : Out :=
  streamWord s d [] a false fun s t => do
    let n := s.cur.1
    Act.check (!s.here.boundTo t) 0x01 s.wordVal
    let d12 := s.sd t 12
    let v := bitsOf d12 16 16
    let k := if v = 0 then 0 else (bitsOf d12 36 4 + 1) % 16
    let sz := s.rsz t
    copyBlocks n (s.sd t 10).toNat ((s.sd t 11).toNat + k * sz * 64) sz
    modify fun s =>
      let s := s.setSd t (24 + k / 2) (putBits (s.sd t (24 + k / 2)) (32 * (k % 2)) 32 (s.curG t))
      s.setSd t 12 (putBits (putBits d12 16 16 (v ||| 2 ^ k)) 36 4 k)
    pure (some (w64 k))

/-- `dx.stat` (R368): SEL 6 and 7 are ILLEGAL_OPERAND. -/
def execDxStat (d a : BitVec 5) (sel : BitVec 3) (s : State) : Out :=
  streamWord s d [] a (decide (6 ≤ sel.toNat)) fun s t =>
    pure (some (match sel.toNat with
      | 0 => s.sd t 1
      | 1 => w64 (bitsOf (s.sd t 16) 32 32)
      | 2 => w64 (bitsOf (s.sd t 16) 0 32)
      | 3 => w64 (bitsOf (s.sd t 17) 32 32)
      | 4 => s.sd t 7
      | _ => s.sd t 9))

end Sys2Proof.Machine
end

