-- ==== Sys2Proof/Machine/Attention.lean ====
section
/-! DEFINITION. The attention sequencer (R369 to R372) and layer-ahead staging (R373). TLD and KVG hold transfer slots and move their blocks
as transfers of L do; KVG gathers, and EXP reads its entry, at the issue (log 30). -/
namespace Sys2Proof.Machine

/-! ## Accesses for a job (R337) -/

/-- The target of an engine's access for a job, through the caches of its core; the dispatch blocks use those of die 0 (log 32). -/
def resolveJ (job : BitVec 8) (va : Nat) (acc : Access) (at_ : Nat := 256) : Act Target := resolveAt at_ job va acc

/-- A read of a job's memory by the device. -/
def readJob (job : BitVec 8) (va len : Nat) (at_ : Nat := 256) : Act (List Byte) :=
  (pieces va len (len / 64 + 2)).foldlM (init := []) fun acc p => do
    let t ← resolveJ job p.1 .read at_
    let r ← readTarget t p.2 p.1
    pure (acc ++ r.1)

/-- A write of a job's memory by the device. -/
def writeJob (job : BitVec 8) (w : Writer) (va : Nat) (bytes : List Byte) : Act Unit := do
  let _ ← (pieces va bytes.length (bytes.length / 64 + 2)).foldlM (init := bytes) fun rest p => do
    let t ← resolveJ job p.1 .write (if w.rank = 0 then 256 else w.core.toNat)
    let s ← get
    match t with
    | .dev pa => Act.need (!s.siteHeld pa p.2)
    | .slice m _ => Act.check (!(s.core m).frozen) 0x0E (w64 p.1)
    | _ => pure ()
    Act.need (!s.locked t p.2 && s.linked t)
    let r := s.writeTarget w t p.1 (rest.take p.2)
    set r.1
    Act.check (!r.2) 0x10 (w64 p.1)
    pure (rest.drop p.2)
  pure ()

/-- Doublewords of a job's memory. -/
def readJobWs (job : BitVec 8) (va k : Nat) : Act (List Word) := do pure ((dwords (← readJob job va (8 * k))).map w64)
/-- A doubleword of a job's memory written. -/
def writeJobW (job : BitVec 8) (w : Writer) (va v : Nat) : Act Unit := writeJob job w va (toBytes 8 v)

/-- A read of K (through its view) or of F (physical, R432). -/
def kfView (n : CoreId) (q : Ctx) (va len : Nat) : Act (List Byte) :=
  if q = .f then
    (pieces va len (len / 64 + 2)).foldlM (init := []) fun acc p => do
      let t ← resolve n .f p.1 .read
      let r ← readTarget t p.2 p.1
      pure (acc ++ r.1)
  else kView n va len

/-! ## The K-words (R372) -/

/-- `as.load` (R372): blocking, not ready while the sequencer is busy. -/
def execAsLoad (a b : BitVec 5) (s : State) : Out :=
  if s.readyFor [a, b] && !s.here.att.busy && s.covered s.seq.cover then
    runWord s (do
      let n := s.cur.1
      let va := s.reg a
      let v := s.reg b
      let k := bitsOf v 0 13
      let i := bitsOf v 16 12
      Act.check (decide (bitsOf v 13 3 = 0) && decide (bitsOf v 28 36 = 0) && decide (1 ≤ k) && decide (k ≤ 4096) && decide (i + k ≤ 4096)) 0x02 s.wordVal
      Act.check (decide (va.toNat % 8 = 0)) 0x04 va
      let ws := dwords (← kfView n s.cur.2 va.toNat (8 * k))
      modify fun s => s.modCore n fun c => { c with att := { c.att with store := Tab.setRange 0 c.att.store i (ws.map w64) } }
      pure (← get).advance)
  else stall s

/-- `as.go` (R369, R372): loads `ar1` to `ar15` and UPC from the start block; a release. -/
def execAsGo (a : BitVec 5) (s : State) : Out :=
  if s.readyFor [a] && !s.here.att.busy && s.covered s.seq.cover && s.mayRelease then
    runWord s (do
      let n := s.cur.1
      let va := s.reg a
      Act.check (decide (va.toNat % 64 = 0)) 0x04 va
      let ws := (dwords (← kfView n s.cur.2 va.toNat 128)).map w64
      let d0 := ws.headD 0
      Act.check (decide (d0.toNat < 4096)) 0x02 s.wordVal
      modify fun s => s.modCore n fun c =>
        { c.pushed 0x46 with att := { c.att with ar := Tab.setRange 0 [] 1 (ws.drop 1), upc := d0.toNat, busy := true, fault := false, cover := s.covering, nextIssue := s.ccount + 1, started := true } }
      pure (← get).advance)
  else stall s

/-- `as.wait` (R372): after a fault, without NOFAULT, it clears it and raises the recorded cause; else it returns the status. -/
def execAsWait (d : BitVec 5) (nf : BitVec 1) (s : State) : Out :=
  if s.readyFor [] && !s.here.att.busy then
    let a := s.here.att
    let t := s.modHere fun c => { c with att := { c.att with fault := false } }
    if a.fault && decide (nf = 0) then .next (t.raise a.cause a.tval)
    else .next ((t.finish d (w64 a.stat) 1).acquire { stores := [], till := s.slicesTill })
  else stall s

/-! ## Microwords (R370, R371) -/

/-- An `ar` register: `ar0` reads zero (R369). -/
def Att.reg (a : Att) (i : Nat) : Word := if i = 0 then 0 else Tab.get 0 a.ar i
/-- An `ar` register written. -/
def Att.setReg (a : Att) (i : Nat) (v : Word) : Att := if i = 0 then a else { a with ar := Tab.set 0 a.ar i v }

/-- The microword at UPC. -/
def Core.micro (c : Core) : Word := Tab.get 0 c.att.store c.att.upc

/-- The sequencer goes on to a microword address in the next cycle. -/
def State.attGo (s : State) (n : CoreId) (upc : Nat) : State :=
  s.modCore n fun c => { c with att := { c.att with upc := upc % 4096, nextIssue := s.ccount + 1 } }

/-- The sequencer goes on to the next microword. -/
def State.attNext (s : State) (n : CoreId) : State := s.attGo n ((s.core n).att.upc + 1)

/-- A microword's fault (R371). -/
def State.attFail (s : State) (n : CoreId) (code : Nat) (v : Word) : State := s.modCore n fun c => c.attFault code c.att.upc v

/-- A microword: ready when the sequencer may issue; ILLEGAL_OPERAND with the microword for reserved values. -/
def microWord (n : CoreId) (s : State) (ok ready : Bool) (body : Out) : Out :=
  if !s.attIssues n then stall s
  else if !ok then .next (s.attFail n 0x02 (s.core n).micro)
  else if ready then body else stall s

/-- A microword that acts by an action: its faults are recorded (R371); a replayable one parks it, to be tried again (R339), with the stream
descriptors as a late fault leaves them. -/
def microAct (n : CoreId) (s : State) (ok : Bool) (m : Act Unit) : Out :=
  let park := fun (t : State) (v : Word) =>
    .next ((t.replayPut (s.jobOf n) n .c v false).modCore n fun c => { c with att := { c.att with parked := some (v.toNat / 2 ^ 16) } })
  let s := { s with reader := (n, 4, 0) }
  microWord n s ok (s.covered (s.core n).att.cover && !s.farWrites s.reader)
    (match m.run s with
     | (.ok _, t) => .next ((t.dropReads s.reader).attNext n)
     | (.error (.wait r), _) => stall (s.ask r)
     | (.error (.fault c v), t) => if s.mayReplay (s.jobOf n) n c then park (undo s t) v else .next ((undo s t).attFail n c v)
     | (.error (.late c v), t) => if s.mayReplay (s.jobOf n) n c then park { undo s t with streams := t.streams, landed := t.landed } v else .next (t.attFail n c v))

/-- END: once every issued microword has retired, the sequencer is idle and its status names this microword (R370, R372). -/
def execAsEnd (n : CoreId) (_m : Micro) (s : State) : Out :=
  let c := s.core n
  microWord n s true (!c.attFlying)
    (.next (s.modCore n fun c =>
      { c with att := { c.att with busy := false, fault := false, cause := 0, fupc := c.att.upc, ended := (c.att.ended + 1) % 2 ^ 32 } }))

/-- ADD. -/
def execAsAdd (n : CoreId) (m : Micro) (s : State) : Out :=
  microWord n s true true (.next ((s.modCore n fun c =>
    { c with att := c.att.setReg m.x.toNat (c.att.reg m.y.toNat + m.imm.signExtend 64) }).attNext n))

/-- LOOP. -/
def execAsLoop (n : CoreId) (m : Micro) (s : State) : Out :=
  let v := (s.core n).att.reg m.x.toNat
  microWord n s true true (.next (if v = 0 then s.attNext n
    else (s.modCore n fun c => { c with att := c.att.setReg m.x.toNat (v - 1) }).attGo n (bitsOf m.imm 0 12)))

/-- A microword that is an M-word (R370): its three groups of checks (R202), its waits (R201), its issue. At a colophon it waits:
R185 covers the words of L, C and S. -/
def microM (n : CoreId) (s : State) (ok : Bool) (a : MArgs) : Out :=
  let c := s.core n
  microWord n s (ok && mGroup1 s n a) (mReady s n a true && s.covered c.att.cover && (mMeets c a).isNone)
    (match mGroup3 s n a with
     | some code => .next (s.attFail n code c.micro)
     | none =>
       let cov := a.reads.foldl (fun (x : Cover) i => x.join (c.ring i).cov) c.att.cover
       let s := mIssue s n a (MFlight.blank (c.micro.setWidth 32) (w64 c.att.upc) none true)
       .next ((s.modCore n fun c => { c with att := { c.att with cover := cov } }).attNext n))

/-- STEP. -/
def execAsStep (n : CoreId) (m : Micro) (s : State) : Out := microM n s (stepOk m) (stepArgs m)

/-- ACCRD. -/
def execAsAccrd (n : CoreId) (m : Micro) (s : State) : Out :=
  let fmt := bitsOf m.ctl 5 3
  microM n s (decide (1 ≤ fmt) && decide (fmt < 5)) (accrdArgs m)

/-- ACCZR. -/
def execAsAcczr (n : CoreId) (m : Micro) (s : State) : Out :=
  microM n s true (acczrArgs m)

/-- WLD. -/
def execAsWld (n : CoreId) (m : Micro) (s : State) : Out :=
  microM n s (decide (bitsOf m.ctl 5 3 < 5)) (wldArgs m)

/-! ## TLD, KVG, EXP (R369, R370) -/

/-- A copy of the attention sequencer in flight, before its data: into ring RA of its microword, with the number of its operation. -/
def copyFlight (n : CoreId) (s : State) (op ring : Nat) : TFlight :=
  let c := s.core n
  { TFlight.blank { s with cur := (n, .c) } with
    kind := .move, op := op, word := c.micro.setWidth 32, pc := w64 c.att.upc, mac := none, target := ring, fcsr := c.c.fcsr, cover := c.att.cover, after := 0, needsClaim := true }

/-- A copy takes a transfer slot and sends its claim (R179, R184). -/
def State.flyCopy (s : State) (n : CoreId) (f : TFlight) : State :=
  let s := s.flyOn n .f f
  s.claimFor n .f (s.core n).nextId f.target false

/-- TLD (R370, R187): its checks and its descriptor of L, at the issue, for which it waits for a slot (R179). -/
def execAsTld (n : CoreId) (m : Micro) (s : State) : Out :=
  let c := s.core n
  let ring := m.ra.toNat
  let f := { copyFlight n s 1 ring with a := c.att.reg m.x.toNat, l := c.att.reg m.y.toNat, td := Tab.get 0 c.tl.td (bitsOf m.imm 0 5) }
  microAct n s true do
    Act.need (decide (c.ta.flight.length < 4))
    Act.check (c.ring ring).valid 0x02 c.micro
    tCheck c.micro 1 0 f.td f.a f.l (c.ring ring).size
    modify fun s => s.flyCopy n f

/-- The stream of an `ar` register for a core's job (R355). -/
def attStream (n : CoreId) (v : Word) : Act Nat := do
  let s ← get
  Act.check (decide (v.toNat < 4096)) 0x02 (s.core n).micro
  Act.check ((s.sd v.toNat 0).getLsbD 63 && decide (bitsOf (s.sd v.toNat 0) 48 8 = (s.jobOf n).toNat)) 0x06 (s.core n).micro
  pure v.toNat

/-- An engine's read for a core's job. -/
def attRead (n : CoreId) (va len : Nat) : Act (List Byte) := do pure (← tRead n .f va len).1

/-- TAG of a staging buffer (R351): valid bit and layer. -/
def State.stgTag (s : State) (t buf : Nat) : Nat := bitsOf (s.sd t 17) (16 * buf) 16

/-- The address of slot `b` of a staging buffer (R373). -/
def State.stgAt (s : State) (t buf b slot : Nat) : Nat := (s.sd t (13 + buf)).toNat + b * (64 + 64 * slot)

/-- A read whose fault is kept for the retirement of its word (R179): its value, or the fault. A replayable fault still ends the action. -/
def caught {α : Type} (n : CoreId) (m : Act α) : Act (Except (Nat × Word) α) := fun s =>
  match m s with
  | (.ok a, t) => (.ok (.ok a), t)
  | (.error (.fault c v), t) => if s.mayReplay (s.jobOf n) n c then (.error (.fault c v), t) else (.ok (.error (c, v)), undo s t)
  | (.error e, t) => (.error e, t)

/-- What KVG gathers (R348, R373): the bytes of the block's survivors below G in packed order, and their count. -/
def kvgRead (n : CoreId) (t l b : Nat) : Act (List Byte × Nat) := do
  let s ← get
  let e ← if s.maxb t ≤ b then pure 0 else do pure (ofBytes (← attRead n (s.tableAt t l b) 8))
  if e = 0 then pure ([], 0) else do
    let h ← kvHdrOf e (← attRead n e 64)
    let below := s.curG t - 64 * b
    let k := popcount 64 (if below < 64 then h.surv % 2 ^ below else h.surv)
    let buf := l % 2
    let staged := decide (h.tier = 1) && decide (s.stgTag t buf = 2 ^ 15 + l) && s.landed.contains (t, buf, b, e)
    let bytes ← attRead n (if staged then s.stgAt t buf b h.slot + 64 else h.data) (k * h.slot)
    pure (bytes, k)

/-- KVG (R370, R348, R373): the header and its survivors are read together at the issue, so that no change of the block comes between them
(R374). A fault of these reads is recorded at the retirement (R179, R371); ar[RB] is then left as it is (DESIGN CHOICE, log 30: the count is
not known). -/
def execKvg (n : CoreId) (m : Micro) (s : State) : Out :=
  let c := s.core n
  let pos := c.att.reg m.y.toNat
  microAct n s (decide (m.rb.toNat < 16)) do
    Act.need (decide (c.ta.flight.length < 4))
    Act.check (c.ring m.ra.toNat).valid 0x02 c.micro
    let t ← attStream n (c.att.reg m.x.toNat)
    let l := bitsOf pos 32 12
    let b := bitsOf pos 0 32 / 64
    Act.check (decide (pos.toNat < 2 ^ 44) && decide (l < s.nlayer t)) 0x02 c.micro
    match ← caught n (kvgRead n t l b) with
    | .error f => modify fun s => s.flyCopy n { copyFlight n s 0x11 m.ra.toNat with failed := some f }
    | .ok out =>
      Act.check (decide (out.1.length ≤ (c.ring m.ra.toNat).size)) 0x02 c.micro
      modify fun s => (s.flyCopy n { copyFlight n s 0x11 m.ra.toNat with got := out.1 }).modCore n fun c => { c with att := c.att.setReg m.rb.toNat (w64 out.2) }

/-- EXP (R370, R46): ready, as an M-word is, with a filled position of ring A and a free entry of ring B; it holds the exponent unit until
its retirement, at which a fault of its read is recorded (R371). -/
def execExp (n : CoreId) (m : Micro) (s : State) : Out :=
  let c := s.core n
  let ra := m.ra.toNat
  let rb := m.rb.toNat
  let k := m.imm.toNat
  let r := c.ring ra
  let h := s.homeRing n ra
  let p := h.nextRead
  let rank := readerRank (s.ringHome n ra).1 n .f
  microAct n s (decide (k % 64 = 0) && r.valid && (c.ring rb).valid && decide (4 * k ≤ r.size) && decide (4 * k ≤ (c.ring rb).size)) do
    Act.need c.att.exp.isNone
    Act.need (h.valid && h.isFilled s.ccount p && h.mayTake s.ccount rank && !h.isColophon p && s.covered h.cov)
    let hb := s.homeRing n rb
    Act.need (hb.valid && (hb.colo || (decide (1 ≤ hb.free) && hb.waits.isEmpty)))
    Act.check (!hb.colo) 0x13 c.micro
    let rd ← caught n (attRead n (r.addr p) (4 * k))
    let b := match rd with | .ok b => b | .error _ => []
    let mode := mode2 (BitVec.ofNat 2 (bitsOf m.ctl 0 2)) (frmOf c.c.fcsr)
    let outs := (List.range (b.length / 4)).map fun i => exp2Lane .f32 mode (ftzOf c.c.fcsr .f32) (ofBytes ((b.drop (4 * i)).take 4))
    modify fun s =>
      let s := s.modHome n ra fun r => r.take s.ccount rank
      let q := (s.homeRing n rb).claim
      let f : TFlight := { copyFlight n s 0x12 rb with
        needsClaim := false, code := ra, rpos := some p, claimed := some q, got := outs.flatMap fun o => toBytes 4 o.bits
        flags := outs.foldl (fun a o => a ||| o.flags) 0, failed := (match rd with | .ok _ => none | .error f => some f), val := w64 (s.ccount + k / 64 + 8) }
      (s.modHome n rb fun h => { h with claim := h.claim + 1 }).modCore n fun c =>
        { c.pushed 0x43 with att := { c.att with exp := some f, cover := c.att.cover.join h.cov } }

/-- EXP retires (R370): its entry is written and pushed, ring A's position popped, and its flags set. -/
def expRetire (n : CoreId) (s : State) (f : TFlight) : Out :=
  let c := s.core n
  let r := c.ring f.target
  let p := f.claimed.getD 0
  match (do Act.need ((s.homeRing n f.target).valid && (s.homeRing n f.code).valid)
            match f.failed with | some x => Act.fault x.1 x.2 | none => pure ()
            writeVirt n .c (attWriter n) (r.addr p) (f.got ++ List.replicate (r.size - f.got.length) 0) : Act Unit).run s with
  | (.ok _, t) =>
    let cov := t.coverOf n .f
    let t := t.modHome n f.code fun r => r.pop (f.rpos.getD 0)
    let t := t.modHome n f.target fun r => r.push p cov (s.ccount + 6)
    .next (t.modCore n fun c => ({ c with att := { c.att with exp := none }, c := c.c.retireFlags f.flags } : Core).attSettle)
  | (.error (.wait _), _) => stall s
  | (.error (.fault code v), t) | (.error (.late code v), t) =>
    let t := (undo s t).modHome n f.code fun r => r.release (f.rpos.getD 0)
    let t := t.modHome n f.target fun r => r.push p (t.coverOf n .f) (s.ccount + 6)
    .next ((t.modCore n fun c => { c with att := { c.att with exp := none } }).modCore n fun c => c.attFault code f.pc.toNat v)

/-- A copy of the attention sequencer that faults: it parks on a replayable page (R339), else its slot and claim end as a discarded word's do
(R90) and the fault is recorded (R371). -/
def copyFail (n : CoreId) (f : TFlight) (t : State) (code : Nat) (v : Word) : State :=
  if t.mayReplay (t.jobOf n) n code then t.failFlight n .f f.id code v true
  else (t.discard n .f f).modCore n fun c => c.attFault code f.pc.toNat v

/-- The retirement of the attention sequencer's EXP once it is due, else of its oldest copy (R370). -/
def attRetire (n : CoreId) (s : State) : Out :=
  let c := s.core n
  if decide (c.cutting = .stopped) || decide (c.debugHalt = .stopped) then stall s
  else match (match c.att.exp with | some f => if f.val.toNat ≤ s.ccount then some f else none | none => none) with
  | some f => expRetire n s f
  | none => match c.ta.flight with
    | [] => stall s
    | f :: _ =>
      if f.parked.isSome || decide (c.cutting ≠ .running) || decide (c.debugHalt ≠ .running) then stall s
      else match f.failed with
      | some (code, v) => .next ((s.discard n .f f).modCore n fun c => c.attFault code f.pc.toNat v)
      | none => match retireMove n .f s f (copyFail n f) with
        | .next t => .next (t.modCore n Core.attSettle)
        | o => o

/-- STAGE (R373): the tag, then a copy of every host-tier block of the layer starts. -/
def execStage (n : CoreId) (m : Micro) (s : State) : Out :=
  let c := s.core n
  let l := (c.att.reg m.y.toNat).toNat
  let buf := l % 2
  microAct n s true do
    let t ← attStream n (c.att.reg m.x.toNat)
    Act.check (decide (l < s.nlayer t)) 0x02 c.micro
    modify fun s =>
      let s := s.setSd t 17 (putBits (s.sd t 17) (16 * buf) 16 (2 ^ 15 + l))
      { s with landed := s.landed.filter fun x => !(x.1 == t && x.2.1 == buf) }
    Act.keeping do
      for b in List.range (s.maxb t) do
        let e := ofBytes (← attRead n (s.tableAt t l b) 8)
        if e ≠ 0 then
          let h ← kvHdrOf e (← attRead n e 64)
          if h.tier = 1 then
            writeVirt n .l (attWriter n) (e + 8) (toBytes 8 (h.h1 / 64 * 64 + 16 + h.lslot))
            modify fun s => s.modCore n fun c => { c with staging := c.staging ++ [{ stream := t, layer := l, blk := b, hdr := e, parked := none }] }

/-- A staging copy lands (R373): wanted, it is written to the buffer and marked landed; unwanted, it is discarded and counted. A copy
that meets a fault leaves its slot unmarked (log 31); one that waits for a page is recorded as the read or the write that met it (R339). -/
def execStageLanding (n : CoreId) (i : Nat) (s : State) : Out :=
  let c := s.core n
  match c.staging[i]? with
  | none => stall s
  | some k =>
    if k.parked.isSome then stall s else
    let s : State := { s with reader := (n, 10, ((k.hdr * 2 ^ 12 + k.stream) * 2 ^ 12 + k.layer) * 2 ^ 32 + k.blk) }
    let s0 := s.modCore n fun c => { c with staging := c.staging.eraseIdx i }
    let t := k.stream
    let buf := k.layer % 2
    let job : BitVec 8 := BitVec.ofNat 8 (bitsOf (s.sd t 0) 48 8)
    let run : Act Unit := do
      let e := ofBytes (← readJob job (s.tableAt t k.layer k.blk) 8 n.toNat)
      if s.stgTag t buf = 2 ^ 15 + k.layer ∧ e = k.hdr then
        let hb ← readJob job k.hdr 64 n.toNat
        let h ← kvHdrOf k.hdr hb
        let data ← readJob job h.data (64 * h.slot) n.toNat
        Act.keeping do
          writeJob job (attWriter n) (s.stgAt t buf k.blk h.slot) (hb ++ data)
          writeJobW job (attWriter n) (k.hdr + 8) (h.h1 / 64 * 64 + 32 + h.lslot)
        modify fun s => { s with landed := s.landed ++ [(t, buf, k.blk, k.hdr)] }
      else modify fun s => s.bumpSd t 16 0
    let fail := fun (u : State) (c : Nat) (v : Word) (write : Bool) =>
      if s.mayReplay job n c then
        ((undo s u).replayPut job n .c v write).modCore n fun c => { c with staging := c.staging.modify i fun x => { x with parked := some (v.toNat / 2 ^ 16) } }
      else undo s0 u
    match run.run s0 with
    | (.ok _, u) => .next (u.dropReads s.reader)
    | (.error (.wait r), _) => stall (s.ask r)
    | (.error (.fault c v), u) => .next (fail u c v false)
    | (.error (.late c v), u) => .next (fail u c v true)

end Sys2Proof.Machine
end

