-- ==== Sys2Proof/Machine/KSys.lean ====
section
/-! DEFINITION. K-words of class 0b011: system words (R107, R117, R118, R134 to R139), and the fate of words that are no
instruction (R49). -/
namespace Sys2Proof.Machine

/-- A word that decodes as no instruction: ILLEGAL_INSTR with the word, precisely (R49). -/
def execUnallocatedOpcode (w : BitVec 32) (s : State) : Out :=
  if s.canIssue then .next (({ s with word := w } : State).illegal) else stall s

/-- A call or return: MISALIGNED for a misaligned target, with the link unwritten (R134); ILLEGAL_INSTR in a macro (R109). -/
def callTo (s : State) (srcs : List (BitVec 5)) (x : Word) (link : State → State) : Out :=
  if s.readyFor srcs then
    if s.seq.mpos.isSome then .next s.illegal
    else if bitsOf x 0 2 ≠ 0 then .next (s.raise 0x04 x)
    else .next ((link s).transfer x)
  else stall s

/-- `call`: pc-relative for rs1 = 0, else relative to the register (R59, R134). -/
def execCall (d a : BitVec 5) (i : BitVec 12) (s : State) : Out :=
  let base := if a = 0 then s.seq.pc else s.reg a
  callTo s [a] (base + 4 * imm12 i) fun t => t.setReg d (s.seq.pc + 4) 1

/-- `ret` (R134). -/
def execRet (a : BitVec 5) (s : State) : Out := callTo s [a] (s.reg a) fun t => t

/-! ## CSRs (R113 to R118) -/

/-- What a CSR reads for K or F; none is ILLEGAL_OPERAND (R113). -/
def csrRead (s : State) (a : Nat) : Option Word :=
  let c := s.here
  let u := c.sup s.cur.2
  let k := !s.isF
  if a = 0x001 then some (s.seq.fcsr.setWidth 64)
  else if a = 0x002 then some (c.l.fcsr.setWidth 64)
  else if a = 0x003 then some (c.c.fcsr.setWidth 64)
  else if a = 0x004 then some (c.s.fcsr.setWidth 64)
  else if a = 0x010 then (if k then some (c.k.wmask.setWidth 64) else none)
  else if a = 0x011 then (if k then some (c.k.pmask.setWidth 64) else none)
  else if a = 0x012 then (if k then some c.mimage else none)
  else if a = 0x020 then some (c.vec.shape0.setWidth 64)
  else if a = 0x021 then some (c.vec.tix0.setWidth 64)
  else if a = 0x030 then some (w64 s.ccount)
  else if a = 0x031 then some (w64 (s.dev.dev.toNat * 2 ^ 16 + s.cur.1.toNat))
  else if a = 0x032 then some (c.prio.setWidth 64)
  else if a = 0x040 then some u.tvec
  else if a = 0x041 then some u.tepc
  else if a = 0x042 then some u.tsw
  else if a = 0x043 then some u.tcause
  else if a = 0x044 then some u.tval
  else if a = 0x045 then some (w64 u.hdepth)
  else if a = 0x060 then some (w64 (c.fused.toNat * 2 ^ 16 + (if c.fpri then 2 ^ 8 else 0) + c.quota.toNat))
  else if a = 0x061 then
    (if k then none
     else
      match c.events with
      | [] => some 0
      | e :: _ => some (e ||| w64 (2 ^ 63 + c.events.length * 2 ^ 56 + c.evDrops * 2 ^ 32)))
  else if 0x070 ≤ a ∧ a ≤ 0x073 then some (Tab.get 0 c.wpt (a - 0x070))
  else if a = 0x078 then some (c.snapctl.setWidth 64)
  else none

/-- Whether a CSR is read-only (R113). -/
def csrRO (a : Nat) : Bool := a == 0x030 || a == 0x031 || a == 0x032 || a == 0x045

/-- Whether a value may be written to a CSR (R32, R82, R89, R104, R115, R116, R142, R143, R391, R433). -/
def csrOk (a : Nat) (v : Word) : Bool :=
  if 1 ≤ a ∧ a ≤ 4 then decide (bitsOf v 5 3 < 5)
  else if a = 0x010 ∨ a = 0x011 then decide (bitsOf v 4 60 = 0) && !v.getLsbD 0
  else if a = 0x012 then decide (bitsOf v 57 7 = 0) && decide (bitsOf v 0 16 = 0)
  else if a = 0x020 then decide (bitsOf v 24 40 = 0) && decide (bitsOf v 21 2 = 0) && !(decide (5 ≤ bitsOf v 0 4) && decide (bitsOf v 0 4 ≤ 7))
  else if a = 0x021 then decide (bitsOf v 16 48 = 0)
  else if a = 0x040 then decide (bitsOf v 57 7 = 0) && decide (bitsOf v 0 2 = 0)
  else if a = 0x060 then decide (bitsOf v 24 40 = 0) && decide (bitsOf v 9 7 = 0)
  else if a = 0x061 then !v.getLsbD 61 && decide (bitsOf v 24 8 = 0)
  else if 0x070 ≤ a ∧ a ≤ 0x073 then decide (bitsOf v 57 7 = 0) && !(v.getLsbD 2 && v.getLsbD 1)
  else if a = 0x078 then decide (bitsOf v 6 58 = 0)
  else true

/-- Removes the oldest entry of a core's event list (R433). -/
def Core.popEvent (c : Core) : Core := { c with events := c.events.tail }

/-- A CSR of the executing context written (R113). -/
def csrWrite (s : State) (a : Nat) (v : Word) : State :=
  let sup := fun (g : Sup → Sup) => s.modHere fun c => c.setSup s.cur.2 (g (c.sup s.cur.2))
  if a = 0x001 then s.modSeq fun q => { q with fcsr := BitVec.ofNat 17 v.toNat }
  else if a = 0x010 then s.modSeq fun q => { q with wmask := BitVec.ofNat 4 v.toNat }
  else if a = 0x011 then s.modSeq fun q => { q with pmask := BitVec.ofNat 4 v.toNat }
  else if a = 0x012 then s.modHere fun c => { c with mimage := v, mstore := [] }
  else if a = 0x040 then sup fun u => { u with tvec := v }
  else if a = 0x041 then sup fun u => { u with tepc := v }
  else if a = 0x042 then sup fun u => { u with tsw := v }
  else if a = 0x043 then sup fun u => { u with tcause := v }
  else if a = 0x044 then sup fun u => { u with tval := v }
  else if a = 0x060 then s.modHere fun c => { c with fpri := v.getLsbD 8, quota := BitVec.ofNat 8 v.toNat }
  else if a = 0x061 then (if v.getLsbD 62 then s.modHere Core.popEvent else s)
  else if 0x070 ≤ a ∧ a ≤ 0x073 then s.modHere fun c => { c with wpt := Tab.set 0 c.wpt (a - 0x070) v }
  else if a = 0x078 then s.modHere fun c => { c with snapctl := BitVec.ofNat 6 v.toNat }
  else s

/-- Whether a CSR word may issue: the context's own `fcsr` waits for its words that set flags (R118). -/
def csrReady (s : State) (a : Nat) : Bool := decide (a ≠ 1) || decide (s.seq.flagAt ≤ s.ccount)

/-- `csrw`, `csrs` and `csrc` (kind 0, 1, 2): the access and value checks, then the write; CSRs of L, C and S take it at the
start of the next cycle (R113, R117, R118). -/
def csrWord (kind : Nat) (r : BitVec 5) (c : BitVec 12) (s : State) : Out :=
  let a := c.toNat
  if !(s.readyFor [r] && csrReady s a) then stall s
  else if a = 0x060 ∧ !s.isF then .next (s.raise 0x06 s.wordVal)
  else match csrRead s a with
    | none => .next s.badOperand
    | some old =>
      let v := csrNew kind old (s.reg r)
      if csrRO a || !csrOk a v then .next s.badOperand
      else if (2 ≤ a ∧ a ≤ 4) ∨ a = 0x020 ∨ a = 0x021 then
        .next (s.modHere fun c => { c with csrPend := c.csrPend ++ [(a, kind, s.reg r)] }).advance
      else .next (csrWrite s a v).advance

/-- `csrr` (R118). -/
def execCsrr (d : BitVec 5) (c : BitVec 12) (s : State) : Out :=
  if !(s.readyFor [] && csrReady s c.toNat) then stall s
  else match csrRead s c.toNat with
    | none => .next s.badOperand
    | some v => .next (s.finish d v 1)

/-- `csrw` (R118). -/
def execCsrw (a : BitVec 5) (c : BitVec 12) (s : State) : Out := csrWord 0 a c s
/-- `csrs` (R118). -/
def execCsrs (a : BitVec 5) (c : BitVec 12) (s : State) : Out := csrWord 1 a c s
/-- `csrc` (R118). -/
def execCsrc (a : BitVec 5) (c : BitVec 12) (s : State) : Out := csrWord 2 a c s

/-! ## Fences, traps, waits -/

/-- Whether every store and no-return atomic of the executing K is performed and readable, with everything it has acquired (R135,
R262). F performs its own at their issue (R432). -/
def State.released (s : State) : Bool := (s.isF || s.storesDone s.cur.1) && s.covered s.seq.cover

/-- `fence` (R135, R262): `acq` waits for what the earlier reads acquired (K's loads are blocking), `rel` and `sc` for every
earlier write to be visible. A write is performed only after everything that causally precedes it, so that what a load returned needs no
other wait. The wait is the same at every scope: a write of K is visible to any other agent once it is performed at its home (R174, R253),
and its forwarding table serves K alone (R176). -/
def execFence (_scope kind : BitVec 2) (s : State) : Out :=
  if s.canIssue && (if kind = 0 then s.covered s.seq.cover else s.released) then .next s.advance else stall s

/-- `trap`: raises the cause of bits 7:0 with bits 11:8 as tval; a code not allocated is ILLEGAL_OPERAND (R136). -/
def execTrap (c : BitVec 12) (s : State) : Out :=
  if !s.canIssue then stall s
  else if causeAllocated (bitsOf c 0 8) then .next (s.raise (bitsOf c 0 8) (w64 (bitsOf c 8 4)))
  else .next s.badOperand

/-- `brk`: BREAKPOINT with imm12 (R136). -/
def execBrk (c : BitVec 12) (s : State) : Out :=
  if s.canIssue then .next (s.raise 0x12 (c.setWidth 64)) else stall s

/-- Whether a fault of L, C or S, or a watchpoint, is pending for K (R381). -/
def Core.trapPending (c : Core) : Bool :=
  [c.l, c.c, c.s].any (fun q => q.stop.isSome && !q.taken) || c.watch.isSome || !c.late.isEmpty

/-- Whether `wfi` may retire (R138): for K an entry of q5 to q7, a token from L, C or S, or a trap, pre-emption or debug halt that
is pending or has come since K's last word; for F an event. -/
def State.wfiReady (s : State) : Bool :=
  let c := s.here
  if s.isF then !c.events.isEmpty
  else [5, 6, 7].any (fun i => ((c.dq i).front s.ccount).isSome) || [4, 8, 12].any (fun i => ((c.tkOf i).front s.ccount).isSome) ||
    c.trapPending || c.wake ||
    (match c.unit with
     | some u => (s.die u.die.toNat).launches.any fun x => x.1 == u.slot && x.2.stopWalk
     | none => false)

/-- `wfi` (R138). -/
def execWfi (s : State) : Out := if s.canIssue && s.wfiReady then .next s.advance else stall s

/-- `mcall` (R107, R108): a halted target is ILLEGAL_OPERAND and a full queue is waited for; the macro is fetched at its first call; K runs
it next, the others in their own streams from the next cycle. -/
def execMcall (p : BitVec 5) (q : BitVec 2) (m : BitVec 6) (s : State) : Out :=
  if !s.canIssue then stall s
  else if s.isF || s.seq.mpos.isSome then .next s.illegal
  else if p = 0 ∨ 29 ≤ p.toNat then .next s.badOperand
  else runWord s (do
    let t := s.here.seq (ctxOf q.toNat)
    Act.check (decide (q = 0) || !(t.halting || t.halted)) 0x02 s.wordVal
    Act.need (decide (q = 0) || decide (t.macroQ.length < 4))
    fetchMacro s.cur.1 q.toNat m.toNat
    let s ← get
    if q = 0 then
      pure (((s.modHere fun c => c.pushed 0x48).modSeq fun x =>
        { x with mpos := some { idx := m.toNat, p := some p.toNat, word := 0, last := false }, nextIssue := s.ccount + 1 }).mark)
    else
      pure (s.modHere fun c => (c.pushed (0x48 + q.toNat)).setSeq (ctxOf q.toNat)
        { t with macroQ := t.macroQ ++ [{ idx := m.toNat, p := p.toNat, vis := s.ccount + 1 }] }).advance)

/-- A capture noted for a cycle, one per core and cycle (R393). -/
def Core.noteCapture (c : Core) (at_ : Nat) : Core := if c.snapAt.contains at_ then c else { c with snapAt := c.snapAt ++ [at_] }

/-- `snap`: fires the trigger when SNAPEN is set; with XOUT every core with XIN captures 16 cycles later (R139, R393). -/
def execSnap (s : State) : Out :=
  if !s.canIssue then stall s
  else
    let c := s.here
    if !c.snapctl.getLsbD 0 then .next s.advance
    else
      let s1 := s.modHere fun c => c.noteCapture (s.ccount + 1)
      let s2 := if c.snapctl.getLsbD 4 then
        { s1 with cores := s1.cores.map fun x => (x.1, if x.2.snapctl.getLsbD 5 then x.2.noteCapture (s.ccount + 16) else x.2) }
        else s1
      .next s2.advance

end Sys2Proof.Machine
end

