-- ==== Sys2Proof/Machine/Symbols.lean ====
section
/-! DEFINITION. Noise symbols, affine tensors, condensation and minting (R220 to R236, R242). Each word holds its tensor's BUSY
by being one step (R224). -/
namespace Sys2Proof.Machine

/-! ## Symbols (R225, R226) -/

/-- The entries of a die's live-symbol table (R226). -/
def symTable : Nat := 65536

/-- The count of a live symbol of a job, at its home (R225, R226). -/
def State.symCount (s : State) (job : BitVec 8) (id : BitVec 24) : Option Nat :=
  (((s.die (bitsOf id 0 2)).syms.find? fun x => x.1 == job && x.2.1 == id)).map fun x => x.2.2

/-- A live symbol's count changed; at 0 its entry is freed (R226). -/
def State.setSym (s : State) (job : BitVec 8) (id : BitVec 24) (c : Nat) : State :=
  s.modDie (bitsOf id 0 2) fun d =>
    { d with syms := (d.syms.map fun x => if x.1 = job ∧ x.2.1 = id then (x.1, x.2.1, c) else x).filter fun x => decide (x.2.2 ≠ 0) }

/-- NEXT of a job at a die: 1 when the job starts (R225). -/
def Die.nextOf (d : Die) (job : BitVec 8) : Nat := Tab.get 1 d.next job.toNat

/-- The symbols a die can still allocate for a job (R229). -/
def Die.symRoom (d : Die) (job : BitVec 8) : Nat := Nat.min (symTable - d.syms.length) (2 ^ 22 - d.nextOf job)

/-- The ID of sequence number `q` of a die (R225). -/
def symId (die q : Nat) : BitVec 24 := BitVec.ofNat 24 (q * 4 + die)

/-- The next `n` symbols of a job allocated at a die, each with count 1 (R226): the first sequence number. -/
def State.takeSyms (s : State) (die : Nat) (job : BitVec 8) (n : Nat) : Nat × State :=
  let q := (s.die die).nextOf job
  (q, s.modDie die fun d =>
    { d with syms := d.syms ++ (List.range n).map (fun j => (job, symId die (q + j), 1)), next := Tab.set 1 d.next job.toNat (q + n) })

/-- Every entry of a job freed when it ends (R226), with NEXT at its start. -/
def Die.endJob (d : Die) (job : BitVec 8) : Die :=
  { d with syms := d.syms.filter fun x => decide (x.1 ≠ job), next := Tab.set 1 d.next job.toNat 1 }

/-- One decrement at a symbol's home; a symbol that is not live raises ILLEGAL_OPERAND with its ID (R230, R234). -/
def symDec (job : BitVec 8) (v : Word) : Act Unit := do
  let s ← get
  match (if v.toNat < 2 ^ 24 then s.symCount job (v.setWidth 24) else none) with
  | none => throw (.late 0x02 v)
  | some c => set (s.setSym job (v.setWidth 24) (c - 1))

/-- One increment (R231): a full count raises ILLEGAL_OPERAND with the ID. -/
def symInc (job : BitVec 8) (v : Word) : Act Unit := do
  let s ← get
  match s.symCount job (v.setWidth 24) with
  | none => throw (.late 0x02 v)
  | some c => if 2 ^ 32 - 1 ≤ c then throw (.late 0x02 v) else set (s.setSym job (v.setWidth 24) (c + 1))

/-- The allowance A of a job (R226, R285). -/
def State.allowance (s : State) (job : BitVec 8) : Nat := bitsOf (Tab.get JobRec.none s.jobs job.toNat).j0 0 16

/-- A word of R227: K only, blocking; `mem` tells a word whose engine reads memory, which it does once K's earlier stores and atomics and all
that K has acquired are readable (R261). It counts as a command of the engine FIFO `fifo` (R386); its completion is an acquire. -/
def symWord (s : State) (srcs : List (BitVec 5)) (fifo : Nat) (mem : Bool) (body : Act (Option (BitVec 5 × Word))) : Out :=
  if !s.canIssue then stall s
  else if s.isF then .next s.illegal
  else if s.readyFor srcs && (!mem || s.released) then
    runWord s (do
      let v ← body
      let u := (← get).modHere fun c => c.pushed fifo
      pure ((match v with | some x => u.finish x.1 x.2 1 | none => u.advance).acquire { stores := [], till := u.slicesTill }))
  else stall s

/-! ## Affine tensors (R221 to R224) -/

/-- The format of a GFMT code (R221, R222). -/
def gfmt (c : Nat) : Option Fmt :=
  if c = 1 then some .f16 else if c = 2 then some .bf16 else if c = 3 then some .f32 else if c = 4 then some .f64 else none

/-- A diagonal-list entry: ID, element index, value pattern (R221). -/
structure DiagEnt where
  id : Nat
  idx : Nat
  val : Nat
  deriving DecidableEq, Repr

/-- An affine tensor as read from its descriptor (R222): doublewords, format, IDs and diagonal list. -/
structure Affine where
  va : Nat
  d : List Nat
  fmt : Fmt
  ids : List Nat
  diag : List DiagEnt
  deriving DecidableEq, Repr

/-- A doubleword of the descriptor. -/
def Affine.dw (t : Affine) (i : Nat) : Nat := (t.d[i]?).getD 0
/-- E. -/
def Affine.nelem (t : Affine) : Nat := t.dw 5 / 2 ^ 32
/-- DCAP. -/
def Affine.dcap (t : Affine) : Nat := t.dw 7 / 2 ^ 48
/-- CCNT. -/
def Affine.ccnt (t : Affine) : Nat := t.dw 7 / 2 ^ 8 % 2 ^ 32
/-- The bytes of an element. -/
def Affine.sz (t : Affine) : Nat := t.fmt.width / 8
/-- The generators of the tensor. -/
def Affine.gens (t : Affine) : Nat := t.ids.length + t.diag.length

/-- Whether a descriptor passes R222; BUSY and TORN are looked at apart. -/
def descOk (d : List Nat) : Bool :=
  let w := fun i => (d[i]?).getD 0
  ((d.take 5).all fun x => decide (x < 2 ^ 57) && decide (x % 64 = 0)) && decide (w 5 / 2 ^ 32 ≠ 0) &&
  (match gfmt (w 7 % 8) with | some f => decide (w 5 / 2 ^ 32 * (f.width / 8) ≤ w 6) | none => false) &&
  decide (w 6 % 64 = 0) && decide (w 5 / 2 ^ 16 % 2 ^ 16 ≤ w 7 / 2 ^ 48) && decide (w 7 / 2 ^ 42 % 64 = 0) && decide (w 7 / 8 % 32 = 0)

/-- Whether numbers ascend strictly. -/
def ascending : List Nat → Bool
  | [] => true
  | [_] => true
  | a :: b :: l => decide (a < b) && ascending (b :: l)

/-- Whether the lists of a tensor pass R223. -/
def Affine.listsOk (t : Affine) : Bool :=
  let ds := t.diag.map fun x => x.id
  ascending t.ids && ascending ds && t.ids.all (fun x => decide (0 < x) && decide (x < 2 ^ 24) && !ds.contains x) &&
  ds.all (fun x => decide (0 < x) && decide (x < 2 ^ 24)) && t.diag.all fun x => decide (x.idx < t.nelem)

/-- The first numbers of `k` bytes each in a list of bytes. -/
def chunks (k : Nat) : Nat → List Byte → List Nat
  | 0, _ => []
  | n + 1, b => ofBytes (b.take k) :: chunks k n (b.drop k)

/-- The numbers of `k` bytes each in a list of bytes. -/
def chunksOf (k : Nat) (b : List Byte) : List Nat := chunks k (b.length / k) b

/-- Reads a descriptor and its lists (R222 to R224): the BUSY claim is an atomic of D7, which waits while BUSY is 1. A descriptor that is not
aligned on 8 bytes raises MISALIGNED with its address: the manual gives no alignment (DESIGN CHOICE, log 48). A descriptor that fails R222
and has TORN set raises the cause of R222, and every word, whatever it then does, reads and checks both whole lists (DESIGN CHOICE, log 48: R222
to R224 give the order of neither check, nor which list entries a word reads). -/
def readAffine (n : CoreId) (va : Word) : Act Affine := do
  let a := va.toNat
  Act.check (decide (a % 8 = 0)) 0x04 va
  let _ ← resolve n .k (a + 56) .atomic
  let d := dwords (← readVirt n .k a 64)
  let w := fun i => (d[i]?).getD 0
  Act.need (!(w 7).testBit 41)
  Act.check (descOk d) 0x02 va
  Act.check (!(w 7).testBit 40) 0x02 (← get).wordVal
  let ids := chunksOf 4 (← readVirt n .k (w 3) (4 * (w 5 % 2 ^ 16)))
  let diag := (chunksOf 16 (← readVirt n .k (w 4) (16 * (w 5 / 2 ^ 16 % 2 ^ 16)))).map fun x =>
    ({ id := x % 2 ^ 32, idx := x / 2 ^ 32 % 2 ^ 32, val := x / 2 ^ 64 } : DiagEnt)
  let t : Affine := { va := a, d := d, fmt := (gfmt (w 7 % 8)).getD .f32, ids := ids, diag := diag }
  Act.check t.listsOk 0x02 va
  pure t

/-- The elements whose remainder some additions change, ascending. -/
def remTouched (ups : List (Nat × Option Nat)) : List Nat := (ups.map fun x => x.1).eraseDups.mergeSort (· ≤ ·)

/-- The remainders of a tensor's elements after additions in order, each rounded up (R221, R234, R242): an element is read where no addition
makes it infinite. -/
def readRem (n : CoreId) (t : Affine) (ups : List (Nat × Option Nat)) : Act (List (Nat × BitVec 32)) :=
  (remTouched ups).mapM fun i => do
    let mine := ups.filter fun x => x.1 == i
    let r : BitVec 32 ← if mine.any (fun x => x.2.isNone) then pure 0x7F800000 else do pure (BitVec.ofNat 32 (ofBytes (← readVirt n .k (t.dw 2 + 4 * i) 4)))
    pure (i, mine.foldl (fun r x => ebAdd r x.2) r)

/-- The writes of a word on a tensor in order (R224): a fault before the first leaves everything as it was; after it TORN is set, BUSY
cleared and what was written stands. -/
def tensorWrites (n : CoreId) (t : Affine) (ws : List (Nat × List Byte)) : Act Unit := do
  let cells := ws.flatMap fun x => (pieces x.1 x.2.length (x.2.length / 64 + 2)).map fun p => (p.1, (x.2.drop (p.1 - x.1)).take p.2)
  let _ ← cells.foldlM (init := false) fun started c => do
    let w := writeVirt n .k (condWriter n) c.1 c.2
    if started then
      fun s => match w s with
        | (.error (.fault code v), s') =>
          (.error (.late code v), (writeVirt n .k (condWriter n) (t.va + 56) (toBytes 8 (t.dw 7 / 2 ^ 42 * 2 ^ 42 + 2 ^ 40 + t.dw 7 % 2 ^ 40)) s').2)
        | (.error e, s') => (.error e, s')
        | (.ok _, s') => (.ok true, s')
    else do
      w
      pure true

/-- The entries of a list that are new or in a new place, with their places. -/
def movedIn {α : Type} [BEq α] (old new : List α) : List (α × Nat) := new.zipIdx.filter fun x => !(old[x.2]? == some x.1)

/-- The writes that store a tensor: slabs that moved, the entries of the ID list and the diagonal list that changed, the remainders that
changed, and last the descriptor: the counts, where they changed, and D7, which clears BUSY (R222, R224). -/
def Affine.writes (t : Affine) (slabs : List (Nat × List Byte)) (rem : List (Nat × BitVec 32)) (ids : List Nat) (diag : List DiagEnt) (ccnt : Nat) :
    List (Nat × List Byte) :=
  slabs ++ ((movedIn t.ids ids).map fun x => (t.dw 3 + 4 * x.2, toBytes 4 x.1)) ++
  ((movedIn t.diag diag).map fun x => (t.dw 4 + 16 * x.2, toBytes 4 x.1.id ++ toBytes 4 x.1.idx ++ toBytes 8 x.1.val)) ++
  (rem.map fun x => (t.dw 2 + 4 * x.1, toBytes 4 x.2.toNat)) ++
  (if ids.length = t.ids.length ∧ diag.length = t.diag.length then []
   else [(t.va + 40, toBytes 8 (t.nelem * 2 ^ 32 + diag.length % 2 ^ 16 * 2 ^ 16 + ids.length % 2 ^ 16))]) ++
  [(t.va + 56, toBytes 8 (t.dw 7 / 2 ^ 42 * 2 ^ 42 + ccnt % 2 ^ 32 * 2 ^ 8 + t.dw 7 % 2 ^ 8))]

/-! ## Condensation (R233, R234) -/

/-- The magnitude of a pattern in units of 2^-2304; none for NaN and infinity. -/
def magOf (f : Fmt) (x : Nat) : Option Nat := match f.decode x with | .fin _ m => some m | _ => none

/-- The sum of magnitudes, none where one is not finite. -/
def sumMags (l : List (Option Nat)) : Option Nat := l.foldl (fun a b => match a, b with | some x, some y => some (x + y) | _, _ => none) (some 0)

/-- A candidate of condensation: its significance (none is +∞), its rank among equals, and where it is: slab, diagonal entry or a
new element (R233, R242). -/
inductive CandAt where
  | slab (t : Nat) | diag (j : Nat) | fresh (i : Nat)
  deriving DecidableEq, Repr

/-- A candidate with its significance and rank. -/
structure Cand where
  sig : Option Nat
  rank : Nat
  at_ : CandAt
  deriving DecidableEq, Repr

/-- Whether a candidate is dropped before another (R233): lower significance, among equals the higher rank. -/
def Cand.before (a b : Cand) : Bool :=
  match a.sig, b.sig with
  | some x, some y => decide (x < y) || (decide (x = y) && decide (b.rank ≤ a.rank))
  | some _, none => true
  | none, some _ => false
  | none, none => decide (b.rank ≤ a.rank)

/-- What a condensation decides: the slabs and diagonal entries kept, the elements of `new` kept, what it adds to the remainders of the
elements it changes, the dropped IDs ascending, the number dropped. -/
structure Condensed where
  slabs : List Nat
  diag : List Nat
  fresh : List (Nat × Option Nat)
  ups : List (Nat × Option Nat)
  gone : List Nat
  count : Nat
  deriving DecidableEq, Repr

/-- `condense` of R234 on magnitudes: `mags` of each slab's elements, `new` the candidates of af.add (R242). -/
def condenseWith (t : Affine) (mags : List (List (Option Nat))) (new : List (Nat × Option Nat)) (k : Nat) : Condensed :=
  let cand : List Cand :=
    (mags.zipIdx.map fun (m, i) => ({ sig := sumMags m, rank := (t.ids[i]?).getD 0, at_ := .slab i } : Cand)) ++
    (t.diag.zipIdx.map fun (x, j) => ({ sig := magOf t.fmt x.val, rank := x.id, at_ := .diag j } : Cand)) ++
    (new.map fun x => ({ sig := x.2, rank := 2 ^ 24 + x.1, at_ := .fresh x.1 } : Cand))
  let drop := ((cand.mergeSort Cand.before).take (cand.length - k)).map fun c => c.at_
  let dropped := fun c => drop.contains c
  let slabGone := (mags.zipIdx.filter fun x => dropped (.slab x.2))
  let diagGone := (t.diag.zipIdx.filter fun x => dropped (.diag x.2))
  let newGone := new.filter fun x => dropped (.fresh x.1)
  let terms := fun i => (slabGone.map fun x => (x.1[i]?).getD (some 0)) ++
    ((diagGone.filter fun x => x.1.idx == i).map fun x => magOf t.fmt x.1.val) ++ ((newGone.filter fun x => x.1 == i).map fun x => x.2)
  { slabs := (List.range t.ids.length).filter fun i => !dropped (.slab i)
    diag := (List.range t.diag.length).filter fun j => !dropped (.diag j)
    fresh := new.filter fun x => !dropped (.fresh x.1)
    ups := ((List.range t.nelem).map fun i => (i, sumMags (terms i))).filter fun x => decide (x.2 ≠ some 0)
    gone := (slabGone.map (fun x => (t.ids[x.2]?).getD 0) ++ diagGone.map (fun x => x.1.id)).mergeSort (· ≤ ·)
    count := drop.length }

/-- Reads the slabs of a tensor. -/
def readSlabs (n : CoreId) (t : Affine) : Act (List (List Byte)) :=
  (List.range t.ids.length).foldlM (init := []) fun acc i => do
    let b ← readVirt n .k (t.dw 1 + i * t.dw 6) (t.nelem * t.sz)
    pure (acc ++ [b])

/-- The writes of the slabs that move down (R234). -/
def slabMoves (t : Affine) (slabs : List (List Byte)) (kept : List Nat) : List (Nat × List Byte) :=
  (kept.zipIdx.filter fun x => x.1 ≠ x.2).map fun x => (t.dw 1 + x.2 * t.dw 6, (slabs[x.1]?).getD [])

/-- The decrements of the dropped IDs, after the descriptor is written (R234). -/
def dropCounts (job : BitVec 8) (gone : List Nat) : Act Unit := gone.foldlM (init := ()) fun _ x => symDec job (w64 x)

/-! ## The words (R229 to R232, R235, R236, R242) -/

/-- `sym.alloc` (R229). -/
def execSymAlloc (d a : BitVec 5) (s : State) : Out :=
  symWord s [a] 0x44 false (do
    let n := (s.reg a).toNat
    let die := dieOf s.cur.1
    let job := s.jobOf s.cur.1
    Act.check (decide (n ≤ symTable)) 0x02 s.wordVal
    if n = 0 then pure (some (d, 0))
    else
      Act.check (decide (n ≤ (s.die die).symRoom job)) 0x0B (w64 n)
      let r := s.takeSyms die job n
      set r.2
      pure (some (d, (symId die r.1).setWidth 64)))

/-- `sym.free` (R230). -/
def execSymFree (a b : BitVec 5) (s : State) : Out :=
  symWord s [a, b] 0x44 false (do
    Act.check (decide ((s.reg b).toNat < 65536)) 0x02 s.wordVal
    for j in List.range (s.reg b).toNat do symDec (s.jobOf s.cur.1) (s.reg a + w64 (4 * j))
    pure none)

/-- `sym.ref` (R231). -/
def execSymRef (d a : BitVec 5) (s : State) : Out :=
  symWord s [a] 0x44 true (do
    let t ← readAffine s.cur.1 (s.reg a)
    for x in t.ids ++ t.diag.map (fun x => x.id) do symInc (s.jobOf s.cur.1) (w64 x)
    pure (some (d, w64 t.gens)))

/-- `sym.unref` (R231). -/
def execSymUnref (d a : BitVec 5) (s : State) : Out :=
  symWord s [a] 0x44 true (do
    let t ← readAffine s.cur.1 (s.reg a)
    dropCounts (s.jobOf s.cur.1) (t.ids ++ t.diag.map fun x => x.id)
    pure (some (d, w64 t.gens)))

/-- `sym.stat` (R232). -/
def execSymStat (d a : BitVec 5) (sel : BitVec 2) (s : State) : Out :=
  symWord s [a] 0x44 false (do
    let v := s.reg a
    if sel = 0 then
      Act.check (decide (v.toNat < 2 ^ 24)) 0x02 s.wordVal
      pure (some (d, w64 ((s.symCount (s.jobOf s.cur.1) (v.setWidth 24)).getD 0)))
    else if sel = 1 then
      Act.check (decide (v.toNat < 4)) 0x02 s.wordVal
      pure (some (d, w64 (s.die v.toNat).syms.length))
    else if sel = 2 then pure (some (d, w64 (s.allowance (s.jobOf s.cur.1))))
    else pure (some (d, s.here.cond)))

/-- `cond.set` (R235). -/
def execCondSet (a : BitVec 5) (s : State) : Out :=
  symWord s [a] 0x45 false (do
    Act.check (decide ((s.reg a).toNat < 2 ^ 17)) 0x02 s.wordVal
    modify fun u => u.modHere fun c => { c with cond := s.reg a }
    pure none)

/-- `cond.run` (R236). -/
def execCondRun (d a b : BitVec 5) (s : State) : Out :=
  symWord s [a, b] 0x45 true (do
    let n := s.cur.1
    let k := (s.reg b).toNat
    Act.check (decide (k < 2 ^ 32)) 0x02 s.wordVal
    let t ← readAffine n (s.reg a)
    if t.gens ≤ k then pure (some (d, 0))
    else
      let slabs ← readSlabs n t
      let c := condenseWith t (slabs.map fun b => (chunksOf t.sz b).map (magOf t.fmt)) [] k
      let rem ← readRem n t c.ups
      tensorWrites n t (t.writes (slabMoves t slabs c.slabs) rem (Tab.pick 0 ((t.ids.zipIdx).map fun x => (x.2, x.1)) c.slabs)
        (c.diag.filterMap fun j => t.diag[j]?) (t.ccnt + c.count))
      dropCounts (s.jobOf n) c.gone
      pure (some (d, w64 c.count)))

/-- A diagonal entry inserted in ascending order of IDs (R242). -/
def insertDiag (x : DiagEnt) : List DiagEnt → List DiagEnt
  | [] => [x]
  | y :: l => if x.id < y.id then x :: y :: l else y :: insertDiag x l

/-- `af.add` (R242, R250). -/
def execAfAdd (d a b : BitVec 5) (m : BitVec 1) (s : State) : Out :=
  symWord s [a, b] 0x45 true (do
    let n := s.cur.1
    let job := s.jobOf n
    let die := dieOf n
    let dv := s.reg b
    Act.check (decide (dv.toNat % 64 = 0)) 0x04 dv
    let t ← readAffine n (s.reg a)
    let delta := chunksOf 4 (← readVirt n .k dv.toNat (4 * t.nelem))
    let all := (delta.zipIdx.map fun (x, i) => (i, magOf .f32 x)).filter fun x => decide (x.2 ≠ some 0)
    let inf := all.filter fun x => x.2.isNone
    let new := all.filter fun x => x.2.isSome
    if m = 1 then
      tensorWrites n t (t.writes [] (← readRem n t all) t.ids t.diag t.ccnt)
      pure (some (d, 0))
    else
      let cap := Nat.min (s.allowance job) (t.ids.length + t.dcap)
      let tgt := bitsOf s.here.cond 0 16
      let full := decide (cap < t.gens + new.length)
      let slabs ← if full then readSlabs n t else pure []
      let c : Condensed :=
        if full then condenseWith t (slabs.map fun b => (chunksOf t.sz b).map (magOf t.fmt)) new (if tgt = 0 ∨ cap < tgt then cap else tgt)
        else { slabs := List.range t.ids.length, diag := List.range t.diag.length, fresh := new, ups := [], gone := [], count := 0 }
      let grant := Nat.min c.fresh.length ((s.die die).symRoom job)
      Act.check (decide (grant = c.fresh.length) || s.here.cond.getLsbD 16) 0x0B (w64 c.fresh.length)
      let r := (← get).takeSyms die job grant
      set r.2
      let minted : List DiagEnt := ((c.fresh.take grant).zipIdx).map fun (x, j) =>
        { id := (symId die (r.1 + j)).toNat, idx := x.1, val := (t.fmt.round .rup false (.fin false (x.2.getD 0))).1 }
      let diag := minted.foldl (fun l x => insertDiag x l) (c.diag.filterMap fun j => t.diag[j]?)
      let rem ← readRem n t (inf ++ c.ups ++ c.fresh.drop grant)
      tensorWrites n t (t.writes (slabMoves t slabs c.slabs) rem
        (Tab.pick 0 ((t.ids.zipIdx).map fun x => (x.2, x.1)) c.slabs) diag (t.ccnt + c.count))
      dropCounts job c.gone
      pure (some (d, w64 grant)))

end Sys2Proof.Machine
end

