-- ==== Sys2Proof/Machine/Tasks.lean ====
section
/-! DEFINITION. Jobs, level records, tasks, keys and ready queues (R285 to R297, R304, R305, R312, R317): what the dispatch blocks
read and write in a job's memory, and their tables. -/
namespace Sys2Proof.Machine

/-! ## Accesses of the dispatchers -/

/-- The dispatch blocks as writers (R390): at a home they stand among the other cores. -/
def dispWriter : Writer := { core := 0, agent := 5, rank := 0 }

/-- Reads the newest bytes of a job's memory, with the code check of a slice (R173). -/
def hwRead (job : BitVec 8) (va len : Nat) (at_ : Nat := 256) : Act (List Byte) := do
  let parts ← (pieces va len (len / 64 + 2)).foldlM (init := []) fun acc p => do
    match ← resolveJ job p.1 .read at_ with
    | .slice n off =>
      Act.need (!(← get).locked (.slice n off) p.2)
      let _ ← sliceCheck n off p.2 p.1
      let s ← get
      pure (((List.range p.2).map fun i => sliceByte (s.core n) (s.ccount + 6) (off + i)) :: acc)
    | t => do
      let r ← readTarget t p.2 p.1
      pure (r.1 :: acc)
  pure parts.reverse.flatten

/-- Doublewords of a job's memory, newest. -/
def hwWords (job : BitVec 8) (va k : Nat) : Act (List Nat) := do pure (dwords (← hwRead job va (8 * k)))
/-- A doubleword of a job's memory, newest. -/
def hwWord (job : BitVec 8) (va : Nat) : Act Nat := do pure (ofBytes (← hwRead job va 8))
/-- Writes a doubleword of a job's memory. -/
def hwPut (job : BitVec 8) (va v : Nat) : Act Unit := writeJobW job dispWriter va v

/-- An access of a dispatch block that faults does not happen, and the rest goes on (log 32). -/
def soft {α : Type} (d : α) (m : Act α) : Act α := fun s =>
  match m s with
  | (.error (.wait r), t) => (.error (.wait r), t)
  | (.error _, t) => (.ok d, undo s t)
  | r => r

/-- The agent as which the device makes the accesses of its own events. -/
def deviceAgent : CoreId × Nat × Nat := (0, 9, 0)

/-- Runs the action of an event of the device: it ends as the action left it, or waits. -/
def runEvent (s : State) (m : Act Unit) : Out :=
  match m.run { s with reader := deviceAgent } with
  | (.ok _, t) => .next { t.dropReads deviceAgent with reader := s.reader }
  | (.error (.wait r), _) => stall (s.ask r)
  | (.error _, _) => stall s

/-- A job's record. -/
def State.job (s : State) (job : BitVec 8) : JobRec := Tab.get JobRec.none s.jobs job.toNat

/-- Changes a field of a doubleword in a job's memory. -/
def hwField (job : BitVec 8) (va lo len v : Nat) : Act Unit := do
  let w ← hwWord job va
  hwPut job va (putBits (w64 w) lo len v).toNat

/-! ## Counters and levels (R285, R286) -/

/-- The address of a completion counter (R285). -/
def State.ctrAt (s : State) (job : BitVec 8) (i : Nat) : Nat := (s.job job).j2.toNat + 8 * i

/-- Adds to a completion counter (R285). -/
def ctrAdd (job : BitVec 8) (i v : Nat) : Act Unit := soft () do
  let a := (← get).ctrAt job i
  let w ← hwWord job a
  hwPut job a ((w + v) % 2 ^ 64)

/-- The address of a level record (R285). -/
def State.levelAt (s : State) (job : BitVec 8) (i : Nat) : Nat := (s.job job).j3.toNat + 16 * i

/-- Reads V0 of a level record. -/
def levelV0 (job : BitVec 8) (i : Nat) : Act Nat := do hwWord job ((← get).levelAt job i)

/-- KIND of V0. -/
def lvKind (v : Nat) : Nat := v / 2 ^ 60 % 4
/-- PARENT of V0. -/
def lvParent (v : Nat) : Nat := v / 2 ^ 20 % 2 ^ 20

/-! ## The key table (R295, R296) -/

/-- The exclusive-or of the four 12-bit pieces of a key (R295). -/
def keyFold (k : Nat) : Nat := (k % 4096) ^^^ (k / 2 ^ 12 % 4096) ^^^ (k / 2 ^ 24 % 4096) ^^^ (k / 2 ^ 36 % 4096)

/-- A key's home and set together: bits 10:0 of its fold (R295). -/
def keySet (k : Nat) : Nat := keyFold k % 2048

/-- The entry of a key. -/
def State.keyAt (s : State) (job : BitVec 8) (k : Nat) : Option KeyEnt := s.keys.find? fun e => e.job == job && e.key == k

/-- The free entries of a key's set (R295). -/
def State.keyRoom (s : State) (k : Nat) : Nat := 8 - (s.keys.filter fun e => keySet e.key == keySet k).length

/-- A task's place in the ready queues: die, priority, entry. -/
def State.readyOf (s : State) (job : BitVec 8) (task : BitVec 24) : Option (Nat × Nat × ReadyEnt) :=
  s.dies.findSome? fun d => d.2.ready.findSome? fun q => (q.2.find? fun e => e.job == job && e.task == task).map fun e => (d.1, q.1, e)

/-- Whether one task entered its ready queue before another (R292, R296). -/
def State.readyBefore (s : State) (job : BitVec 8) (a b : BitVec 24) : Bool :=
  match s.readyOf job a, s.readyOf job b with
  | some (_, _, x), some (_, _, y) => decide (x.since < y.since) || (decide (x.since = y.since) && decide (a.toNat < b.toNat))
  | some _, none => true
  | _, _ => false

/-- The reserver of a key: the oldest task that wants it (R296). -/
def State.reserver (s : State) (job : BitVec 8) (k : Nat) : Option (BitVec 24) :=
  ((s.wantKeys.filter fun w => w.1 == job && w.2.2 == k).map fun w => w.2.1).foldl (fun best t => match best with
    | none => some t
    | some b => if s.readyBefore job t b then some t else some b) none

/-- The key table after a change: entries neither held nor reserved are freed, and pending reservations take freed entries (R296). -/
def State.settleKeys (s : State) : State :=
  let s := { s with keys := s.keys.filter fun e => e.ex.isSome || !e.sh.isEmpty || s.wantKeys.any fun w => w.1 == e.job && w.2.2 == e.key }
  s.wantKeys.foldl (fun s w =>
    if (s.keyAt w.1 w.2.2).isNone && decide (0 < s.keyRoom w.2.2) then { s with keys := s.keys ++ [{ job := w.1, key := w.2.2, ex := none, sh := [] }] } else s) s

/-- Whether a task holds a key. -/
def KeyEnt.heldBy (e : KeyEnt) (t : BitVec 24) : Bool := e.ex == some t || e.sh.contains t

/-- Whether a key is free for a task in a mode (R294, R295), with `extra` more entries of its set to be taken; a key reserved by a task
that entered a ready queue before is not. -/
def State.keyFree (s : State) (job : BitVec 8) (task : BitVec 24) (k : Nat) (ex : Bool) (extra : Nat) : Bool :=
  match s.keyAt job k with
  | none => decide (extra < s.keyRoom k)
  | some e =>
    (e.heldBy task || (e.ex.isNone && (!ex || e.sh.isEmpty))) &&
    (match s.reserver job k with
     | some r => decide (r = task) || !s.readyBefore job r task
     | none => true)

/-- Whether every key of an accord is free for a task (R294). -/
def State.accordFree (s : State) (job : BitVec 8) (task : BitVec 24) : List (Nat × Bool) → Bool
  | [] => true
  | (k, m) :: rest =>
    s.keyFree job task k m (rest.filter fun x => keySet x.1 == keySet k && (s.keyAt job x.1).isNone).length && s.accordFree job task rest

/-- A task takes a key, which is in the table from then on. -/
def State.takeKey (s : State) (job : BitVec 8) (task : BitVec 24) (k : Nat) (ex : Bool) : State :=
  let s := if (s.keyAt job k).isNone then { s with keys := s.keys ++ [{ job := job, key := k, ex := none, sh := [] }] } else s
  { s with keys := s.keys.map fun e =>
      if e.job = job ∧ e.key = k ∧ !e.heldBy task then (if ex then { e with ex := some task } else { e with sh := e.sh ++ [task] }) else e }

/-- A task gives back its keys, all or those that `which` selects. -/
def State.dropKeys (s : State) (job : BitVec 8) (task : BitVec 24) (which : Nat → Bool) : State :=
  ({ s with keys := s.keys.map fun e =>
      if e.job = job ∧ which e.key then { e with ex := if e.ex = some task then none else e.ex, sh := e.sh.filter (· ≠ task) } else e } : State).settleKeys

/-- A task's reservations end (R296). -/
def State.dropWants (s : State) (job : BitVec 8) (task : BitVec 24) : State :=
  ({ s with wantKeys := s.wantKeys.filter fun w => !(w.1 == job && w.2.1 == task) } : State).settleKeys

/-! ## Task control blocks and loop-nest records (R287, R288, R291) -/

/-- The address of a TCB (R285). -/
def State.tcbAt (s : State) (job : BitVec 8) (id : Nat) : Nat := (s.job job).j1.toNat + 128 * id

/-- Reads a TCB. -/
def readTcb (job : BitVec 8) (id : Nat) : Act (List Nat) := do hwWords job ((← get).tcbAt job id) 16

/-- A field of a TCB image. -/
def tf (t : List Nat) (i lo len : Nat) : Nat := (t[i]?).getD 0 / 2 ^ lo % 2 ^ len

/-- Writes a field of a TCB. -/
def tcbField (job : BitVec 8) (id i lo len v : Nat) : Act Unit := do
  let a := (← get).tcbAt job id
  hwField job (a + 8 * i) lo len v

/-- STATE of a TCB written. -/
def setTaskState (job : BitVec 8) (id v : Nat) : Act Unit := soft () (tcbField job id 3 36 4 v)

/-- The accord of a TCB: keys with whether they are exclusive (R291). -/
def accordOf (t : List Nat) : List (Nat × Bool) := (List.range (Nat.min 8 (tf t 3 56 4))).map fun j => (tf t (8 + j) 0 48, tf t (8 + j) 48 1 == 1)

/-- The checks of R291 on a TCB reached by an ID. -/
def tcbOk (id : Nat) (t : List Nat) : Bool :=
  decide (tf t 0 24 8 = 0) && decide (tf t 0 0 24 = id) && decide (tf t 1 57 7 = 0) && decide (tf t 1 3 3 = 0) && decide (tf t 2 32 12 = 0) &&
  decide (tf t 3 60 1 = 0) && decide (tf t 3 0 19 = 0) && decide (tf t 3 56 4 ≤ 8) && decide (tf t 3 36 4 ≤ 6) &&
  decide (tf t 4 56 8 = 0) && decide (tf t 4 24 8 = 0) && decide (tf t 5 56 8 = 0) && decide (tf t 5 24 8 = 0) &&
  decide (tf t 6 57 7 = 0) && decide (tf t 6 0 2 = 0) && decide (tf t 7 57 7 = 0) && decide (tf t 7 0 12 = 0) &&
  (List.range (tf t 3 56 4)).all fun j => decide (tf t (8 + j) 49 15 = 0)

/-- The number of indices of a loop (R288). -/
def loopLen (start bound step : Int) : Nat :=
  if 0 < step then ((bound - start + (step - 1)) / step).toNat else if step < 0 then ((start - bound + (-step - 1)) / (-step)).toNat else 0

/-- START, BOUND and STEP of loop `k` of a record; the single index 0 beyond NL (R288). -/
def loopOf (r : List Nat) (k : Nat) : Int × Int × Int :=
  if tf r 0 4 2 < k then (0, 1, 1) else (sextNat (tf r (4 + k) 40 24) 24, sextNat (tf r (4 + k) 16 24) 24, sextNat (tf r (4 + k) 0 16) 16)

/-- The length of loop `k`. -/
def loopCount (r : List Nat) (k : Nat) : Nat := let x := loopOf r k; loopLen x.1 x.2.1 x.2.2

/-- The units of a record (R288). -/
def unitTotal (r : List Nat) : Nat := loopCount r 0 * loopCount r 1 * loopCount r 2 * loopCount r 3

/-- The tuple of unit `i` in nested order (R288). -/
def unitTuple (r : List Nat) (i : Nat) : List Int :=
  let idx := fun (k j : Nat) => let x := loopOf r k; x.1 + x.2.2 * (j : Int)
  let n3 := loopCount r 3
  let n2 := loopCount r 2
  let n1 := loopCount r 1
  [idx 0 (i / n3 / n2 / n1), idx 1 (i / n3 / n2 % n1), idx 2 (i / n3 % n2), idx 3 (i % n3)]

/-- The checks of R287, R288 and R306 on a loop-nest record. -/
def recordOk (va : Nat) (r : List Nat) : Bool :=
  let first := tf r 2 8 8
  let cnt := tf r 2 0 8
  decide (va % 64 = 0) && decide (tf r 0 57 7 = 0) && decide (tf r 0 0 2 = 0) && decide (first + cnt ≤ 255) &&
  ([0, 5, 10, 15].all fun q => decide (tf r 3 (4 * q) 4 = 0)) &&
  ((List.range 4).all fun k => if tf r 0 4 2 < k then decide (tf r (4 + k) 0 64 = 0) else decide (tf r (4 + k) 0 16 ≠ 0)) &&
  decide (unitTotal r < 2 ^ 32) &&
  (decide (tf r 0 3 1 = 0) || (decide (first / 64 = (first + cnt) / 64) && decide (cnt ≤ 15) && decide (unitTotal r ≤ cnt + 1)))

/-- The address of a TCB's loop-nest record. -/
def lnrOf (t : List Nat) : Nat := tf t 1 6 51 * 64

/-- The checks of R292 that a TCB and its level and loop-nest records must pass, STATE apart: the TCB and the record. -/
def checkTask (job : BitVec 8) (id : Nat) : Act (Option (List Nat × List Nat)) := do
  let t ← readTcb job id
  if !tcbOk id t then pure none
  else
    let g ← levelV0 job (tf t 2 44 20)
    let p ← levelV0 job (lvParent g)
    let r ← hwWords job (lnrOf t) 8
    let ks := (accordOf t).map fun x => x.1
    if lvKind g = 0 ∧ lvKind p = 1 ∧ recordOk (lnrOf t) r ∧ (ks.zipIdx.all fun x => !(ks.drop (x.2 + 1)).contains x.1) then pure (some (t, r)) else pure none

/-- Whether CANC is set in a task's graph, its phase or record 0 (R292, R304). -/
def levelsCancelled (job : BitVec 8) (t : List Nat) : Act Bool := soft false do
  let g ← levelV0 job (tf t 2 44 20)
  let p ← levelV0 job (lvParent g)
  let z ← levelV0 job 0
  pure (g.testBit 63 || p.testBit 63 || z.testBit 63)

/-- The successors of a task in list order (R291); ID 0 names no task. -/
def successorsOf (job : BitVec 8) (t : List Nat) : Act (List Nat) := do
  let n := tf t 3 40 16
  let four := [tf t 4 0 24, tf t 4 32 24, tf t 5 0 24, tf t 5 32 24]
  let more ← if 4 < n then soft [] (do pure ((chunksOf 4 (← hwRead job (tf t 6 2 55 * 4) (4 * (n - 4)))).map (· % 2 ^ 24))) else pure []
  pure (((four ++ more).take n).filter (· ≠ 0))

/-! ## Ready queues and the pool (R292, R312, R317) -/

/-- A ready queue of a die. -/
def Die.queue (d : Die) (pri : Nat) : List ReadyEnt := Tab.get [] d.ready pri

/-- A task placed in its ready queue: at the tail, among those of the same cycle in ascending ID (R292). -/
def insertReady (e : ReadyEnt) : List ReadyEnt → List ReadyEnt
  | [] => [e]
  | x :: l => if x.since = e.since ∧ e.task.toNat < x.task.toNat then e :: x :: l else x :: insertReady e l

/-- A task that overflowed its queue placed in the pool: at the tail, among those of the same cycle in ascending ID (R292, R317, R322). -/
def insertPool (e : PoolEnt) : List PoolEnt → List PoolEnt
  | [] => [e]
  | x :: l => if x.overflow ∧ x.since = e.since ∧ e.task.toNat < x.task.toNat then e :: x :: l else x :: insertPool e l

/-- The die and priority of a READY task's queue: that of its record's FIRST (R292). -/
def queueOf (job : BitVec 8) (t : List Nat) : Act (Nat × Nat) := do
  let w ← soft 0 (hwWord job (lnrOf t + 16))
  pure (w / 2 ^ 8 % 256 / 64, tf t 1 0 3)

/-- The entry of a full queue that gives its place to a task of lower ID that becomes ready in the same cycle: the queue's last, if it entered in
that cycle with a higher ID (R292, R322). -/
def displaced (now id : Nat) (q : List ReadyEnt) : Option ReadyEnt :=
  match q.getLast? with
  | some y => if y.since = now ∧ id < y.task.toNat then some y else none
  | none => none

/-- A task enters a ready queue, or the pool where the queue is full (R292, R317); with the pool full too, it waits. It goes to the pool, too,
while an earlier task of the queue is there, and in a cycle in which one has come from there (log 15). -/
def enterReady (job : BitVec 8) (id : Nat) (t : List Nat) : Act Unit := do
  let q ← queueOf job t
  let s ← get
  let now := s.ccount
  let e : ReadyEnt := { job := job, task := BitVec.ofNat 24 id, since := now, reserving := false, pooled := false }
  let old := (s.die q.1).queue q.2
  let ahead ← (s.pool.filter fun p => p.overflow && (decide (p.since ≠ now) || decide (p.task.toNat < id))).anyM fun p => do
    let u ← soft [] (readTcb p.job p.task.toNat)
    let r ← queueOf p.job u
    pure (decide (r = q))
  let free := !ahead && !old.any fun x => x.pooled && decide (x.since = now)
  if free && decide (old.length < 4096) then set (s.modDie q.1 fun d => { d with ready := Tab.put d.ready q.2 (insertReady e old) })
  else
    Act.need (decide (s.pool.length < 4096))
    let spill := fun (j : BitVec 8) (t : BitVec 24) => insertPool { job := j, task := t, overflow := true, since := now } s.pool
    match (if free then displaced now id old else none) with
    | some y => set { s.modDie q.1 fun d => { d with ready := Tab.put d.ready q.2 (insertReady e (old.erase y)) } with pool := spill y.job y.task }
    | none => set { s with pool := spill job (BitVec.ofNat 24 id) }

/-- A task leaves its ready queue and the pool. -/
def State.leaveReady (s : State) (job : BitVec 8) (task : BitVec 24) : State :=
  { s with
    dies := s.dies.map fun d => (d.1, { d.2 with ready := d.2.ready.map fun q => (q.1, q.2.filter fun e => !(e.job == job && e.task == task)) })
    pool := s.pool.filter fun p => !(p.job == job && p.task == task) }

/-! ## The end of a job and of a level (R286) -/

/-- The job ends: its symbols are freed, its keys, pool entries and queue entries discarded (R226, R286), which pending reservations take
(R296); its plane requests that have ended are posted no more (R420), and one that still runs goes on to its DONE, or until the entry gets another job
(R419, R425: the run of R425 ends its job while its planes are on their way; log 33); a later unit of the entry belongs to another job (R102). -/
def State.endJob (s : State) (job : BitVec 8) : State :=
  State.settleKeys { s with
    cores := s.cores.map fun x => (x.1, { x.2 with
      planes := x.2.planes.filter (fun r => decide (r.job ≠ job) || !r.done), newJob := x.2.newJob || decide (x.2.prevJob = some job) })
    dies := s.dies.map fun d => (d.1, { (d.2.endJob job) with ready := d.2.ready.map fun q => (q.1, q.2.filter fun e => decide (e.job ≠ job)) })
    keys := s.keys.filter fun e => decide (e.job ≠ job)
    wantKeys := s.wantKeys.filter fun w => decide (w.1 ≠ job)
    pool := s.pool.filter fun p => decide (p.job ≠ job)
    parked := s.parked.filter fun l => decide (l.job ≠ job) }

/-- A member of a level record has ended (R286); with record 0 complete the job ends. -/
def memberEnded (job : BitVec 8) (rec : Nat) : Nat → Act Unit
  | 0 => pure ()
  | fuel + 1 => do
    let a := (← get).levelAt job rec
    let ok ← soft none (do pure (some (← hwWords job a 2)))
    match ok with
    | none => pure ()
    | some v =>
      let v0 := tf v 0 0 64
      let out := tf v 1 0 64
      if out = 0 then pure ()
      else
        soft () (hwPut job (a + 8) (out - 1))
        if out = 1 then
          soft () (hwField job a 62 1 1)
          if v0.testBit 16 then ctrAdd job (v0 % 2 ^ 16) 1
          if lvKind v0 = 0 then
            let p ← soft 0 (levelV0 job (lvParent v0))
            if lvKind p = 1 then memberEnded job (lvParent v0) fuel
          else if lvKind v0 = 1 then
            let z ← soft 0 (levelV0 job 0)
            if lvKind z = 2 ∧ rec ≠ 0 then memberEnded job 0 fuel
          if rec = 0 then modify fun s => s.endJob job

/-! ## Kills (R305) and cancellation (R304, R305) -/

/-- A core after its unit has ended or been taken off it (R101): queues, token counts and macro requests discarded, masks and loop
stacks cleared. -/
def Core.noUnit (c : Core) : Core :=
  let idle : Seq → Seq := fun q => { q with loops := [], macroQ := [], mpos := none, wmask := 0, pmask := 0, halting := false, halted := true, stop := none, taken := false }
  { c with
    k := idle c.k, l := idle c.l, c := idle c.c, s := idle c.s, q := [], iq := [], oq := [], tk := [], cposts := []
    unit := none
    prevJob := match c.unit with | some u => some u.job | none => c.prevJob
    prevTask := match c.unit with | some u => some u.task | none => c.prevTask
    cutting := .running, fatal := none, frozen := false, watch := none, kWait := none, late := [], starting := none }

/-- The claims of a core that its home rings have not granted are withdrawn (R385). -/
def State.withdrawClaims (s : State) (n : CoreId) : State :=
  { s with cores := s.cores.map fun x => (x.1, { x.2 with rings := x.2.rings.map fun r => (r.1, { r.2 with waits := r.2.waits.filter fun w => decide (w.core ≠ n) }) }) }

/-- A core whose unit stops at once with its work discarded (R305, R385): words in flight, requests of the collective engine not
started and the group go; K's atomics on their way return to no register. -/
def State.clearCore (s : State) (n : CoreId) : State :=
  ((s.withdrawClaims n).dropLoads n).modCore n fun c =>
    { c.noUnit with
      tl := { c.tl with flight := [] }, ts := { c.ts with flight := [] }, ta := { c.ta with flight := [] }
      vec := { c.vec with flight := [], retiredN := c.vec.issuedN }
      mat := { c.mat with flight := [], retiredN := c.mat.issuedN, arrayTill := 0 }
      group := Group.reset
      csrPend := [], ringPend := [], coll := c.coll.filter fun r => r.started, amos := c.amos.map fun r => { r with ret := none }
      att := { c.att with busy := false, exp := none, parked := none } }

/-- A kill of the unit on a core (R270, R305, R307): its group is aborted, then its state discarded. -/
def killUnit (n : CoreId) : Act Unit := do
  let _ ← soft 0 (lateMem (abortGroup n))
  modify fun s => (s.clearCore n).modDie (dieOf n) fun d => { d with held := d.held.filter (· ≠ n) }

/-- A block of a saved group returned to its stream's pool (R346, R359). -/
def poolPushJ (job : BitVec 8) (stream e : Nat) : Act Unit := do
  let p := ((← get).sd stream 4).toNat
  let w ← hwWords job p 2
  let cap := tf w 0 32 32
  let top := tf w 0 0 32
  if cap ≤ top then modify fun s => s.bumpSd stream 18 0
  else
    hwPut job (tf w 1 0 64 + 8 * top) e
    hwPut job p (cap * 2 ^ 32 + top + 1)

/-- The group of a cut unit is aborted (R270): its taken blocks return to their pool, and its group state reads closed. -/
def abortSaved (job : BitVec 8) (save : Nat) (u : CutUnit) : Act Unit := soft () do
  let at_ := save + u.rank * 2 ^ 22
  let st ← hwWord job (at_ + 0x39D000 + 0x11F0)
  if st.testBit 63 then
    hwPut job (at_ + 0x39D000 + 0x11F0) 0
    let b ← hwWords job (at_ + 0x3AD000) 3
    if (tf b 0 63 1) = 1 then
      let es ← hwWords job (at_ + 0x3AD400) (Nat.min 4095 (tf b 2 0 64))
      for e in es do poolPushJ job (tf b 0 0 12) e

/-- SAVE of a TCB (R291). -/
def saveOf (t : List Nat) : Nat := tf t 7 12 45 * 4096

/-- The launch of a task that has a slot: die, slot, launch. -/
def State.launchOf (s : State) (job : BitVec 8) (task : BitVec 24) : Option (Nat × Nat × Launch) :=
  s.dies.findSome? fun d => (d.2.launches.find? fun l => l.2.job == job && l.2.task == task).map fun l => (d.1, l.1, l.2)

/-- A launch slot freed, with the cores its quire held (R300, R306). -/
def State.freeSlot (s : State) (die slot : Nat) : State :=
  let held := match s.launchAt die slot with | some l => l.held | none => []
  let s := held.foldl (fun s n => s.modCore n fun c => { c with quireHeld := false }) s
  s.modDie die fun d => { d with launches := d.launches.filter fun x => decide (x.1 ≠ slot) }

/-- One decrement of a task (R293), after `before` has been done to its TCB: true where it becomes READY from PENDING. -/
def decrement (job : BitVec 8) (id : Nat) : Act Bool := soft false do
  let t ← readTcb job id
  let dep := tf t 0 32 32
  if dep = 0 then
    tcbField job id 3 20 1 1
    pure false
  else
    tcbField job id 0 32 32 (dep - 1)
    pure (decide (dep = 1) && decide (tf t 3 36 4 = 1))

/-- Cancels the tasks of a list (R305), and in turn those of a cancelled level that become ready by it (R304). -/
def cancelTasks (job : BitVec 8) : Nat → List Nat → Act Unit
  | 0, _ => pure ()
  | _, [] => pure ()
  | fuel + 1, id :: rest => do
    let task := BitVec.ofNat 24 id
    let t ← soft [] (readTcb job id)
    if t = [] ∨ tf t 3 36 4 = 4 ∨ tf t 3 36 4 = 6 then cancelTasks job fuel rest
    else
      match (← get).launchOf job task with
      | some (die, slot, l) =>
        for n in (← get).unitCores die slot do killUnit n
        for u in l.resume do abortSaved job (saveOf t) u
        modify fun s => s.freeSlot die slot
      | none => pure ()
      for l in (← get).parked.filter (fun l => l.job == job && l.task == task) do
        for u in l.resume do abortSaved job (saveOf t) u
      modify fun s =>
        let s := { s with parked := s.parked.filter fun l => !(l.job == job && l.task == task) }
        ((s.dropKeys job task fun _ => true).dropWants job task).leaveReady job task
      soft () (tcbField job id 3 19 1 0)
      setTaskState job id 6
      let succ ← successorsOf job t
      let ready ← succ.foldlM (init := []) fun acc x => do
        soft () (tcbField job x 3 21 1 1)
        if ← decrement job x then pure (acc ++ [x]) else pure acc
      let more ← ready.foldlM (init := []) fun acc x => do
        let u ← soft [] (readTcb job x)
        if ← levelsCancelled job u then pure (acc ++ [x])
        else do
          setTaskState job x 2
          enterReady job x u
          pure acc
      memberEnded job (tf t 2 44 20) 4
      cancelTasks job fuel (rest ++ more)

/-- Cancels one task (R305). -/
def cancelTask (job : BitVec 8) (id : Nat) : Act Unit := cancelTasks job (2 ^ 24) [id]

/-- The decrements of a task's successors in list order (R293, R295); a task of a cancelled level is cancelled as it becomes ready. -/
def releaseSuccessors (job : BitVec 8) (t : List Nat) : Act Unit := do
  for x in ← successorsOf job t do
    if ← decrement job x then
      let u ← soft [] (readTcb job x)
      if ← levelsCancelled job u then cancelTask job x
      else
        setTaskState job x 2
        enterReady job x u

/-- Submits a task whose checks have passed (R292). -/
def submitTask (job : BitVec 8) (id : Nat) (t : List Nat) : Act Unit := do
  if ← levelsCancelled job t then cancelTask job id
  else if tf t 3 36 4 = 5 ∨ tf t 0 32 32 = 0 then
    setTaskState job id 2
    enterReady job id t
  else setTaskState job id 1

/-- A submission by the host or from the pool (R292): false where it is refused. -/
def submitChecked (job : BitVec 8) (id : Nat) : Act Bool := do
  let r ← soft none (checkTask job id)
  match r with
  | some (t, _) =>
    if tf t 3 36 4 = 0 ∨ tf t 3 36 4 = 5 then
      submitTask job id t
      pure true
    else pure false
  | none => pure false

/-- Marks a level record cancelled and cancels its tasks that are resident or parked (R304), a parked one that has been submitted again at its
dispatch; cancelling record 0 frees the job's symbols (R226). -/
def markCancelled (job : BitVec 8) (rec : Nat) : Act Unit := do
  soft () (do hwField job ((← get).levelAt job rec) 63 1 1)
  let s ← get
  let live := (s.dies.flatMap fun d => d.2.launches.map fun l => (l.2.job, l.2.task, true)) ++ s.parked.map fun l => (l.job, l.task, false)
  for (j, task, resident) in live do
    if j = job then
      let t ← soft [] (readTcb job task.toNat)
      let hit ← soft false (do
        let g := tf t 2 44 20
        let p ← levelV0 job g
        pure (decide (rec = 0) || decide (g = rec) || decide (lvParent p = rec)))
      if hit && (resident || decide (tf t 3 36 4 = 5)) then cancelTask job task.toNat
  if rec = 0 then modify fun s => { s with dies := s.dies.map fun d => (d.1, { d.2 with syms := d.2.syms.filter fun y => decide (y.1 ≠ job) }) }

end Sys2Proof.Machine
end

