-- ==== Sys2Proof/Machine/Traps.lean ====
section
/-! DEFINITION. The return from a trap (R137, R382), and the faults of L, C, S and SLICE watchpoints that K takes at a word
boundary (R381, R390). -/
namespace Sys2Proof.Machine

/-- Discards the held word of a stopped L, C or S, for a return with SKIP (R382). -/
def State.dropHeld (s : State) (n : CoreId) (q : Ctx) : State :=
  match ((s.core n).seq q).stop with
  | some { held := some id, .. } =>
    if q = .c then
      (match (s.core n).mat.flight.find? fun f => f.id = id with
       | some f => s.discardM n f
       | none => s)
    else
      (match ((s.core n).tu q).flight.find? fun f => f.id = id with
       | some f => s.discard n q f
       | none => s)
  | _ => s

/-- `tret` (R137, R382): the checks in their order, then the return. -/
def execTret (s : State) : Out :=
  let u := s.here.sup s.cur.2
  if !s.canIssue then stall s
  else if s.seq.mpos.isSome || decide (u.hdepth = 0) then .next s.illegal
  else if u.tsw &&& tswReserved ≠ 0 || decide (4 < bitsOf u.tsw 0 3) || (u.tsw.getLsbD 24 && !causeAllocated (bitsOf u.tcause 0 8)) then
    .next (s.raise 0x03 u.tsw)
  else if bitsOf u.tepc 0 2 ≠ 0 then .next (s.raise 0x04 u.tepc)
  else .next (s.trapReturn State.dropHeld).mark

/-- Whether every earlier word of a stopped sequencer has retired: a fault at issue is precise (R17, R202). -/
def Core.quiet (c : Core) : Ctx → Bool
  | .l => c.tl.flight.isEmpty
  | .s => c.ts.flight.isEmpty
  | .c => c.vec.flight.isEmpty && (c.mat.flight.filter fun f => !f.att).isEmpty && c.cposts.isEmpty
  | _ => true

/-- The fault of a sequencer that may be taken now (R381): not taken before, and precise or held at its cursor. -/
def Core.pendingStop (c : Core) (q : Ctx) : Option StopRec :=
  match (c.seq q).stop with
  | some r => if !(c.seq q).taken && (r.held.isSome || c.quiet q) then some r else none
  | none => none

/-- Whether K of a core stands at a word boundary at depth 0, where pending traps are taken (R380, R381). -/
def State.atBoundary (s : State) (n : CoreId) : Bool :=
  let c := s.core n
  c.unit.isSome && c.fatal.isNone && decide (c.cutting = .running) && decide (c.debugHalt = .running) && !c.k.halted && c.kWait.isNone &&
  decide (c.supK.hdepth = 0) && decide (c.k.nextIssue ≤ s.ccount) && decide (c.slotAt ≠ s.ccount + 1)

/-- The trap K takes next: of L, C, S in that order, else the SLICE watchpoint (R381). -/
def Core.nextTrap (c : Core) : Option (Ctx × StopRec) :=
  [Ctx.l, .c, .s].findSome? fun q => (c.pendingStop q).map fun r => (q, r)

/-- Whether a trap is to be taken at K's boundary. -/
def State.trapDue (s : State) (n : CoreId) : Bool :=
  s.atBoundary n && (!(s.core n).late.isEmpty || (s.core n).nextTrap.isSome || (s.core n).watch.isSome)

/-- K takes the next pending trap (R380, R381, R390), first a failure of a write of its own that has retired (R127, R377; log 36): the stopped sequencer is named in STOP; for a SLICE watchpoint, OFF and the
macro fields hold the log and LATE is 1. With DBGH a watchpoint causes a debug halt and no trap: a stopped sequencer goes on from its cursor
at the release (R389). -/
def execTrapTake (n : CoreId) (s : State) : Out :=
  let c := s.core n
  if !s.trapDue n then stall s
  else
  let s := s.dropReads (n, 0, 0)
  match c.late with
  | (code, cause, val) :: rest => .next ((s.modCore n fun c => { c with late := rest }).takeTrap n .k code val cause 0)
  | [] => match c.nextTrap with
  | some (q, r) =>
    let debug := (decide (r.code = 0x11) || decide (r.code = 0x12)) && c.snapctl.getLsbD 3
    let s := s.modCore n fun c => c.setSeq q (if debug then { c.seq q with stop := none, taken := false } else { c.seq q with taken := true })
    .next (s.takeTrap n .k r.code r.val (causeWord r.off r.mac r.late (ctxNum q) r.code) (2 ^ (ctxNum q - 1)))
  | none => match c.watch with
    | none => stall s
    | some (log, a) =>
      let s := s.modCore n fun c => { c with watch := none }
      .next (s.takeTrap n .k 0x11 a (w64 (log.toNat + 2 ^ 10 + 0x11)) 0)

end Sys2Proof.Machine
end

