-- ==== Sys2Proof/Machine/Cuts.lean ====
section
/-! DEFINITION. Cuts, saves and resumes (R383 to R388, R440), parking (R300, R301, R384, R395), debug halts and the debug window
(R389), and the snapshot capture (R393). -/
namespace Sys2Proof.Machine

/-! ## Reading a save block back (R388, R440) -/

/-- Bytes of a sparse image. -/
def imgBytes (img : Tab Byte) (off len : Nat) : List Byte := Tab.pick 0 img ((List.range len).map (· + off))
/-- A doubleword of a sparse image. -/
def imgW (img : Tab Byte) (off : Nat) : Nat := ofBytes (imgBytes img off 8)
/-- Consecutive doublewords of a sparse image. -/
def imgWs (img : Tab Byte) (off k : Nat) : List Nat := dwords (imgBytes img off (8 * k))
/-- The numbers of `w` bytes each at an offset, as a table of the non-zero ones. -/
def imgTab (img : Tab Byte) (off w k : Nat) : Tab Nat := ((chunksOf w (imgBytes img off (w * k))).zipIdx.filter fun x => x.1 ≠ 0).map fun x => (x.2, x.1)

/-- The state region's place in a save block (R387). -/
def stAt : Nat := 0x39D000

/-- A sequencer's loop stack from `d` entries of 24 bytes, innermost first. -/
def loopsOf (ws : List Nat) (d : Nat) : List LoopEntry :=
  ((List.range d).map fun i => ({ start := w64 ((ws[3 * i]?).getD 0), stop := w64 ((ws[3 * i + 1]?).getD 0), rem := (ws[3 * i + 2]?).getD 0 } : LoopEntry)).reverse

/-- A sequencer from its section (R440): none where a value is one that its writes refuse. K's macro parameter is read again at its mcall
(R106). -/
def seqOf (img : Tab Byte) (off : Nat) (me : Nat) (q : Seq) : Option Seq :=
  let w := fun (i : Nat) => imgW img (off + i)
  let depth := w 0x118
  let mp := w 0x180
  let mq := w 0x188
  let masks := w 0x110
  if !csrOk 1 (w64 (w 0x100)) || decide (4 < depth) || decide (4 < mq) || masks.testBit me || masks.testBit (4 + me) then none
  else some { q with
    regs := ((imgTab img off 8 32).filter fun x => x.1 ≠ 0).map fun x => (x.1, w64 x.2)
    regAt := []
    fcsr := BitVec.ofNat 17 (w 0x100), flagPend := 0, flagAt := 0
    pc := w64 (w 0x108)
    wmask := BitVec.ofNat 4 masks, pmask := BitVec.ofNat 4 (masks / 16)
    loops := loopsOf (imgWs img (off + 0x120) 12) depth
    mpos := if mp.testBit 0 then some {
        idx := mp / 2 % 64, p := (if me = 0 then none else match q.mpos with | some m => m.p | none => some 0), word := mp / 2 ^ 7 % 32
        last := match q.mpos with | some m => m.last && decide (m.idx = mp / 2 % 64) && decide (m.word = mp / 2 ^ 7 % 32) | none => false } else none
    macroQ := (imgWs img (off + 0x190) mq).map fun x => { idx := x % 64, p := x / 256 % 32, vis := 0 } }

/-- A count modulo 2^21 as the absolute count nearest to an earlier one (R181). -/
def liftCount (cur v : Nat) : Nat :=
  let b := cur / 2 ^ 21 * 2 ^ 21 + v % 2 ^ 21
  if cur + 2 ^ 20 < b ∧ 2 ^ 21 ≤ b then b - 2 ^ 21 else if b + 2 ^ 20 < cur then b + 2 ^ 21 else b

/-- A ring register from its 160 bytes; requests that have come to it since the cut still wait. -/
def ringFrom (img : Tab Byte) (off : Nat) (r : Ring) (waits : List RingWait) : Ring :=
  let st := imgW img (off + 16)
  let head := liftCount r.head (st % 2 ^ 21)
  let tail := liftCount r.tail (st / 2 ^ 21 % 2 ^ 21)
  let claim := liftCount r.claim (st / 2 ^ 42 % 2 ^ 21)
  let m := ofBytes (imgBytes img (off + 32) 128)
  { r with
    base := w64 (imgW img off), ctl := w64 (imgW img (off + 8)), colo := st.testBit 63
    head := head, tail := tail, claim := claim
    pushed := if head = r.head ∧ tail = r.tail ∧ claim = r.claim then r.pushed else (List.range (tail - head)).map (· + head)
    marks := ((List.range 1024).filter m.testBit).map (· + head)
    waits := waits }

/-- A queue with `k` entries of the given values, the last `r` of them reserved, and its pops (R388). -/
def queueFrom {α : Type} (q : Queue α) (k r pops : Nat) (val : Nat → α) : Queue α :=
  { q with
    entries := (List.range k).map fun i =>
      ({ val := if i + r < k then some (val i) else none, vis := 0, cov := (match q.entries[i]? with | some e => e.cov | none => Cover.none) } : Entry α)
    pops := pops, freed := 0, freeAt := 0 }

/-- A token queue with `k` visible tokens; the entries from the first reserved one follow them. -/
def tokensFrom (q : Queue Unit) (k pops : Nat) : Queue Unit :=
  { q with
    entries := ((List.range k).map fun i => ({ val := some (), vis := 0, cov := (match q.entries[i]? with | some e => e.cov | none => Cover.none) } : Entry Unit)) ++
      (q.entries.dropWhile fun e => e.val.isSome)
    pops := pops, freed := 0, freeAt := 0 }

/-- A number modulo 2^21 read back for a ring position held by a word. -/
def posFrom (p : Option Nat) (v : Nat) : Option Nat := p.map fun x => liftCount x v

/-- What a word of L or S in flight is: kind, operation, ring, queue or buffer, mode, ORD and KEEP; none for one that is never held. -/
def heldShape : Instr → Option (TKind × Nat × Nat × Nat × Bool × Bool)
  | .tld _ _ t _ m _ _ o => some (.move, 1, t.toNat, m.toNat, o = 1, false)
  | .tst _ _ t _ m _ _ o => some (.move, 2, t.toNat, m.toNat, o.getLsbD 0, o.getLsbD 1)
  | .cpy _ _ _ _ _ o => some (.move, 3, 0, 0, o = 1, false)
  | .gat _ _ t _ m _ _ o => some (.move, 4, t.toNat, m.toNat, o = 1, false)
  | .sct _ _ t _ m _ _ o => some (.move, 5, t.toNat, m.toNat, o.getLsbD 0, o.getLsbD 1)
  | .win _ _ t _ m _ _ o => some (.move, 6, t.toNat, m.toNat, o = 1, false)
  | .rclone .. => some (.rows, 7, 0, 0, false, false)
  | .rinit .. => some (.rows, 8, 0, 0, false, false)
  | .wfeed _ _ t _ _ _ => some (.move, 9, t.toNat, 3, false, false)
  | .rgwf _ t _ _ => some (.ringWord, 0x0A, t.toNat, 0, false, false)
  | .rgwe _ t _ _ => some (.ringWord, 0x0B, t.toNat, 0, false, false)
  | .rgclaim _ t _ _ => some (.ringWord, 0x0C, t.toNat, 0, false, false)
  | .rgpush _ t _ _ => some (.ringWord, 0x0D, t.toNat, 0, false, false)
  | .rgpop _ t _ _ => some (.ringWord, 0x0E, t.toNat, 0, false, false)
  | .rgend t _ _ => some (.ringWord, 0x0F, t.toNat, 0, false, false)
  | .tdset _ d _ _ => some (.ringWord, 0x10, d.toNat, 0, false, false)
  | .qpush q _ => some (.post, 0, 16 + q.toNat, 0, false, false)
  | .tkpost t => some (.post, 0, t.toNat, 0, false, false)
  | _ => none

/-- A word in flight as the word of its record describes it; a copy of the attention sequencer is the word of its microword already. -/
def TFlight.reshape (f : TFlight) (agent : Nat) (w : BitVec 32) : Option TFlight :=
  if w = f.word ∧ (f.id ≠ 0 ∨ agent = 4) then some f
  else if agent = 4 then none
  else match (decode .tcode w).bind heldShape with
    | none => none
    | some (k, op, t, m, ord, keep) =>
      some { f with word := w, kind := k, op := op, target := t, code := t, mode := m, ord := ord, keep := keep, ahead := [], got := [] }

/-- The target mask whose token queues, by `g`, are among the codes of a record. -/
def maskFrom (g : BitVec 4 → List Nat) (codes : List Nat) : BitVec 4 :=
  (List.range 4).foldl (fun m j => let b : BitVec 4 := BitVec.ofNat 4 (2 ^ j); if g b ≠ [] ∧ (g b).all codes.contains then m ||| b else m) 0

/-- A held word of L, S or the attention sequencer's copies from its record (R388, R440), over the word kept at the cut or an empty one
(`id` 0): none where the record describes no word that can be resumed. -/
def heldTFrom (agent : Nat) (c : Core) (f : TFlight) (b : List Byte) : Option TFlight :=
  let w := fun (i : Nat) => ofBytes ((b.drop i).take 8)
  let td : BitVec 512 := BitVec.ofNat 512 (ofBytes ((b.drop 64).take 64))
  match f.reshape agent (BitVec.ofNat 32 (w 0)) with
  | none => none
  | some f =>
    let codes := (b.drop 56).take 8 |>.map BitVec.toNat
    let granted := (w 48).testBit 63
    let claims := (f.fillsRing && !f.emptyWin) || (decide (f.kind = .ringWord) && decide (f.op = 0x0F))
    let reads := decide (f.kind = .move) && memIsDst f.op && decide (f.mode = 0)
    let r := c.ring f.target
    let o := fun (i : Nat) => w64 (w (24 + 8 * i))
    let f : TFlight := match f.kind with
      | .post => { f with val := o 0 }
      | .ringWord => if f.op = 0x10 then { f with a := o 0 } else if f.op = 0x0F then f else { f with l := o 0 }
      | _ => { f with a := o 0, l := o 1 }
    let f : TFlight := { f with
      pc := w64 (w 8), cursor := w 16, td := td
      rpos := if reads then some (liftCount (f.rpos.getD r.head) (w 48 % 2 ^ 21)) else f.rpos
      claimed := if claims && granted then some (liftCount (f.claimed.getD r.claim) (w 48 / 2 ^ 21 % 2 ^ 21)) else none
      needsClaim := claims && !granted
      post := maskFrom (postCodes agent) codes, popTok := maskFrom (waitCodes agent) codes
      ahead := f.ahead.zipIdx.map fun x => (x.1.1, ((b.drop (128 + 64 * x.2)).take x.1.2.1.length, x.1.2.2)) }
    if w 0 / 2 ^ 32 % 2 ^ 8 ≠ agent ∨ (granted ∧ !claims) ∨ (decide (f.kind = .move) && decide (td ≠ 0) && !tdOk td) ∨
      (f.kind = .move ∧ f.op ≠ 0x11 ∧ f.blocks < f.cursor) then none else some f

/-- A held M-word from its record (R388, R440), over the word kept at the cut, or as its word or microword describes it with `args`: none where the
core could not resume it. -/
def heldMFrom (c : Core) (att : Bool) (kept : Option MFlight) (args : Option MArgs) (b : List Byte) : Option MFlight :=
  let w := fun (i : Nat) => ofBytes ((b.drop i).take 8)
  let codes := (b.drop 56).take 8 |>.map BitVec.toNat
  let word : BitVec 32 := BitVec.ofNat 32 (w 0)
  let same := match kept with | some f => decide (f.word = word) && (!att || decide (f.pc = w64 (w 8))) | none => false
  let fresh := args.map fun a => MFlight.of (MFlight.blank word (w64 (w 8)) none att) a c.c.fcsr ((a.reads.map fun i => (c.ring i).head) ++ a.writes.map fun i => (c.ring i).claim)
  match if same then kept else fresh with
  | none => none
  | some f =>
    let g : MFlight := { f with
      pc := w64 (w 8), cut := some (w 16), from_ := w 16, n := w64 (w 24), stamp := w64 (w 32)
      post := maskFrom (postCodes 2) codes, popTok := maskFrom (waitCodes 2) codes
      posB := if f.op = 4 then f.posB else posFrom f.posB (w 48 % 2 ^ 21)
      posA := posFrom f.posA (if f.op = 4 then w 48 % 2 ^ 21 else w 48 / 2 ^ 21 % 2 ^ 21) }
    if w 0 / 2 ^ 32 % 2 ^ 8 ≠ (if att then 4 else 2) ∨ !g.args.limits ∨ g.slotsOf < w 16 then none else some g

/-- What C holds by a record (R388, R440): an M-word, or a token or entry that it posts behind M-words. -/
def heldCFrom (c : Core) (kept : Option (MFlight ⊕ CPost)) (b : List Byte) : Option (MFlight ⊕ CPost) :=
  let w := fun (i : Nat) => ofBytes ((b.drop i).take 8)
  let word : BitVec 32 := BitVec.ofNat 32 (w 0)
  let post := fun (code : Nat) => some (.inr { word := word, pc := w64 (w 8), code := code, val := w64 (w 24), afterV := 0, afterM := 0 } : MFlight ⊕ CPost)
  match decode .ccode word with
  | some (.qpush q _) => post (16 + q.toNat)
  | some (.tkpost t) => post t.toNat
  | i => (heldMFrom c false (kept.bind fun x => match x with | .inl f => some f | .inr _ => none) (i.bind mWordArgs) b).map .inl

/-- What the attention sequencer holds by a record, whose word stands in the control store at its UPC: a copy or a step (R388, R440). A gather
is resumed only as it was kept (log 41). -/
def heldAFrom (store : Tab Word) (e : TFlight) (c : Core) (kept : Option (TFlight ⊕ MFlight)) (b : List Byte) : Option (TFlight ⊕ MFlight) :=
  let w := fun (i : Nat) => ofBytes ((b.drop i).take 8)
  let micro := Tab.get 0 store (w 8)
  let u := microFields micro
  let fits := decide (micro.setWidth 32 = (BitVec.ofNat 32 (w 0) : BitVec 32))
  let copy := fun (f : TFlight) => (heldTFrom 4 c f b).map Sum.inl
  let step := fun (k : Option MFlight) => (heldMFrom c true k (if fits then microMArgs micro else none) b).map Sum.inr
  match kept with
  | some (.inl f) =>
    if f.word = BitVec.ofNat 32 (w 0) ∧ f.pc = w64 (w 8) then copy f
    else if fits ∧ u.1 = 7 then copy { e with word := micro.setWidth 32, kind := .move, op := 1, target := u.2.ra.toNat } else step none
  | some (.inr f) => if fits ∧ u.1 = 7 then copy { e with word := micro.setWidth 32, kind := .move, op := 1, target := u.2.ra.toNat } else step (some f)
  | none => if fits ∧ u.1 = 7 then copy { e with word := micro.setWidth 32, kind := .move, op := 1, target := u.2.ra.toNat } else step none

/-- Held words from the records of their agent, in order, each over the word kept in its place; a word without a record is not resumed. -/
def fromAll {α β : Type} (g : Option α → List Byte → Option β) : List α → List (List Byte) → Option (List β)
  | _, [] => some []
  | [], b :: bs => match g none b, fromAll g [] bs with
    | some x, some r => some (x :: r)
    | _, _ => none
  | a :: l, b :: bs => match g (some a) b, fromAll g l bs with
    | some x, some r => some (x :: r)
    | _, _ => none

/-- The flights of a copy side with the held ones replaced; those past them are new, numbered from `id` on. -/
def putHeld (id : Nat) : List TFlight → List TFlight → List TFlight
  | [], new => new.zipIdx.map fun x => { x.1 with id := id + x.2 }
  | f :: l, new => if f.kind = .popped then f :: putHeld id l new else match new with
    | g :: r => g :: putHeld id l r
    | [] => putHeld id l []

/-- C's posts among what it holds, each behind the M-words before it. -/
def postsOf (k : Nat) : List (MFlight ⊕ CPost) → List CPost
  | [] => []
  | .inl _ :: r => postsOf (k + 1) r
  | .inr p :: r => { p with afterM := k } :: postsOf k r

/-- M-words with a number each. -/
def numberM (id : Nat) (l : List MFlight) : List MFlight := l.zipIdx.map fun x => if x.1.id = 0 then { x.1 with id := id + x.2 } else x.1

/-- The held words of a core from the records of a save block (R388, R440); `e` is an empty word. Numbers up to 300 past the core's last stand for
the words that software has added. -/
def heldFrom (img : Tab Byte) (e : TFlight) (c : Core) : Option Core :=
  let k := imgW img (0x3A5000 + 0x3F8)
  let recs := (List.range (Nat.min k 60)).map fun i => imgBytes img (0x3A5400 + 256 * i) 256
  let agent := fun (b : List Byte) => match b[4]? with | some x => x.toNat | none => 0
  let of := fun (a : Nat) => recs.filter fun b => agent b == a
  let lsT := fun (a : Nat) (f : Option TFlight) => heldTFrom a c (f.getD e)
  let store : Tab Word := (imgTab img 0x390000 8 4096).map fun x => (x.1, w64 x.2)
  match fromAll (lsT 1) c.tl.held (of 1), fromAll (lsT 3) c.ts.held (of 3), fromAll (heldCFrom c) c.heldC (of 2),
    fromAll (heldAFrom store e c) (c.ta.held.map Sum.inl ++ c.mat.atts.map Sum.inr) (of 4) with
  | some l, some s, some x, some a =>
    if 60 < k ∨ recs.any (fun b => agent b == 0 || decide (4 < agent b)) then none else
    let cs := numberM (c.nextId + 181) (x.filterMap fun y => match y with | .inl g => some g | .inr _ => none)
    let as_ := numberM (c.nextId + 241) (a.filterMap fun y => match y with | .inr g => some g | .inl _ => none)
    let copies := a.filterMap fun y => match y with | .inl g => some g | .inr _ => none
    -- the steps of both issuers stand as at the cut, unless the block holds others
    let fl := if cs.map MFlight.id = c.mat.own.map MFlight.id ∧ as_.map MFlight.id = c.mat.atts.map MFlight.id
      then c.mat.flight.filterMap fun f => (cs ++ as_).find? fun g => g.id == f.id else cs ++ as_
    some { c with
      tl := { c.tl with flight := putHeld (c.nextId + 1) c.tl.flight l }
      ts := { c.ts with flight := putHeld (c.nextId + 61) c.ts.flight s }
      ta := { c.ta with flight := copies.zipIdx.map fun y => if y.1.id = 0 then { y.1 with id := c.nextId + 121 + y.2 } else y.1 }
      cposts := postsOf c.mat.retiredN x
      mat := { c.mat with flight := fl, issuedN := c.mat.retiredN + cs.length }, nextId := c.nextId + 301 }
  | _, _, _, _ => none

/-- The positions that the words of a core in flight read of its ring `i` (R183). -/
def Core.readsOf (c : Core) (i : Nat) : List Nat :=
  ((c.tl.flight ++ c.ts.flight ++ c.ta.flight).flatMap fun f => if f.target = i then (if f.kind = .ringWord ∧ f.op = 0x0E then f.taken else f.rpos.toList) else []) ++
  c.mat.flight.flatMap fun f =>
    (if isStep f.op ∧ f.ringB = i then f.posB.toList else []) ++ (if (f.op = 2 ∨ f.op = 4) ∧ f.ringA = i then f.posA.toList else [])

/-- The words of a list with the bytes of the queue entries that they have reserved, oldest first (R385). -/
def putSlots (code : Nat) : List TFlight → List Nat → List TFlight
  | [], _ => []
  | f :: l, vs =>
    let k := f.slotsIn code
    (if k = 0 ∨ f.kind ≠ .move then f
      else { f with pvec := some (BitVec.ofNat 2048 (ofBytes ((vs.take k).flatMap (toBytes f.slotSize)))) }) :: putSlots code l (vs.drop k)

/-- The bytes that the reserved entries of a queue have, given to the words that reserved them. -/
def Core.putSlots (c : Core) (code : Nat) (vs : List Nat) : Core :=
  { c with tl := { c.tl with flight := Sys2Proof.Machine.putSlots code c.tl.flight vs }, ts := { c.ts with flight := Sys2Proof.Machine.putSlots code c.ts.flight vs } }

/-- An accumulator from its region (R440). -/
def accFrom (img : Tab Byte) (off afmt : Nat) : Acc :=
  if afmt = 1 then
    { afmt := 1, el := (imgTab img off 8 65536).map fun x => (x.1, (BitVec.ofNat 64 (x.2 % 2 ^ 32), BitVec.ofNat 64 (x.2 / 2 ^ 32))) }
  else if afmt = 2 then
    { afmt := 2, el := (imgTab img off 16 32768).map fun x => (512 * (x.1 / 256) + x.1 % 256, (BitVec.ofNat 64 x.2, BitVec.ofNat 64 (x.2 / 2 ^ 64))) }
  else { afmt := 0, el := [] }

/-- A weight buffer from its state word and region (R440). -/
def wbufFrom (img : Tab Byte) (off st : Nat) (b : WBuf) : WBuf :=
  { b with st := st % 4, esize := st / 256 % 256, img := (imgTab img off 1 65536).map fun x => (x.1, BitVec.ofNat 8 x.2) }

/-- The vector and matrix sides from a save block (R440). -/
def unitsFrom (img : Tab Byte) (c : Core) : Core :=
  let w := fun (i : Nat) => imgW img (stAt + i)
  let tab := fun (wd off len k : Nat) => (imgTab img off len k).map fun x => (x.1, (BitVec.ofNat wd x.2 : BitVec wd))
  let a0 := w 0x1210
  let a1 := w 0x1218
  { c with
    vec := { c.vec with
      shape := BitVec.ofNat 24 (w 0x1200), tix := BitVec.ofNat 16 (w 0x1208)
      vm := tab 256 (stAt + 0x1300) 32 8
      eb := tab 32 (stAt + 0x1400) 4 256
      cfg := (List.range 8).map fun i => (i, BitVec.ofNat 14 (ofBytes (imgBytes img (stAt + 0x1800 + 2 * i) 2)))
      v := tab 2048 0x398000 256 32
      tile := tab 131072 0x340000 16384 8
      rule := tab 2048 0x39C000 256 16 }
    mat := { c.mat with
      a0 := accFrom img 0x200000 a0, a1 := accFrom img 0x280000 a1
      bown := w 0x1220, bound := if w 0x1220 = 0 then [] else tab 32 0x300000 4 65536
      w0 := wbufFrom img 0x360000 (w 0x1228) c.mat.w0, w1 := wbufFrom img 0x370000 (w 0x1230) c.mat.w1 } }

/-- The group from a save block (R440). -/
def groupFrom (img : Tab Byte) (g : Group) : Group :=
  let st := imgW img (stAt + 0x11F0)
  if !st.testBit 63 then Group.reset else
  let k := st % 2 ^ 32
  let b := imgW img 0x3AD000
  let lay := ofBytes (imgBytes img 0x3AD040 512)
  { g with
    isOpen := true, susp := st.testBit 62
    lines := (List.range (Nat.min 1024 k)).map fun i =>
      { blk := imgW img (0x3A9000 + 16 * i), seq := 0, mask := BitVec.ofNat 64 (imgW img (0x3A9008 + 16 * i)), data := BitVec.ofNat 512 (ofBytes (imgBytes img (0x380000 + 64 * i) 64)) }
    bound := if b.testBit 63 then some (BitVec.ofNat 12 b) else none
    tseq := w64 (imgW img 0x3AD008)
    layers := (List.range 4096).filter lay.testBit
    takenBlks := imgWs img 0x3AD400 (Nat.min 4095 (imgW img 0x3AD010))
    deferred := imgWs img 0x3B5400 (Nat.min 4095 (imgW img 0x3AD018)) }

/-- Whether the state region of a save block holds values that their own writes accept (R388). -/
def stateOk (s : State) (job : BitVec 8) (n : CoreId) (img : Tab Byte) : Bool :=
  let w := fun (i : Nat) => imgW img (stAt + i)
  let v := fun (i : Nat) => w64 (w i)
  csrOk 0x012 (v 0x1008) && csrOk 0x040 (v 0x1010) && decide (w 0x1038 ≤ 4) &&
  ((List.range 4).all fun i => csrOk (0x070 + i) (v (0x11C0 + 8 * i))) && csrOk 0x078 (v 0x11E0) && decide (w 0x11E8 < 2 ^ 17) &&
  csrOk 0x020 (v 0x1200) && csrOk 0x021 (v 0x1208) && decide (w 0x1210 ≤ 2) && decide (w 0x1218 ≤ 2) && decide (w 0x1220 ≤ 2) &&
  ((List.range 32).all fun i => s.ringOk job n i (v (0x1900 + 160 * i)) (v (0x1908 + 160 * i))) &&
  ((List.range 64).all fun i => let t : BitVec 512 := BitVec.ofNat 512 (ofBytes (imgBytes img (stAt + 0x2D00 + 64 * i) 64)); decide (t = 0) || tdOk t) &&
  ((List.range 8).all fun i => decide (w (0x3D00 + 128 * i) ≤ 8)) && decide (w 0x4280 < 4096) && decide (w 0x4300 ≤ 16)

/-- Whether the header of a cut record names the core's queues (R388). -/
def cutHeaderOk (img : Tab Byte) (c : Core) : Bool :=
  let es := cutEntries c
  decide (imgW img 0x3A5000 % 2 ^ 32 = es.length) &&
  (List.range es.length).all fun i => decide (imgW img (0x3A5010 + 8 * i) / 2 ^ 56 = ((es[i]?).getD 0) / 2 ^ 56)

/-- The entry count of operand queue `i`, or from 4 of result queue `i - 4` (R440). -/
def imgVecs (img : Tab Byte) (i : Nat) : Nat := imgW img (stAt + 0x4108) / 2 ^ (4 * i) % 16

/-- A vector of an operand or result queue: queue and entry. -/
def imgVec (img : Tab Byte) (i e : Nat) : Vec := BitVec.ofNat 2048 (ofBytes (imgBytes img (0x39A000 + 1024 * i + 256 * e) 256))

/-- A core whose words have the bytes that the queues of a save block hold for them (R388): none where the queues have not the entries that the
words have reserved. -/
def Core.withSlots (c : Core) (img : Tab Byte) : Option Core :=
  let dqs := (List.range 8).map fun i => (0x10 + i, imgWs img (stAt + 0x3D08 + 128 * i) (imgW img (stAt + 0x3D00 + 128 * i)))
  let iqs := (List.range 4).map fun i => (0x18 + i, (List.range (imgVecs img i)).map fun e => (imgVec img i e).toNat)
  (dqs ++ iqs).foldl (fun r x => r.bind fun c =>
    let k := (c.reservedOf x.1).length
    if x.2.length < k then none else some (c.putSlots x.1 (x.2.drop (x.2.length - k)))) (some c)

/-- The collective engine's requests not started (R440). The record's address is no part of a request: it is that of the kept request of these
words, else of the one in its place, and one that software has added has none, and so writes no D4 (log 41). -/
def collFrom (img : Tab Byte) (job : BitVec 8) (kept : List CollReq) : List CollReq :=
  (List.range (imgW img (stAt + 0x4300))).map fun i =>
    let ws := (imgWs img (stAt + 0x4340 + 64 * i) 8).map w64
    match (kept.find? fun r => decide (r.words = ws)).orElse fun _ => kept[i]? with
    | some r => { r with words := ws }
    | none => { addr := noRecord, job := job, phys := false, words := ws, started := false, sent := 0, ended := 0, err := 0, flags := 0, parked := none, cover := Cover.none }

/-- The core a save block describes, over the core kept at the cut and the core as it is (R388): none where the block is refused. What
the layout does not name is as kept (log 41). -/
def coreFrom (s : State) (job : BitVec 8) (n : CoreId) (img : Tab Byte) (live kept : Core) : Option Core :=
  let w := fun (i : Nat) => imgW img (stAt + i)
  let pops := fun (qid : Nat) => imgW img (0x3A5010 + 8 * cutPlace qid) % 2 ^ 32
  let fifo := fun (i : Nat) => imgW img (0x3A5010 + 8 * (cutPlace 0x40 + i))
  match cutHeaderOk img kept && stateOk s job n img, seqOf img stAt 0 kept.k, seqOf img (stAt + 0x400) 1 kept.l, seqOf img (stAt + 0x800) 2 kept.c,
    seqOf img (stAt + 0xC00) 3 kept.s,
    (heldFrom img { TFlight.blank s with mac := none, seq0 := kept.l, cover := Cover.none, fcsr := 0, after := 0 } kept).bind fun h => h.withSlots img with
  | true, some k, some l, some c3, some s3, some h =>
    let td := fun (off : Nat) => (imgTab img (stAt + off) 64 32).map fun x => (x.1, (BitVec.ofNat 512 x.2 : BitVec 512))
    let frames := (List.range (w 0x1038)).map fun i =>
      loopsOf (imgWs img (stAt + 0x1040 + 96 * i) 12) (match kept.supK.frames.reverse[i]? with | some f => f.length | none => 0)
    let st := w 0x4288
    some { unitsFrom img h with
      pushes := (List.range 12).map fun i => (0x40 + i, (fifo i + fifo i / 2 ^ 32 % 2 ^ 16) % 2 ^ 32)
      k := k, l := l, c := c3, s := s3
      supK := { kept.supK with
        preds := BitVec.ofNat 8 (w 0x1000), tvec := w64 (w 0x1010), tepc := w64 (w 0x1018), tsw := w64 (w 0x1020), tcause := w64 (w 0x1028)
        tval := w64 (w 0x1030), hdepth := w 0x1038, frames := frames.reverse }
      mimage := w64 (w 0x1008), mstore := [], code := []
      wpt := (imgTab img (stAt + 0x11C0) 8 4).map fun x => (x.1, w64 x.2)
      snapctl := BitVec.ofNat 6 (w 0x11E0), cond := w64 (w 0x11E8)
      group := groupFrom img kept.group
      fwd := live.fwd, amos := live.amos, storeSeq := Nat.max live.storeSeq kept.storeSeq
      rings := (List.range 32).map fun i =>
        let r := ringFrom img (stAt + 0x1900 + 160 * i) (kept.ring i) (live.ring i).waits
        (i, if r.ctl.getLsbD 34 then r else { r with holders := (r.holders.filter fun p => !(kept.readsOf i).contains p) ++ h.readsOf i })
      tl := { h.tl with td := td 0x2D00, xst := BitVec.ofNat 4 (w 0x5B0) }
      ts := { h.ts with td := td 0x3500, xst := BitVec.ofNat 4 (w 0xDB0) }
      xstK := BitVec.ofNat 4 (w 0x1B0)
      q := (List.range 8).map fun i => (i, queueFrom (kept.dq i) (w (0x3D00 + 128 * i)) (h.reservedOf (0x10 + i)).length (pops (16 + i)) fun e => w64 (w (0x3D08 + 128 * i + 8 * e)))
      tk := (List.range 16).map fun i => (i, tokensFrom (kept.tkOf i) (w 0x4100 / 2 ^ (4 * i) % 16) (if tokenCode i then pops i else 0))
      iq := (List.range 4).map fun i => (i, queueFrom (kept.iqOf i) (imgVecs img i) (h.reservedOf (0x18 + i)).length (pops (24 + i)) (imgVec img i))
      oq := (List.range 4).map fun i => (i, queueFrom (kept.oqOf i) (imgVecs img (4 + i)) 0 (pops (28 + i)) (imgVec img (4 + i)))
      att := { kept.att with
        ar := ((imgTab img (stAt + 0x4200) 8 16).filter fun x => x.1 ≠ 0).map fun x => (x.1, w64 x.2)
        upc := w 0x4280, fault := st.testBit 63, cause := st / 2 ^ 48 % 256, fupc := st / 2 ^ 32 % 4096, ended := st % 2 ^ 32
        busy := (w 0x4290).testBit 0
        store := if kept.att.started then (imgTab img 0x390000 8 4096).map fun x => (x.1, w64 x.2) else kept.att.store }
      coll := (live.coll.filter fun r => r.started) ++ collFrom img job (kept.coll.filter fun r => !r.started)
      slice := (imgTab img 0 1 sliceSize).map fun x => (x.1, BitVec.ofNat 8 x.2), recent := []
      slotAt := live.slotAt, fused := live.fused, fpri := live.fpri, quota := live.quota, f := live.f, supF := live.supF, fActive := live.fActive
      events := live.events, evDrops := live.evDrops, snap := live.snap, snapAt := live.snapAt, planes := live.planes, staging := live.staging
      nextId := Nat.max live.nextId h.nextId }
  | _, _, _, _, _, _ => none

/-- The core kept at a cut with what decides which parts its save block has, as the block says it (R387, R388). -/
def partsFrom (s : State) (img : Tab Byte) (kept : Core) : Core :=
  let w := fun (i : Nat) => imgW img (stAt + i)
  let h := (heldFrom img { TFlight.blank s with mac := none, seq0 := kept.l, cover := Cover.none, fcsr := 0, after := 0 } kept).getD kept
  { h with
    mat := { h.mat with
      a0 := { afmt := w 0x1210, el := [] }, a1 := { afmt := w 0x1218, el := [] }, bown := w 0x1220
      w0 := wbufFrom [] 0 (w 0x1228) h.mat.w0, w1 := wbufFrom [] 0 (w 0x1230) h.mat.w1 }
    group := { h.group with isOpen := (w 0x11F0).testBit 63 } }

/-! ## Boundaries (R385) -/

/-- A request among others in the order of K. -/
def insertReq (x : Store ⊕ AmoReq) : List (Store ⊕ AmoReq) → List (Store ⊕ AmoReq)
  | [] => [x]
  | y :: l => if reqSeq x < reqSeq y then x :: y :: l else y :: insertReq x l

/-- K's stores and atomics that are not performed, oldest first. -/
def Core.undone (c : Core) : List (Store ⊕ AmoReq) :=
  ((c.fwd.filter fun (t : Store) => t.doneAt.isNone).map Sum.inl ++ c.amos.map Sum.inr).foldl (fun l x => insertReq x l) []

/-- Whether K's writes not performed wait behind one at a site in self-refresh (R343): a cut or halt does not wait for them. -/
def State.heldUp (s : State) (n : CoreId) : Bool :=
  let c := s.core n
  ((c.fwd.filter fun t => t.doneAt.isSome).all fun t => doneBy t.doneAt s.ccount) &&
  (match c.undone with
   | x :: _ => (match (match x with | .inl t => (t.tgt, t.bytes.length) | .inr r => (r.tgt, 8)) with
     | (.dev pa, len) => s.siteHeld pa len
     | _ => false)
   | [] => false)

/-- Whether K of a core waits in no word, but for an atomic that has not been applied and waits with K's writes at a site in self-refresh: K
executes that one again (R343, R385; log 40). -/
def State.kAtRest (s : State) (n : CoreId) : Bool :=
  match (s.core n).kWait with
  | none => true
  | some (.atomic id) => s.heldUp n && (s.core n).amos.any fun r => r.id == id
  | some _ => false

/-- Whether a request over a link does not keep a core from its boundary (R385): one of another core, of the plane engine, F or the device, of a K
store or atomic, which K's writes stand for, or a read for a word that has not issued or a request that has not started. -/
def FarReq.lets (r : FarReq) (n : CoreId) : Bool :=
  decide (r.core ≠ n) || decide (6 ≤ r.agent) ||
  (match r.kind with
   | .read => decide (r.id = 0) || decide (r.agent = 5)
   | .store _ _ => true
   | .amo _ _ => true
   | _ => false)

/-- Whether every agent of a core that is being stopped has reached its boundary (R385): its issued row words have retired (R190), but for
those behind a word that cannot go on (log 40); its writes are performed, or wait at a site in self-refresh (R343). -/
def State.atRest (s : State) (n : CoreId) : Bool :=
  let c := s.core n
  s.kAtRest n && (s.storesDone n || s.heldUp n) && c.starting.isNone && c.csrPend.isEmpty && c.ringPend.isEmpty && c.vec.flight.isEmpty &&
  (c.mat.flight.all fun f => f.cut.isSome || f.failed.isSome) && c.att.exp.isNone && (c.coll.all fun r => !r.started) && !s.rowsDue n .l && !s.rowsDue n .s &&
  s.far.all fun r => r.lets n

/-- Whether a block that a word has read ahead lies in host or remote memory (R385). -/
def State.farBlock (s : State) (n : CoreId) (q : Ctx) (f : TFlight) (k : Nat) : Bool :=
  match blockReads s n f k with
  | some l => l.any fun x => match s.targetOf n (tCtx q) x.1 .read with
    | .ok (.host _) | .ok (.remote _ _) => true
    | _ => false
  | none => false

/-- The blocks of device memory and slices that a copy side has read and not written are read again after the boundary. -/
def State.dropAhead (s : State) (n : CoreId) (q : Ctx) : State :=
  s.modCore n fun c =>
    let u := c.tu q
    c.setTu q { u with flight := u.flight.map fun f => { f with ahead := f.ahead.filter fun b => s.farBlock n q f b.1 } }

/-- At a boundary: the steps settled, the local blocks read ahead dropped, and the reads for words that issue again withdrawn. -/
def State.settleCore (s : State) (n : CoreId) : State :=
  let t := ((s.settleSteps n).dropAhead n .l).dropAhead n .s
  { t with far := t.far.filter fun r => !(decide (r.core = n) && decide (r.agent < 6) && decide (r.kind = .read)) }

/-- Whether every write presented to the slice of a core is readable (R174): what a cut saves, and a resume overwrites, is then the whole slice. -/
def State.sliceStill (s : State) (n : CoreId) : Bool := (s.core n).recent.all fun w => decide (w.cyc + 6 ≤ s.ccount)

/-- An atomic that K waits in and that has not been applied is withdrawn: K executes it again (R343; log 40). -/
def Core.withdrawAmo (c : Core) : Core :=
  match c.kWait with
  | some (.atomic id) => { c with kWait := none, amos := c.amos.filter fun r => r.id ≠ id }
  | _ => c

/-- A cut core's writes that wait at a site leave it and wait on (R343; log 40). -/
def State.setAside (s : State) (n : CoreId) : State :=
  let c := (s.core n).withdrawAmo
  let task := match c.unit with | some u => u.task | none => 0
  { s.setCore n { c with fwd := c.fwd.filter (fun t => t.doneAt.isSome), amos := [] } with
    orphans := s.orphans ++ c.undone.map fun x => { core := n, job := s.jobOf n, task := task, req := x } }

/-- The claims of a core's held words sent again after a boundary (R385). -/
def State.resendClaims (s : State) (n : CoreId) : State :=
  [Ctx.l, .s, .f].foldl (fun s q => (((s.core n).tu q).flight.filter fun f => f.needsClaim).foldl
    (fun s f => s.claimFor n q f.id f.target (decide (f.kind = .ringWord))) s) s

/-! ## Parking (R300, R301, R383, R384, R395) -/

/-- An entry written to a die's fault queue (R301). -/
def State.putFault (s : State) (n : CoreId) (code : Nat) (val : Word) (job : BitVec 8) (task : BitVec 24) : State :=
  s.modDie (dieOf n) fun d =>
    { d with fq := Tab.put d.fq (d.fqProd % 1024) (w64 (code * 2 ^ 56 + n.toNat * 2 ^ 48 + job.toNat * 2 ^ 40 + task.toNat), val), fqProd := (d.fqProd + 1) % 2 ^ 32 }

/-- An action that may fail with its changes standing: the cause, if it did. -/
def attempt (m : Act Unit) : Act (Option (Nat × Word)) := fun s =>
  match m s with
  | (.ok _, t) => (.ok none, t)
  | (.error (.wait r), t) => (.error (.wait r), t)
  | (.error (.fault c v), t) | (.error (.late c v), t) => (.ok (some (c, v)), t)

/-- A launch as it stays when its task is parked: its walk position and cut units. -/
def Launch.parkedForm (l : Launch) : Launch :=
  { l with saved := [], held := [], stopWalk := false, park := none, fatalPark := false, node := false, lastEnd := none, texit := none, fromNode := l.node }

/-- The task of a launch with no unit left on a core is parked (R300, R383, R384). -/
def parkLaunch (die slot : Nat) (l : Launch) : Act Unit := do
  let job := l.job
  let id := l.task.toNat
  let t ← soft [] (readTcb job id)
  let save := saveOf t
  let err ← if l.node then do
      let s ← get
      let ws := match l.lastEnd with
        | some x => x.2.2
        | none => (List.range 8).map fun i => Config.freeBits 64 (s.free + i)
      if l.lastEnd.isNone then modify fun s => { s with free := s.free + 8 }
      attempt (writeJob job dispWriter save ((l.started :: ws.map BitVec.toNat).flatMap (toBytes 8)))
    else pure none
  let park := match err with
    | some (c, v) => some (c, v, BitVec.ofNat 8 (64 * die))
    | none => l.park
  match park with
  | some (c, v, n) =>
    Act.need (!((← get).die (dieOf n)).fqFull)
    modify fun s => s.putFault n c v job l.task
  | none => pure ()
  let rel := l.node || (l.fatalPark && tf t 3 63 1 == 1)
  if rel then
    for u in l.resume.filter (fun u => !l.saved.contains u.core) do abortSaved job save u
    modify fun s => s.dropKeys job l.task fun _ => true
    soft () (tcbField job id 3 19 1 0)
  soft () (tcbField job id 3 24 8 (match park with | some x => x.1 | none => 0))
  setTaskState job id 5
  modify fun s => let s := s.freeSlot die slot; { s with parked := s.parked ++ [l.parkedForm] }

/-- The rank of a core's save block (R387): its place among the task's units that are saved now, in ascending core order, past the
blocks of units not yet resumed. -/
def Launch.rankOf (l : Launch) (live : List CoreId) (n : CoreId) : Nat :=
  let mine := (live ++ l.saved).filter fun m => m.toNat < n.toNat
  let used := (l.resume.filter fun u => !l.saved.contains u.core).map fun u => u.rank
  (((List.range 512).filter fun i => !used.contains i)[mine.eraseDups.length]?).getD 0

/-- The core as kept beside its save block: the parts that the block holds in full are left out, a fatal fault has been delivered, and
after one the stopped sequencers go on from their held words (R303). -/
def Core.keptForm (c : Core) : Core :=
  let again : Seq → Seq := fun q => if c.fatal.isSome then { q with stop := none, taken := false } else q
  { c with
    l := again c.l, c := again c.c, s := again c.s
    fatal := none, cutting := .running, debugHalt := .running, frozen := false, slice := [], recent := []
    vec := { c.vec with v := [], tile := [] }, mat := { c.mat with a0 := { c.mat.a0 with el := [] }, a1 := { c.mat.a1 with el := [] } }, planes := [], staging := []
    coll := c.coll.filter fun r => !r.started }

/-- Writes the save block of a core (R387). -/
def writeSave (job : BitVec 8) (n : CoreId) (at_ : Nat) : Act Unit := do
  let s ← get
  let img := saveImage s n
  for p in saveParts (s.core n) do writeJob job (engine n) (at_ + p.1) (imgBytes img p.1 p.2)

/-- SEQ of the next cut record (R386). -/
def State.countCut (s : State) (n : CoreId) : State := s.modCore n fun c => { c with cutSeq := c.cutSeq + 1 }

/-- The place of a unit's save block (R387). -/
def State.saveAt (s : State) (n : CoreId) (die slot : Nat) (l : Launch) (t : List Nat) : Nat := saveOf t + l.rankOf (s.unitCores die slot) n * 2 ^ 22

/-- The unit of a core leaves it, saved: its task keeps it to resume, and a save that faulted parks the task with its cause (R385, R395). -/
def State.leaveSaved (s : State) (n : CoreId) (die slot rank : Nat) (err : Option (Nat × Word)) : State :=
  let s := s.modLaunch die slot fun l =>
    { l with
      resume := l.resume ++ [{ core := n, rank := rank, kept := (s.core n).keptForm }], saved := l.saved ++ [n]
      park := match err with | some (c, v) => some (c, v, n) | none => l.park }
  (s.clearCore n).modDie (dieOf n) fun d => { d with held := d.held.filter (· ≠ n) }

/-- The unit of a core that has reached its boundary is saved and leaves the core (R385, R387): with KEYREL a fatal fault aborts its
group first (R270, R300); a save that faults parks the task with that cause (R395). -/
def saveUnit (n : CoreId) (die slot : Nat) : Act Unit := do
  match (← get).launchAt die slot with
  | none => pure ()
  | some l =>
    let t ← soft [] (readTcb l.job l.task.toNat)
    if l.fatalPark ∧ tf t 3 63 1 = 1 then
      let _ ← soft 0 (lateMem (abortGroup n))
    modify fun s => s.countCut n
    let s ← get
    let err ← attempt (writeSave l.job n (s.saveAt n die slot l t))
    modify fun u => u.leaveSaved n die slot (l.rankOf (s.unitCores die slot) n) err

/-! ## Debug halts, the debug window, captures (R389, R393) -/

/-- A debug halt is complete once every agent of the core is at its boundary; its claims not granted are withdrawn (R385, R389), and K's writes that
wait at a site in self-refresh wait on (R343). -/
def execDebugHaltComplete (n : CoreId) (s : State) : Out :=
  let c := s.core n
  if c.debugHalt = .stopping ∧ s.atRest n then .next (((s.settleCore n).withdrawClaims n).modCore n fun c => { c.withdrawAmo with debugHalt := .stopped })
  else stall s

/-- The host as a writer (R390). -/
def hostWriter : Writer := { core := 0, agent := 6, rank := 0 }

/-- The state after a write of eight bytes at a place of the save-block layout of a debug-halted core (R389): to the slice as any write of the
host or of F is presented to it (R174, R390); a value that its own write refuses is discarded. -/
def State.debugWrite (s : State) (w : Writer) (n : CoreId) (at_ : Nat) (v : Word) : State :=
  let c := s.core n
  if at_ < sliceSize then s.writeSlice w n at_ (toBytes 8 v.toNat) else
  let img := Tab.merge 0 (saveImage s n) ((toBytes 8 v.toNat).zipIdx.map fun x => (at_ + x.2, x.1))
  match coreFrom s (s.jobOf n) n img c c with
  | some c' => s.setCore n { c' with code := c.code, mstore := c.mstore, slice := c.slice, recent := c.recent }
  | none => s

/-- An access of a doubleword in the debug window by the host or by F (R389, R401): a read changes nothing; a write of a core that is not
debug-halted is discarded. -/
def debugAccess (w : Writer) (wr : Bool) (off : Nat) (v : Word) (s : State) : State :=
  let n : CoreId := BitVec.ofNat 8 (bitsOf s.dev.dbgsel 0 8)
  if !s.dev.ready || !wr || decide ((s.core n).debugHalt ≠ .stopped) then s
  else s.debugWrite w n (bitsOf s.dev.dbgsel 16 6 * 2 ^ 16 + off / 8 * 8) v

/-- `DEBUG_WINDOW_ACCESS` (R389, R401). -/
def execDebugWindowAccess (wr : Bool) (off : BitVec 16) (v : Word) (s : State) : Out :=
  let s := if wr then s else { s with dev := { s.dev with reply := .data (toBytes 8 (s.debugRead off.toNat).toNat) } }
  .next (debugAccess hostWriter wr off.toNat v s)

/-- A snapshot capture that is due in this cycle (R393). -/
def execSnapshotCapture (n : CoreId) (s : State) : Out :=
  if (s.core n).snapAt.contains s.ccount then .next (s.modCore n fun c => c.capture s.ccount) else stall s

end Sys2Proof.Machine
end

