-- ==== Sys2Proof/Machine/Units.lean ====
section
/-! DEFINITION. The task words of K (R311 to R316), the walkers and the start and end of units (R288 to R290, R295, R298, R299, R306 to
R308), the dispatchers (R294, R296, R312), and pre-emption (R383 to R385, R388). -/
namespace Sys2Proof.Machine

/-! ## The walkers: which launch a free core goes to (R288, R306) -/

/-- FIRST of a launch's record. -/
def Launch.first (l : Launch) : Nat := bitsOf ((l.words[2]?).getD 0) 8 8
/-- CNT of a launch's record: the cores of its set minus 1. -/
def Launch.cnt (l : Launch) : Nat := bitsOf ((l.words[2]?).getD 0) 0 8
/-- Whether a core is in a launch's set. -/
def Launch.inSet (l : Launch) (n : CoreId) : Bool := decide (l.first ≤ n.toNat) && decide (n.toNat ≤ l.first + l.cnt)

/-- Whether a launch has a cut unit to resume on a core (R303). -/
def Launch.toResume (l : Launch) (n : CoreId) : Bool := l.resume.any fun u => decide (u.core = n)

/-- Whether a launch wants a core (R288, R303). -/
def Launch.wants (l : Launch) (n : CoreId) : Bool := !l.stopWalk && (l.toResume n || (l.inSet n && decide (l.started < l.total)))

/-- Whether a launch goes before another on a free core: higher priority, then dispatched first (R288). -/
def Launch.before (a b : Launch) : Bool := decide (b.prio.toNat < a.prio.toNat) || (decide (a.prio = b.prio) && decide (a.order < b.order))

/-- The launch that a free core goes to: its die, slot and state. -/
def State.best (s : State) (n : CoreId) : Option (Nat × Nat × Launch) :=
  (s.dies.flatMap fun d => (d.2.launches.filter fun x => x.2.wants n).map fun x => (d.1, x.1, x.2)).foldl
    (fun b x => match b with
      | none => some x
      | some y => if x.2.2.before y.2.2 then some x else some y) none

/-- Whether a rung that is running reaches a core (R429). -/
def State.inRung (s : State) (n : CoreId) : Bool := s.dev.rungs.any fun r => decide (3 ≤ r.num) && decide (r.first ≤ n.toNat) && decide (n.toNat < r.first + r.cnt)

/-- Whether a core is free for a unit: it has none, no quire holds it, and the writes of its last unit are performed. -/
def State.coreFree (s : State) (n : CoreId) : Bool :=
  let c := s.core n
  c.unit.isNone && !c.quireHeld && c.amos.isEmpty && s.storesDone n && decide (c.debugHalt = .running) && !s.inRung n

/-- Whether a launch is a quire that has started no unit (R306). -/
def Launch.gathers (l : Launch) : Bool := l.quire && decide (l.started = 0) && l.resume.isEmpty

/-- The walkers of quires hold the cores that are free for them (R306). -/
def State.regrip (s : State) : State :=
  allCores.foldl (fun s n => match s.best n with
    | some (d, k, l) => if l.gathers && s.coreFree n then (s.modCore n fun c => { c with quireHeld := true }).modLaunch d k fun l => { l with held := l.held ++ [n] } else s
    | none => s) s

/-! ## The start of a unit (R101, R102, R112, R147, R289, R290, R439) -/

/-- The bytes of a slice from its home's codes: the code of a slice doubleword cleared with its contents (R102). -/
def State.clearCodes (s : State) (n : CoreId) : State :=
  { s with latent := s.latent.filter fun x => !(decide (2 ^ 48 + n.toNat * 2 ^ 18 ≤ x.1) && decide (x.1 < 2 ^ 48 + (n.toNat + 1) * 2 ^ 18)) }

/-- What a unit of another job finds cleared (R102). -/
def Core.clearJob (c : Core) : Core :=
  { c with
    slice := [], recent := [], mat := MUnit.reset
    rings := c.rings.map fun r => (r.1, { Ring.reset with waits := r.2.waits })
    tl := { c.tl with td := [] }, ts := { c.ts with td := [] }, vec := { c.vec with rule := [] } }

/-- A sequencer at the start of a unit (R101, R112, R289): its entry point and its tuple. -/
def Seq.begin (entry : Word) (tuple : List Int) (now till : Nat) : Seq :=
  { Seq.reset with
    pc := entry, entry := entry, nextIssue := now + 1
    regs := (((tuple.zipIdx).map fun x => (x.2 + 1, BitVec.ofInt 64 x.1)).filter fun x => x.2 ≠ 0), cover := { stores := [], till := till } }

/-- The entry point of sequencer `q` (R287): a signed word offset from the record's address. -/
def Launch.entry (l : Launch) (q : Nat) : Word :=
  let w := ((l.words[1 + q / 2]?).getD 0)
  w64 l.recAddr + 4 * (BitVec.ofInt 64 (sextNat (bitsOf w (if q % 2 = 0 then 16 else 40) 24) 24))

/-- The address of the register image (R287). -/
def Launch.image (l : Launch) : Nat := bitsOf (l.words.headD 0) 6 51 * 64

/-- The entry points of K, L, C and S: KENT and LENT in L1, CENT and SENT in L2. -/
def Core.startSeqs (c : Core) (l : Launch) (tuple : List Int) (now till : Nat) : Core :=
  { c with k := Seq.begin (l.entry 0) tuple now till, l := Seq.begin (l.entry 1) tuple now till, c := Seq.begin (l.entry 2) tuple now till, s := Seq.begin (l.entry 3) tuple now till }

/-- A token queue with a count. -/
def tokensOf (k : Nat) : Queue Unit := { (Queue.empty : Queue Unit) with entries := List.replicate k { val := some (), vis := 0, cov := Cover.none } }

/-- A core at the start of a unit, before its image is applied; an exit successor keeps the tiles and their configurations (R299). -/
def Core.startState (c : Core) (u : UnitInfo) (l : Launch) (tuple : List Int) (inherit : Bool) (now till : Nat) : Core :=
  let tok := ((l.words[3]?).getD 0).toNat
  let c := c.startSeqs l tuple now till
  { c with
    supK := Sup.reset, mimage := 0, mstore := [], pushes := [], wake := false
    code := if c.prevJob = some u.job ∧ c.prevTask = some u.task ∧ !c.newJob then c.code else []
    q := [], iq := [], oq := []
    tk := (List.range 16).map fun i => (i, tokensOf (tok / 2 ^ (4 * i) % 16))
    kWait := none, cposts := []
    vec := if inherit then { VUnit.reset with rule := c.vec.rule, tile := c.vec.tile, cfg := c.vec.cfg } else { VUnit.reset with rule := c.vec.rule }
    cond := 0, group := Group.reset, prio := l.prio, att := { c.att with started := false }
    unit := some u, cutting := .running, cutSeq := 0, fatal := none, frozen := false, quireHeld := false, watch := none, late := [], newJob := false, lastRetire := now }

/-- Whether the values of a register image are ones that their own writes accept (R290). -/
def regImageOk (s : State) (job : BitVec 8) (n : CoreId) (im rm : List Nat) : Bool :=
  let v := fun (i : Nat) => w64 ((im[i]?).getD 0)
  csrOk 1 (v 0) && csrOk 1 (v 32) && csrOk 1 (v 64) && csrOk 1 (v 96) && csrOk 0x012 (v 1) && csrOk 0x020 (v 65) && csrOk 0x021 (v 66) &&
  (List.range 32).all fun i => !(v 2).getLsbD i || s.ringOk job n i (w64 ((rm[2 * i]?).getD 0)) (w64 ((rm[2 * i + 1]?).getD 0))

/-- The image of a sequencer: `fcsr` and s5 to s31. -/
def Seq.withImage (q : Seq) (im : List Nat) (at_ : Nat) : Seq :=
  { q with
    fcsr := BitVec.ofNat 17 ((im[at_]?).getD 0)
    regs := (List.range 27).foldl (fun t j => Tab.set 0 t (j + 5) (w64 ((im[at_ + 5 + j]?).getD 0))) q.regs }

/-- A core with its register image applied (R290). -/
def Core.withImage (c : Core) (im rm : List Nat) : Core :=
  let c := { c with
    k := c.k.withImage im 0, l := c.l.withImage im 32, c := c.c.withImage im 64, s := c.s.withImage im 96
    mimage := w64 ((im[1]?).getD 0)
    vec := { (c.vec.writeShape (w64 ((im[65]?).getD 0))) with tix := BitVec.ofNat 16 ((im[66]?).getD 0) } }
  (List.range 32).foldl (fun c i =>
    if ((im[2]?).getD 0).testBit i then c.applyRing (0, i, w64 ((rm[2 * i]?).getD 0), w64 ((rm[2 * i + 1]?).getD 0)) else c) c

/-- An action whose cause, if it fails, is an answer; its changes stand. -/
def tryAct {α : Type} (m : Act α) : Act (Except (Nat × Word) α) := fun s =>
  match m s with
  | (.ok x, t) => (.ok (.ok x), t)
  | (.error (.wait r), t) => (.error (.wait r), t)
  | (.error (.fault c v), t) | (.error (.late c v), t) => (.ok (.error (c, v)), t)

/-- A trap of K before the first word of its unit (R290, R388): `tvec` is 0, so it is fatal. -/
def State.startTrap (s : State) (n : CoreId) (code : Nat) (val : Word) : State := s.takeTrap n .k code val (causeWord 0 none false 0 code) 0

/-- The register image of a unit (R289, R290), and with `node` `s5` to `s8` of its task's node record (R384). -/
def readImage (n : CoreId) (l : Launch) (node : Bool) : Act Unit := do
  let r ← tryAct (do
    let im ← hwWords l.job l.image 128
    let rm ← if ((im[2]?).getD 0) % 2 ^ 32 = 0 then pure [] else hwWords l.job (l.image + 1024) 64
    pure (im, rm))
  match r with
  | .error (c, v) => modify fun s => s.startTrap n c v
  | .ok (im, rm) =>
    let node ← if node then (do
        let t ← soft [] (readTcb l.job l.task.toNat)
        soft [] (hwWords l.job (saveOf t) 9)) else pure []
    modify fun s =>
      if regImageOk s l.job n im rm then
        s.modCore n fun c =>
          let c := c.withImage im rm
          if node = [] then c
          else { c with k := { c.k with regs := (List.range 4).foldl (fun t j => Tab.set 0 t (j + 5) (w64 ((node[j + 5]?).getD 0))) c.k.regs } }
      else s.startTrap n 0x02 (w64 l.image)

/-- Starts unit `i` of a launch on a core (R289): the job-change clear (R102), the state of R101, R112 and R147, then the image, which a core
that changes its job reads once its slice is clear, 2,048 cycles later. -/
def startUnit (n : CoreId) (die slot i : Nat) (inherit : Bool) : Act Unit := do
  let s ← get
  match s.launchAt die slot with
  | none => pure ()
  | some l =>
    let u : UnitInfo := { job := l.job, task := l.task, die := BitVec.ofNat 2 die, slot := slot, arrived := [], texit := none }
    let fresh := decide ((s.core n).prevJob ≠ some l.job) || (s.core n).newJob
    let s := if fresh then (s.clearCodes n).modCore n Core.clearJob else s
    let now := if fresh then s.ccount + 2048 else s.ccount
    let s := s.modCore n fun c => c.startState u l (unitTuple (l.words.map BitVec.toNat) i) inherit now s.slicesTill
    set (s.modLaunch die slot fun l => { l with started := l.started + 1, startAt := s.ccount + 1, fromNode := false })
    if fresh then modify fun s => s.modCore n fun c => { c with starting := some (now, l.fromNode) } else readImage n l l.fromNode

/-- The image of a unit that has been started on a core whose slice is clear (R102): its sequencers go on in the next cycle. -/
def imageDue (n : CoreId) : Act Unit := do
  let s ← get
  match (s.core n).starting, (s.core n).unit with
  | some (t, node), some u =>
    Act.need (decide (t ≤ s.ccount))
    let go : Seq → Seq := fun q => { q with nextIssue := s.ccount + 1 }
    modify fun s => s.modCore n fun c => { c with starting := none, k := go c.k, l := go c.l, c := go c.c, s := go c.s }
    match s.launchAt u.die.toNat u.slot with
    | some l => readImage n l node
    | none => pure ()
  | _, _ => Act.wait

/-- `UNIT_START` (R288, R289): a free core takes the next tuple of the launch it goes to, at most one in a cycle from each launch, the
lowest of its free cores first; a core that has cleared its slice for a unit of another job reads that unit's image (R102). -/
def execUnitStart (n : CoreId) (s : State) : Out :=
  if (s.core n).starting.isSome then runEvent s (imageDue n) else
  let s := s.regrip
  match s.best n with
  | none => stall s
  | some (die, slot, l) =>
    let mine := fun (m : CoreId) => decide (m.toNat < n.toNat) && s.coreFree m && (match s.best m with
      | some (d, k, x) => decide (d = die) && decide (k = slot) && !x.toResume m
      | none => false)
    if s.coreFree n && !l.gathers && !l.toResume n && decide (l.startAt ≠ s.ccount + 1) && !allCores.any mine then runEvent s (startUnit n die slot l.started false)
    else stall s

/-- `QUIRE_START` (R306): once every core of its set is held, every unit of a quire starts in one cycle. -/
def execQuireStart (d : BitVec 2) (s : State) : Out :=
  let s := s.regrip
  match (s.die d.toNat).launches.find? fun x => x.2.gathers && !x.2.stopWalk && decide (0 < x.2.total) && decide (x.2.held.length = x.2.cnt + 1) with
  | none => stall s
  | some (slot, l) => runEvent s (do
      modify fun s => (l.held.foldl (fun s n => s.modCore n fun c => { c with quireHeld := false }) s).modLaunch d.toNat slot fun l => { l with held := [] }
      for i in List.range l.total do startUnit (BitVec.ofNat 8 (l.first + i)) d.toNat slot i false)

/-! ## The end of units and tasks (R295, R299, R300, R307, R384) -/

/-- OUT of a task's graph increased (R312). -/
def addMember (job : BitVec 8) (t : List Nat) : Act Unit := do
  let a := (← get).levelAt job (tf t 2 44 20) + 8
  hwPut job a (((← hwWord job a) + 1) % 2 ^ 64)

/-- A task submitted by `texit` without inheritance (R299, R384): INHF and NEST are written; a task that has left IDLE is not touched,
and a refusal, too, sets XLOST of the exiting task. -/
def exitSubmit (job : BitVec 8) (x : Nat) (nest : Nat) (id : Nat) : Act Unit := do
  let r ← soft none (checkTask job id)
  match r with
  | some (t, _) =>
    if tf t 3 36 4 = 0 then
      soft () (tcbField job id 3 32 4 nest)
      soft () (tcbField job id 3 23 1 1)
      submitTask job id t
    else soft () (tcbField job x 3 22 1 1)
  | none => soft () (tcbField job x 3 22 1 1)

/-- Whether an exit successor inherits the core and the keys (R299). -/
def inherits (job : BitVec 8) (x : BitVec 24) (n : CoreId) (t r : List Nat) : Act Bool := do
  let s ← get
  let first := tf r 2 8 8
  pure (decide (tf t 3 36 4 = 0) && decide (tf t 0 32 32 = 0) && decide (unitTotal r = 1) && decide (tf r 0 3 1 = 0) &&
    decide (first ≤ n.toNat) && decide (n.toNat ≤ first + tf r 2 0 8) &&
    (accordOf t).all fun k => (s.reserver job k.1).isNone && (match s.keyAt job k.1 with
      | some e => e.ex == some x || (!k.2 && e.sh.contains x)
      | none => false))

/-- The keys of a successor's accord pass to it in its modes (R299). -/
def State.passKeys (s : State) (job : BitVec 8) (x t : BitVec 24) (acc : List (Nat × Bool)) : State :=
  { s with keys := s.keys.map fun e =>
      match acc.find? fun k => decide (e.job = job) && decide (k.1 = e.key) with
      | some k =>
        let e := { e with ex := if e.ex = some x then none else e.ex, sh := e.sh.filter (· ≠ x) }
        if k.2 then { e with ex := some t } else { e with sh := e.sh ++ [t] }
      | none => e }

/-- A launch as dispatched, from its task's block and record. -/
def newLaunch (job : BitVec 8) (task : BitVec 24) (t r : List Nat) (order : Nat) : Launch :=
  { job := job, task := task, prio := BitVec.ofNat 3 (tf t 1 0 3), order := order, recAddr := lnrOf t, words := r.map w64, total := unitTotal r,
    started := 0, startAt := 0, ended := 0, resume := [], saved := [], held := [], bars := [], forfeited := 0, stopWalk := false, park := none, fatalPark := false,
    node := false, lastEnd := none, texit := none, fromNode := false }

/-- A task retires (R295); its exit successor then inherits or is submitted (R299). `n` is the core its last unit ended on. -/
def retireTask (die slot : Nat) (l : Launch) (n : CoreId) : Act Unit := do
  let job := l.job
  let id := l.task.toNat
  let t ← soft [] (readTcb job id)
  if (l.words.headD 0).getLsbD 2 then ctrAdd job (bitsOf ((l.words[1]?).getD 0) 0 16) 1
  setTaskState job id 4
  if tf t 3 62 1 = 1 then ctrAdd job (tf t 2 16 16) 1
  if tf t 3 61 1 = 1 then ctrAdd job (tf t 2 0 16) 1
  soft () (tcbField job id 3 19 1 0)
  match l.texit with
  | none =>
    modify fun s => s.dropKeys job l.task fun _ => true
    releaseSuccessors job t
    memberEnded job (tf t 2 44 20) 4
    modify fun s => s.freeSlot die slot
  | some (x, memb) =>
    let xt ← soft [] (readTcb job x.toNat)
    if memb then soft () (addMember job xt)
    releaseSuccessors job t
    let r ← soft none (do let xt ← readTcb job x.toNat; pure (some (xt, ← hwWords job (lnrOf xt) 8)))
    let inh ← match r with
      | some (xt, rec) => inherits job l.task n xt rec
      | none => pure false
    match inh, r with
    | true, some (xt, rec) =>
      modify fun s => (s.passKeys job l.task x (accordOf xt)).dropKeys job l.task fun _ => true
      soft () (tcbField job x.toNat 3 36 4 3)
      soft () (tcbField job x.toNat 3 32 4 (tf t 3 32 4))
      soft () (tcbField job x.toNat 3 19 1 1)
      memberEnded job (tf t 2 44 20) 4
      modify fun s =>
        let s := s.freeSlot die slot
        ({ s with launchSeq := s.launchSeq + 1 } : State).modDie die fun d => { d with launches := Tab.put d.launches slot (newLaunch job x xt rec s.launchSeq) }
      startUnit n die slot 0 true
    | _, _ =>
      modify fun s => s.dropKeys job l.task fun _ => true
      exitSubmit job id (tf t 3 32 4) x.toNat
      memberEnded job (tf t 2 44 20) 4
      modify fun s => s.freeSlot die slot

/-- After a unit has left its core: a task with units left goes on, else it is parked or retires. The frozen units of a quire are saved
once the others have ended (R307). -/
def finishLaunch (die slot : Nat) (n : CoreId) : Act Unit := do
  let s ← get
  match s.launchAt die slot with
  | none => pure ()
  | some l =>
    let live := s.unitCores die slot
    if live.all fun m => (s.core m).frozen && decide ((s.core m).cutting = .stopped) then
      for m in live do saveUnit m die slot
      match (← get).launchAt die slot with
      | none => pure ()
      | some l' =>
        if l.stopWalk then
          parkLaunch die slot l'
          match l.texit with
          | some (x, memb) =>
            let t ← soft [] (readTcb l.job l.task.toNat)
            if memb then soft () (do addMember l.job (← readTcb l.job x.toNat))
            exitSubmit l.job l.task.toNat (tf t 3 32 4) x.toNat
          | none => pure ()
        else if l.started < l.total ∨ !l.resume.isEmpty then pure ()
        else retireTask die slot l n

/-- Whether K's `halt` or `texit` may retire (R100): the halt lines are set, every engine of the core has drained, and no trap is due. -/
def State.haltReady (s : State) (n : CoreId) : Bool :=
  let c := s.core n
  c.unit.isSome && c.k.halting && decide (c.cutting = .running) && decide (c.debugHalt = .running) && c.fatal.isNone && !s.trapDue n &&
  c.l.halted && c.c.halted && c.s.halted && c.vec.flight.isEmpty && c.mat.flight.isEmpty && c.tl.flight.isEmpty && c.ts.flight.isEmpty && c.ta.flight.isEmpty && c.cposts.isEmpty &&
  c.coll.isEmpty && !c.att.busy && c.att.exp.isNone && c.csrPend.isEmpty && c.ringPend.isEmpty && c.amos.isEmpty && s.storesDone n &&
  [c.k, c.l, c.c, c.s].all fun q => q.macroQ.isEmpty && q.mpos.isNone

/-- The last unit to end, of several in one cycle that of the lowest core (R384). -/
def Launch.noteEnd (l : Launch) (now : Nat) (n : CoreId) (ws : List Word) : Launch :=
  { l with lastEnd := match l.lastEnd with
      | some (t, m, x) => if t = now ∧ m.toNat < n.toNat then some (t, m, x) else some (now, n, ws)
      | none => some (now, n, ws) }

/-- `UNIT_HALT_RETIRE` (R100, R101, R295): the unit ends; with the last one its task is parked or retires. -/
def execUnitHaltRetire (n : CoreId) (s : State) : Out :=
  let c := s.core n
  match c.unit with
  | none => stall s
  | some u =>
    if s.haltReady n then runEvent s (do
      let ws := (List.range 8).map fun i => c.k.reg (BitVec.ofNat 5 (i + 1))
      modify fun s => (s.modCore n Core.noUnit).modLaunch u.die.toNat u.slot fun l =>
        let l := ({ l with ended := l.ended + 1, texit := u.texit } : Launch).noteEnd s.ccount n ws
        if l.quire then l.forfeit u else l
      finishLaunch u.die.toNat u.slot n)
    else stall s

/-! ## Pre-emption, cuts and resumes (R383 to R388) -/

/-- `CUT_COMPLETE` (R385, R387): every agent has reached its boundary; once every write presented to the slice is readable (R174), the save block is
written and the unit leaves the core. The faulting unit of a quire stays, frozen (R307). -/
def execCutComplete (n : CoreId) (s : State) : Out :=
  let c := s.core n
  match c.unit with
  | none => stall s
  | some u =>
    if c.cutting = .stopping ∧ s.atRest n then
      let s := s.settleCore n
      if !s.sliceStill n then .next s else
      runEvent (s.setAside n) (do
        if c.frozen then modify fun s => s.modCore n fun c => { c with cutting := .stopped }
        else saveUnit n u.die.toNat u.slot
        let s ← get
        let die := u.die.toNat
        if (s.unitCores die u.slot).all fun m => (s.core m).frozen && decide ((s.core m).cutting = .stopped) then finishLaunch die u.slot n)
    else stall s

/-- The request of a PREEMPT write (R402): job and task; none where a reserved bit is set. -/
def preemptOf (v : Word) : Option (BitVec 8 × BitVec 24) :=
  if bitsOf v 40 24 ≠ 0 ∨ bitsOf v 24 7 ≠ 0 then none else some (BitVec.ofNat 8 (bitsOf v 32 8), BitVec.ofNat 24 (bitsOf v 0 24))

/-- `PREEMPT_NODE` (R383, R384): the walk stops, and the resident units run to their ends. A task that is not RUNNING, or already
stopping, is not changed. A value of the other mode is that step's. -/
def execPreemptNode (v : Word) (s : State) : Out :=
  if v.getLsbD 31 then stall s else
  match (if s.dev.ready then preemptOf v else none) with
  | none => .next s
  | some (job, task) => match s.launchOf job task with
    | none => .next s
    | some (die, slot, l) =>
      if l.stopWalk then .next s
      else runEvent s (do
        modify fun s => s.modLaunch die slot fun l => { l with stopWalk := true, node := true }
        if (s.unitCores die slot).isEmpty then finishLaunch die slot (BitVec.ofNat 8 (64 * die)))

/-- `PREEMPT_CUT` (R383, R385): every resident unit of the task is cut. -/
def execPreemptCut (v : Word) (s : State) : Out :=
  if !v.getLsbD 31 then stall s else
  match (if s.dev.ready then preemptOf v else none) with
  | none => .next s
  | some (job, task) => match s.launchOf job task with
    | none => .next s
    | some (die, slot, _) => runEvent s (do
        modify fun s =>
          let s := s.modLaunch die slot fun l => { l with stopWalk := true, node := false }
          (s.unitCores die slot).foldl (fun s m => s.modCore m fun c => c.beginCut s.ccount) s
        if (s.unitCores die slot).isEmpty then finishLaunch die slot (BitVec.ofNat 8 (64 * die)))

/-- The bytes of parts of a save block, zero bytes left out, ascending. -/
def readSave (job : BitVec 8) (at_ : Nat) (parts : List (Nat × Nat)) : Act (Tab Byte) :=
  parts.foldlM (init := []) fun img p => do
    let b ← hwRead job (at_ + p.1) p.2
    pure (Tab.merge 0 img (place p.1 b))

/-- The save block of a cut unit (R388): the parts that every cut writes, and those that it says it has. -/
def readBlockOf (job : BitVec 8) (at_ : Nat) (kept : Core) : Act (Tab Byte) := do
  let a ← readSave job at_ (alwaysParts ++ attPart kept)
  let b ← readSave job at_ (stateParts (partsFrom (← get) a kept))
  pure (Tab.merge 0 a b)

/-- A resume that is refused (R388): the unit faults before its first word, and its task parks again. -/
def refuseResume (die slot : Nat) (n : CoreId) (code : Nat) (val : Word) : Act Unit := do
  Act.need (!((← get).die (dieOf n)).fqFull)
  modify fun s =>
    let s := s.modLaunch die slot fun l => { l with stopWalk := true, fatalPark := true, node := false, park := if l.fatalPark then l.park else some (code, val, n) }
    match s.launchAt die slot with
    | some l => if l.quire then s else (s.unitCores die slot).foldl (fun s m => s.modCore m fun c => c.beginCut s.ccount) s
    | none => s
  if ((← get).unitCores die slot).isEmpty then finishLaunch die slot n

/-- Whether a cut unit of a task may go on on a core: the writes it had left at sites are performed (R176, R343), and those presented to the slice are
readable (R174). -/
def State.mayResume (s : State) (n : CoreId) (l : Launch) : Bool :=
  s.sliceStill n && s.orphans.all fun o => decide (o.core ≠ n) || decide (o.job ≠ l.job) || decide (o.task ≠ l.task) || doneBy o.doneAt s.ccount

/-- `CUT_RESUME` (R303, R388): a cut unit resumes on its core from its save block, at once with the rest of its state; the slice's code is as its
contents (R173). -/
def execCutResume (n : CoreId) (s : State) : Out :=
  let s := s.regrip
  match s.best n with
  | none => stall s
  | some (die, slot, l) =>
    match (if s.coreFree n && s.mayResume n l then l.resume.find? fun u => decide (u.core = n) else none) with
    | none => stall s
    | some u => runEvent s (do
        let t ← soft [] (readTcb l.job l.task.toNat)
        let at_ := saveOf t + u.rank * 2 ^ 22
        match ← tryAct (readBlockOf l.job at_ u.kept) with
        | .error (c, v) => refuseResume die slot n c v
        | .ok img =>
          match coreFrom s l.job n img (s.core n) u.kept with
          | none => refuseResume die slot n 0x02 (w64 at_)
          | some c =>
            let seq : Seq → Seq := fun q => { q with nextIssue := s.ccount + 1, cover := q.cover.join { stores := [], till := s.slicesTill } }
            modify fun s => ((s.clearCodes n).setCore n
              { c with
                tl := { c.tl with flight := c.tl.flight.map fun f => { f with parked := none } }
                ts := { c.ts with flight := c.ts.flight.map fun f => { f with parked := none } }
                ta := { c.ta with flight := c.ta.flight.map fun f => { f with parked := none } }
                att := { c.att with parked := none }, coll := c.coll.map fun r => { r with parked := none }
                k := seq c.k, l := seq c.l, c := seq c.c, s := seq c.s, prio := l.prio, lastRetire := s.ccount
                unit := c.unit.map fun x => { x with die := BitVec.ofNat 2 die, slot := slot } }).modLaunch die slot fun l =>
                  { l with resume := l.resume.filter fun x => decide (x.core ≠ n) }
            -- withdrawn claims are sent again (R385)
            modify fun s => s.resendClaims n)

/-! ## The dispatchers (R292, R294, R296, R312, R317) -/

/-- The tasks of a die in the order its dispatcher considers them (R294). -/
def Die.considered (d : Die) : List ReadyEnt := ([7, 6, 5, 4, 3, 2, 1, 0] : List Nat).flatMap fun p => d.queue p

/-- A launch slot that is free. -/
def Die.freeSlot (d : Die) : Option Nat := (List.range 64).find? fun i => !(d.launches.any fun l => l.1 == i)

/-- The first eligible task of a list, with its block as read (R294); one whose block cannot be read is not eligible. -/
def firstEligible : List ReadyEnt → Act (Option (ReadyEnt × List Nat))
  | [] => pure none
  | e :: rest => do
    let t ← soft [] (readTcb e.job e.task.toNat)
    if t ≠ [] ∧ (← get).accordFree e.job e.task (accordOf t) then pure (some (e, t)) else firstEligible rest

/-- Dispatches a task (R294): its keys and a launch slot are taken and its walk starts, from its kept position if it was parked; a
task of a cancelled level is cancelled (R304), one that fails a check is parked, with KEYREL losing its keys and groups (R292, R300), and a
launch of no units retires (R288). -/
def dispatchTask (die slot : Nat) (e : ReadyEnt) (t : List Nat) : Act Unit := do
  let job := e.job
  let id := e.task.toNat
  if ← levelsCancelled job t then cancelTask job id
  else
    match ← soft none (checkTask job id) with
    | none =>
      Act.need (!((← get).die die).fqFull)
      let old := (← get).parked.find? fun l => l.job == job && l.task == e.task
      if tf t 3 63 1 = 1 then
        match old with
        | some l => for u in l.resume do abortSaved job (saveOf t) u
        | none => pure ()
        modify fun s => s.dropKeys job e.task fun _ => true
        soft () (tcbField job id 3 19 1 0)
      if old.isNone then modify fun s => { s with parked := s.parked ++ [(newLaunch job e.task t [] 0).parkedForm] }
      modify fun s => ((s.leaveReady job e.task).dropWants job e.task).putFault (BitVec.ofNat 8 (64 * die)) 0x02 (w64 (lnrOf t)) job e.task
      soft () (tcbField job id 3 24 8 2)
      setTaskState job id 5
    | some (t, r) =>
      modify fun s => ((accordOf t).foldl (fun s k => s.takeKey job e.task k.1 k.2) (s.leaveReady job e.task)).dropWants job e.task
      setTaskState job id 3
      soft () (tcbField job id 3 19 1 1)
      modify fun s =>
        let new := newLaunch job e.task t r s.launchSeq
        let l := match s.parked.find? fun l => l.job == job && l.task == e.task with
          | some p => { p with prio := new.prio, order := new.order, recAddr := new.recAddr, words := new.words, total := new.total }
          | none => new
        let s := { s with launchSeq := s.launchSeq + 1, parked := s.parked.filter fun l => !(l.job == job && l.task == e.task) }
        s.modDie die fun d => { d with launches := Tab.put d.launches slot l }
      finishLaunch die slot (BitVec.ofNat 8 (64 * die))

/-- The dispatch of a die (R294): one in a cycle, and after those of the dies below in it; it waits where no task is eligible. -/
def dispatchOn (d : Nat) : Act Unit := do
  modify State.regrip
  let s ← get
  Act.need (s.dies.all fun x => decide (x.1 < d) || decide (x.2.dispAt ≠ s.ccount + 1))
  match (s.die d).freeSlot with
  | none => Act.wait
  | some slot =>
    match ← firstEligible (s.die d).considered with
    | none => Act.wait
    | some (e, t) =>
      dispatchTask d slot e t
      modify fun s => s.modDie d fun x => { x with dispAt := s.ccount + 1 }

/-- Whether a die could dispatch a task now. -/
def State.canDispatch (s : State) (d : Nat) : Bool := match (dispatchOn d).run { s with reader := deviceAgent } with | (.ok _, _) => true | _ => false

/-- Whether a die must dispatch in this cycle: it began with an eligible task, and none has been dispatched in it (R294, R325). -/
def State.owes (s : State) (d : Nat) : Bool := decide ((s.die d).owed = s.ccount + 1) && s.canDispatch d

/-- `TASK_DISPATCH` (R294): attempts of one cycle are taken in ascending die number. -/
def execTaskDispatch (d : BitVec 2) (s : State) : Out :=
  if (List.range d.toNat).any s.owes then stall s else runEvent s (dispatchOn d.toNat)

/-- A task reserves the keys of its accord (R296). -/
def reserveKeys (job : BitVec 8) (task : BitVec 24) (die pri : Nat) : Act Unit := do
  let t ← soft [] (readTcb job task.toNat)
  modify fun s =>
    let s := s.modDie die fun d => { d with ready := Tab.put d.ready pri ((d.queue pri).map fun x => if x.job = job ∧ x.task = task then { x with reserving := true } else x) }
    ({ s with wantKeys := s.wantKeys ++ ((accordOf t).map fun k => (job, task, k.1)) } : State).settleKeys

/-- `KEY_RESERVATION` (R296): a READY task of 2^16 cycles reserves the keys of its accord. -/
def execKeyReservation (job : BitVec 8) (task : BitVec 24) (s : State) : Out :=
  match s.readyOf job task with
  | none => stall s
  | some (die, pri, e) =>
    if e.reserving ∨ s.ccount < e.since + 2 ^ 16 then stall s else runEvent s (reserveKeys job task die pri)

/-- Whether a task of a ready queue must reserve its keys in this cycle (R296). -/
def State.mustReserve (s : State) : Bool :=
  s.dies.any fun d => d.2.ready.any fun q => q.2.any fun e => !e.reserving && decide (e.since + 2 ^ 16 ≤ s.ccount) &&
    (match (reserveKeys e.job e.task d.1 q.1).run { s with reader := deviceAgent } with | (.ok _, _) => true | _ => false)

/-- Whether the cycle cannot end yet: a task is to be dispatched or to reserve its keys in it (R294, R296, R325). -/
def State.dispatchDue (s : State) : Bool := (List.range 4).any s.owes || s.mustReserve

/-- The cycle that begins with tasks that are eligible: a die owes a dispatch in it (R294). -/
def State.noteOwed (s : State) : State :=
  { s with dies := s.dies.map fun d => (d.1, if s.canDispatch d.1 then { d.2 with owed := s.ccount + 1 } else d.2) }

/-- The first entry of the pool that can go on: a submission, or a task whose ready queue has room and has had no other from the pool in this
cycle, so that the order of the pool and that of R292 agree (R312, R317, R322; log 15). -/
def firstPoolEntry : List PoolEnt → Act (Option PoolEnt)
  | [] => pure none
  | p :: rest => do
    if !p.overflow then pure (some p)
    else
      let t ← soft [] (readTcb p.job p.task.toNat)
      let q ← queueOf p.job t
      let s ← get
      let l := (s.die q.1).queue q.2
      if decide (l.length < 4096) && !l.any fun x => x.pooled && decide (x.since = s.ccount) then pure (some p) else firstPoolEntry rest

/-- `POOL_SUBMIT` (R312, R317): a pending launch is submitted, one whose block cannot be read dropped; a task that overflowed its
queue enters it in the order of the pool, ahead of tasks that become ready later. -/
def execPoolSubmit (s : State) : Out := runEvent s (do
  match ← firstPoolEntry s.pool with
  | none => Act.wait
  | some p =>
    modify fun s => { s with pool := s.pool.erase p }
    if p.overflow then
      let t ← soft [] (readTcb p.job p.task.toNat)
      let q ← queueOf p.job t
      modify fun s => s.modDie q.1 fun d => { d with ready := Tab.put d.ready q.2 (d.queue q.2 ++ [{ job := p.job, task := p.task, since := s.ccount, reserving := false, pooled := true }]) }
    else
      -- submit() is applied without another check (R312)
      let t ← soft [] (readTcb p.job p.task.toNat)
      if t = [] then pure () else submitTask p.job p.task.toNat t)

/-! ## Task words of K (R311 to R316) -/

/-- A task word: ILLEGAL_INSTR in F; it issues with its sources readable. -/
def taskWord (s : State) (srcs : List (BitVec 5)) (body : Act State) : Out :=
  if !s.canIssue then stall s
  else if s.isF then .next s.illegal
  else if s.readyFor srcs then runWord s body
  else stall s

/-- The job and task of the executing unit, and its launch. -/
def State.myUnit (s : State) : BitVec 8 × BitVec 24 × Option Launch :=
  match s.here.unit with
  | some u => (u.job, u.task, s.launchAt u.die.toNat u.slot)
  | none => (0, 0, none)

/-- Whether the executing unit's launch is a quire. -/
def State.inQuire (s : State) : Bool := match s.myUnit.2.2 with | some l => l.quire | none => false

/-- The blocking read and checks of R292 for `spawn` and `texit` (R312): a refused one raises ILLEGAL_OPERAND with the ID. -/
def wordCheck (job : BitVec 8) (id : Nat) : Act (List Nat) := do
  match ← checkTask job id with
  | none => Act.fault 0x02 (w64 id)
  | some (t, _) =>
    Act.check (decide (tf t 3 36 4 = 0) || decide (tf t 3 36 4 = 5)) 0x02 (w64 id)
    pure t

/-- `spawn` (R312): its writes to the block and the graph follow K's earlier ones in program order (R256; log 26). -/
def execSpawn (a : BitVec 5) (m : BitVec 1) (s : State) : Out :=
  taskWord s [a] (do
    Act.need s.released
    let id := (s.reg a).toNat
    let job := s.myUnit.1
    Act.check (decide (id ≠ 0) && decide (id < 2 ^ 24)) 0x02 s.wordVal
    let t ← wordCheck job id
    let x ← readTcb job s.myUnit.2.1.toNat
    Act.check (decide (tf x 3 32 4 < 8)) 0x02 (w64 id)
    Act.need (decide (s.pool.length < 4096))
    tcbField job id 3 32 4 (tf x 3 32 4 + 1)
    if m = 1 then addMember job t
    modify fun s => { s with pool := s.pool ++ [({ job := job, task := BitVec.ofNat 24 id, overflow := false, since := s.ccount } : PoolEnt)] }
    pure (← get).advance)

/-- `texit` (R298, R312): a successor is checked, by reads that follow K's earlier writes in program order (R176, R256; log 26), and the word waits to retire as `halt` does. -/
def execTexit (a : BitVec 5) (m : BitVec 1) (s : State) : Out :=
  taskWord s [a] (do
    let id := (s.reg a).toNat
    Act.check (match s.myUnit.2.2 with | some l => decide (l.total ≤ 1) | none => true) 0x01 s.wordVal
    Act.check (!s.here.group.isOpen) 0x01 s.wordVal
    Act.check (decide (id < 2 ^ 24)) 0x02 s.wordVal
    if id ≠ 0 then
      Act.need s.released
      let _ ← wordCheck s.myUnit.1 id
    let s ← get
    let s := s.modHere fun c => { c with unit := c.unit.map fun u => { u with texit := if id = 0 then none else some (BitVec.ofNat 24 id, m = 1) } }
    pure { (s.modSeq fun q => { q with halting := true }) with issued := true })

/-- `cnt.add` (R313): a no-return atomic addition at the counter's home, after K's earlier writes. -/
def execCntAdd (a b : BitVec 5) (s : State) : Out :=
  taskWord s [a, b] (do
    let n := s.cur.1
    Act.check (!s.here.capturing) 0x01 s.wordVal
    Act.check (decide ((s.reg a).toNat < 65536)) 0x02 s.wordVal
    let va := s.ctrAt s.myUnit.1 (s.reg a).toNat
    let t ← resolve n .k va .atomic
    let s ← get
    let id := s.here.nextId + 1
    let req : AmoReq :=
      { id := id, seq := s.here.storeSeq + 1, pres := none, op := 1, dbl := true, ret := none, va := va, tgt := t, opnd := s.reg b, cmp := 0,
        fcsr := s.seq.fcsr, cover := s.covering, src := (s.seq.off, s.seq.mpos) }
    Act.need (s.mayRelease && (!req.own n || s.amoMay n req))
    let req := if req.own n then { req with pres := some (s.ccount, 0) } else req
    pure (s.modHere fun c => { c with amos := c.amos ++ [req], nextId := id, storeSeq := req.seq }).advance)

/-- `cnt.wait` (R313): not ready while the counter is less; it reads as a load of K does, with K's own writes (R176, R256); its return is an
acquire. -/
def execCntWait (d a b : BitVec 5) (s : State) : Out :=
  taskWord s [a, b] (do
    Act.check (decide ((s.reg a).toNat < 65536)) 0x02 s.wordVal
    Act.need (s.covered s.seq.cover)
    let v := w64 (← kViewW s.cur.1 (s.ctrAt s.myUnit.1 (s.reg a).toNat))
    Act.need (decide ((s.reg b).toNat ≤ v.toNat))
    let s ← get
    pure ((s.acquire { stores := [], till := s.slicesTill }).finish d v 1))

/-- `cancel` (R314): the task, or the level record whose KIND must match; a unit of what it cancels is killed with its word. Its marks follow
K's earlier writes in program order (R256; log 26). -/
def execCancel (a : BitVec 5) (l : BitVec 2) (s : State) : Out :=
  taskWord s [a] (do
    Act.need s.released
    let v := (s.reg a).toNat
    let job := s.myUnit.1
    if l = 0 then
      Act.check (decide (v ≠ 0) && decide (v < 2 ^ 24)) 0x02 s.wordVal
      cancelTask job v
    else
      Act.check (if l = 3 then decide (v = 0) else decide (v < 2 ^ 20)) 0x02 s.wordVal
      let g ← levelV0 job v
      Act.check (decide (l = 3) || decide (lvKind g = l.toNat - 1)) 0x02 s.wordVal
      markCancelled job v
    let s ← get
    pure (if s.here.unit.isSome then s.advance else { s with issued := true }))

/-- `bar.arrive` (R308, R315): ILLEGAL_INSTR outside a quire, and for an arrival not yet waited for; a release at die scope, which
does not wait (R261). -/
def execBarArrive (b : BitVec 2) (s : State) : Out :=
  taskWord s [] (do
    match s.here.unit, s.myUnit.2.2 with
    | some u, some l =>
      Act.check (l.quire && decide (Tab.get 0 u.arrived b.toNat = 0)) 0x01 s.wordVal
      let x := Tab.get Barrier.start l.bars b.toNat
      let s := s.modLaunch u.die.toNat u.slot fun l => { l with bars := Tab.put l.bars b.toNat (({ x with arrivals := x.arrivals + 1, cov := x.cov.join s.covering } : Barrier).close l.total l.forfeited) }
      pure (s.modHere fun c => { c with unit := some { u with arrived := Tab.set 0 u.arrived b.toNat (x.episode + 1) } }).advance
    | _, _ => Act.fault 0x01 s.wordVal)

/-- `bar.wait` (R308, R315): not ready before the episode arrived in has completed; its forfeit count, an acquire. -/
def execBarWait (d : BitVec 5) (b : BitVec 2) (s : State) : Out :=
  taskWord s [] (do
    match s.here.unit, s.myUnit.2.2 with
    | some u, some l =>
      let e := Tab.get 0 u.arrived b.toNat
      Act.check (l.quire && decide (e ≠ 0)) 0x01 s.wordVal
      let x := Tab.get Barrier.start l.bars b.toNat
      Act.need (decide (e ≤ x.episode))
      let y := (x.past[e - 1]?).getD (0, Cover.none)
      let s := s.modHere fun c => { c with unit := some { u with arrived := Tab.set 0 u.arrived b.toNat 0 } }
      pure ((s.acquire (y.2.join { stores := [], till := s.slicesTill })).finish d (w64 y.1) 1)
    | _, _ => Act.fault 0x01 s.wordVal)

/-- The status of a key of a job (R316). -/
def State.keyWord (s : State) (job : BitVec 8) (k : Nat) : Nat :=
  match s.keyAt job k with
  | none => 0
  | some e =>
    (if e.ex.isSome then 2 ^ 63 else 0) + (if (s.reserver job k).isSome then 2 ^ 62 else 0) + e.sh.length % 2 ^ 16 * 2 ^ 40 +
    (match e.ex, s.reserver job k with
     | some t, _ => t.toNat
     | none, some t => t.toNat
     | none, none => 0)

/-- `keyq` (R316). -/
def execKeyq (d a : BitVec 5) (s : State) : Out :=
  taskWord s [a] (pure (s.finish d (w64 (s.keyWord s.myUnit.1 (bitsOf (s.reg a) 0 48))) 1))

end Sys2Proof.Machine
end

