-- ==== Sys2Proof/Machine/Coll.lean ====
section
/-! DEFINITION. Reduction windows (R275 to R279): the switches, the collective engine, and the configuration of window entries (R409). -/
namespace Sys2Proof.Machine

/-! ## Domain addresses (R337) -/

/-- The leaves below a table of a level: the page's base address in its table's range, its size and its entry (R334). -/
def State.leavesFrom (s : State) : Nat → Nat → Nat → List (Nat × Nat × Word)
  | 0, t, va => (List.range 32).filterMap fun i =>
      let e : Word := w64 (ofBytes (s.devBytes (t + 8 * i) 8))
      if e.getLsbD 0 && !e.getLsbD 4 && decide (bitsOf e 6 2 = 0) && e.getLsbD 1 && leafOk 0 e then some (va + i * levelSize 0, levelSize 0, e) else none
  | lv + 1, t, va => (List.range 512).flatMap fun i =>
      let e : Word := w64 (ofBytes (s.devBytes (t + 8 * i) 8))
      let base := va + i * levelSize (lv + 1)
      if !(e.getLsbD 0 && !e.getLsbD 4 && decide (bitsOf e 6 2 = 0)) then []
      else if e.getLsbD 1 then (if leafOk (lv + 1) e then [(base, levelSize (lv + 1), e)] else [])
      else if nonLeafOk (lv + 1) e then s.leavesFrom lv (bitsOf e 8 45 * 256) base else []

/-- The pages of a job that map domain addresses: first address, size, whether a window page (R335, R337). -/
def State.domainPages (s : State) (job : BitVec 8) : List (Nat × Nat × Bool) :=
  let r := Tab.get 0 s.xlate job.toNat
  if !r.getLsbD 0 then [] else
  (s.leavesFrom 4 (bitsOf r 12 45 * 4096) 0).filterMap fun x =>
    let e := x.2.2
    let pa := bitsOf e 16 37 * 2 ^ 16
    if bitsOf e 62 2 = 1 then none else some ((if bitsOf e 62 2 = 0 then s.dev.dev.toNat else bitsOf e 53 9) * 2 ^ 40 + pa, x.2.1, e.getLsbD 5)

/-- Checks that a range of domain addresses lies on window pages of a job (R278): TRANSLATION where no page maps a byte, PROTECTION
where one does that is no window page; `tval` holds the domain address. -/
def windowCheck (job : BitVec 8) (da len : Nat) : Act Unit := do
  let ps := (← get).domainPages job
  (List.range ((len + 63) / 64)).foldlM (init := ()) fun _ i => do
    let a := da + 64 * i
    let on := ps.filter fun p => decide (p.1 ≤ a) && decide (a < p.1 + p.2.1)
    Act.check (!on.isEmpty) 0x05 (w64 a)
    Act.check (on.any fun p => p.2.2) 0x06 (w64 a)

/-- Checks that each page of a range of a context can be accessed. -/
def rangeCheck (n : CoreId) (q : Ctx) (va len : Nat) (acc : Access) : Act Unit :=
  ((va :: (List.range (len / 2 ^ 16 + 2)).map fun i => (va / 2 ^ 16 + i + 1) * 2 ^ 16).filter fun a => decide (a < va + len)).foldlM (init := ()) fun _ a => do
    let _ ← resolve n q a acc
    pure ()

/-! ## `coll.red` (R278) -/

/-- A field of a request. -/
def rq (ws : List Word) (i lo len : Nat) : Nat := bitsOf ((ws[i]?).getD 0) lo len

/-- The bytes of an element of a payload format (R66). -/
def payBytes (fmt : Nat) : Nat := (mFmt fmt).width / 8
/-- The bytes of a result element: FP64 for FP64, else FP32 (R275). -/
def accBytes (fmt : Nat) : Nat := if fmt = 4 then 8 else 4

/-- Whether a payload format is allocated: T8, BF16, FP32 or FP64 (R275, R278). -/
def payOk (fmt : Nat) : Bool := fmt == 0 || fmt == 2 || fmt == 3 || fmt == 4

/-- Check 2 of R278. -/
def collOk (ws : List Word) : Bool :=
  let nel := rq ws 2 0 32
  decide (rq ws 0 57 7 = 0) && decide (rq ws 1 57 7 = 0) && decide (rq ws 2 32 32 = 0) && decide (rq ws 3 41 23 = 0) && decide (rq ws 3 3 5 = 0) &&
  payOk (rq ws 3 0 3) && decide (nel % 64 = 0) && decide (64 ≤ nel) && decide (nel ≤ 2 ^ 24) && decide (rq ws 5 0 64 = 0) && decide (rq ws 6 0 64 = 0) && decide (rq ws 7 0 64 = 0) &&
  (decide (rq ws 3 40 1 = 0) || decide (rq ws 3 8 32 < 65536))

/-- The bytes of a request's source: its elements, and for T8 a scale byte for each block. -/
def srcBytes (ws : List Word) : Nat := rq ws 2 0 32 * payBytes (rq ws 3 0 3) + (if rq ws 3 0 3 = 0 then rq ws 2 0 32 / 64 else 0)

/-- `coll.red` (R278): blocking, its push a release; not ready while the engine holds 16 requests or a group captures, and its read follows what
has been acquired (R261). In F the source is physical. -/
def execCollRed (a : BitVec 5) (s : State) : Out :=
  if s.readyFor [a] && s.covered s.seq.cover && s.mayRelease then
    runWord s (do
      let n := s.cur.1
      let q := s.cur.2
      Act.need ((s.isF || !s.here.capturing) && decide (s.here.coll.length < 16))
      let va := s.reg a
      Act.check (decide (va.toNat % 64 = 0)) 0x04 va
      let ws := (dwords (← kfView n q va.toNat 64)).map w64
      Act.check (collOk ws) 0x02 s.wordVal
      Act.check (decide (rq ws 0 0 6 = 0)) 0x04 ((ws[0]?).getD 0)
      Act.check (decide (rq ws 1 0 6 = 0)) 0x04 ((ws[1]?).getD 0)
      rangeCheck n q (rq ws 0 0 57) (srcBytes ws) .read
      windowCheck (s.jobOf n) (rq ws 1 0 57) (rq ws 2 0 32 * accBytes (rq ws 3 0 3))
      modify fun s => s.modHere fun c =>
        { (c.pushed 0x47) with
          coll := c.coll ++ [{ addr := va.toNat, job := s.jobOf n, phys := s.isF, words := ws, started := false, sent := 0, ended := 0, err := 0, flags := 0, parked := none,
                               cover := s.covering }] }
      pure (← get).advance)
  else stall s

/-! ## The switches (R275 to R277) -/

/-- Switch `i`. -/
def State.sw (s : State) (i : Nat) : Switch := Tab.get Switch.reset s.switches i
/-- A switch changed. -/
def State.modSw (s : State) (i : Nat) (g : Switch → Switch) : State := { s with switches := Tab.put s.switches i (g (s.sw i)) }

/-- A window entry's first domain address, blocks, payload format, OUTPORT, ports, VALID and DEPTH (R275). -/
def winBase (e : List Word) : Nat := rq e 0 0 57
/-- NBLK. -/
def winBlocks (e : List Word) : Nat := rq e 1 16 24
/-- PFMT. -/
def winFmt (e : List Word) : Nat := rq e 1 8 3
/-- OUTPORT. -/
def winPort (e : List Word) : Nat := rq e 1 0 6
/-- VALID. -/
def winValid (e : List Word) : Bool := decide (rq e 3 16 1 = 1)
/-- DEPTH. -/
def winDepth (e : List Word) : Nat := rq e 3 0 11
/-- The ports of PORTMASK, ascending. -/
def winPorts (e : List Word) : List Nat := (List.range 64).filter fun p => rq e 2 p 1 == 1
/-- The bytes of a window. -/
def winBytes (e : List Word) : Nat := winBlocks e * 64 * accBytes (winFmt e)

/-- Whether an entry may be written (R275). -/
def winOk (sw : Switch) (i : Nat) (e : List Word) : Bool :=
  let others := sw.win.filter fun x => decide (x.1 ≠ i) && winValid x.2
  decide (rq e 0 57 7 = 0) && decide (rq e 0 0 6 = 0) && decide (rq e 1 40 24 = 0) && decide (rq e 1 11 5 = 0) && decide (rq e 1 6 2 = 0) && decide (rq e 3 17 47 = 0) &&
  decide (rq e 3 11 5 = 0) && decide (winBlocks e ≠ 0) && payOk (winFmt e) && decide (rq e 2 0 64 ≠ 0) && decide (1 ≤ winDepth e) && decide (winDepth e ≤ 1024) &&
  (others.all fun x => decide (winBase e + winBytes e ≤ winBase x.2) || decide (winBase x.2 + winBytes x.2 ≤ winBase e)) &&
  (!winValid e || decide ((others.map fun x => winDepth x.2).sum + winDepth e ≤ 4096))

/-- The valid entry that a contribution matches: its number and block, none where it is rejected (R277). -/
def Switch.matching (sw : Switch) (c : Contribution) : Option (Nat × Nat) :=
  match sw.win.find? fun x => winValid x.2 && decide (winBase x.2 ≤ c.addr) && decide (c.addr < winBase x.2 + winBytes x.2) with
  | none => none
  | some (i, e) =>
    let k := (c.addr - winBase e) / (64 * accBytes (winFmt e)) + c.blk
    if k < winBlocks e ∧ winFmt e = c.fmt.toNat ∧ (winPorts e).contains c.port.toNat then some (i, k) else none

/-- An element in the accumulator format: exact, but for scaled T8 (R276); a signalling NaN is invalid (R21). -/
def toAcc (fmt : Nat) (scale : BitVec 8) (v : BitVec 64) : Nat × Flags :=
  let af : Fmt := if fmt = 4 then .f64 else .f32
  let x := (mFmt fmt).decode (v.toNat % 2 ^ (mFmt fmt).width)
  let r := af.round .rne false (if fmt = 0 then x.scale (sextNat scale.toNat 8) else x)
  (r.1, r.2 ||| (if x.isSig then fNV else 0))

/-- The combination of one element over the contributions in port order (R276). -/
def combine (fmt : Nat) : List (BitVec 8 × BitVec 64) → Nat × Flags
  | [] => (0, 0)
  | x :: rest => rest.foldl (fun a y =>
      let v := toAcc fmt y.1 y.2
      let r := (if fmt = 4 then Fmt.f64 else Fmt.f32).addBits .rne false a.1 v.1
      (r.1, a.2 ||| v.2 ||| r.2)) (toAcc fmt x.1 x.2)

/-- The contributions of a round in ascending port number. -/
def byPort (ports : List Nat) (got : List Contribution) : List Contribution := ports.filterMap fun p => got.find? fun c => decide (c.port.toNat = p)

/-- The blocks of the oldest request of each of some cores have ended, with flags or an error (R279). -/
def State.blocksEnd (s : State) (cores : List CoreId) (fl : Flags) (err : Option Nat) : State :=
  cores.foldl (fun s n => s.modCore n fun c =>
    { c with coll := match c.coll with
        | [] => []
        | r :: rest => { r with ended := r.ended + 1, flags := r.flags ||| fl, err := err.getD r.err } :: rest }) s

/-- Whether the home cannot take a result now: its site is in self-refresh (R343), an atomic holds a word of it (R273, R280), or its
Zuore ports are off (R402); the contribution that would close the round then waits at its port. -/
def State.homeBusy (s : State) (da len : Nat) : Bool :=
  decide (da / 2 ^ 40 = s.dev.dev.toNat) && (s.siteHeld (da % 2 ^ 40) len || s.locked (.dev (da % 2 ^ 40)) len || !s.dev.zen)

/-- A contribution arrives at a switch (R276, R277): it is rejected, waits at its port, or joins or opens a round; a round that has every
port closes, and its result goes on to an upper switch or is written at the home. -/
def State.contribute (s : State) (c : Contribution) : Nat → State
  | 0 => s
  | fuel + 1 =>
    let sw := s.sw c.sw
    match sw.matching c with
    | none => s.blocksEnd c.cores 0 (some 2)
    | some (i, k) =>
      let e := Tab.get [] sw.win i
      let wait := s.modSw c.sw fun w => { w with waiting := w.waiting ++ [c] }
      let mine := fun (r : Round) => decide (r.entry = i) && decide (r.blk = k)
      let open_ := sw.rounds.find? mine
      let full := open_.isNone && decide (winDepth e ≤ (sw.rounds.filter fun r => decide (r.entry = i)).length)
      let twice := match open_ with | some r => r.got.any fun x => decide (x.port = c.port) | none => false
      let da := winBase e + k * 64 * accBytes (winFmt e)
      let closes := (winPorts e).all fun p => decide (p = c.port.toNat) || (match open_ with | some r => r.got.any fun x => decide (x.port.toNat = p) | none => false)
      if full || twice || (closes && (Config.switchOut c.sw (winPort e)).isNone && s.homeBusy da (64 * accBytes (winFmt e))) then wait
      else
        let got := (match open_ with | some r => r.got | none => []) ++ [c]
        if closes then
          let inOrder := byPort (winPorts e) got
          let outs := (List.range 64).map fun j => combine (winFmt e) (inOrder.map fun x => (x.scale, (x.elems[j]?).getD 0))
          let fl := outs.foldl (fun a o => a ||| o.2) (got.foldl (fun a x => a ||| x.flags) 0)
          let cores := got.flatMap fun x => x.cores
          let s := s.modSw c.sw fun w => { w with rounds := w.rounds.filter fun r => !mine r }
          match Config.switchOut c.sw (winPort e) with
          | some (sw', port) =>
            let up : Contribution :=
              { sw := sw', port := BitVec.ofNat 6 port, addr := da, blk := 0, fmt := (if winFmt e = 4 then 4 else 3), scale := 0, flags := fl,
                elems := (outs.map fun o => BitVec.ofNat 64 o.1), cores := cores }
            if (s.sw sw').waiting.any fun x => decide (x.port = up.port) then s.modSw sw' fun w => { w with waiting := w.waiting ++ [up] } else s.contribute up fuel
          | none =>
            let s := if da / 2 ^ 40 = s.dev.dev.toNat ∧ da % 2 ^ 40 < devSize
              then (s.writeDev (da % 2 ^ 40) (outs.flatMap fun o => toBytes (accBytes (winFmt e)) o.1)).1 else s
            s.blocksEnd cores fl none
        else
          s.modSw c.sw fun w => { w with rounds := (w.rounds.filter fun r => !mine r) ++ [{ entry := i, blk := k, got := got }] }

/-- The port of a device's route entry, where it is valid, Zuore is enabled and the port is up (R279, R402, R409). -/
def State.portTo (s : State) (d : Nat) : Option Nat :=
  let r := Tab.get 0 s.dev.route d
  let p := bitsOf r 0 4
  if r.getLsbD 63 && s.dev.zen && s.dev.zup.getLsbD p then some p else none

/-- A contribution enters a switch behind those that wait at its port (R276). -/
def State.arrive (s : State) (c : Contribution) : State :=
  if (s.sw c.sw).waiting.any fun x => decide (x.port = c.port) then s.modSw c.sw fun w => { w with waiting := w.waiting ++ [c] } else s.contribute c 4

/-- A read of a job's memory by an engine of a core, with its stale-read check (R174, R177). -/
def engRead (n : CoreId) (job : BitVec 8) (va len : Nat) : Act (List Byte) := do
  let parts ← (pieces va len (len / 64 + 2)).foldlM (init := []) fun acc p => do
    let t ← resolveAt n.toNat job p.1 .read
    staleCheck n t p.1 p.2
    let r ← readTarget t p.2 p.1
    pure (r.1 :: acc)
  pure parts.reverse.flatten

/-- A block of a request's source (R278): its elements and its scale. -/
def readBlock (n : CoreId) (r : CollReq) (j : Nat) : Act (List (BitVec 64) × BitVec 8) := do
  let fmt := rq r.words 3 0 3
  let sz := payBytes fmt
  let src := rq r.words 0 0 57
  let rd := fun (va len : Nat) => if r.phys then kfView n .f va len else engRead n r.job va len
  let b ← rd (src + j * 64 * sz) (64 * sz)
  let sc ← if fmt = 0 then rd (src + rq r.words 2 0 32 + j) 1 else pure []
  pure ((chunksOf sz b).map fun x => BitVec.ofNat 64 x, sc.headD 0)

/-- The oldest request of a core changed. -/
def State.modColl (s : State) (n : CoreId) (g : CollReq → CollReq) : State :=
  s.modCore n fun c => { c with coll := match c.coll with | [] => [] | r :: rest => g r :: rest }

/-- `CONTRIBUTION_ARRIVAL` (R276, R279): of another device, or the next block of the oldest request of a core here, which its engine reads
and sends through the port to the window's home once the rounds of the blocks before it have delivered and what the push covers is readable
(R261). A request not started does not start while the core is being stopped; one that has goes on (R385). -/
def execContributionArrival (c : Contribution) (s : State) : Out :=
  match c.cores with
  | [] => .next (s.arrive c)
  | [n] =>
    match (s.core n).coll with
    | [] => stall s
    | r :: _ =>
      let da := rq r.words 1 0 57
      let blocks := rq r.words 2 0 32 / 64
      match s.portTo (da / 2 ^ 40) with
      | none => stall s
      | some p =>
        if blocks ≤ r.sent ∨ r.ended < r.sent ∨ r.parked.isSome ∨ (!r.started ∧ ((s.core n).cutting ≠ .running ∨ (s.core n).debugHalt ≠ .running)) ∨
            !s.covered r.cover then stall s
        else
          let go : State → State := fun s => s.modColl n fun r => { r with started := true, sent := r.sent + 1 }
          let s1 : State := { s with reader := (n, 5, r.addr) }
          match (readBlock n r r.sent).run s1 with
          | (.ok (el, sc), t) =>
            .next ((go (t.dropReads s1.reader)).arrive
              { sw := p, port := BitVec.ofNat 6 (Config.switchIn p), addr := da, blk := r.sent, fmt := BitVec.ofNat 3 (rq r.words 3 0 3), scale := sc, flags := 0,
                elems := el, cores := [n] })
          | (.error (.wait q), _) => stall (s.ask q)
          | (.error (.fault code v), t) | (.error (.late code v), t) =>
            if s.mayReplay r.job n code then .next (((undo s1 t).replayPut r.job n .k v false).modColl n fun r => { r with started := true, parked := some (v.toNat / 2 ^ 16) })
            else .next ((go (undo s1 t)).blocksEnd [n] 0 (some 1))
  | _ => stall s

/-- The waiting contributions of every switch, in order. -/
def State.waitingAll (s : State) : List (Nat × Nat × Contribution) := s.switches.flatMap fun x => x.2.waiting.zipIdx.map fun c => (x.1, c.2, c.1)

/-- `CONTRIBUTION_ADMIT` (R276): the `i`-th waiting contribution, oldest at its port, is admitted where a slot or its round is free. -/
def execContributionAdmit (i : Nat) (s : State) : Out :=
  match s.waitingAll[i]? with
  | none => stall s
  | some (sw, j, c) =>
    if ((s.sw sw).waiting.take j).any fun x => decide (x.port = c.port) then stall s
    else
      let s1 := s.modSw sw fun w => { w with waiting := w.waiting.eraseIdx j }
      let t := s1.contribute c 4
      if (t.sw sw).waiting.length = (s.sw sw).waiting.length then stall s else .next t

/-- `COLL_REQUEST_COMPLETE` (R279): D4 is written, and once that write is performed the counter incremented; `ended` one past the blocks tells that
D4 is written. A write of D4 that meets TRANSLATION waits for a reply (R339); one that fails does not happen (log 31). -/
def execCollRequestComplete (n : CoreId) (s : State) : Out :=
  match (s.core n).coll with
  | [] => stall s
  | r :: rest =>
    let blocks := rq r.words 2 0 32 / 64
    let s1 : State := { s with reader := (n, 5, r.addr) }
    let written := fun (t : State) => t.modColl n fun r => { r with ended := blocks + 1 }
    if r.ended < blocks ∨ r.parked.isSome then stall s
    else if blocks < r.ended then
      if s.farWrites s1.reader then stall s
      else runEvent s (do
        if rq r.words 3 40 1 = 1 then ctrAdd r.job (rq r.words 3 8 32) 1
        modify fun s => s.modCore n fun c => { c with coll := rest })
    else if r.addr = noRecord then .next (written s)
    else
      let d4 := toBytes 8 (2 ^ 63 + r.err * 2 ^ 8 + r.flags.toNat)
      let put : Act Unit :=
        if r.phys then do
          Act.need (!(← get).siteHeld (r.addr + 32) 8 && !(← get).locked (.dev (r.addr + 32)) 8)
          modify fun s => (s.writeDev (r.addr + 32) d4).1
        else writeJob r.job (engine n) (r.addr + 32) d4
      match put.run s1 with
      | (.ok _, t) => .next (written t)
      | (.error (.wait q), _) => stall (s.ask q)
      | (.error (.fault code v), t) | (.error (.late code v), t) =>
        if s.mayReplay r.job n code then .next (((undo s1 t).replayPut r.job n .k v true).modColl n fun r => { r with parked := some (v.toNat / 2 ^ 16) })
        else .next (written (undo s1 t))

/-! ## SWCFG (R409) -/

/-- `SWCFG_GO` (R409): a write of M0; with GO the request is sent; where the port is down or Zuore is disabled it ends in the next cycle. A write
that sets a reserved bit, or that comes while GO reads 1, is discarded. -/
def execSwcfgGo (m0 : Word) (s : State) : Out :=
  let old := Tab.get 0 s.dev.swcfg 0
  if !s.dev.ready || decide (bitsOf m0 23 38 ≠ 0) || decide (bitsOf m0 14 2 ≠ 0) || decide (bitsOf m0 4 4 ≠ 0) || old.getLsbD 63 then .next s
  else
    let s := { s with dev := { s.dev with swcfg := Tab.set 0 s.dev.swcfg 0 (putBits m0 61 2 (bitsOf old 61 2)) } }
    if !m0.getLsbD 63 then .next s
    else if s.dev.zen && s.dev.zup.getLsbD (bitsOf m0 0 4) then .next s
    else .next { s with dev := { s.dev with swcfgDown := true } }

/-- The number of the switch a request names: first-tier switches by this device's port, second-tier ones by the port and PORT2. -/
def swOf (m : Word) : Nat := if m.getLsbD 22 then 16 + 64 * bitsOf m 0 4 + bitsOf m 8 6 else bitsOf m 0 4

/-- `SWCFG_REPLY` (R275, R409): the entry is written or rejected; with no switch on the path RESULT is 2. -/
def execSwcfgReply (link : Bool) (s : State) : Out :=
  let m := Tab.get 0 s.dev.swcfg 0
  if !m.getLsbD 63 || s.dev.swcfgDown then stall s
  else if !link then .next (s.swcfgEnd 2)
  else
    let e := (List.range 4).map fun i => Tab.get 0 s.dev.swcfg (i + 1)
    let i := bitsOf m 16 6
    if winOk (s.sw (swOf m)) i e then .next ((s.modSw (swOf m) fun w => { w with win := Tab.put w.win i e }).swcfgEnd 0)
    else .next (s.swcfgEnd 1)

end Sys2Proof.Machine
end

