-- ==== Sys2Proof/Machine/Hash.lean ====
section
/-! DEFINITION. The hashes and the signature check that boot ROM and F use (R434, R435): SHAKE128, SHAKE256, and the verification of
XMSS-SHAKE_20_256 of RFC 8391, which the manual names and does not lay out (PRESUMED, log 13: Keccak of FIPS 202, 32-byte hashes, w = 16, height 20). -/
namespace Sys2Proof.Machine

/-! ## SHAKE -/

/-- The round constants of Keccak-f[1600]. -/
def keccakConst : List Word :=
  [0x0000000000000001, 0x0000000000008082, 0x800000000000808A, 0x8000000080008000, 0x000000000000808B, 0x0000000080000001, 0x8000000080008081,
    0x8000000000008009, 0x000000000000008A, 0x0000000000000088, 0x0000000080008009, 0x000000008000000A] ++
  [0x000000008000808B, 0x800000000000008B, 0x8000000000008089, 0x8000000000008003, 0x8000000000008002, 0x8000000000000080, 0x000000000000800A,
    0x800000008000000A, 0x8000000080008081, 0x8000000000008080, 0x0000000080000001, 0x8000000080008008]

/-- The rotations of its lanes, lane (x, y) at x + 5 y. -/
def keccakRot : List Nat := [0, 1, 62, 28, 27, 36, 44, 6, 55, 20, 3, 10, 43, 25, 39, 41, 45, 15, 21, 8, 18, 2, 61, 56, 14]

/-- One round. -/
def keccakRound (a : List Word) (rc : Word) : List Word :=
  let col := (List.range 5).map fun x => (List.range 5).foldl (fun w y => w ^^^ (a[x + 5 * y]?).getD 0) (0 : Word)
  let d := (List.range 5).map fun x => (col[(x + 4) % 5]?).getD 0 ^^^ ((col[(x + 1) % 5]?).getD 0).rotateLeft 1
  let b := (List.range 25).map fun i =>
    let x := (i % 5 + 3 * (i / 5)) % 5
    let y := i % 5
    ((a[x + 5 * y]?).getD 0 ^^^ (d[x]?).getD 0).rotateLeft ((keccakRot[x + 5 * y]?).getD 0)
  (List.range 25).map fun i =>
    let at_ := fun (k : Nat) => (b[(i % 5 + k) % 5 + 5 * (i / 5)]?).getD 0
    (at_ 0 ^^^ (~~~(at_ 1) &&& at_ 2)) ^^^ (if i = 0 then rc else 0)

/-- Keccak-f[1600]. -/
def keccakF (a : List Word) : List Word := keccakConst.foldl keccakRound a

/-- The message padded to whole blocks of `rate` bytes. -/
def shakePad (rate : Nat) (m : List Byte) : List Byte :=
  let z := rate - 1 - m.length % rate
  if z = 0 then m ++ [0x9F] else m ++ [0x1F] ++ List.replicate (z - 1) 0 ++ [0x80]

/-- Absorbs `k` blocks. -/
def shakeAbsorb (rate : Nat) (m : List Byte) : Nat → List Word → List Word
  | 0, a => a
  | k + 1, a =>
    let blk := m.take rate
    let a := a.zipIdx.map fun x => x.1 ^^^ BitVec.ofNat 64 (ofBytes ((blk.drop (8 * x.2)).take 8))
    shakeAbsorb rate (m.drop rate) k (keccakF a)

/-- SHAKE with a rate in bytes: the first `out` bytes of its output, no more than the rate. -/
def shake (rate : Nat) (m : List Byte) (out : Nat) : List Byte :=
  let a := shakeAbsorb rate (shakePad rate m) (m.length / rate + 1) (List.replicate 25 0)
  ((a.flatMap fun w => toBytes 8 w.toNat)).take out

/-- SHAKE256. -/
def shake256 (m : List Byte) (out : Nat) : List Byte := shake 136 m out
/-- SHAKE128. -/
def shake128 (m : List Byte) (out : Nat) : List Byte := shake 168 m out

/-! ## XMSS -/

/-- The bytes of a number, most significant first. -/
def beBytes (k v : Nat) : List Byte := (toBytes k v).reverse
/-- The number of bytes, most significant first. -/
def ofBe (l : List Byte) : Nat := ofBytes l.reverse

/-- The keyed hashes of XMSS: F 0, H 1, H_msg 2, PRF 3. -/
def xmssHash (i : Nat) (key m : List Byte) : List Byte := shake128 (beBytes 32 i ++ key ++ m) 32

/-- An address of the hash calls: type and its three words, with the key-and-mask word. -/
def xmssAddr (ty a b c km : Nat) : List Byte := beBytes 12 0 ++ beBytes 4 ty ++ beBytes 4 a ++ beBytes 4 b ++ beBytes 4 c ++ beBytes 4 km

/-- The exclusive or of two byte strings. -/
def xorBytes (a b : List Byte) : List Byte := (a.zip b).map fun x => x.1 ^^^ x.2

/-- `k` steps of a WOTS+ chain of a leaf, from step `j`. -/
def wotsChain (seed : List Byte) (leaf chain : Nat) : Nat → Nat → List Byte → List Byte
  | 0, _, x => x
  | k + 1, j, x =>
    let prf := fun (km : Nat) => xmssHash 3 seed (xmssAddr 0 leaf chain j km)
    wotsChain seed leaf chain k (j + 1) (xmssHash 0 (prf 0) (xorBytes x (prf 1)))

/-- The 67 digits of a 32-byte message: its half bytes, then its checksum. -/
def wotsDigits (m : List Byte) : List Nat :=
  let d := m.flatMap fun b => [b.toNat / 16, b.toNat % 16]
  let sum := d.foldl (fun a x => a + (15 - x)) 0
  d ++ [sum / 256 % 16, sum / 16 % 16, sum % 16]

/-- The parent of two nodes. -/
def xmssParent (seed : List Byte) (ty leaf height idx : Nat) (l r : List Byte) : List Byte :=
  let prf := fun (km : Nat) => xmssHash 3 seed (xmssAddr ty leaf height idx km)
  xmssHash 1 (prf 0) (xorBytes l (prf 1) ++ xorBytes r (prf 2))

/-- One level of a leaf's L-tree: nodes are joined in pairs, an odd one goes up as it is. -/
def ltreeLevel (seed : List Byte) (leaf height : Nat) : Nat → List (List Byte) → List (List Byte)
  | idx, l :: r :: rest => xmssParent seed 1 leaf height idx l r :: ltreeLevel seed leaf height (idx + 1) rest
  | _, rest => rest

/-- The root of a leaf's L-tree; 67 nodes are joined in seven levels. -/
def ltree (seed : List Byte) (leaf : Nat) (nodes : List (List Byte)) : List Byte :=
  ((List.range 7).foldl (fun l h => ltreeLevel seed leaf h 0 l) nodes).headD []

/-- The root that a leaf and its authentication path lead to. -/
def xmssRoot (seed : List Byte) (leaf : Nat) (node : List Byte) (path : List (List Byte)) : List Byte :=
  path.zipIdx.foldl (fun node x =>
    let up := xmssParent seed 2 0 x.2 (leaf / 2 ^ (x.2 + 1))
    if leaf / 2 ^ x.2 % 2 = 0 then up node x.1 else up x.1 node) node

/-- `k` parts of 32 bytes. -/
def parts32 (l : List Byte) (k : Nat) : List (List Byte) := (List.range k).map fun i => (l.drop (32 * i)).take 32

/-- Whether a signature of 2,820 bytes over a message verifies under a public key, the root and the public seed. -/
def xmssVerify (key m sig : List Byte) : Bool :=
  let root := key.take 32
  let seed := (key.drop 32).take 32
  let leaf := ofBe (sig.take 4)
  let digest := xmssHash 2 ((sig.drop 4).take 32 ++ root ++ beBytes 32 leaf) m
  let wots := (parts32 (sig.drop 36) 67).zipIdx.zip (wotsDigits digest) |>.map fun x => wotsChain seed leaf x.1.2 (15 - x.2) x.2 x.1.1
  decide (sig.length = 2820) && decide (leaf < 2 ^ 20) && decide (xmssRoot seed leaf (ltree seed leaf wots) (parts32 (sig.drop 2180) 20) = root)

end Sys2Proof.Machine
end

