-- ==== Sys2Proof/Machine/Planes.lean ====
section
/-! DEFINITION. Plane-coded tiles and bit-plane collectives (R410 to R422): the plane words of K, and the plane engine's sends, landings,
opens and prunes. What goes out on a link stands in `linkOut`; what arrives is an event. -/
namespace Sys2Proof.Machine

/-! ## Requests (R410, R418) -/

/-- BASE. -/
def PlaneReq.base (r : PlaneReq) : Nat := rq r.words 0 0 57
/-- PCTR. -/
def PlaneReq.pctr (r : PlaneReq) : Nat := rq r.words 1 0 57
/-- TAG. -/
def PlaneReq.tag (r : PlaneReq) : Nat := rq r.words 2 24 24
/-- FMT. -/
def PlaneReq.fmt (r : PlaneReq) : Nat := rq r.words 2 16 3
/-- NT. -/
def PlaneReq.nt (r : PlaneReq) : Nat := rq r.words 2 0 16
/-- NCH. -/
def PlaneReq.nch (r : PlaneReq) : Nat := rq r.words 3 0 4
/-- Child `i`. -/
def PlaneReq.child (r : PlaneReq) (i : Nat) : Nat := rq r.words (4 + i / 4) (16 * (i % 4)) 9
/-- The mantissa planes of a format: fw (R410). -/
def PlaneReq.fw (r : PlaneReq) : Nat := (mFmt r.fmt).fw
/-- The bytes of a tile: 256 elements. -/
def PlaneReq.tileBytes (r : PlaneReq) : Nat := 32 * (mFmt r.fmt).width

/-- A tile of a request. -/
def PlaneReq.tile (r : PlaneReq) (t : Nat) : PlaneTile := Tab.get { ctr := 0, pruned := [], sent := 0, ended := false, elems := [], readyAt := 0 } r.tiles t
/-- A tile replaced. -/
def PlaneReq.setTile (r : PlaneReq) (t : Nat) (x : PlaneTile) : PlaneReq := { r with tiles := Tab.put r.tiles t x }

/-- HEAD of a counter byte. -/
def ctrHead (c : BitVec 8) : Bool := c.getLsbD 7
/-- CANC of a counter byte. -/
def ctrCanc (c : BitVec 8) : Bool := c.getLsbD 6
/-- NPL of a counter byte. -/
def ctrNpl (c : BitVec 8) : Nat := bitsOf c 0 6

/-- Whether a child has pruned a tile; a child that answered mismatch has pruned every tile (R414, R416). -/
def PlaneReq.prunedBy (r : PlaneReq) (t i : Nat) : Bool := (r.tile t).pruned.contains i || decide (Tab.get 9 r.answers i = 3)

/-- Whether every child has pruned a tile. -/
def PlaneReq.prunedAll (r : PlaneReq) (t : Nat) : Bool := (List.range r.nch).all fun i => r.prunedBy t i

/-- Whether a tile has landed all its planes. -/
def PlaneReq.landed (r : PlaneReq) (t : Nat) : Bool := let c := (r.tile t).ctr; ctrHead c && !ctrCanc c && decide (ctrNpl c = r.fw)

/-- The request with the tiles that have become pruned marked (R416): of a send those that every child has pruned, counted in CANCT; of a
receive those that are cancelled besides, whose prune it owes its parent. -/
def PlaneReq.settle (r : PlaneReq) : PlaneReq :=
  (List.range r.nt).foldl (fun r t =>
    let x := r.tile t
    if x.ended || !r.prunedAll t || decide (r.fw < x.sent) then r
    else if r.isSend then { (r.setTile t { x with ended := true }) with cnt := (r.cnt + 1) % 2 ^ 16 }
    else if ctrCanc x.ctr then { (r.setTile t { x with ended := true }) with owes := r.owes ++ [t] }
    else r) r

/-- Whether a tile of a receive needs nothing more (R420). -/
def PlaneReq.tileDone (r : PlaneReq) (t : Nat) : Bool := let x := r.tile t; r.landed t || (ctrCanc x.ctr && (x.ended || decide (r.fw < x.sent)))

/-- The planes still to be sent, plane-major (R411). -/
def PlaneReq.toSend (r : PlaneReq) : List (Nat × Nat) :=
  ((List.range (r.fw + 1)).flatMap fun p => (List.range r.nt).map fun t => (p, t)).filter fun x =>
    (decide (r.nextPlane < x.1) || (decide (r.nextPlane = x.1) && decide (r.nextTile ≤ x.2))) && !(r.tile x.2).ended

/-- Whether a request has ended (R420): a receive has forwarded every plane besides. -/
def PlaneReq.ended (r : PlaneReq) : Bool := if r.isSend then r.toSend.isEmpty else r.out.isEmpty && (List.range r.nt).all r.tileDone

/-- D3 as the engine has it (R418). -/
def PlaneReq.d3 (r : PlaneReq) : Nat := (if r.done then 2 ^ 63 else 0) + r.cnt * 2 ^ 32 + r.err * 2 ^ 8 + r.nch

/-- Request `i` of core `n` changed. -/
def State.modPlane (s : State) (n : CoreId) (i : Nat) (g : PlaneReq → PlaneReq) : State := s.modCore n fun c => { c with planes := c.planes.modify i g }

/-- The prunes that a receive owes its parent leave, once its open has come and the port carries traffic (R402, R416). -/
def State.payPrunes (s : State) (n : CoreId) (i : Nat) : State :=
  match (s.core n).planes[i]? with
  | some r => (match r.parent with
    | some d => if (s.portTo d).isNone then s else
        (r.owes.foldl (fun s t => s.send d (.pruned d { dev := s.dev.dev, job := r.job, tag := BitVec.ofNat 24 r.tag, tile := t })) s).modPlane n i fun r => { r with owes := [] }
    | none => s)
  | none => s

/-- Marks and tells the prunes of a request (R416), and ends one that has ended (R420): D3 is written, the posted receive freed, the counter
incremented. -/
def planeSettle (n : CoreId) (i : Nat) : Act Unit := do
  modify fun s => (s.modPlane n i PlaneReq.settle).payPrunes n i
  match ((← get).core n).planes[i]? with
  | none => pure ()
  | some r =>
    if !r.done ∧ r.ended then
      soft () (hwPut r.job (r.addr + 24) ({ r with done := true } : PlaneReq).d3)
      modify fun s => if r.isSend then s.modCore n fun c => { c with planes := c.planes.eraseIdx i } else s.modPlane n i fun r => { r with done := true }
      if rq r.words 6 40 1 = 1 then ctrAdd r.job (rq r.words 6 8 32) 1

/-- The requests of every core: core, index, request. -/
def State.planeReqs (s : State) : List (CoreId × Nat × PlaneReq) :=
  s.listed.flatMap fun n => (s.core n).planes.zipIdx.map fun x => (n, x.2, x.1)

/-- The posted receive of a job with a tag that has not ended (R419). -/
def State.receiveOf (s : State) (job : BitVec 8) (tag : Nat) : Option (CoreId × Nat × PlaneReq) :=
  s.planeReqs.find? fun x => !x.2.2.isSend && !x.2.2.done && decide (x.2.2.job = job) && decide (x.2.2.tag = tag)

/-- The posted receive whose record is at an address, in the sense of R420. -/
def State.postedAt (s : State) (job : BitVec 8) (addr : Nat) : Option (CoreId × Nat × PlaneReq) :=
  s.planeReqs.reverse.find? fun x => !x.2.2.isSend && decide (x.2.2.job = job) && decide (x.2.2.addr = addr)

/-! ## The plane words (R417, R419, R421, R422) -/

/-- Whether a record's fields are within their limits (R418, R419 check 2). -/
def planeOk (s : State) (send : Bool) (ws : List Word) : Bool :=
  let r : PlaneReq := { addr := 0, job := 0, isSend := send, words := ws, answers := [], openAt := [], parent := none, tiles := [], nextPlane := 0, nextTile := 0, err := 0, cnt := 0, done := false, cover := Cover.none, out := [], owes := [], zeroAt := 0 }
  decide (rq ws 0 57 7 = 0) && decide (rq ws 0 0 6 = 0) && decide (rq ws 1 57 7 = 0) && (!send || decide (rq ws 1 0 57 = 0)) &&
  decide (rq ws 2 48 16 = 0) && decide (rq ws 2 19 5 = 0) && decide (r.tag ≠ 0) && decide (1 ≤ r.fmt) && decide (r.fmt ≤ 4) && decide (r.nt ≠ 0) &&
  decide (r.nch ≤ 8) && (!send || decide (r.nch ≠ 0)) && ([4, 5].all fun d => (List.range 4).all fun i => decide (rq ws d (16 * i + 9) 7 = 0)) &&
  decide (rq ws 6 41 23 = 0) && decide (rq ws 6 0 8 = 0) && decide (rq ws 7 0 64 = 0) && (decide (rq ws 6 40 1 = 0) || decide (rq ws 6 8 32 < 65536)) &&
  (List.range r.nch).all fun i => s.reachable (r.child i)

/-- An open of a request leaves to a child whose port carries traffic (R402, R414). -/
def State.openTo (s : State) (n : CoreId) (i child : Nat) : State :=
  match (s.core n).planes[i]? with
  | some r =>
    let d := r.child child
    if (s.portTo d).isNone then s else
      (s.send d (.opening d { dev := s.dev.dev, job := r.job, tag := BitVec.ofNat 24 r.tag, fmt := BitVec.ofNat 3 r.fmt, nt := r.nt })).modPlane n i fun r =>
        { r with answers := Tab.put r.answers child 0, openAt := Tab.put r.openAt child (s.ccount + 1) }
  | none => s

/-- `bp.send` and `bp.recv` (R419): blocking, the checks in order, a release; not ready while the engine, or for a receive the device, is
full, or a group captures; the read of the record follows what has been acquired (R261), and the zeros of the counters what K has written (R256; log
26). Opens go to every child, to one whose port is down later (R402). -/
def planeWord (send : Bool) (a : BitVec 5) (s : State) : Out :=
  if !s.canIssue then stall s
  else if s.isF then .next s.illegal
  else if s.readyFor [a] && s.covered s.seq.cover && s.mayRelease && (send || s.released) then
    runWord s (do
      let n := s.cur.1
      Act.need (!s.here.capturing && decide ((s.here.planes.filter fun r => !r.done).length < 16))
      let va := s.reg a
      let job := s.jobOf n
      Act.check (decide (va.toNat % 64 = 0)) 0x04 va
      let ws := (dwords (← kView n va.toNat 64)).map w64
      Act.check (planeOk s send ws) 0x02 s.wordVal
      let r : PlaneReq :=
        { addr := va.toNat, job := job, isSend := send, words := ws, answers := [], openAt := [], parent := none, tiles := [], nextPlane := 0, nextTile := 0,
          err := 0, cnt := 0, done := false, cover := s.covering, out := [], owes := [], zeroAt := 0 }
      Act.check (send || (s.receiveOf job r.tag).isNone) 0x02 s.wordVal
      rangeCheck n .k r.base (r.nt * r.tileBytes) (if send then .read else .write)
      if !send then
        rangeCheck n .k r.pctr r.nt .write
        Act.need (decide ((s.planeReqs.filter fun x => !x.2.2.isSend && !x.2.2.done).length < 256))
        writeVirt n .k (planeWriter n) r.pctr (List.replicate r.nt 0)
        modify fun s => { s with cores := s.cores.map fun x => (x.1, { x.2 with planes := x.2.planes.filter fun y => !(y.done && decide (y.job = job) && decide (y.addr = r.addr)) }) }
      modify fun s => s.modHere fun c => { c with planes := c.planes ++ [{ r with zeroAt := if send then 0 else s.slicesTill, answers := (List.range r.nch).map fun i => (i, 2) }] }
      modify fun s => (List.range r.nch).foldl (fun s c => s.openTo n (s.here.planes.length - 1) c) s
      pure (← get).advance)
  else stall s

/-- `bp.send` (R419). -/
def execBpSend (a : BitVec 5) (s : State) : Out := planeWord true a s
/-- `bp.recv` (R419). -/
def execBpRecv (a : BitVec 5) (s : State) : Out := planeWord false a s

/-- A plane word that names a posted receive (R421, R422). -/
def postedWord (s : State) (srcs : List (BitVec 5)) (a : BitVec 5) (body : CoreId × Nat × PlaneReq → Act State) : Out :=
  if !s.canIssue then stall s
  else if s.isF then .next s.illegal
  else if s.readyFor srcs && s.covered s.seq.cover then
    runWord s (match s.postedAt (s.jobOf s.cur.1) (s.reg a).toNat with
      | none => Act.fault 0x02 s.wordVal
      | some x => body x)
  else stall s

/-- `bp.wait` (R421): not ready until the counter, whose zeros are performed (R419), shows the planes or CANC; its return is an acquire. -/
def execBpWait (d a b : BitVec 5) (s : State) : Out :=
  postedWord s [a, b] a fun x => do
    let v := s.reg b
    let r := x.2.2
    let t := bitsOf v 0 16
    let k := bitsOf v 16 6
    Act.check (decide (bitsOf v 22 42 = 0) && decide (t < r.nt) && decide (k ≤ r.fw)) 0x02 s.wordVal
    Act.need (decide (r.zeroAt ≤ s.ccount))
    let c : BitVec 8 := (← kView s.cur.1 (r.pctr + t) 1).headD 0
    Act.need ((ctrHead c && decide (k ≤ ctrNpl c)) || ctrCanc c)
    let s ← get
    pure ((s.acquire { stores := [], till := s.slicesTill }).finish d (c.setWidth 64) 1)

/-- A tile of a receive cancelled (R415): CANC is set and its counter frozen; a tile that has landed all its planes is not changed. -/
def cancelTile (x : CoreId × Nat) (t : Nat) (last : Bool) : Act Unit := do
  match ((← get).core x.1).planes[x.2]? with
  | none => pure ()
  | some r =>
    let y := r.tile t
    if !r.done ∧ !r.landed t ∧ !ctrCanc y.ctr then
      writeJob r.job (planeWriter x.1) (r.pctr + t) [y.ctr ||| 0x40]
      modify fun s => s.modPlane x.1 x.2 fun r => r.setTile t { y with ctr := y.ctr ||| 0x40, ended := y.ended || last }

/-- `bp.cancel` (R422). -/
def execBpCancel (a b : BitVec 5) (s : State) : Out :=
  postedWord s [a, b] a fun x => do
    let v := s.reg b
    let r := x.2.2
    let t := bitsOf v 0 16
    Act.check (decide (bitsOf v 16 47 = 0) && (if v.getLsbD 63 then decide (t = 0) else decide (t < r.nt))) 0x02 s.wordVal
    for j in (if v.getLsbD 63 then List.range r.nt else [t]) do cancelTile (x.1, x.2.1) j false
    planeSettle x.1 x.2.1
    pure (← get).advance

/-- `bp.stat` (R422): of a request of the core's plane engine, else D3 in memory. -/
def execBpStat (d a : BitVec 5) (s : State) : Out :=
  if !s.canIssue then stall s
  else if s.isF then .next s.illegal
  else if s.readyFor [a] && s.covered s.seq.cover then
    runWord s (do
      let va := (s.reg a).toNat
      let v ← match s.here.planes.reverse.find? fun r => decide (r.job = s.jobOf s.cur.1) && decide (r.addr = va) && !r.done with
        | some r => pure (w64 r.d3)
        | none => do pure (w64 (← kViewW s.cur.1 (va + 24)))
      pure ((← get).finish d v 1))
  else stall s

/-! ## The plane engine (R411, R412, R414 to R416, R420) -/

/-- The bytes of plane `p` of a tile's bytes (R410): the head plane of signs and exponents, or fraction bit fw - p of every element. -/
def PlaneReq.planeOf (r : PlaneReq) (b : List Byte) (p : Nat) : List Byte :=
  let w := (mFmt r.fmt).width
  let hw := w - r.fw
  let es := (chunksOf (w / 8) b).zipIdx
  if p = 0 then toBytes (32 * hw) (es.foldl (fun a e => a + e.1 / 2 ^ r.fw * 2 ^ (e.2 * hw)) 0)
  else toBytes 32 (es.foldl (fun a e => a + if e.1.testBit (r.fw - p) then 2 ^ e.2 else 0) 0)

/-- The children to which a plane of a tile goes: those that have not pruned it. -/
def PlaneReq.kids (r : PlaneReq) (t : Nat) : List Nat := (List.range r.nch).filter fun c => !r.prunedBy t c

/-- Whether planes can go to children: each has accepted the open, and its port carries traffic (R402, R414). -/
def State.kidsOpen (s : State) (r : PlaneReq) (kids : List Nat) : Bool := kids.all fun c => decide (Tab.get 9 r.answers c = 1) && (s.portTo (r.child c)).isSome

/-- A plane leaves to children (R411, R414). -/
def State.sendPlane (s : State) (r : PlaneReq) (kids : List Nat) (m : PlaneMsg) : State := kids.foldl (fun s c => s.send (r.child c) (.plane (r.child c) m)) s

/-- `PLANE_SEND` (R411, R414): the next plane of a send is read, once what the push covers is readable (R261), and goes to every child that has not
pruned its tile, once each has accepted the open. A source that cannot be read ends its tile with ERR 1, which its children are told (R420). The next
plane that a receive has to forward goes to its children in the same way, and the prunes that it owes to its parent. -/
def execPlaneSend (n : CoreId) (i : Nat) (s : State) : Out :=
  match (s.core n).planes[i]? with
  | none => stall s
  | some r =>
    if !r.isSend then
      match r.out with
      | m :: rest =>
        if !s.kidsOpen r (r.kids m.tile) then stall s
        else runEvent s (do
          modify fun s => (s.sendPlane r (r.kids m.tile) m).modPlane n i fun r => { r with out := rest }
          planeSettle n i)
      | [] => .next (s.payPrunes n i)
    else match (if r.done then none else r.toSend.head?) with
    | none => stall s
    | some (p, t) =>
      if s.covered r.cover && s.kidsOpen r (r.kids t) then
        let m : PlaneMsg := { job := r.job, tag := BitVec.ofNat 24 r.tag, tile := t, plane := p, bad := false, bits := [] }
        runEvent s (do
          let b ← tryAct (engRead n r.job (r.base + t * r.tileBytes) r.tileBytes)
          modify fun s =>
            let x := r.tile t
            let s := s.sendPlane r (r.kids t) (match b with | .ok b => { m with bits := r.planeOf b p } | .error _ => { m with bad := true })
            s.modPlane n i fun r =>
              let r := { r with nextPlane := if t + 1 < r.nt then p else p + 1, nextTile := if t + 1 < r.nt then t + 1 else 0 }
              match b with
              | .ok _ => r.setTile t { x with sent := x.sent + 1 }
              | .error _ => { (r.setTile t { x with ended := true }) with err := 1 }
          planeSettle n i)
      else stall s

/-- The elements of a tile after a landing (R412): the head sets sign and exponent with zero fraction bits, plane k fraction bit fw - k. -/
def landBits (r : PlaneReq) (x : PlaneTile) (p : PlaneMsg) : List Nat :=
  let bits := ofBytes p.bits
  let hw := (mFmt r.fmt).width - r.fw
  if p.plane = 0 then (List.range 256).map fun e => bits / 2 ^ (e * hw) % 2 ^ hw * 2 ^ r.fw
  else (List.range 256).map fun e => (x.elems[e]?).getD 0 + (if bits.testBit e then 2 ^ (r.fw - p.plane) else 0)

/-- A landing (R412): the tile, then its counter, which the tile's next landing follows; a fault cancels the tile with ERR 2. -/
def landPlane (n : CoreId) (i : Nat) (r : PlaneReq) (p : PlaneMsg) : Act Unit := do
  let x := r.tile p.tile
  let el := landBits r x p
  let ctr : BitVec 8 := BitVec.ofNat 8 (0x80 + p.plane)
  let res ← tryAct (do
    writeJob r.job (planeWriter n) (r.base + p.tile * r.tileBytes) (el.flatMap fun e => toBytes ((mFmt r.fmt).width / 8) e)
    writeJob r.job (planeWriter n) (r.pctr + p.tile) [ctr])
  match res with
  | .ok _ => modify fun s => s.modPlane n i fun r => r.setTile p.tile { x with ctr := ctr, sent := x.sent + 1, elems := el, readyAt := s.slicesTill }
  | .error _ =>
    soft () (writeJob r.job (planeWriter n) (r.pctr + p.tile) [x.ctr ||| 0x40])
    modify fun s => s.modPlane n i fun r => { (r.setTile p.tile { x with ctr := x.ctr ||| 0x40, sent := x.sent + 1 }) with err := 2 }

/-- Whether a plane arrives in the order of R411: the next of its tile, behind the planes before it of every tile but those whose prune the parent has
been told, or that it has ended. -/
def PlaneReq.inTurn (r : PlaneReq) (p : PlaneMsg) : Bool :=
  decide (p.plane = (r.tile p.tile).sent) && (List.range r.nt).all fun t =>
    let y := r.tile t
    decide (t = p.tile) || decide ((if t < p.tile then p.plane + 1 else p.plane) ≤ y.sent) || (y.ended && !r.owes.contains t)

/-- The request with the tiles that an arriving plane has passed over closed: the parent sends no more of them. -/
def PlaneReq.passOver (r : PlaneReq) (p : PlaneMsg) : PlaneReq :=
  (List.range r.nt).foldl (fun r t =>
    let y := r.tile t
    if t ≠ p.tile ∧ y.sent < (if t < p.tile then p.plane + 1 else p.plane) then r.setTile t { y with sent := r.fw + 1 } else r) r

/-- `PLANE_ARRIVAL` (R411, R412, R415, R420): the next plane of a tile of a posted receive lands, or is counted in LATE where its tile is
cancelled; it is to be forwarded either way, and lands once the zeros of the counters and the tile's last landing are performed. One of no receive is
dropped; one whose source could not be read cancels its tile with ERR 1. Nothing comes while the ports carry no traffic (R402). What a plane of another
device holds is that device's (log 33). -/
def execPlaneArrival (p : PlaneMsg) (s : State) : Out :=
  if !s.dev.zen then stall s else
  match s.receiveOf p.job p.tag.toNat with
  | none => .next s
  | some (n, i, r) =>
    let x := r.tile p.tile
    if r.parent.isNone ∨ r.nt ≤ p.tile ∨ r.fw < p.plane ∨ !r.inTurn p ∨ s.ccount < r.zeroAt ∨ s.ccount < x.readyAt ∨ s.farWrites deviceAgent then stall s
    else runEvent s (do
      modify fun s => s.modPlane n i fun r => let r := r.passOver p; { r with out := if r.nch = 0 then r.out else r.out ++ [p] }
      if p.bad then
        soft () (cancelTile (n, i) p.tile true)
        modify fun s => s.modPlane n i fun r =>
          let y := r.tile p.tile
          { (r.setTile p.tile { y with ctr := y.ctr ||| 0x40, ended := true, sent := r.fw + 1 }) with err := 1 }
      else if ctrCanc x.ctr then modify fun s => s.modPlane n i fun r => { (r.setTile p.tile { x with sent := x.sent + 1 }) with cnt := (r.cnt + 1) % 2 ^ 16 }
      else landPlane n i r p
      planeSettle n i)

/-- `OPEN` (R414): an open of a parent finds a posted receive of the same FMT and NT, which accepts, or one that differs, whose
unfinished tiles are cancelled with ERR 3 and which forwards nothing further; without one the answer is "not yet". The answer leaves to the parent. -/
def execOpenReq (m : OpenMsg) (s : State) : Out :=
  let d := m.dev.toNat
  let answer := fun (a : OpenAns) (s : State) => s.send d (.opened d m.job m.tag.toNat a)
  if !s.dev.zen then stall s else
  match s.receiveOf m.job m.tag.toNat with
  | none => .next (answer .notYet s)
  | some (n, i, r) =>
    if r.fmt = m.fmt.toNat ∧ r.nt = m.nt then .next ((answer .accept (s.modPlane n i fun r => { r with parent := some d })).payPrunes n i)
    else runEvent s (do
      modify fun s => answer .mismatch (s.modPlane n i fun r => { r with err := 3, parent := some d, out := [] })
      for t in List.range r.nt do
        soft () (cancelTile (n, i) t true)
        modify fun s => s.modPlane n i fun r =>
          let y := r.tile t
          if r.landed t then r else r.setTile t { y with ctr := y.ctr ||| 0x40, ended := true }
      planeSettle n i)

/-- `OPEN_ANSWER` (R414): accept, not yet, or mismatch, which sets ERR to 3 and prunes every tile for that child. -/
def execOpenAnswer (n : CoreId) (i child : Nat) (a : OpenAns) (s : State) : Out :=
  if !s.dev.zen then stall s else
  match (s.core n).planes[i]? with
  | none => stall s
  | some r =>
    if r.done ∨ r.nch ≤ child ∨ Tab.get 9 r.answers child ≠ 0 then stall s
    else runEvent s (do
      modify fun s => s.modPlane n i fun r =>
        match a with
        | .accept => { r with answers := Tab.put r.answers child 1 }
        | .notYet => { r with answers := Tab.put r.answers child 2 }
        | .mismatch => { r with answers := Tab.put r.answers child 3, err := 3 }
      planeSettle n i)

/-- `OPEN_RETRY` (R414): an open answered "not yet" is sent again 1,024 cycles after the last; one that could not leave while its port was down leaves
now. -/
def execOpenRetry (n : CoreId) (i child : Nat) (s : State) : Out :=
  match (s.core n).planes[i]? with
  | none => stall s
  | some r =>
    let last := Tab.get 0 r.openAt child
    if !r.done ∧ Tab.get 9 r.answers child = 2 ∧ (last = 0 ∨ last + 1023 ≤ s.ccount) then .next (s.openTo n i child) else stall s

/-- `PRUNE` (R416): a child has pruned a tile; the requests of the transfer here that have that child send it no more planes of it. -/
def execPrune (m : PruneMsg) (s : State) : Out :=
  if !s.dev.zen then stall s else
  let hits := s.planeReqs.filter fun x => !x.2.2.done && decide (x.2.2.job = m.job) && decide (x.2.2.tag = m.tag.toNat) && decide (m.tile < x.2.2.nt) &&
    (List.range x.2.2.nch).any fun c => decide (x.2.2.child c = m.dev.toNat)
  match hits with
  | [] => .next s
  | (n, i, r) :: _ => runEvent s (do
      let kids := (List.range r.nch).filter fun c => decide (r.child c = m.dev.toNat)
      modify fun s => s.modPlane n i fun r => let y := r.tile m.tile; r.setTile m.tile { y with pruned := y.pruned ++ kids.filter fun c => !y.pruned.contains c }
      planeSettle n i)

end Sys2Proof.Machine
end

