-- ==== Sys2Proof/Machine/Host.lean ====
section
/-! DEFINITION. What the host does: writes of BAR0 registers (R285, R309, R310, R333, R338, R339, R351, R352, R389, R401, R402, R432), the
submission rings (R292, R304, R305, R310), and BAR2 (R274, R404). Until READY every write of BAR0 is discarded (R403). -/
namespace Sys2Proof.Machine

/-- A write of a BAR0 register: discarded until READY is 1 (R403). -/
def barWrite (s : State) (body : Out) : Out := if s.dev.ready then body else .next s

/-- The state with its BAR0 registers changed. -/
def State.modDev (s : State) (g : Dev → Dev) : State := { s with dev := g s.dev }

/-! ## Submission rings (R309, R310) -/

/-- Submission ring `r`. -/
def State.sub (s : State) (r : Nat) : SubRing := Tab.get SubRing.reset s.subs r
/-- A submission ring changed. -/
def State.modSub (s : State) (r : Nat) (g : SubRing → SubRing) : State := { s with subs := Tab.put s.subs r (g (s.sub r)) }

/-- CONS. -/
def SubRing.cons (r : SubRing) : Nat := bitsOf r.h2 32 32
/-- The entries of a ring: 2^LCNT. -/
def SubRing.size (r : SubRing) : Nat := 2 ^ bitsOf r.h0 0 4
/-- JOB. -/
def SubRing.job (r : SubRing) : BitVec 8 := BitVec.ofNat 8 (bitsOf r.h2 8 8)
/-- The entries consumed since reset: CONS is this modulo 2^32, so that allowances never decrease (R310). -/
def SubRing.count (r : SubRing) : Nat := r.allowed + (r.cons + 2 ^ 32 - r.allowed % 2 ^ 32) % 2 ^ 32

/-- The device writes the producer's allowance word: CONS + 2^LCNT (R310). -/
def State.allow (s : State) (r : Nat) : State :=
  let x := s.sub r
  (s.modSub r fun x => { x with allowed := x.count }).modDev fun d =>
    { d with hostOut := d.hostOut ++ [(bitsOf x.h1 3 61 * 8, toBytes 8 (x.count + x.size))] }

/-- The entry at CONS, where EN is set and it holds SEQ = CONS (R310). -/
def subEntry (r : Nat) : Act (Option Nat) := do
  let x := (← get).sub r
  let pa := bitsOf x.h0 6 51 * 64 + 8 * (x.cons % x.size)
  if !x.h2.getLsbD 0 || decide (devSize < pa + 8) then pure none
  else
    let b ← soft none (do let b ← readDev pa 8 (w64 pa); pure (some b.1))
    pure (match b with
      | none => none
      | some l => if ofBytes l / 2 ^ 32 = x.cons then some (ofBytes l) else none)

/-- A ring after its entry at CONS has been consumed: a refusal is recorded with its reason (R309). -/
def SubRing.consume (x : SubRing) (why : Option Nat) : SubRing :=
  let h3 := match why with
    | none => x.h3
    | some y => w64 (Nat.min 65535 (bitsOf x.h3 48 16 + 1) * 2 ^ 48 + y * 2 ^ 44 + x.cons)
  { x with h2 := putBits x.h2 32 32 (x.cons + 1), h3 := h3 }

/-- An entry is consumed; every quarter of the ring the allowance is written (R310). -/
def State.consume (s : State) (r : Nat) (why : Option Nat) : State :=
  let s := s.modSub r fun x => x.consume why
  let x := s.sub r
  if Nat.max 1 (x.size / 4) ≤ x.count - x.allowed then s.allow r else s

/-- Entries of an unknown OP are refused; where no entry is left, consumption stops and the allowance is written (R310). -/
def settleRing (r : Nat) : Nat → Act Unit
  | 0 => pure ()
  | fuel + 1 => do
    if ((← get).sub r).active then
      match ← subEntry r with
      | none => modify fun s => (s.modSub r fun x => { x with active := false }).allow r
      | some e =>
        if 5 ≤ e / 2 ^ 24 % 16 then
          modify fun s => s.consume r (some 2)
          settleRing r fuel

/-- `SUBMISSION_NOTIFY` (R310, R401): the ring's consumption starts. -/
def execSubmissionNotify (v : Word) (s : State) : Out :=
  barWrite s (
    let r := v.toNat
    if 64 ≤ r ∨ !(s.sub r).h2.getLsbD 0 then .next s
    else runEvent s (do
      modify fun s => s.modSub r fun x => { x with active := true }
      settleRing r 4097))

/-- The entry at CONS of an active ring is consumed by a step of its OP: `body` answers why it is refused. -/
def ringStep (r : BitVec 6) (op : Nat) (s : State) (body : BitVec 8 → Nat → Act (Option Nat)) : Out :=
  let k := r.toNat
  if !(s.sub k).active then stall s
  else runEvent s (do
    match ← subEntry k with
    | none => Act.wait
    | some e =>
      Act.need (decide (e / 2 ^ 24 % 16 = op))
      let why ← body (s.sub k).job (e % 2 ^ 24)
      modify fun s => s.consume k why
      settleRing k 4097)

/-- `SUBMIT` (R292, R310): a failed check refuses the entry. -/
def execSubmit (r : BitVec 6) (s : State) : Out :=
  ringStep r 0 s fun job id => do
    if id = 0 then pure (some 1)
    else pure (if ← submitChecked job id then none else some 1)

/-- `CANCEL_TASK` (R305, R310): a target that is no task of the job is not found. -/
def execCancelTask (r : BitVec 6) (s : State) : Out :=
  ringStep r 1 s fun job id => do
    let t ← soft [] (readTcb job id)
    if id = 0 ∨ t = [] ∨ tf t 0 0 24 ≠ id then pure (some 3)
    else
      cancelTask job id
      pure none

/-- A level record of a kind is marked cancelled (R304); one that is not there or of another kind is not found. -/
def cancelLevel (kind : Option Nat) (job : BitVec 8) (rec : Nat) : Act (Option Nat) := do
  let v ← soft none (do pure (some (← levelV0 job rec)))
  match v with
  | none => pure (some 3)
  | some v =>
    if decide (2 ^ 20 ≤ rec) || (match kind with | some k => decide (lvKind v ≠ k) | none => false) then pure (some 3)
    else
      markCancelled job rec
      pure none

/-- `CANCEL_GRAPH` (R304, R310). -/
def execCancelGraph (r : BitVec 6) (s : State) : Out := ringStep r 2 s (cancelLevel (some 0))
/-- `CANCEL_PHASE` (R304, R310). -/
def execCancelPhase (r : BitVec 6) (s : State) : Out := ringStep r 3 s (cancelLevel (some 1))
/-- `CANCEL_JOB` (R304, R310): record 0, whatever the entry's ID. -/
def execCancelJob (r : BitVec 6) (s : State) : Out := ringStep r 4 s fun job _ => cancelLevel none job 0

/-! ## Streams (R351, R352) -/

/-- `FRAME_NOTIFY` (R352, R401): the frames of any stream are registered, VALID or not; a read that fails ends the registration and reports nothing. -/
def execFrameNotify (v : Word) (s : State) : Out :=
  barWrite s (
    let t := v.toNat
    if 4096 ≤ t then .next s
    else runEvent s (do
      let job : BitVec 8 := BitVec.ofNat 8 (bitsOf (s.sd t 0) 48 8)
      let _ ← attempt (registerFrames t (fun a => readJob job a 16) 4097)))

/-- The writable bits of a stream descriptor's doubleword (R351). -/
def sdWritable (d : Nat) : Word :=
  if d = 0 then 0xC0FFFFFFFFFF0000
  else if d = 3 ∨ d = 4 ∨ d = 5 ∨ d = 10 ∨ d = 11 ∨ d = 13 ∨ d = 14 then 0x01FFFFFFFFFFFFC0
  else if d = 6 then 0xFFFFFFFFFFFFFFF8
  else if d = 12 then 0xFFFFFF0000000000
  else if d = 15 then 0x01FFFFFFFFFFFFFC
  else 0

/-- The reserved bits of a stream descriptor's doubleword (R351). -/
def sdReserved (d : Nat) : Word :=
  if d = 0 then 0x3F0000000000FFFF
  else if d = 3 ∨ d = 4 ∨ d = 5 ∨ d = 10 ∨ d = 11 ∨ d = 13 ∨ d = 14 then 0xFE0000000000003F
  else if d = 6 then 7
  else if d = 9 then 0x7FFFFFFF00000000
  else if d = 12 then 0x0000000F0000FFFF
  else if d = 15 then 0xFE00000000000003
  else if d = 18 then 0xFFFFFFFF00000000
  else if 19 ≤ d ∧ d < 24 then 0xFFFFFFFFFFFFFFFF
  else 0

/-- The limits of the fields of a valid descriptor (R351), by its doublewords 0 and 12. -/
def sdLimits (d0 d12 : Word) : Bool :=
  decide (1 ≤ bitsOf d0 36 12) && decide (bitsOf d0 32 4 ≤ 12) && decide (bitsOf d0 28 4 ≤ 10) && decide (1 ≤ bitsOf d0 16 12) && decide (1 ≤ bitsOf d12 40 24)

/-- `STREAM_DESCRIPTOR_WRITE` (R351): fields that only hardware writes keep their values. -/
def execStreamDescriptorWrite (t : BitVec 12) (d : BitVec 5) (v : Word) (s : State) : Out :=
  barWrite s (
    let m := sdWritable d.toNat
    let new := (v &&& m) ||| (s.sd t.toNat d.toNat &&& ~~~m)
    let s' := s.setSd t.toNat d.toNat new
    if v &&& sdReserved d.toNat ≠ 0 then .next s
    else if (s'.sd t.toNat 0).getLsbD 63 && !sdLimits (s'.sd t.toNat 0) (s'.sd t.toNat 12) then .next s
    else .next s')

/-! ## Tables (R285, R309, R333) -/

/-- The reserved bits of a job record's doubleword (R285). -/
def jobReserved (d : Nat) : Word :=
  if d = 0 then 0xFE0000001FFF0000 else if d = 1 then 0xFE0000000000007F else if d = 2 then 0xFE00000000000007 else 0xFE0000000000000F

/-- A core when a job of a number is created: it has run no unit of it (R102), and the plane requests of the ended job of that number go (R419; log
33). -/
def Core.createJob (c : Core) (job : BitVec 8) : Core :=
  { c with newJob := c.newJob || decide (c.prevJob = some job), planes := c.planes.filter fun r => decide (r.job ≠ job) }

/-- `JOB_RECORD_WRITE` (R285): an accepted J0 creates the job, of which no core has run a unit (R102); where there was none, NEXT of every die is
at its start (R225). -/
def execJobRecordWrite (job : BitVec 8) (d : BitVec 2) (v : Word) (s : State) : Out :=
  barWrite s (
    if v &&& jobReserved d.toNat ≠ 0 ∨ (d = 0 ∧ bitsOf v 0 16 = 0) then .next s
    else
      let j := s.job job
      let j := if d = 0 then { j with j0 := v, made := true } else if d = 1 then { j with j1 := v } else if d = 2 then { j with j2 := v } else { j with j3 := v }
      let cores := if d = 0 then s.cores.map fun x => (x.1, x.2.createJob job) else s.cores
      let dies := if d = 0 ∧ !(s.job job).made then s.dies.map fun x => (x.1, { x.2 with next := Tab.set 1 x.2.next job.toNat 1 }) else s.dies
      .next { s with jobs := Tab.put s.jobs job.toNat j, dies := dies, cores := cores })

/-- Whether a write of a submission ring's doubleword is accepted (R309). -/
def State.subOk (s : State) (d : Nat) (v : Word) : Bool :=
  if d = 0 then decide (bitsOf v 57 7 = 0) && decide (bitsOf v 4 2 = 0) && decide (bitsOf v 0 4 ≤ 12)
  else if d = 1 then decide (bitsOf v 0 3 = 0)
  else if d = 2 then decide (bitsOf v 16 16 = 0) && decide (bitsOf v 1 7 = 0) && (s.job (BitVec.ofNat 8 (bitsOf v 8 8))).made
  else true

/-- `SUBMISSION_RING_WRITE` (R309): CONS and H3 are read-only. -/
def execSubmissionRingWrite (r : BitVec 6) (d : BitVec 2) (v : Word) (s : State) : Out :=
  barWrite s (
    if !s.subOk d.toNat v then .next s
    else runEvent s (do
      modify fun s => s.modSub r.toNat fun x =>
        if d = 0 then { x with h0 := v } else if d = 1 then { x with h1 := v }
        else if d = 2 then { x with h2 := putBits v 32 32 x.cons } else x
      settleRing r.toNat 4097))

/-- Whether a core runs a unit of a job, or the last unit that it has run was of the job (R333, R338). -/
def Core.ranJob (c : Core) (job : BitVec 8) : Bool :=
  (match c.unit with | some u => decide (u.job = job) | none => false) || decide (c.prevJob = some job)

/-- The stores and atomics of K of a job's units that are presented and not yet performed, those of units that have ended or are cut too (R333,
R343). -/
def State.accessesOf (s : State) (job : BitVec 8) : Cover :=
  { stores := ((s.listed.filter fun n => (s.core n).ranJob job).map fun n => (n, (s.core n).storeSeq)) ++
      (s.orphans.filter fun o => decide (o.job = job)).map fun o => (o.core, o.seq), till := 0 }

/-- Whether a request over a link may be of a job: its core has run the job, or an engine or a cut unit makes it (R333). -/
def State.farOfJob (s : State) (job : BitVec 8) (r : FarReq) : Bool := (s.core r.core).ranJob job || decide (5 ≤ r.agent)

/-- Whether no request over a link that was made with an older translation record is under way (R333, R404). -/
def State.oldDone (s : State) : Bool := s.far.all fun r => !r.old || r.failed || r.got.isSome

/-- `TRANSLATION_RECORD_WRITE` (R333): the job's cached translations are dropped; a host read that follows waits for the accesses made with
the old record: K's stores and atomics, and every request over a link, K's loads among them. -/
def execTranslationRecordWrite (job : BitVec 8) (v : Word) (s : State) : Out :=
  barWrite s (
    if bitsOf v 57 7 ≠ 0 ∨ bitsOf v 2 10 ≠ 0 then .next s
    else
      let s' := s.modDev fun d => { d with recCover := d.recCover.join (s.accessesOf job) }
      .next { s' with
        xlate := Tab.set 0 s.xlate job.toNat v, tcache := s.tcache.filter fun c => decide (c.job ≠ job)
        far := s.far.map fun r => if s.farOfJob job r then { r with old := true } else r })

/-! ## Translation caches and replies (R338, R339) -/

/-- The range of an invalidation widened to whole pages of 64 KiB: first address and end. -/
def pageRange (base len : Nat) : Nat × Nat := (base / 2 ^ 16 * 2 ^ 16, (base + len + 2 ^ 16 - 1) / 2 ^ 16 * 2 ^ 16)

/-- `INVAL` (R338, R401): a write of I2 starts an invalidation; a length of 0 completes at once. -/
def execInval (len : Word) (s : State) : Out :=
  barWrite s (.next (s.modDev fun d =>
    if len = 0 then { d with inv2 := len }
    else { d with inv2 := len, inv0 := d.inv0 ||| w64 (2 ^ 63), invs := d.invs ++ [(BitVec.ofNat 8 (bitsOf d.inv0 0 8), d.inv1.toNat, len.toNat)] }))

/-- Whether a store to a range has not been performed. -/
def Store.pendingIn (t : Store) (now lo hi : Nat) : Bool := decide (t.va < hi) && decide (lo < t.va + t.bytes.length) && !doneBy t.doneAt now

/-- Whether an access of a job to a range has not been performed: a store or an atomic of K, of a cut unit too, or a request over a link (R338). -/
def State.pendingIn (s : State) (job : BitVec 8) (lo hi : Nat) : Bool :=
  (s.cores.any fun x => x.2.ranJob job && ((x.2.fwd.any fun t => t.pendingIn s.ccount lo hi) || x.2.amos.any fun a => decide (lo ≤ a.va) && decide (a.va < hi))) ||
  (s.orphans.any fun o => decide (o.job = job) && (match o.req with
    | .inl t => t.pendingIn s.ccount lo hi
    | .inr a => decide (lo ≤ a.va) && decide (a.va < hi))) ||
  s.far.any fun r => s.farOfJob job r && r.got.isNone && !r.failed && decide (r.va < hi) && decide (lo < r.va + r.len)

/-- `INVALIDATION_COMPLETE` (R338): every access with an entry of the range has been performed, and the cached entries are dropped. -/
def execInvalidationComplete (s : State) : Out :=
  match s.dev.invs with
  | [] => stall s
  | (job, base, len) :: rest =>
    let r := pageRange base len
    if s.pendingIn job r.1 r.2 then stall s
    else .next (({ s with tcache := s.tcache.filter fun c => !(decide (c.job = job) && decide (c.base < r.2) && decide (r.1 < c.base + c.size)) } : State).modDev fun d =>
      { d with invs := rest, inv0 := if rest = [] then putBits d.inv0 63 1 0 else d.inv0 })

/-- A replay entry of a core and context for a page. -/
def State.replayVa (s : State) (job : BitVec 8) (n : CoreId) (q : Ctx) (page : Nat) : Word :=
  match (s.die (dieOf n)).replay.find? fun e => decide (e.job = job) && decide (e.core = n) && decide (e.ctx = q) && decide (e.va / 2 ^ 16 = page) with
  | some e => w64 e.va
  | none => w64 (page * 2 ^ 16)

/-- The words of a core's copy engines that stop on a page, changed by a reply. -/
def Core.replyFlights (c : Core) (page : Nat) (g : Ctx → TFlight → TFlight) : Core :=
  let h := fun (q : Ctx) (f : TFlight) => if f.parked = some page then g q f else f
  { c with
    tl := { c.tl with flight := c.tl.flight.map (h .l) }, ts := { c.ts with flight := c.ts.flight.map (h .s) }, ta := { c.ta with flight := c.ta.flight.map (h .f) } }

/-- The state without the replay entries of a job's page (R339). -/
def State.dropReplay (s : State) (job : BitVec 8) (page : Nat) : State :=
  { s with dies := s.dies.map fun d => (d.1, { d.2 with replay := d.2.replay.filter fun e => !(decide (e.job = job) && decide (e.va / 2 ^ 16 = page)) }) }

/-- The job of a staging copy's stream. -/
def State.stageJob (s : State) (k : StageCopy) : BitVec 8 := BitVec.ofNat 8 (bitsOf (s.sd k.stream 0) 48 8)

/-- `REPLAY_RESUME` (R339): every word stopped on the page goes on from its cursor with a fresh walk. -/
def execReplayResume (v : Word) (s : State) : Out :=
  if v.getLsbD 63 then stall s else
  barWrite s (
    let job : BitVec 8 := BitVec.ofNat 8 (bitsOf v 0 8)
    let page := bitsOf v 16 41
    let go := fun (p : Option Nat) => if p = some page then none else p
    .next (({ s with cores := s.cores.map fun x =>
        let c := if s.jobOf (BitVec.ofNat 8 x.1) = job ∧ x.2.unit.isSome then
            { x.2.replyFlights page (fun _ f => { f with parked := none }) with att := { x.2.att with parked := go x.2.att.parked } } else x.2
        (x.1, { c with
          staging := c.staging.map fun k => if s.stageJob k = job then { k with parked := go k.parked } else k
          coll := c.coll.map fun r => if r.job = job then { r with parked := go r.parked } else r }) } : State).dropReplay job page))

/-- `REPLAY_FAIL` (R339): the words stopped on the page raise TRANSLATION: a transfer at its retirement, a microword as its fault; a
block of the collective engine ends with ERR 1 (R279), its write of D4 does not happen, a staging copy does not land (log 31). -/
def execReplayFail (v : Word) (s : State) : Out :=
  if !v.getLsbD 63 then stall s else
  barWrite s (
    let job : BitVec 8 := BitVec.ofNat 8 (bitsOf v 0 8)
    let page := bitsOf v 16 41
    .next (({ s with cores := s.cores.map fun x =>
        let n : CoreId := BitVec.ofNat 8 x.1
        let c := if s.jobOf n = job ∧ x.2.unit.isSome then
            (let c := x.2.replyFlights page fun q f => { f with parked := none, failed := some (0x05, s.replayVa job n q page) }
             if c.att.parked = some page then ({ c with att := { c.att with parked := none } } : Core).attFault 0x05 c.att.upc (s.replayVa job n .c page) else c)
          else x.2
        (x.1, { c with
          staging := c.staging.filter fun k => !(decide (s.stageJob k = job) && decide (k.parked = some page))
          coll := c.coll.map fun r => if r.job = job ∧ r.parked = some page then
              (if r.sent = rq r.words 2 0 32 / 64 then { r with parked := none, ended := r.ended + 1 }
               else { r with parked := none, sent := r.sent + 1, ended := r.ended + 1, err := 1 }) else r }) } : State).dropReplay job page))

/-- A cache of `k` entries that has taken new ones: the oldest go. -/
def trimPlace (p k : Nat) (l : List CachedLeaf) : List CachedLeaf :=
  let mine := l.filter fun c => decide (c.place = p)
  (l.filter fun c => decide (c.place ≠ p)) ++ mine.drop (mine.length - k)

/-- `TRANSLATION_WALK` (R338): a walker completes the walk for a page of a core's job. Its leaf and its tables' entries go into the core's
cache of 128 and the die's of 8,192, the oldest ones dropped; an entry that fails the checks of R336 is not kept. -/
def execTranslationWalk (n : CoreId) (va : Word) (s : State) : Out :=
  let job := s.jobOf n
  let a := va.toNat
  if (s.core n).unit.isNone || decide (2 ^ 57 ≤ a) || !(Tab.get 0 s.xlate job.toNat).getLsbD 0 || ((s.cachedAt n.toNat job a).any fun c => c.entry.getLsbD 1) then stall s
  else match (walkReads n.toNat job a).run s with
  | (.error (.wait _), _) => stall s
  | (.error _, t) => .next (restore s t)
  | (.ok _, t) =>
    let good := (s.walkOf n.toNat job a).filter fun x => leadsOn x.1 x.2.2 || (entryOk x.2.2 && x.2.2.getLsbD 1 && leafOk x.1 x.2.2)
    let add := fun (p k : Nat) (l : List CachedLeaf) => trimPlace p k (l ++ good.map fun x =>
      ({ place := p, job := job, base := a / levelSize x.1 * levelSize x.1, size := levelSize x.1, lv := x.1, entry := x.2.2 } : CachedLeaf))
    .next { t with tcache := add (256 + dieOf n) 8192 (add n.toNat 128 t.tcache) }

/-! ## Queues, debug halts and the other registers (R389, R401, R402, R432) -/

/-- A consumer index after a write (R432): one that sets bits 63:32, moves backwards or passes PROD is discarded. -/
def consAfter (cons prod : Nat) (v : Word) : Nat :=
  let x := v.toNat
  if 2 ^ 32 ≤ x then cons
  else if (x + 2 ^ 32 - cons) % 2 ^ 32 ≤ (prod + 2 ^ 32 - cons) % 2 ^ 32 then x else cons

/-- `EVCONS_WRITE` (R432). -/
def execEvconsWrite (v : Word) (s : State) : Out := barWrite s (.next (s.modDev fun d => { d with evCons := consAfter d.evCons d.evProd v }))
/-- `FAQCONS_WRITE` (R432). -/
def execFaqconsWrite (v : Word) (s : State) : Out := barWrite s (.next (s.modDev fun d => { d with faqCons := consAfter d.faqCons d.faqProd v }))

/-- `FQCONS_WRITE` (R301, R432): entries are freed, and as many units that waited for them are cut. -/
def execFqconsWrite (d : BitVec 2) (v : Word) (s : State) : Out :=
  barWrite s (
    let k := d.toNat
    let x := s.die k
    let cons := consAfter x.fqCons x.fqProd v
    let room := 1024 - (x.fqProd + 2 ^ 32 - cons) % 2 ^ 32
    let s1 := s.modDie k fun x => { x with fqCons := cons, held := x.held.drop room }
    .next ((x.held.take room).foldl (fun s n => match (s.core n).fatal with
      | some (code, val) => s.startFatalCut n code val
      | none => s) s1))

/-- `FWFP_CLEAR` (R432, R433): bits written 1 are cleared. -/
def execFwfpClear (d : BitVec 2) (v : Word) (s : State) : Out :=
  barWrite s (.next (s.modDev fun x => { x with fwfp := x.fwfp &&& ~~~(v.setWidth 256 <<< (64 * d.toNat)) }))

/-- The core a DBGCTL write names; none where it sets a reserved bit. -/
def dbgCore (v : Word) : Option CoreId := if bitsOf v 8 53 ≠ 0 then none else some (BitVec.ofNat 8 (bitsOf v 0 8))

/-- `DEBUG_HALT_REQUEST` (R389, R432). -/
def execDebugHaltRequest (v : Word) (s : State) : Out :=
  if bitsOf v 62 2 ≠ 1 then stall s else
  barWrite s (match dbgCore v with
    | none => .next s
    | some n => .next ((s.modDev fun d => { d with dbgctl := n }).modCore n fun c => c.beginHalt s.ccount))

/-- A core released from its debug halt goes on in the next cycle (R389). -/
def Core.release (c : Core) (now : Nat) : Core :=
  if c.debugHalt = .stopped then
    let go : Seq → Seq := fun q => { q with nextIssue := Nat.max q.nextIssue (now + 1) }
    { c with debugHalt := .running, k := go c.k, l := go c.l, c := go c.c, s := go c.s }
  else c

/-- `DEBUG_HALT_RELEASE` (R389, R432): a core that is not debug-halted is not changed; one that is sends its claims again. -/
def execDebugHaltRelease (v : Word) (s : State) : Out :=
  if bitsOf v 62 2 ≠ 2 then stall s else
  barWrite s (match dbgCore v with
    | none => .next s
    | some n =>
      let t := (s.modDev fun d => { d with dbgctl := n }).modCore n fun c => c.release s.ccount
      .next (if (s.core n).debugHalt = .stopped then t.resendClaims n else t))

/-- Whether a BAR0 offset has a step of its own. -/
def ownRow (off : Nat) (v : Word) : Bool :=
  off == 0x1000 || off == 0x1008 || off == 0x1010 || off == 0x1110 || off == 0x1200 || off == 0x1300 || (decide (0x10000 ≤ off) && decide (off < 0x12000)) ||
  (decide (0x14000 ≤ off) && decide (off < 0x14800)) || (decide (0x18000 ≤ off) && decide (off < 0x18800)) || off == 0x30008 || off == 0x30018 ||
  (decide (0x30040 ≤ off) && decide (off < 0x30060)) || (decide (0x30080 ≤ off) && decide (off < 0x300A0)) ||
  (off == 0x30100 && (bitsOf v 62 2 == 1 || bitsOf v 62 2 == 2)) || off == 0x30108 || off == 0x30160 || off == 0x30180 ||
  (decide (0x100000 ≤ off) && decide (off < 0x200000)) || (decide (0x400000 ≤ off) && decide (off < 0x410000))

/-- The registers after a write at an offset that has no step of its own (R401, R402, R409, R432). -/
def Dev.write (d : Dev) (off : Nat) (v : Word) : Dev :=
  if off = 0x100 then { d with zen := v.getLsbD 16, dev := if d.zen then d.dev else BitVec.ofNat 9 v.toNat }
  else if off = 0x1100 then { d with inv0 := putBits d.inv0 0 8 (bitsOf v 0 8) }
  else if off = 0x1108 then { d with inv1 := v }
  else if 0x1308 ≤ off ∧ off < 0x1328 then { d with swcfg := Tab.set 0 d.swcfg ((off - 0x1300) / 8) v }
  else if off = 0x1400 then { d with dbgsel := v &&& 0x3F00FF }
  else if 0x20000 ≤ off ∧ off < 0x21000 then (if bitsOf v 4 59 ≠ 0 then d else { d with route := Tab.set 0 d.route ((off - 0x20000) / 8) v })
  else if 0x30140 ≤ off ∧ off < 0x30160 then { d with bar := { d.bar with nonce := putBits d.bar.nonce (64 * ((off - 0x30140) / 8)) 64 v.toNat } }
  else if off = 0x30100 ∧ bitsOf v 62 2 = 0 then (match dbgCore v with | some n => { d with dbgctl := n } | none => d)
  else d

/-- `REGISTER_WRITE` (R401, R402, R403): an access that is not 8 bytes and aligned completes with Unsupported Request. -/
def execRegisterWrite (off : BitVec 23) (v : Word) (s : State) : Out :=
  if off.toNat % 8 ≠ 0 then .next (s.modDev fun d => { d with reply := .ur })
  else if ownRow off.toNat v then stall s
  else barWrite s (.next (s.modDev fun d => d.write off.toNat v))

/-! ## BAR2 (R274, R404) -/

/-- The device memory of the device (R400): offsets of BAR2 at and above 576 GiB complete with Unsupported Request. -/
def inDev (pa len : Nat) : Bool := decide (pa + len ≤ devSize)

/-- The answer to a host request. -/
def State.answer (s : State) (r : HostReply) : State := s.modDev fun d => { d with reply := r }

/-- A read of BAR0 (R401 to R404): 8 bytes and aligned, else Unsupported Request; it completes after every write that arrived before it. -/
def execBarRead (off len : Nat) (s : State) : Out :=
  if len ≠ 8 ∨ off % 8 ≠ 0 then .next (s.answer .ur)
  else if !(s.covered s.dev.recCover && s.oldDone) then stall s
  else .next (s.answer (.data (toBytes 8 (s.barRead off).toNat)))

/-- `BAR2_WRITE` (R340, R404): it waits while its site is in self-refresh, and for a locked word (R273). -/
def execBar2Write (pa : Nat) (bytes : List Byte) (s : State) : Out :=
  if !s.dev.ready || !inDev pa bytes.length then .next (s.answer .ur)
  else if s.siteHeld pa bytes.length || s.locked (.dev pa) bytes.length then stall s
  else .next (((s.writeDev pa bytes).1).answer .none)

/-- A host read or AtomicOp that meets a poisoned block or an uncorrectable error completes with Completer Abort (R404). -/
def hostAct (s : State) (m : Act (List Byte)) : Out :=
  match m.run s with
  | (.ok b, t) => .next (t.answer (.data b))
  | (.error (.wait _), _) => stall s
  | (.error _, t) => .next ((restore s t).answer .abort)

/-- `BAR2_READ` (R404): it completes after every write that arrived before it, and waits for a locked word (R273). -/
def execBar2Read (pa len : Nat) (s : State) : Out :=
  if !s.dev.ready || !inDev pa len then .next (s.answer .ur)
  else hostAct s (do
    Act.need (s.covered s.dev.recCover && s.oldDone && !s.locked (.dev pa) len)
    let r ← readDev pa len (w64 pa)
    pure r.1)

/-- An atomic of F, the host or another device is presented to its home (R273): it is applied there by a move of its own. -/
def State.presentHome (s : State) (who : AmoBy) (pa op : Nat) (dbl : Bool) (fcsr : BitVec 17) (opnd cmp : Word) : State :=
  { s with amoq := s.amoq ++
    [{ who := who, pres := (s.ccount, s.amoPlace (.dev pa)), op := op, dbl := dbl, va := pa, tgt := .dev pa, opnd := opnd, cmp := cmp, fcsr := fcsr, applied := false }] }

/-- Whether an AtomicOp of the host is under way: the host's next request is applied after it (R404). -/
def State.hostBusy (s : State) : Bool := s.amoq.any fun r => decide (r.who = .host) && !r.applied

/-- An AtomicOp is presented as the atomic of an index (R272 to R274); a misaligned one is an Unsupported Request (log 34). -/
def hostAmo (op : Nat) (dbl : Bool) (pa : Nat) (v cmp : Word) (s : State) : Out :=
  let k := if dbl then 8 else 4
  if !s.dev.ready || !inDev pa k || decide (pa % k ≠ 0) then .next (s.answer .ur)
  else if !(s.covered s.dev.recCover && s.oldDone) || s.hostBusy then stall s
  else .next (s.presentHome .host pa op dbl 0 (w64 (v.toNat % 2 ^ (8 * k))) (w64 (cmp.toNat % 2 ^ (8 * k))))

/-- `FETCHADD` (R274). -/
def execFetchadd (dbl : Bool) (pa : Nat) (v : Word) (s : State) : Out := hostAmo 1 dbl pa v 0 s
/-- `SWAP` (R274). -/
def execSwap (dbl : Bool) (pa : Nat) (v : Word) (s : State) : Out := hostAmo 9 dbl pa v 0 s
/-- `CAS` (R274). -/
def execCas (dbl : Bool) (pa : Nat) (cmp v : Word) (s : State) : Out := hostAmo 10 dbl pa v cmp s
/-- `CAS_128` (R274): Unsupported Request, and nothing changes. -/
def execCas128 (_pa : Nat) (s : State) : Out := .next (s.answer .ur)

end Sys2Proof.Machine
end

