-- ==== Sys2Proof/Machine/Firmware.lean ====
section
/-! DEFINITION. Firmware and its registers: bring-up (R434), events and F's activations (R430, R431, R433), quotes (R435, R436), bad pages
(R342, R432), temperature and power (R343, R437), and the steps that count cycles (R81, R203, R430). -/
namespace Sys2Proof.Machine

/-! ## Bring-up and F (R433, R434) -/

/-- Every core's F starts at the entry point of the verified image copy. -/
def State.startFs (s : State) (cores : List CoreId) (at_ : Nat) : State := cores.foldl (fun s n => s.modCore n fun c => c.startF at_) s

/-- Whether F of core 0 runs from boot ROM, whose whole run is FIRMWARE_IMAGE_VERIFY (R403, R434). -/
def Dev.booting (d : Dev) : Bool := !d.ready && !d.fail && decide (d.power ≠ 3)

/-- Whether an image passes (R434): its signature verifies under the key in ROM, and its version is at least the stored minimum. -/
def Dev.imagePasses (d : Dev) (image sig : List Byte) : Bool :=
  xmssVerify Config.romKey image sig && decide (d.minVersion ≤ Config.imageVersion image)

/-- What a passing image leaves in the registers (R434): its version and bytes, and the minimum version where it raises that. -/
def Dev.withImage (d : Dev) (image : List Byte) : Dev :=
  { d with ready := true, version := Config.imageVersion image, image := image, minVersion := Nat.max d.minVersion ((Config.imageMinimum image).getD 0) }

/-- `FIRMWARE_IMAGE_VERIFY` (R434): boot ROM verifies the image that the non-volatile store holds: a passing one is copied into device memory at
`place`, inside the memory, where its sites may make it wait (R343), raises the minimum version where it does, and is started on the F context of every core; a
failing one sets FAIL. -/
def execFirmwareImageVerify (image sig : List Byte) (place : Nat) (s : State) : Out :=
  if !s.dev.booting then stall s
  else if s.dev.imagePasses image sig then
    if s.siteHeld place image.length || decide (devSize < place + image.length) then stall s
    else .next ((((s.writeDev place image).1).modDev fun d => d.withImage image).startFs allCores s.ccount)
  else .next (s.modDev fun d => { d with fail := true })

/-- `FEVENT_POP` (R433): the oldest entry of a core's event list is removed, as a write of POP does. -/
def execFeventPop (n : CoreId) (s : State) : Out := .next (s.modCore n Core.popEvent)

/-- Whether F of a core has no activation and its list holds an entry: it starts one in this cycle (R433). -/
def Core.fDue (c : Core) : Bool := !c.fActive && !c.events.isEmpty

/-- `F_ACTIVATION_START` (R433): an F that has no activation starts one in the first cycle in which its list holds an entry; the clock waits for
it. -/
def execFActivationStart (n : CoreId) (s : State) : Out :=
  if s.dev.ready && (s.core n).fDue then .next (s.modCore n fun c => c.startF s.ccount) else stall s

/-! ## Steps that count cycles -/

/-- `FUSED_RESET` (R81): FUSED is zero at every cycle with `ccount` mod 256 = 0. -/
def execFusedReset (s : State) : Out :=
  if s.ccount % 256 = 0 then .next { s with cores := s.cores.map fun x => (x.1, { x.2 with fused := 0 }) } else stall s

/-- Whether a core with a resident unit has retired no word of K, L, C or S for HUNGT cycles (R430); a HUNGT of 0 counts as 1. -/
def Core.hungDue (c : Core) (hungt now : Nat) : Bool := c.unit.isSome && decide (c.lastRetire + Nat.max 1 hungt ≤ now)

/-- `HUNG` (R430): no word of a resident unit has retired for HUNGT cycles; the count starts again. The clock waits for it. -/
def execHung (n : CoreId) (s : State) : Out :=
  let c := s.core n
  match c.unit with
  | none => stall s
  | some u =>
    if c.hungDue s.dev.hungt s.ccount then .next ((s.modCore n fun c => { c with lastRetire := s.ccount }).event 1 n u.task.toNat) else stall s

/-- The steps that a stamp may time (R68, R203). -/
def stampedStep (i : Instr) (s : State) : Out :=
  match i with
  | .mma b n c f sh w p u => execMma b n c f sh w p u s
  | .mmaE b n c f sh w p u => execMmaE b n c f sh w p u s
  | .mmaA a b n c f sh w p u => execMmaA a b n c f sh w p u s
  | .mabs b n c f sh w p u => execMabs b n c f sh w p u s
  | .mabsE b n c f sh w p u => execMabsE b n c f sh w p u s
  | .mwin b n c f e sh w p u => execMwin b n c f e sh w p u s
  | .mdw b n c f e sh w p u => execMdw b n c f e sh w p u s
  | _ => stall s

/-- Whether a core holds the next word of C: of the macro that runs or begins, or in its code store. -/
def Core.holdsNext (c : Core) (now : Nat) : Bool :=
  let mac := fun (i : Nat) => !(c.macroWords .c i).isEmpty
  let own := c.code.any fun x => x.1 == c.c.pc.toNat
  match c.c.mpos, c.c.macroQ with
  | some m, _ => mac m.idx
  | none, r :: _ => if r.vis ≤ now then mac r.idx else own
  | none, [] => own

/-- Whether C's next word is a stamped step that issues, raises its cause or misses its cycle in this one (R203): the clock waits for it. -/
def State.stampDue (s : State) (n : CoreId) : Bool :=
  (s.core n).unit.isSome && (s.core n).holdsNext s.ccount &&
  (match s.nextStep n with
   | some (_, _, sh, _, _) => decide (sh = 1) && outIssued (issueWith stampedStep (fun _ t => stall t) n .c s)
   | none => false)

/-- `SCHEDULE_MISS` (R203): C's next word is a stamped step past its slack, and C stops with the cause. -/
def execScheduleMiss (n : CoreId) (s : State) : Out :=
  match issueWith stampedStep (fun _ t => stall t) n .c s with
  | .next t => if (match (t.core n).c.stop with | some r => r.code == 0x07 | none => false) && (s.core n).c.stop.isNone then .next t else stall s
  | _ => stall s

/-! ## Temperature and power (R343, R437) -/

/-- A site. -/
def State.site (s : State) (i : Nat) : Site := Tab.get Site.reset s.sites i

/-- Whether a site has been in self-refresh for 3,600,000 cycles and its event is due (R343). -/
def Site.stallDue (x : Site) (now : Nat) : Bool := x.refresh && !x.stalled && decide (x.since + 3600000 ≤ now)
/-- Whether a site enters self-refresh now: it has reached its critical threshold (R343, R437). -/
def Site.enters (x : Site) (crit : Nat) : Bool := !x.refresh && decide (crit ≤ x.temp)
/-- Whether a site leaves self-refresh now: it is below the release threshold, and not above the critical one (R343, R437). -/
def Site.leaves (x : Site) (crit rel : Nat) : Bool := x.refresh && decide (x.temp < rel) && decide (x.temp < crit)

/-- `MEMORY_STALL` (R343): a site has been in self-refresh for 3,600,000 cycles; an event, once. The clock waits for it. -/
def execMemoryStall (site : Nat) (s : State) : Out :=
  if 12 ≤ site then .fault (.absentSite site)
  else
    let x := s.site site
    if x.stallDue s.ccount then .next (({ s with sites := Tab.put s.sites site { x with stalled := true } } : State).event 4 0 0)
    else stall s

/-- `SELF_REFRESH_ENTER` (R343, R437): a site at its critical threshold enters self-refresh, and THERMAL is raised. -/
def execSelfRefreshEnter (site : Nat) (s : State) : Out :=
  if 12 ≤ site then .fault (.absentSite site)
  else
    let x := s.site site
    if x.enters s.dev.critT && decide (s.dev.power ≠ 3) then .next (({ s with sites := Tab.put s.sites site { x with refresh := true, since := s.ccount, stalled := false } } : State).event 6 0 0)
    else stall s

/-- `SELF_REFRESH_EXIT` (R343): a site below its release threshold serves the requests that wait. -/
def execSelfRefreshExit (site : Nat) (s : State) : Out :=
  if 12 ≤ site then .fault (.absentSite site)
  else
    let x := s.site site
    if x.leaves s.dev.critT s.dev.relT then .next { s with sites := Tab.put s.sites site { x with refresh := false } } else stall s

/-- A site's temperature changes (R343, R437): an input of the model. -/
def siteTemperature (site t : Nat) (s : State) : Out :=
  if 12 ≤ site then stall s else .next { s with sites := Tab.put s.sites site { s.site site with temp := t } }

/-- F sets HUNGT (R430): the manual names no register for it (log 23). -/
def setHungt (v : Nat) (s : State) : Out := if s.dev.ready then .next (s.modDev fun d => { d with hungt := v }) else stall s

/-- F sets the thresholds of the sites (R343, R437): the manual names no register for them (log 23). -/
def setThresholds (crit rel : Nat) (s : State) : Out := if s.dev.ready then .next (s.modDev fun d => { d with critT := crit, relT := rel }) else stall s

/-- The package enters IDLE or leaves it for ACTIVE (R437): it gates the clocks of cores that have no unit, which no result shows (log 23). -/
def idleMove (s : State) : Out :=
  if s.dev.ready && decide (s.dev.power ≠ 3) then .next (s.modDev fun d => { d with power := if d.power = 2 then 0 else 2 }) else stall s

/-- `CAPPED` (R437): F enters CAPPED; results are unchanged. -/
def execCapped (s : State) : Out := if s.dev.ready && decide (s.dev.power = 0) then .next (s.modDev fun d => { d with power := 1 }) else stall s

/-- `PACKAGE_POWER_LIMIT_WRITE` (R437): a limit of at most 2,000 W is set, and F is in CAPPED or ACTIVE as a result: which of the two
depends on the power drawn, a free value (log 2). -/
def execPackagePowerLimitWrite (watts : Nat) (s : State) : Out :=
  if 2000 < watts ∨ s.dev.power = 3 then .next s
  else if s.dev.ready && decide (s.dev.power.toNat < 2) then
    .next ((s.modDev fun d => { d with limit := watts, power := (Config.freeBits 1 s.free).setWidth 2 }).bump)
  else .next (s.modDev fun d => { d with limit := watts })

/-- What outlives a rung 6 and a loss of power: the bad-page list, the signature counter and the minimum version (R428, R437), with what
the device has sent, the temperatures of the sites, which are inputs, and the model's own choices. -/
def State.cold (s : State) : State :=
  { State.reset with
    dev := { Dev.reset with
      badPages := s.dev.badPages, sigCounter := s.dev.sigCounter, minVersion := s.dev.minVersion
      hostOut := s.dev.hostOut, linkOut := s.dev.linkOut, msix := s.dev.msix }
    sites := s.sites.map fun x => (x.1, { Site.reset with temp := x.2.temp }), agenda := s.agenda, free := s.free }

/-- `POWER_LOSS` (R436, R437): OFF keeps only the non-volatile stores; the leaves of the current block are abandoned. -/
def execPowerLoss (s : State) : Out := .next (s.cold.modDev fun d => { d with power := 3 })

/-! ## Quotes (R432, R435, R436) -/

/-- The registers of a requester. -/
def Dev.quoteRegs (d : Dev) (i3c : Bool) : QuoteRegs := if i3c then d.i3c else d.bar
/-- The registers of a requester replaced. -/
def Dev.setQuoteRegs (d : Dev) (i3c : Bool) (q : QuoteRegs) : Dev := if i3c then { d with i3c := q } else { d with bar := q }

/-- `QUOTE_REQUEST` (R432): the requester's NONCE is read when GO is written; a GO written while GO reads 1 is discarded. -/
def execQuoteRequest (i3c : Bool) (v : Word) (s : State) : Out :=
  if !s.dev.ready || decide (bitsOf v 0 61 ≠ 0) || !v.getLsbD 63 || (s.dev.quoteRegs i3c).go then .next s
  else
    .next (s.modDev fun d =>
      { d.setQuoteRegs i3c { d.quoteRegs i3c with go := true, status := 1 } with quotes := d.quotes ++ [(i3c, (d.quoteRegs i3c).nonce)] })

/-- Whether the I3C sideband reaches a BAR0 offset (R432): STATUS, IDENT, CERT, and NONCE, QUOTE and QRES of its own. -/
def i3cOffset (off : Nat) : Bool :=
  decide (off % 8 = 0) && (off == 0 || (decide (0x40 ≤ off) && decide (off < 0x80)) || (decide (0x30140 ≤ off) && decide (off ≤ 0x30160)) ||
    (decide (0x31000 ≤ off) && decide (off < 0x38000)))

/-- A private read transfer of the I3C sideband (R432). -/
def i3cRead (off : Nat) (s : State) : Out :=
  if i3cOffset off then .next (s.modDev fun d => { d with i3cReply := (s.modDev fun d => { d with bar := d.i3c }).barRead off }) else stall s

/-- A private write transfer of the I3C sideband (R432): to its NONCE or its QUOTE; others are discarded. -/
def i3cWrite (off : Nat) (v : Word) (s : State) : Out :=
  if off = 0x30160 then execQuoteRequest true v s
  else if s.dev.ready && i3cOffset off && decide (0x30140 ≤ off) && decide (off < 0x30160) then
    .next (s.modDev fun d => { d with i3c := { d.i3c with nonce := putBits d.i3c.nonce (64 * ((off - 0x30140) / 8)) 64 v.toNat } })
  else stall s

/-- The first 112 bytes of a quote (R435): the SHAKE256 digest of the running image, its version, the nonce, the leaf. -/
def quoteHead (d : Dev) (nonce : BitVec 256) (leaf : Nat) : List Byte :=
  shake256 d.image 64 ++ toBytes 8 d.version ++ toBytes 32 nonce.toNat ++ toBytes 8 leaf

/-- `QUOTE_COMPLETE` (R435, R436): the oldest request ends with its quote in QRES, over the next leaf, or with EXHAUSTED; a new block of
leaves is reserved before its first is used. -/
def execQuoteComplete (s : State) : Out :=
  match s.dev.quotes with
  | [] => stall s
  | (i3c, nonce) :: rest =>
    let fin := fun (d : Dev) (st : BitVec 2) (res : List Byte) =>
      (({ s with dev := { d.setQuoteRegs i3c { d.quoteRegs i3c with go := false, status := st, res := res } with quotes := rest } } : State).event 7 0 0)
    let old := (s.dev.quoteRegs i3c).res
    if !s.dev.ready then stall s
    else if s.dev.leafNext = s.dev.leafEnd ∧ 2 ^ 40 ≤ s.dev.sigCounter then .next (fin s.dev 2 old)
    else
      let d := if s.dev.leafNext = s.dev.leafEnd
        then { s.dev with leafNext := s.dev.sigCounter, leafEnd := s.dev.sigCounter + 1024, sigCounter := s.dev.sigCounter + 1024 } else s.dev
      let head := quoteHead d nonce d.leafNext
      .next (fin { d with leafNext := d.leafNext + 1 } 0 (head ++ (List.range 9893).map fun i => Config.quoteByte (112 + i) head))

/-! ## Bad pages (R342, R432) -/

/-- `BADPAGE_REQUEST` (R432): reserved bits, a GO while GO reads 1 and a page beyond the memory are discarded. -/
def execBadpageRequest (v : Word) (s : State) : Out :=
  let page := bitsOf v 0 24
  if !s.dev.ready || decide (bitsOf v 57 4 ≠ 0) || decide (bitsOf v 24 20 ≠ 0) || decide (lastPage ≤ page) || (v.getLsbD 63 && s.dev.badGo) then .next s
  else if v.getLsbD 63 then .next ((s.modDev fun d => { d with badGo := true, badPage := page }).event 8 0 0)
  else .next (s.modDev fun d => { d with badPage := page })

/-- `BADPAGE_ANSWER` (R342, R432): F adds the page, finds it listed, or refuses it with the list full. -/
def execBadpageAnswer (s : State) : Out :=
  let d := s.dev
  if !(d.ready && d.badGo) then stall s
  else
    let r : BitVec 2 × List Nat := if d.badPages.contains d.badPage then (1, d.badPages)
      else if 4096 ≤ d.badPages.length then (2, d.badPages) else (0, d.badPages ++ [d.badPage])
    .next (s.modDev fun d => { d with badGo := false, badResult := r.1, badCount := r.2.length, badPages := r.2 })

end Sys2Proof.Machine
end

