-- ==== Sys2Proof/Machine/KInt.lean ====
section
/-! DEFINITION. K-words of class 0b000: integer and predicate words (R119 to R124). -/
namespace Sys2Proof.Machine

/-- `mul`: the low product, sign-extended (R120). -/
def execMul (d a b : BitVec 5) (w : BitVec 2) (s : State) : Out :=
  let k := kWidth w
  regWord s [a, b] d (ws k (sx (s.reg a) k * sx (s.reg b) k)) 3

/-- `mulh`: the high half of the signed product (R120). -/
def execMulh (d a b : BitVec 5) (w : BitVec 2) (s : State) : Out :=
  let k := kWidth w
  regWord s [a, b] d (ws k ((sx (s.reg a) k * sx (s.reg b) k).fdiv (2 ^ k))) 3

/-- `mulhn`: the high half of the natural product (R120). -/
def execMulhn (d a b : BitVec 5) (w : BitVec 2) (s : State) : Out :=
  let k := kWidth w
  regWord s [a, b] d (wn k (zx (s.reg a) k * zx (s.reg b) k / 2 ^ k)) 3

/-- `div`: the signed quotient rounded toward zero; −1 for a zero divisor (R120, R125). -/
def execDiv (d a b : BitVec 5) (w : BitVec 2) (s : State) : Out :=
  let k := kWidth w
  let lat := 2 + k / 2
  divWord s [a, b] (fun t => .next (t.finish d (if sx (s.reg b) k = 0 then ws k (-1) else ws k ((sx (s.reg a) k).tdiv (sx (s.reg b) k))) lat)) lat

/-- `divn`: the natural quotient; all ones for a zero divisor (R120, R125). -/
def execDivn (d a b : BitVec 5) (w : BitVec 2) (s : State) : Out :=
  let k := kWidth w
  let lat := 2 + k / 2
  divWord s [a, b] (fun t => .next (t.finish d (if zx (s.reg b) k = 0 then wn k (2 ^ k - 1) else wn k (zx (s.reg a) k / zx (s.reg b) k)) lat)) lat

/-- `rem`: the signed remainder; the dividend for a zero divisor, 0 for the overflow (R120, R125). -/
def execRem (d a b : BitVec 5) (w : BitVec 2) (s : State) : Out :=
  let k := kWidth w
  let lat := 2 + k / 2
  divWord s [a, b] (fun t => .next (t.finish d (if sx (s.reg b) k = 0 then ws k (sx (s.reg a) k) else ws k ((sx (s.reg a) k).tmod (sx (s.reg b) k))) lat)) lat

/-- `remn`: the natural remainder; the dividend for a zero divisor (R120, R125). -/
def execRemn (d a b : BitVec 5) (w : BitVec 2) (s : State) : Out :=
  let k := kWidth w
  let lat := 2 + k / 2
  divWord s [a, b] (fun t => .next (t.finish d (if zx (s.reg b) k = 0 then wn k (zx (s.reg a) k) else wn k (zx (s.reg a) k % zx (s.reg b) k)) lat)) lat

/-- `min`: the signed minimum (R120). -/
def execMin (d a b : BitVec 5) (w : BitVec 2) (s : State) : Out :=
  let k := kWidth w
  regWord s [a, b] d (if sx (s.reg a) k ≤ sx (s.reg b) k then ws k (sx (s.reg a) k) else ws k (sx (s.reg b) k)) 1

/-- `max`: the signed maximum (R120). -/
def execMax (d a b : BitVec 5) (w : BitVec 2) (s : State) : Out :=
  let k := kWidth w
  regWord s [a, b] d (if sx (s.reg a) k ≤ sx (s.reg b) k then ws k (sx (s.reg b) k) else ws k (sx (s.reg a) k)) 1

/-- `minn`: the natural minimum (R120). -/
def execMinn (d a b : BitVec 5) (w : BitVec 2) (s : State) : Out :=
  let k := kWidth w
  regWord s [a, b] d (wn k (Nat.min (zx (s.reg a) k) (zx (s.reg b) k))) 1

/-- `maxn`: the natural maximum (R120). -/
def execMaxn (d a b : BitVec 5) (w : BitVec 2) (s : State) : Out :=
  let k := kWidth w
  regWord s [a, b] d (wn k (Nat.max (zx (s.reg a) k) (zx (s.reg b) k))) 1

/-- `clz`: leading zero count, w for 0 (R121). -/
def execClz (d a : BitVec 5) (w : BitVec 2) (s : State) : Out :=
  let k := kWidth w
  regWord s [a] d (wn k (clz k (zx (s.reg a) k))) 1

/-- `ctz`: trailing zero count, w for 0 (R121). -/
def execCtz (d a : BitVec 5) (w : BitVec 2) (s : State) : Out :=
  let k := kWidth w
  regWord s [a] d (wn k (ctz k (zx (s.reg a) k))) 1

/-- `popc`: population count (R121). -/
def execPopc (d a : BitVec 5) (w : BitVec 2) (s : State) : Out :=
  let k := kWidth w
  regWord s [a] d (wn k (popcount k (zx (s.reg a) k))) 1

/-- `sel`: one of two registers by a predicate (R122). -/
def execSel (d a b : BitVec 5) (p : BitVec 4) (w : BitVec 2) (s : State) : Out :=
  let k := kWidth w
  regWord s [a, b] d (wn k (if s.pred p.toNat then zx (s.reg a) k else zx (s.reg b) k)) 1

/-- Ends a predicate-writing word. -/
def predOut (s : State) (srcs : List (BitVec 5)) (d : BitVec 5) (b : Bool) : Out :=
  if s.readyFor srcs then .next (s.setPred d.toNat b).advance else stall s

/-- The relation a `cmp` condition names (R56, R123). -/
def cmpHolds (c : BitVec 4) (x y : Int) : Bool :=
  if c = 0 then decide (x = y) else if c = 1 then decide (x ≠ y) else if c = 2 then decide (x < y)
  else if c = 3 then decide (y ≤ x) else if c = 4 then decide (x ≤ y) else decide (y < x)

/-- `cmp`: compares as natural numbers with N set, as integers otherwise, and writes a predicate (R123). -/
def execCmp (d a b : BitVec 5) (n : BitVec 1) (c : BitVec 4) (w : BitVec 2) (s : State) : Out :=
  let k := kWidth w
  predWord s [d] (predOut s [a, b] d
    (if n = 1 then cmpHolds c (zx (s.reg a) k : Nat) (zx (s.reg b) k : Nat) else cmpHolds c (sx (s.reg a) k) (sx (s.reg b) k)))

/-- `pand`: the AND of two predicates (R123). -/
def execPand (d a b : BitVec 5) (s : State) : Out :=
  predWord s [d, a, b] (predOut s [] d (s.pred a.toNat && s.pred b.toNat))

/-- `por`: the OR of two predicates (R123). -/
def execPor (d a b : BitVec 5) (s : State) : Out :=
  predWord s [d, a, b] (predOut s [] d (s.pred a.toNat || s.pred b.toNat))

/-- `pnot`: the negation of a predicate (R123). -/
def execPnot (d a : BitVec 5) (s : State) : Out :=
  predWord s [d, a] (predOut s [] d (!s.pred a.toNat))

/-- `lea`: a base plus an index shifted by 0 to 3 (R124). -/
def execLea (d a b : BitVec 5) (h : BitVec 4) (s : State) : Out :=
  regWord s [a, b] d (s.reg a + s.reg b <<< h.toNat) 1

/-- The position and length a bit-field register names (R124). -/
def fieldPos (x : Word) : Nat × Nat := (bitsOf x 0 6, Nat.min (bitsOf x 8 7) 64)

/-- `bfx`: extracts a bit field (R124). -/
def execBfx (d a b : BitVec 5) (w : BitVec 2) (s : State) : Out :=
  let k := kWidth w
  let f := fieldPos (s.reg b)
  regWord s [a, b] d (wn k (zx (s.reg a) k / 2 ^ f.1 % 2 ^ f.2)) 1

/-- `bfi`: inserts a bit field into the destination, whose bits outside the field stay (R124). -/
def execBfi (d a b : BitVec 5) (w : BitVec 2) (s : State) : Out :=
  let k := kWidth w
  let f := fieldPos (s.reg b)
  let mask := (2 ^ f.2 - 1) * 2 ^ f.1
  let old := zx (s.reg d) k
  regWord s [d, a, b] d (wn k ((old - (old &&& mask)) ||| (zx (s.reg a) f.2 * 2 ^ f.1 &&& mask))) 1

end Sys2Proof.Machine
end

