-- ==== Sys2Proof/Machine/Resets.lean ====
section
/-! DEFINITION. The reset ladder (R428, R429) and the RESET register (R432). A rung acts when it starts and runs until its completion; one
that overlaps a running rung waits. -/
namespace Sys2Proof.Machine

/-- Whether two rungs overlap. -/
def Rung.overlaps (a b : Rung) : Bool := decide (a.first < b.first + b.cnt) && decide (b.first < a.first + a.cnt)
/-- Whether a rung's reach covers another's. -/
def Rung.covers (a b : Rung) : Bool := decide (a.first ≤ b.first) && decide (b.first + b.cnt ≤ a.first + a.cnt)
/-- The cores a rung reaches. -/
def Rung.cores (r : Rung) : List CoreId := (List.range r.cnt).map fun i => BitVec.ofNat 8 (r.first + i)

/-- The rungs that run: those that overlap none before them. -/
def runningRungs (before : List Rung) : List Rung → List Rung
  | [] => []
  | r :: rest => if before.any r.overlaps then runningRungs (before ++ [r]) rest else r :: runningRungs (before ++ [r]) rest

/-! ## Rungs 1 and 2 -/

/-- Whether a core is cut or debug-halted (R428): stopped, or its cut unit waits to be resumed. -/
def State.cutOrHalted (s : State) (n : CoreId) : Bool :=
  let c := s.core n
  decide (c.debugHalt = .stopped) || decide (c.cutting = .stopped) ||
  (c.unit.isNone && ((s.dies.any fun d => d.2.launches.any fun l => l.2.toResume n) || s.parked.any fun l => l.toResume n))

/-- Rung 1: the entries of a queue are cleared, its pops kept (R428). -/
def Core.clearQueue (c : Core) (qid : Nat) : Core :=
  if qid < 0x10 then c.setTk qid { c.tkOf qid with entries := [] }
  else if qid < 0x18 then c.setDq (qid - 0x10) { c.dq (qid - 0x10) with entries := [] }
  else if qid < 0x1C then c.setIq (qid - 0x18) { c.iqOf (qid - 0x18) with entries := [] }
  else if qid < 0x20 then c.setOq (qid - 0x1C) { c.oqOf (qid - 0x1C) with entries := [] }
  else if qid < 0x40 then
    let r := c.ring (qid - 0x20)
    c.setRing (qid - 0x20) { r with claim := r.head, tail := r.head, pushed := [], marks := [], holders := [], fill := [] }
  else
    let q : Ctx := if qid = 0x48 then .k else ctxOf (qid - 0x48)
    let c := c.unpushed qid (c.heldIn qid)
    c.setSeq q { c.seq q with macroQ := [] }

/-- Rung 2: the commands of an engine's FIFO that have not started are cleared, with what they reserved (R428), its pops kept. -/
def State.clearEngine (s : State) (n : CoreId) (qid : Nat) : State :=
  let pops := Tab.get 0 (s.core n).pushes qid - (s.core n).heldIn qid
  (fun (t : State) => t.modCore n fun c => { c with pushes := Tab.set 0 c.pushes qid (pops + c.heldIn qid) }) <|
  let copies := fun (q : Ctx) =>
    ((((s.core n).tu q).flight.filter fun f => (decide (f.kind = .move) || decide (f.kind = .rows)) && decide (f.cursor = 0) && f.claimed.isNone).reverse).foldl
      (fun s f => s.discard n q f) s
  if qid = 0x40 then copies .l
  else if qid = 0x41 then copies .s
  else if qid = 0x42 then (((s.core n).mat.flight.filter fun f => !f.att && decide (f.cut = some 0)).reverse).foldl (fun s f => s.discardM n f) s
  else if qid = 0x47 then s.modCore n fun c => { c with coll := c.coll.filter fun r => r.started }
  else s

/-- The cut units that wait to be resumed on a core, with their tasks (R388). -/
def State.savedOn (s : State) (n : CoreId) : List (BitVec 8 × BitVec 24 × CutUnit) :=
  ((s.dies.flatMap fun d => d.2.launches.map fun l => l.2) ++ s.parked).flatMap fun l => (l.resume.filter fun u => decide (u.core = n)).map fun u => (l.job, l.task, u)

/-- What is kept beside the save block of a cut unit replaced. -/
def State.setKept (s : State) (job : BitVec 8) (task : BitVec 24) (n : CoreId) (c : Core) : State :=
  let g := fun (l : Launch) => if l.job = job ∧ l.task = task then { l with resume := l.resume.map fun u => if u.core = n then { u with kept := c } else u } else l
  { s with parked := s.parked.map g, dies := s.dies.map fun d => (d.1, { d.2 with launches := d.2.launches.map fun x => (x.1, g x.2) }) }

/-- The places of a save block that a cleared queue or engine may change: queue entries, state region, cut record and held words (R387). -/
def queueParts : List (Nat × Nat) := [(0x39A000, 0x2000), (0x39D000, 0x8000), (0x3A5000, 0x4000)]

/-- A change of a core applied to a cut unit in its save block (R388, R428): the doublewords of the block that it changes are written, HELD of the
cut record among them; a block that cannot be read or resumed is left as it is. -/
def changeSaved (n : CoreId) (g : State → State) (x : BitVec 8 × BitVec 24 × CutUnit) : Act Unit := do
  let t ← soft [] (readTcb x.1 x.2.1.toNat)
  let at_ := saveOf t + x.2.2.rank * 2 ^ 22
  let img ← soft none (do pure (some (← readBlockOf x.1 at_ x.2.2.kept)))
  let s ← get
  match img.bind fun img => coreFrom s x.1 n img (s.core n) x.2.2.kept with
  | none => pure ()
  | some c =>
    let before := s.setCore n c
    let after := g before
    let old := saveImage before n
    let new := saveImage after n
    for p in queueParts do
      for i in List.range (p.2 / 8) do
        if imgBytes old (p.1 + 8 * i) 8 ≠ imgBytes new (p.1 + 8 * i) 8 then
          soft () (writeJob x.1 (engine n) (at_ + p.1 + 8 * i) (imgBytes new (p.1 + 8 * i) 8))
    modify fun s => s.setKept x.1 x.2.1 n (after.core n).keptForm

/-- A change of a core that is cut or debug-halted (R428): of its unit that stands stopped on it, else of the cut units that wait for it. -/
def changeCut (n : CoreId) (g : State → State) : Act Unit := do
  let s ← get
  if (s.core n).unit.isSome || decide ((s.core n).debugHalt = .stopped) then set (g s)
  else for x in s.savedOn n do changeSaved n g x

/-! ## Rungs 3 to 6 -/

/-- A core after a partition reset (R428): its unit's state, registers and CSRs at their reset values; F starts again, its event list kept.
Writes on their way, started collective and plane requests and staging copies go on, and NCAP counts since device reset (R392). -/
def Core.rungReset (c : Core) (ready : Bool) (now : Nat) : Core :=
  let r : Core := { Core.reset with
    f := { Seq.reset with regs := c.f.regs }, events := c.events, evDrops := c.evDrops, slotAt := c.slotAt
    fwd := c.fwd, storeSeq := c.storeSeq, amos := c.amos, nextId := c.nextId, lastRetire := now
    rings := c.rings.map fun x => (x.1, { Ring.reset with waits := x.2.waits })
    att := { c.att with busy := false, exp := none, parked := none, started := false }
    snap := [(7, w64 (bitsOf (Tab.get 0 c.snap 7) 32 32 * 2 ^ 32))]
    staging := c.staging, coll := c.coll.filter fun x => x.started, planes := c.planes }
  if ready then r.startF now else r

/-- Cancels a task whose units a rung kills; one whose block cannot be read ends all the same. -/
def rungCancel (job : BitVec 8) (task : BitVec 24) : Act Unit := do
  cancelTask job task.toNat
  match (← get).launchOf job task with
  | some (die, slot, _) =>
    for n in (← get).unitCores die slot do killUnit n
    modify fun s => s.freeSlot die slot
  | none => pure ()

/-- Rung 3 on a set of cores (R428). -/
def resetCores (cs : List CoreId) : Act Unit := do
  let s ← get
  for x in (cs.filterMap fun n => (s.core n).unit.map fun u => (u.job, u.task)).eraseDups do rungCancel x.1 x.2
  modify fun s =>
    let s := cs.foldl (fun s n => (((s.withdrawClaims n).dropLoads n).clearCodes n).modCore n fun c => c.rungReset s.dev.ready s.ccount) s
    { s with
      amoq := s.amoq.map fun r => match r.who with
        | .firmware n (some _) => if cs.contains n then { r with who := .firmware n none } else r
        | _ => r
      dies := s.dies.map fun d => (d.1, { d.2 with
        held := d.2.held.filter fun n => !cs.contains n
        launches := d.2.launches.map fun l => (l.1, { l.2 with held := l.2.held.filter fun n => !cs.contains n }) }) }

/-- The tasks that hold keys of a home die (R295), but for parked ones, whose parking no rung ends (R429). -/
def State.keyHolders (s : State) (d : Nat) : List (BitVec 8 × BitVec 24) :=
  ((s.keys.filter fun e => decide (keyFold e.key % 4 = d)).flatMap fun e => (e.ex.toList ++ e.sh).map fun t => (e.job, t)).eraseDups.filter fun x =>
    !s.parked.any fun l => l.job == x.1 && l.task == x.2

/-- Rung 4 on a die (R428). A pool entry is homed on the die whose ready queue its task enters. -/
def resetDie (d : Nat) : Act Unit := do
  resetCores ((List.range 64).map fun i => BitVec.ofNat 8 (64 * d + i))
  for x in (← get).keyHolders d do rungCancel x.1 x.2
  let pool ← (← get).pool.filterM fun p => do
    let t ← soft [] (readTcb p.job p.task.toNat)
    let q ← queueOf p.job t
    pure (decide (q.1 ≠ d))
  modify fun s =>
    let s := s.modDie d fun x => { x with ready := [], fq := [], fqProd := 0, fqCons := 0, held := [], syms := [] }
    { s with
      pool := pool, tcache := s.tcache.filter fun c => decide (c.place ≠ 256 + d) && decide (c.place / 64 ≠ d)
      keys := s.keys.filter fun e => decide (keyFold e.key % 4 ≠ d), wantKeys := s.wantKeys.filter fun w => decide (keyFold w.2.2 % 4 ≠ d) }

/-- Rung 5 (R428, R433, R436): every die, the tables of the device and its event queue; writes on their way are discarded, and the jobs
created after it draw symbols from 1 (R225). -/
def resetFunction : Act Unit := do
  for d in List.range 4 do resetDie d
  modify fun s =>
    { s with
      jobs := [], subs := [], streams := [], landed := [], far := [], amoq := [], sealed := [], orphans := []
      switches := s.switches.map fun x => (x.1, { x.2 with win := [], rounds := [] })
      dies := s.dies.map fun d => (d.1, { d.2 with replay := [], next := [] })
      cores := s.cores.map fun x => (x.1, { x.2 with events := [], evDrops := 0, fwd := [], amos := [], staging := [], coll := [], planes := [] })
      dev := { s.dev with evq := [], evProd := 0, evCons := 0, evDrops := 0, zen := false, fwfp := 0, leafNext := 0, leafEnd := 0 } }

/-- What a rung does as it starts (R428): it empties the code stores of the cores it reaches (R439). Rungs 1 and 2 clear a queue or an
engine and leave the unit's job in place, so that the core's next unit finds its state cleared only if its job differs (DESIGN CHOICE,
log 24: R102 does not say whether such a rung has reached the core). -/
def applyRung (r : Rung) : Act Unit := do
  modify fun s => r.cores.foldl (fun s n => s.modCore n fun c => { c with code := [] }) s
  let s ← get
  let n : CoreId := BitVec.ofNat 8 r.first
  if r.num = 6 then set s.cold
  else if r.num = 1 then
    if s.cutOrHalted n then changeCut n fun s => s.modCore n fun c => c.clearQueue r.qid
  else if r.num = 2 then
    if s.cutOrHalted n then changeCut n fun s => s.clearEngine n r.qid
  else if r.num = 3 then resetCores r.cores
  else if r.num = 4 then resetDie (r.first / 64)
  else resetFunction

/-- A rung starts (R429): it is absorbed into a higher rung that covers it, absorbs the lower ones it covers that still wait, and waits
while a running one overlaps it. -/
def startRung (r : Rung) : Act Unit := do
  let s ← get
  let l := s.dev.rungs
  if l.any fun h => decide (r.num < h.num) && h.covers r then pure ()
  else
    let run := runningRungs [] l
    let l' := l.filter fun x => run.contains x || !(decide (x.num < r.num) && r.covers x)
    set (s.modDev fun d => { d with rungs := l' ++ [r] })
    if !l'.any r.overlaps then applyRung r

/-- Whether the writes and atomics on their way from a core are performed, those of its cut units and of F among them (R343, R429). -/
def State.writesOut (s : State) (n : CoreId) : Bool :=
  s.storesDone n && (s.core n).amos.isEmpty && (s.orphans.all fun o => decide (o.core ≠ n) || doneBy o.doneAt s.ccount) &&
  s.amoq.all fun r => r.applied || (match r.who with | .firmware m _ => decide (m ≠ n) | _ => true)

/-- `RESET_RUNG_COMPLETE` (R429): rungs 3 and 4 complete once the writes on their way from their cores are performed; a waiting rung that
nothing overlaps any more starts. -/
def execResetRungComplete (s : State) : Out :=
  let run := runningRungs [] s.dev.rungs
  match run.find? fun r => decide (r.num < 3) || decide (4 < r.num) || r.cores.all s.writesOut with
  | none => stall s
  | some r => runEvent s (do
      modify fun s => s.modDev fun d => { d with rungs := d.rungs.erase r }
      for x in (runningRungs [] (← get).dev.rungs).filter (fun x => !(run.erase r).contains x) do applyRung x)

/-! ## The RESET register (R432) -/

/-- A write of RESET that is refused. -/
def refuseReset (s : State) : Out := .next (s.modDev fun d => { d with refused := true })

/-- Whether a write of RESET sets a reserved bit. -/
def resetReserved (v : Word) : Bool := decide (bitsOf v 56 4 ≠ 0) || decide (bitsOf v 24 24 ≠ 0) || decide (bitsOf v 2 6 ≠ 0)

/-- A write of RESET that starts its rung. -/
def beginReset (s : State) (r : Rung) : Out := runEvent s (do
  modify fun s => s.modDev fun d => { d with refused := false }
  startRung r)

/-- Whether F writes. -/
def Requester.isF : Requester → Bool
  | .driver => false
  | .firmware _ => true

/-- Rungs 1 and 2 are F's, for a core that is cut or debug-halted. -/
def queueReset (num : Nat) (who : Requester) (v : Word) (s : State) (qidOk : Bool) : Out :=
  if bitsOf v 60 4 ≠ num then stall s else
  barWrite s (
    let n : CoreId := BitVec.ofNat 8 (bitsOf v 8 8)
    if resetReserved v || !Requester.isF who || !qidOk || !s.cutOrHalted n then refuseReset s
    else beginReset s { num := num, first := n.toNat, cnt := 1, qid := bitsOf v 48 8 })

/-- Whether a QID names a queue other than an engine FIFO (R88, R386): a token queue of two sequencers, a data, operand or result queue, a ring, a
macro queue. -/
def queueQid (q : Nat) : Bool := tokenQueues.contains q || (decide (0x10 ≤ q) && decide (q < 0x40)) || (decide (0x48 ≤ q) && decide (q < 0x4C))

/-- `RESET_QUEUE` (R428, R432). -/
def execResetQueue (who : Requester) (v : Word) (s : State) : Out := queueReset 1 who v s (queueQid (bitsOf v 48 8))

/-- `RESET_ENGINE` (R428, R432). -/
def execResetEngine (who : Requester) (v : Word) (s : State) : Out :=
  let q := bitsOf v 48 8
  queueReset 2 who v s (decide (0x40 ≤ q) && decide (q < 0x48))

/-- `RESET_PARTITION` (R428, R432): it also refuses a RUNG of 0 or 5 to 15. -/
def execResetPartition (who : Requester) (v : Word) (s : State) : Out :=
  let num := bitsOf v 60 4
  let _ := who
  if num = 1 ∨ num = 2 ∨ num = 4 then stall s else
  barWrite s (
    let first := bitsOf v 8 8
    let cnt := bitsOf v 16 8
    if num ≠ 3 ∨ resetReserved v ∨ 255 < first + cnt then refuseReset s
    else beginReset s { num := 3, first := first, cnt := cnt + 1, qid := 0 })

/-- `RESET_DIE` (R428, R432): F may not reset its own die. -/
def execResetDie (who : Requester) (v : Word) (s : State) : Out :=
  if bitsOf v 60 4 ≠ 4 then stall s else
  barWrite s (
    let d := bitsOf v 0 2
    let own := match who with | .driver => false | .firmware n => decide (dieOf n = d)
    if resetReserved v || own then refuseReset s
    else beginReset s { num := 4, first := 64 * d, cnt := 64, qid := 0 })

/-- `RESET_FUNCTION_LEVEL` (R428). -/
def execResetFunctionLevel (s : State) : Out := runEvent s (startRung { num := 5, first := 0, cnt := 256, qid := 0 })

/-- `RESET_DEVICE` (R4, R428, R429): everything goes to its reset value but the non-volatile stores, once no other rung runs. -/
def execResetDevice (s : State) : Out := runEvent s (startRung { num := 6, first := 0, cnt := 256, qid := 0 })

end Sys2Proof.Machine
end

