-- ==== Sys2Proof/Machine/Links.lean ====
section
/-! DEFINITION. The links (R402, R405, R407, R408): requests of other devices to the memory here, answers to requests of this device, and
the Zuore ports. When an answer comes is free (log 33). -/
namespace Sys2Proof.Machine

/-- The answer of the device to a request of another. -/
def State.linkAnswer (s : State) (dev : BitVec 9) (bytes : List Byte) : State := s.modDev fun d => { d with linkOut := d.linkOut ++ [(s.portOf dev.toNat, .answer dev.toNat bytes)] }

/-- A remote request that reads: its answer carries the bytes, or none where the read meets an error (R340). -/
def remoteAct (q : RemoteReq) (s : State) (m : Act (List Byte)) : Out :=
  match m.run s with
  | (.ok b, t) => .next (t.linkAnswer q.dev b)
  | (.error (.wait _), _) => stall s
  | (.error _, t) => .next ((restore s t).linkAnswer q.dev [])

/-- `REMOTE_REQUEST` (R273, R337, R407): a load, store or atomic of another device, at its home here; a load or store waits for a locked word,
an atomic is presented to the home. -/
def execRemoteRequest (q : RemoteReq) (s : State) : Out :=
  if !(s.dev.ready && s.dev.zen) then stall s
  else if devSize < q.pa + q.len then .fault (.absentAddress q.pa)
  else match q.kind with
  | .load => if s.locked (.dev q.pa) q.len then stall s else remoteAct q s (do let r ← readDev q.pa q.len (w64 q.pa); pure r.1)
  | .store => if s.siteHeld q.pa q.len || s.locked (.dev q.pa) q.len then stall s else .next ((s.writeDev q.pa (q.data.take q.len)).1.linkAnswer q.dev [])
  | .amo op =>
    if decide (q.len ≠ 4 ∧ q.len ≠ 8) || decide (q.pa % q.len ≠ 0) || decide (op = 0) || decide (14 < op.toNat) then stall s
    else .next (s.presentHome (.remote q.dev) q.pa op.toNat (decide (q.len = 8)) q.fcsr (w64 (ofBytes (q.data.take q.len))) (w64 (q.cmp.toNat % 2 ^ (8 * q.len))))

/-! ## Atomics of F, the host and other devices (R273, R274) -/

/-- Whether one place in the order of presentation comes before another. -/
def placeBefore (a b : Nat × Nat) : Bool := decide (a.1 < b.1) || (decide (a.1 = b.1) && decide (a.2 < b.2))

/-- Whether an atomic of F, the host or another device may be applied (R273): six cycles after its presentation or later, as the next of its
word, with its home free in this cycle. -/
def State.homeDue (s : State) (r : HomeAmo) : Bool :=
  !r.applied && decide (r.pres.1 + 6 ≤ s.ccount) &&
  (s.pendingAmos.all fun y => match y.2.pres with
    | none => true
    | some z => !(r.tgt.meets 1 y.2.tgt) || placeBefore r.pres z) &&
  (s.amoq.all fun y => y.applied || decide (y = r) || !(r.tgt.meets 1 y.tgt) || placeBefore r.pres y.pres) &&
  (match r.tgt.homeNo with | some h => decide (Tab.get 0 s.homeAt h ≠ s.ccount + 1) | none => true)

/-- An atomic that has been applied ends with the old value (R272, R274, R404, R407): F's return form goes on to its next word. -/
def State.homeEnds (s : State) (r : HomeAmo) (old : Nat) (fl : Flags) : State :=
  match r.who with
  | .firmware n (some d) => s.waitEnds n .f d (w64 old) fl
  | .firmware _ none => s
  | .host => s.answer (.data (toBytes (if r.dbl then 8 else 4) old))
  | .remote dev => s.linkAnswer dev (toBytes (if r.dbl then 8 else 4) old)

/-- An atomic that meets a fault at its home (R273, R340, R404): F's return form raises it precisely, its no-return form leaves a fault-address
entry as a store does; the host's ends with Completer Abort, another device's with an answer that carries no data. -/
def State.homeFails (s : State) (r : HomeAmo) (code : Nat) (v : Word) : State :=
  match r.who with
  | .firmware n (some _) =>
    let q := (s.core n).f
    s.takeTrap n .f code v (causeWord q.off q.mpos false 0 code) 0
  | .firmware _ none => match r.tgt with | .dev pa => s.faultAddr 3 pa | _ => s
  | .host => s.answer .abort
  | .remote dev => s.linkAnswer dev []

/-- The application of the `i`-th atomic of F, the host and other devices at its home (R273). -/
def applyHome (i : Nat) (s : State) : Out :=
  match s.amoq[i]? with
  | none => stall s
  | some r =>
    if !s.homeDue r then stall s
    else
      let s1 : State := { s.served r.tgt with amoq := s.amoq.set i { r with applied := true } }
      match (amoAt dispWriter r.tgt r.va r.op (if r.dbl then 64 else 32) r.fcsr r.opnd.toNat r.cmp.toNat).run s1 with
      | (.ok x, t) => .next (t.homeEnds r x.1 x.2)
      | (.error (.wait _), _) => stall s
      | (.error (.fault code v), t) | (.error (.late code v), t) => .next ((restore s1 t).homeFails r code v)

/-! ## The ends of this device's requests (R405, R407, R408) -/

/-- K's load of host-tier or remote memory ends with its data (R176, R264, R405, R407): each byte from K's latest store that was forwarding it
when the load was sent or that a group holds, else as received. -/
def State.loadEnds (s : State) (r : FarReq) (d : BitVec 5) (size : Nat) (signed : Bool) (va : Nat) (data : List Byte) : State :=
  let c := s.core r.core
  let fw := c.liveFwd r.since
  let bytes := (List.range size).map fun i =>
    match fwdByte fw (va + i), groupByte c.group.lines (va + i) with
    | some f, some g => if g.1 < f.1 then f.2 else g.2
    | some f, none => f.2
    | none, some g => g.2
    | none, none => data[i]?.getD 0
  s.kEnds r.core d (loadValue bytes signed) 0

/-- The requests under way without one. -/
def State.dropFar (s : State) (r : FarReq) : State := { s with far := s.far.erase r }

/-- A request under way ends, its bytes or its failure kept for the word that waits for them. -/
def State.keepFar (s : State) (k : Nat) (r : FarReq) (got : Option (List Byte)) : State :=
  { s with far := s.far.set k { r with got := got, failed := got.isNone } }

/-- The store `seq` of a core's K has been performed over a link, or counts as performed (R405, R407, R408): a cut unit's too (R343). -/
def State.storeEnds (s : State) (r : FarReq) (seq : Nat) : State :=
  let done := fun (t : Store) => if t.seq = seq then { t with doneAt := some s.ccount } else t
  if r.agent = 11 then
    { s with orphans := s.orphans.map fun o => match o.req with
        | .inl t => if o.core = r.core then { o with req := .inl (done t) } else o
        | .inr _ => o }
  else s.modCore r.core fun c => { c with fwd := c.fwd.map done }

/-- The atomic of K, or of a cut unit, that a request carries. -/
def State.farAmo (s : State) (r : FarReq) (id : Nat) : Option AmoReq :=
  if r.agent = 11 then s.orphans.findSome? fun o => match o.req with
    | .inr a => if o.core = r.core ∧ a.id = id then some a else none
    | .inl _ => none
  else (s.core r.core).amos.find? fun a => a.id = id

/-- An atomic to another device has ended: it leaves the queue of its K, or the requests of the cut units. -/
def State.dropAmo (s : State) (r : FarReq) (id : Nat) : State :=
  if r.agent = 11 then
    { s with orphans := s.orphans.filter fun o => match o.req with | .inr a => !(decide (o.core = r.core) && decide (a.id = id)) | .inl _ => true }
  else s.modCore r.core fun c => { c with amos := c.amos.filter fun a => a.id ≠ id }

/-- An atomic to another device ends with the old value: a return form's K receives it (R272, R273). -/
def State.amoEnds (s : State) (r : FarReq) (id : Nat) (data : List Byte) : State :=
  match s.farAmo r id with
  | none => s
  | some a =>
    let bits := if a.dbl then 64 else 32
    let old := ofBytes data % 2 ^ bits
    (s.dropAmo r id).amoReturn r.core a (w64 old) (amoValue a.op bits a.fcsr old a.opnd.toNat a.cmp.toNat).2

/-- K of a running or cut unit takes the failure of a write that has retired at a later word boundary (R127, R377, R408; log 36). -/
def State.farLate (s : State) (r : FarReq) (code : Nat) : State :=
  if r.agent = 11 then
    match s.orphans.find? fun o => decide (o.core = r.core) && decide (o.seq = r.id) with
    | some o => s.lateSaved o r.src code r.va
    | none => s
  else s.lateFault r.core r.src code r.va

/-- A write over a link of another agent than K fails (R408): a transfer of L, S or the attention sequencer raises ECC_UNCORRECTABLE at its
retirement, a request of the collective engine ends with ERR 1 (R279); the rest goes on (log 33). -/
def State.writeFails (s : State) (r : FarReq) : State :=
  let at_ := fun (q : Ctx) => s.modCore r.core fun c => c.modFlight q r.id fun f => { f with failed := some (0x0F, w64 r.va) }
  if r.agent = 1 then at_ .l
  else if r.agent = 3 then at_ .s
  else if r.agent = 4 then at_ .f
  else if r.agent = 5 then s.modCore r.core fun c => { c with coll := c.coll.map fun x => if x.addr = r.id then { x with err := 1 } else x }
  else s

/-- The `k`-th request under way ends with its data (R405, R407); a read's or an atomic's answer without data ends it as failed (log 33). -/
def State.farEnds (s : State) (k : Nat) (r : FarReq) (data : List Byte) : State :=
  match r.kind with
  | .load => match (s.core r.core).kWait with
    | some (.load d size signed _ va) => (s.dropFar r).loadEnds r d size signed va data
    | _ => s.dropFar r
  | .read => s.keepFar k r (some data)
  | .write _ | .back => s.dropFar r
  | .store seq _ => (s.dropFar r).storeEnds r seq
  | .amo id _ => (s.dropFar r).amoEnds r id data

/-- The `k`-th request under way fails with a cause (R405, R408): precisely for K's loads and return forms, as the word's own for a read; a
write is then performed or not. -/
def State.farFails (s : State) (k : Nat) (r : FarReq) (code : Nat) : State :=
  match r.kind with
  | .load => match (s.core r.core).kWait with
    | some (.load _ _ _ _ va) => (s.dropFar r).waitFault r.core code (w64 va)
    | _ => s.dropFar r
  | .read => s.keepFar k r none
  | .write _ => (s.dropFar r).writeFails r
  | .back => s.dropFar r
  | .store seq _ => ((s.farLate r code).dropFar r).storeEnds r seq
  | .amo id _ => match s.farAmo r id with
    | some a => if a.ret.isSome then ((s.dropFar r).dropAmo r id).waitFault r.core code (w64 a.va) else ((s.farLate r code).dropFar r).dropAmo r id
    | none => s.dropFar r

/-- The `k`-th request under way, where it has not ended and `p` holds of its target. -/
def State.farAt (s : State) (k : Nat) (p : Target → Bool) : Option FarReq :=
  match s.far[k]? with
  | some r => if p r.tgt && r.got.isNone && !r.failed then some r else none
  | none => none

/-- Whether a request asks for data: without them its answer tells of an error. -/
def FarReq.wantsData (r : FarReq) : Bool := match r.kind with
  | .load | .read | .amo _ _ => true
  | _ => false

/-- `HOST_TIER_COMPLETION` (R405): the data of the `k`-th request under way, or of the read-back that performs a write; an error of a read raises
TRANSLATION, a read-back performs its write all the same (log 33). -/
def execHostTierCompletion (k : Nat) (ok : Bool) (data : List Byte) (s : State) : Out :=
  match s.farAt k Target.isHost with
  | none => stall s
  | some r => .next (if ok || !r.wantsData then s.farEnds k r data else s.farFails k r 0x05)

/-- `REMOTE_RESPONSE` (R273, R402, R407): the answer to the `k`-th request under way; one without the data it asks for ends it as failed (log
33). -/
def execRemoteResponse (k : Nat) (data : List Byte) (s : State) : Out :=
  if !s.dev.zen then stall s else
  match s.farAt k Target.isRemote with
  | none => stall s
  | some r => .next (if r.wantsData && data.isEmpty then s.farFails k r 0x0F else s.farEnds k r data)

/-- `REMOTE_TIMEOUT` (R402, R408): the `k`-th request under way, unanswered for 2^24 cycles, is sent once more while the ports carry traffic; the
second time it raises ECC_UNCORRECTABLE: precisely for K's loads and return forms, at its retirement for a transfer; for a store or a no-return
atomic, which has retired, K takes it late at a word boundary, named by the word's place (log 36). -/
def execRemoteTimeout (k : Nat) (s : State) : Out :=
  match s.farAt k Target.isRemote with
  | none => stall s
  | some r =>
    if s.ccount < r.since + 2 ^ 24 then stall s
    else if r.retried then .next (s.farFails k r 0x0F)
    else if s.dev.zen then .next { r.send s with far := s.far.set k { r with since := s.ccount, retried := true } }
    else stall s

/-- `ZUORE_PORT_UP` (R402). -/
def execZuorePortUp (p : BitVec 4) (s : State) : Out := .next (s.modDev fun d => { d with zup := putBits d.zup p.toNat 1 1 })
/-- `ZUORE_PORT_DOWN` (R402). -/
def execZuorePortDown (p : BitVec 4) (s : State) : Out := .next (s.modDev fun d => { d with zup := putBits d.zup p.toNat 1 0 })

end Sys2Proof.Machine
end

