-- ==== Sys2Proof/Machine/Dispatch.lean ====
section
/-! DEFINITION. The meaning of every instruction and step, by one direct call each. -/
namespace Sys2Proof.Machine

/-- What an instruction, word or step does in a state (R16, R80): a next state, or a named stop. -/
def exec (i : Instr) (s : State) : Host.Outcome State Fault Refusal :=
  match i with
  | .nop => Sys2Proof.Machine.execNop s
  | .add d a b => Sys2Proof.Machine.execAdd d a b s
  | .sub d a b => Sys2Proof.Machine.execSub d a b s
  | .and d a b => Sys2Proof.Machine.execAnd d a b s
  | .or d a b => Sys2Proof.Machine.execOr d a b s
  | .xor d a b => Sys2Proof.Machine.execXor d a b s
  | .shl d a b => Sys2Proof.Machine.execShl d a b s
  | .shr d a b => Sys2Proof.Machine.execShr d a b s
  | .sra d a b => Sys2Proof.Machine.execSra d a b s
  | .slt d a b => Sys2Proof.Machine.execSlt d a b s
  | .sltn d a b => Sys2Proof.Machine.execSltn d a b s
  | .addi d a imm => Sys2Proof.Machine.execAddi d a imm s
  | .andi d a imm => Sys2Proof.Machine.execAndi d a imm s
  | .ori d a imm => Sys2Proof.Machine.execOri d a imm s
  | .xori d a imm => Sys2Proof.Machine.execXori d a imm s
  | .shli d a sh => Sys2Proof.Machine.execShli d a sh s
  | .shri d a sh => Sys2Proof.Machine.execShri d a sh s
  | .srai d a sh => Sys2Proof.Machine.execSrai d a sh s
  | .lui d imm => Sys2Proof.Machine.execLui d imm s
  | .beq d a imm => Sys2Proof.Machine.execBeq d a imm s
  | .bne d a imm => Sys2Proof.Machine.execBne d a imm s
  | .blt d a imm => Sys2Proof.Machine.execBlt d a imm s
  | .bge d a imm => Sys2Proof.Machine.execBge d a imm s
  | .bltn d a imm => Sys2Proof.Machine.execBltn d a imm s
  | .bgen d a imm => Sys2Proof.Machine.execBgen d a imm s
  | .jal d imm => Sys2Proof.Machine.execJal d imm s
  | .jr d a => Sys2Proof.Machine.execJr d a s
  | .loop a n => Sys2Proof.Machine.execLoop a n s
  | .qpush q a => Sys2Proof.Machine.execQpush q a s
  | .qpop d q => Sys2Proof.Machine.execQpop d q s
  | .tkpost t => Sys2Proof.Machine.execTkpost t s
  | .tkwait t => Sys2Proof.Machine.execTkwait t s
  | .tkmask p w => Sys2Proof.Machine.execTkmask p w s
  | .halt => Sys2Proof.Machine.execHalt s
  | .mul d a b w => Sys2Proof.Machine.execMul d a b w s
  | .mulh d a b w => Sys2Proof.Machine.execMulh d a b w s
  | .mulhn d a b w => Sys2Proof.Machine.execMulhn d a b w s
  | .div d a b w => Sys2Proof.Machine.execDiv d a b w s
  | .divn d a b w => Sys2Proof.Machine.execDivn d a b w s
  | .rem d a b w => Sys2Proof.Machine.execRem d a b w s
  | .remn d a b w => Sys2Proof.Machine.execRemn d a b w s
  | .min d a b w => Sys2Proof.Machine.execMin d a b w s
  | .max d a b w => Sys2Proof.Machine.execMax d a b w s
  | .minn d a b w => Sys2Proof.Machine.execMinn d a b w s
  | .maxn d a b w => Sys2Proof.Machine.execMaxn d a b w s
  | .clz d a w => Sys2Proof.Machine.execClz d a w s
  | .ctz d a w => Sys2Proof.Machine.execCtz d a w s
  | .popc d a w => Sys2Proof.Machine.execPopc d a w s
  | .sel d a b p w => Sys2Proof.Machine.execSel d a b p w s
  | .cmp d a b n c w => Sys2Proof.Machine.execCmp d a b n c w s
  | .pand d a b => Sys2Proof.Machine.execPand d a b s
  | .por d a b => Sys2Proof.Machine.execPor d a b s
  | .pnot d a => Sys2Proof.Machine.execPnot d a s
  | .lea d a b sh => Sys2Proof.Machine.execLea d a b sh s
  | .bfx d a b w => Sys2Proof.Machine.execBfx d a b w s
  | .bfi d a b w => Sys2Proof.Machine.execBfi d a b w s
  | .ldB d a imm => Sys2Proof.Machine.execLdB d a imm s
  | .ldH d a imm => Sys2Proof.Machine.execLdH d a imm s
  | .ldW d a imm => Sys2Proof.Machine.execLdW d a imm s
  | .ldD d a imm => Sys2Proof.Machine.execLdD d a imm s
  | .ldsB d a imm => Sys2Proof.Machine.execLdsB d a imm s
  | .ldsH d a imm => Sys2Proof.Machine.execLdsH d a imm s
  | .ldsW d a imm => Sys2Proof.Machine.execLdsW d a imm s
  | .stB d a imm => Sys2Proof.Machine.execStB d a imm s
  | .stH d a imm => Sys2Proof.Machine.execStH d a imm s
  | .stW d a imm => Sys2Proof.Machine.execStW d a imm s
  | .stD d a imm => Sys2Proof.Machine.execStD d a imm s
  | .fadd p d a b r => Sys2Proof.Machine.execFadd p d a b r s
  | .fsub p d a b r => Sys2Proof.Machine.execFsub p d a b r s
  | .fmul p d a b r => Sys2Proof.Machine.execFmul p d a b r s
  | .fdiv p d a b r => Sys2Proof.Machine.execFdiv p d a b r s
  | .fsqrt p d a r => Sys2Proof.Machine.execFsqrt p d a r s
  | .fma p d a b r => Sys2Proof.Machine.execFma p d a b r s
  | .fmin p d a b x => Sys2Proof.Machine.execFmin p d a b x s
  | .fmax p d a b x => Sys2Proof.Machine.execFmax p d a b x s
  | .fminn p d a b x => Sys2Proof.Machine.execFminn p d a b x s
  | .fmaxn p d a b x => Sys2Proof.Machine.execFmaxn p d a b x s
  | .fcmp p d a b c x => Sys2Proof.Machine.execFcmp p d a b c x s
  | .fclass p d a x => Sys2Proof.Machine.execFclass p d a x s
  | .fcvt d a sh t r => Sys2Proof.Machine.execFcvt d a sh t r s
  | .fmvi p d imm => Sys2Proof.Machine.execFmvi p d imm s
  | .fsgn p d a b k x => Sys2Proof.Machine.execFsgn p d a b k x s
  | .call d a imm => Sys2Proof.Machine.execCall d a imm s
  | .ret a => Sys2Proof.Machine.execRet a s
  | .csrr d c => Sys2Proof.Machine.execCsrr d c s
  | .csrw a c => Sys2Proof.Machine.execCsrw a c s
  | .csrs a c => Sys2Proof.Machine.execCsrs a c s
  | .csrc a c => Sys2Proof.Machine.execCsrc a c s
  | .fence sh k => Sys2Proof.Machine.execFence sh k s
  | .trap c => Sys2Proof.Machine.execTrap c s
  | .tret => Sys2Proof.Machine.execTret s
  | .wfi => Sys2Proof.Machine.execWfi s
  | .mcall p q m => Sys2Proof.Machine.execMcall p q m s
  | .brk c => Sys2Proof.Machine.execBrk c s
  | .snap => Sys2Proof.Machine.execSnap s
  | .amoAdd d a b t => Sys2Proof.Machine.execAmoAdd d a b t s
  | .amoAddNr a b t => Sys2Proof.Machine.execAmoAddNr a b t s
  | .amoAnd d a b t => Sys2Proof.Machine.execAmoAnd d a b t s
  | .amoAndNr a b t => Sys2Proof.Machine.execAmoAndNr a b t s
  | .amoOr d a b t => Sys2Proof.Machine.execAmoOr d a b t s
  | .amoOrNr a b t => Sys2Proof.Machine.execAmoOrNr a b t s
  | .amoXor d a b t => Sys2Proof.Machine.execAmoXor d a b t s
  | .amoXorNr a b t => Sys2Proof.Machine.execAmoXorNr a b t s
  | .amoMin d a b t => Sys2Proof.Machine.execAmoMin d a b t s
  | .amoMinNr a b t => Sys2Proof.Machine.execAmoMinNr a b t s
  | .amoMax d a b t => Sys2Proof.Machine.execAmoMax d a b t s
  | .amoMaxNr a b t => Sys2Proof.Machine.execAmoMaxNr a b t s
  | .amoMinn d a b t => Sys2Proof.Machine.execAmoMinn d a b t s
  | .amoMinnNr a b t => Sys2Proof.Machine.execAmoMinnNr a b t s
  | .amoMaxn d a b t => Sys2Proof.Machine.execAmoMaxn d a b t s
  | .amoMaxnNr a b t => Sys2Proof.Machine.execAmoMaxnNr a b t s
  | .amoSwap d a b t => Sys2Proof.Machine.execAmoSwap d a b t s
  | .amoSwapNr a b t => Sys2Proof.Machine.execAmoSwapNr a b t s
  | .amoCas d a b t => Sys2Proof.Machine.execAmoCas d a b t s
  | .amoCasNr d a b t => Sys2Proof.Machine.execAmoCasNr d a b t s
  | .amoInc d a b t => Sys2Proof.Machine.execAmoInc d a b t s
  | .amoIncNr a b t => Sys2Proof.Machine.execAmoIncNr a b t s
  | .amoFadd d a b t => Sys2Proof.Machine.execAmoFadd d a b t s
  | .amoFaddNr a b t => Sys2Proof.Machine.execAmoFaddNr a b t s
  | .amoFmin d a b t => Sys2Proof.Machine.execAmoFmin d a b t s
  | .amoFminNr a b t => Sys2Proof.Machine.execAmoFminNr a b t s
  | .amoFmax d a b t => Sys2Proof.Machine.execAmoFmax d a b t s
  | .amoFmaxNr a b t => Sys2Proof.Machine.execAmoFmaxNr a b t s
  | .grpOpen => Sys2Proof.Machine.execGrpOpen s
  | .grpCommit d => Sys2Proof.Machine.execGrpCommit d s
  | .grpAbort d => Sys2Proof.Machine.execGrpAbort d s
  | .grpStat d => Sys2Proof.Machine.execGrpStat d s
  | .spawn a m => Sys2Proof.Machine.execSpawn a m s
  | .texit a m => Sys2Proof.Machine.execTexit a m s
  | .cntAdd a b => Sys2Proof.Machine.execCntAdd a b s
  | .cntWait d a b => Sys2Proof.Machine.execCntWait d a b s
  | .cancel a l => Sys2Proof.Machine.execCancel a l s
  | .barArrive b => Sys2Proof.Machine.execBarArrive b s
  | .barWait d b => Sys2Proof.Machine.execBarWait d b s
  | .keyq d a => Sys2Proof.Machine.execKeyq d a s
  | .rgSet a b n => Sys2Proof.Machine.execRgSet a b n s
  | .rgStat d a sh n => Sys2Proof.Machine.execRgStat d a sh n s
  | .rgReset n => Sys2Proof.Machine.execRgReset n s
  | .symAlloc d a => Sys2Proof.Machine.execSymAlloc d a s
  | .symFree a b => Sys2Proof.Machine.execSymFree a b s
  | .symRef d a => Sys2Proof.Machine.execSymRef d a s
  | .symUnref d a => Sys2Proof.Machine.execSymUnref d a s
  | .symStat d a sh => Sys2Proof.Machine.execSymStat d a sh s
  | .condSet a => Sys2Proof.Machine.execCondSet a s
  | .condRun d a b => Sys2Proof.Machine.execCondRun d a b s
  | .afAdd d a b m => Sys2Proof.Machine.execAfAdd d a b m s
  | .kvSlot d a b => Sys2Proof.Machine.execKvSlot d a b s
  | .kvAppend d a b => Sys2Proof.Machine.execKvAppend d a b s
  | .kvEvict d a b => Sys2Proof.Machine.execKvEvict d a b s
  | .kvTrunc d a b => Sys2Proof.Machine.execKvTrunc d a b s
  | .kvShare d a b => Sys2Proof.Machine.execKvShare d a b s
  | .dxCur d a b sh => Sys2Proof.Machine.execDxCur d a b sh s
  | .dxTrunc d a => Sys2Proof.Machine.execDxTrunc d a s
  | .dxFrame d a => Sys2Proof.Machine.execDxFrame d a s
  | .dxEmit d a b => Sys2Proof.Machine.execDxEmit d a b s
  | .dxCkpt d a => Sys2Proof.Machine.execDxCkpt d a s
  | .dxStat d a sh => Sys2Proof.Machine.execDxStat d a sh s
  | .asLoad a b => Sys2Proof.Machine.execAsLoad a b s
  | .asGo a => Sys2Proof.Machine.execAsGo a s
  | .asWait d n => Sys2Proof.Machine.execAsWait d n s
  | .bpSend a => Sys2Proof.Machine.execBpSend a s
  | .bpRecv a => Sys2Proof.Machine.execBpRecv a s
  | .bpWait d a b => Sys2Proof.Machine.execBpWait d a b s
  | .bpCancel a b => Sys2Proof.Machine.execBpCancel a b s
  | .bpStat d a => Sys2Proof.Machine.execBpStat d a s
  | .collRed a => Sys2Proof.Machine.execCollRed a s
  | .vshape imm w p => Sys2Proof.Machine.execVshape imm w p s
  | .vadd d a b w p r => Sys2Proof.Machine.execVadd d a b w p r s
  | .vsub d a b w p r => Sys2Proof.Machine.execVsub d a b w p r s
  | .vmul d a b w p r => Sys2Proof.Machine.execVmul d a b w p r s
  | .vfma d a b w p r => Sys2Proof.Machine.execVfma d a b w p r s
  | .vfms d a b w p r => Sys2Proof.Machine.execVfms d a b w p r s
  | .vdiv d a b w p r => Sys2Proof.Machine.execVdiv d a b w p r s
  | .vsqrt d a w p r => Sys2Proof.Machine.execVsqrt d a w p r s
  | .vrcp d a w p r => Sys2Proof.Machine.execVrcp d a w p r s
  | .vmin d a b w p x => Sys2Proof.Machine.execVmin d a b w p x s
  | .vmax d a b w p x => Sys2Proof.Machine.execVmax d a b w p x s
  | .vminn d a b w p x => Sys2Proof.Machine.execVminn d a b w p x s
  | .vmaxn d a b w p x => Sys2Proof.Machine.execVmaxn d a b w p x s
  | .vabs d a w p x => Sys2Proof.Machine.execVabs d a w p x s
  | .vneg d a w p x => Sys2Proof.Machine.execVneg d a w p x s
  | .vcmp m a b w p c => Sys2Proof.Machine.execVcmp m a b w p c s
  | .vsel d a b w p k => Sys2Proof.Machine.execVsel d a b w p k s
  | .vand d a b w p x => Sys2Proof.Machine.execVand d a b w p x s
  | .vor d a b w p x => Sys2Proof.Machine.execVor d a b w p x s
  | .vxor d a b w p x => Sys2Proof.Machine.execVxor d a b w p x s
  | .vnot d a w p x => Sys2Proof.Machine.execVnot d a w p x s
  | .vshl d a b w p x => Sys2Proof.Machine.execVshl d a b w p x s
  | .vshr d a b w p x => Sys2Proof.Machine.execVshr d a b w p x s
  | .vsra d a b w p x => Sys2Proof.Machine.execVsra d a b w p x s
  | .vcvt d a t w p r => Sys2Proof.Machine.execVcvt d a t w p r s
  | .vscale d a b w p r => Sys2Proof.Machine.execVscale d a b w p r s
  | .vexp2 d a w p r => Sys2Proof.Machine.execVexp2 d a w p r s
  | .vlog2 d a w p r => Sys2Proof.Machine.execVlog2 d a w p r s
  | .vsum d a w p r => Sys2Proof.Machine.execVsum d a w p r s
  | .vmaxr d a w p x => Sys2Proof.Machine.execVmaxr d a w p x s
  | .vperm d a b w p x => Sys2Proof.Machine.execVperm d a b w p x s
  | .vbcast d a w p x => Sys2Proof.Machine.execVbcast d a w p x s
  | .vmov d a w p x => Sys2Proof.Machine.execVmov d a w p x s
  | .vclass d a w p x => Sys2Proof.Machine.execVclass d a w p x s
  | .vpopc d a w p x => Sys2Proof.Machine.execVpopc d a w p x s
  | .vmagsum d a w p r => Sys2Proof.Machine.execVmagsum d a w p r s
  | .vrelax d a b w p x => Sys2Proof.Machine.execVrelax d a b w p x s
  | .vrule d a b w p x => Sys2Proof.Machine.execVrule d a b w p x s
  | .mcfg t c w p k => Sys2Proof.Machine.execMcfg t c w p k s
  | .mzero t w p x => Sys2Proof.Machine.execMzero t w p x s
  | .mtr t sh w p x => Sys2Proof.Machine.execMtr t sh w p x s
  | .mma b n c f sh w p u => Sys2Proof.Machine.execMma b n c f sh w p u s
  | .mmaE b n c f sh w p u => Sys2Proof.Machine.execMmaE b n c f sh w p u s
  | .mmaA a b n c f sh w p u => Sys2Proof.Machine.execMmaA a b n c f sh w p u s
  | .mabs b n c f sh w p u => Sys2Proof.Machine.execMabs b n c f sh w p u s
  | .mabsE b n c f sh w p u => Sys2Proof.Machine.execMabsE b n c f sh w p u s
  | .wld a f w p u => Sys2Proof.Machine.execWld a f w p u s
  | .wstr a f w p u => Sys2Proof.Machine.execWstr a f w p u s
  | .accrd a n c f w p r => Sys2Proof.Machine.execAccrd a n c f w p r s
  | .accrdE a b n c f w p r => Sys2Proof.Machine.execAccrdE a b n c f w p r s
  | .acczr c x w p => Sys2Proof.Machine.execAcczr c x w p s
  | .mwin b n c f e sh w p u => Sys2Proof.Machine.execMwin b n c f e sh w p u s
  | .mdw b n c f e sh w p u => Sys2Proof.Machine.execMdw b n c f e sh w p u s
  | .tld a l t d m w p o => Sys2Proof.Machine.execTld a l t d m w p o s
  | .tst a l t d m w p o => Sys2Proof.Machine.execTst a l t d m w p o s
  | .cpy a l d w p o => Sys2Proof.Machine.execCpy a l d w p o s
  | .gat a l t d m w p o => Sys2Proof.Machine.execGat a l t d m w p o s
  | .sct a l t d m w p o => Sys2Proof.Machine.execSct a l t d m w p o s
  | .win a l t d m w p o => Sys2Proof.Machine.execWin a l t d m w p o s
  | .rclone a l w p => Sys2Proof.Machine.execRclone a l w p s
  | .rinit a l w p => Sys2Proof.Machine.execRinit a l w p s
  | .wfeed a l t d w p => Sys2Proof.Machine.execWfeed a l t d w p s
  | .rgwf l t w p => Sys2Proof.Machine.execRgwf l t w p s
  | .rgwe l t w p => Sys2Proof.Machine.execRgwe l t w p s
  | .rgclaim l t w p => Sys2Proof.Machine.execRgclaim l t w p s
  | .rgpush l t w p => Sys2Proof.Machine.execRgpush l t w p s
  | .rgpop l t w p => Sys2Proof.Machine.execRgpop l t w p s
  | .rgend t w p => Sys2Proof.Machine.execRgend t w p s
  | .tdset a d w p => Sys2Proof.Machine.execTdset a d w p s
  | .asEnd n m => Sys2Proof.Machine.execAsEnd n m s
  | .asAdd n m => Sys2Proof.Machine.execAsAdd n m s
  | .asLoop n m => Sys2Proof.Machine.execAsLoop n m s
  | .asStep n m => Sys2Proof.Machine.execAsStep n m s
  | .asAccrd n m => Sys2Proof.Machine.execAsAccrd n m s
  | .asAcczr n m => Sys2Proof.Machine.execAsAcczr n m s
  | .asWld n m => Sys2Proof.Machine.execAsWld n m s
  | .asTld n m => Sys2Proof.Machine.execAsTld n m s
  | .kvg n m => Sys2Proof.Machine.execKvg n m s
  | .exp n m => Sys2Proof.Machine.execExp n m s
  | .stage n m => Sys2Proof.Machine.execStage n m s
  | .stageLanding n imm => Sys2Proof.Machine.execStageLanding n imm s
  | .submissionNotify v => Sys2Proof.Machine.execSubmissionNotify v s
  | .submit r => Sys2Proof.Machine.execSubmit r s
  | .cancelTask r => Sys2Proof.Machine.execCancelTask r s
  | .cancelGraph r => Sys2Proof.Machine.execCancelGraph r s
  | .cancelPhase r => Sys2Proof.Machine.execCancelPhase r s
  | .cancelJob r => Sys2Proof.Machine.execCancelJob r s
  | .frameNotify v => Sys2Proof.Machine.execFrameNotify v s
  | .preemptNode v => Sys2Proof.Machine.execPreemptNode v s
  | .preemptCut v => Sys2Proof.Machine.execPreemptCut v s
  | .inval len => Sys2Proof.Machine.execInval len s
  | .invalidationComplete => Sys2Proof.Machine.execInvalidationComplete s
  | .replayResume v => Sys2Proof.Machine.execReplayResume v s
  | .replayFail v => Sys2Proof.Machine.execReplayFail v s
  | .swcfgGo m0 => Sys2Proof.Machine.execSwcfgGo m0 s
  | .swcfgReply link => Sys2Proof.Machine.execSwcfgReply link s
  | .jobRecordWrite job d v => Sys2Proof.Machine.execJobRecordWrite job d v s
  | .submissionRingWrite r d v => Sys2Proof.Machine.execSubmissionRingWrite r d v s
  | .translationRecordWrite job v => Sys2Proof.Machine.execTranslationRecordWrite job v s
  | .streamDescriptorWrite t d v => Sys2Proof.Machine.execStreamDescriptorWrite t d v s
  | .debugWindowAccess wr off v => Sys2Proof.Machine.execDebugWindowAccess wr off v s
  | .registerWrite off v => Sys2Proof.Machine.execRegisterWrite off v s
  | .evconsWrite v => Sys2Proof.Machine.execEvconsWrite v s
  | .faqconsWrite v => Sys2Proof.Machine.execFaqconsWrite v s
  | .fqconsWrite d v => Sys2Proof.Machine.execFqconsWrite d v s
  | .fwfpClear d v => Sys2Proof.Machine.execFwfpClear d v s
  | .debugHaltRequest v => Sys2Proof.Machine.execDebugHaltRequest v s
  | .debugHaltRelease v => Sys2Proof.Machine.execDebugHaltRelease v s
  | .debugHaltComplete n => Sys2Proof.Machine.execDebugHaltComplete n s
  | .resetQueue who v => Sys2Proof.Machine.execResetQueue who v s
  | .resetEngine who v => Sys2Proof.Machine.execResetEngine who v s
  | .resetPartition who v => Sys2Proof.Machine.execResetPartition who v s
  | .resetDie who v => Sys2Proof.Machine.execResetDie who v s
  | .resetFunctionLevel => Sys2Proof.Machine.execResetFunctionLevel s
  | .resetDevice => Sys2Proof.Machine.execResetDevice s
  | .resetRungComplete => Sys2Proof.Machine.execResetRungComplete s
  | .firmwareImageVerify image sig place => Sys2Proof.Machine.execFirmwareImageVerify image sig place s
  | .quoteRequest i3c v => Sys2Proof.Machine.execQuoteRequest i3c v s
  | .quoteComplete => Sys2Proof.Machine.execQuoteComplete s
  | .badpageRequest v => Sys2Proof.Machine.execBadpageRequest v s
  | .badpageAnswer => Sys2Proof.Machine.execBadpageAnswer s
  | .bar2Write pa bytes => Sys2Proof.Machine.execBar2Write pa bytes s
  | .bar2Read pa len => Sys2Proof.Machine.execBar2Read pa len s
  | .fetchadd dbl pa v => Sys2Proof.Machine.execFetchadd dbl pa v s
  | .swap dbl pa v => Sys2Proof.Machine.execSwap dbl pa v s
  | .cas dbl pa cmp v => Sys2Proof.Machine.execCas dbl pa cmp v s
  | .cas128 pa => Sys2Proof.Machine.execCas128 pa s
  | .feventPop n => Sys2Proof.Machine.execFeventPop n s
  | .fActivationStart n => Sys2Proof.Machine.execFActivationStart n s
  | .fusedReset => Sys2Proof.Machine.execFusedReset s
  | .keyReservation job task => Sys2Proof.Machine.execKeyReservation job task s
  | .hung n => Sys2Proof.Machine.execHung n s
  | .scheduleMiss n => Sys2Proof.Machine.execScheduleMiss n s
  | .memoryStall site => Sys2Proof.Machine.execMemoryStall site s
  | .selfRefreshEnter site => Sys2Proof.Machine.execSelfRefreshEnter site s
  | .selfRefreshExit site => Sys2Proof.Machine.execSelfRefreshExit site s
  | .capped => Sys2Proof.Machine.execCapped s
  | .remoteRequest q => Sys2Proof.Machine.execRemoteRequest q s
  | .remoteResponse k data => Sys2Proof.Machine.execRemoteResponse k data s
  | .remoteTimeout k => Sys2Proof.Machine.execRemoteTimeout k s
  | .hostTierCompletion k ok data => Sys2Proof.Machine.execHostTierCompletion k ok data s
  | .contributionArrival c => Sys2Proof.Machine.execContributionArrival c s
  | .contributionAdmit imm => Sys2Proof.Machine.execContributionAdmit imm s
  | .collRequestComplete n => Sys2Proof.Machine.execCollRequestComplete n s
  | .planeSend n imm => Sys2Proof.Machine.execPlaneSend n imm s
  | .planeArrival p => Sys2Proof.Machine.execPlaneArrival p s
  | .openReq m => Sys2Proof.Machine.execOpenReq m s
  | .openAnswer n imm child a => Sys2Proof.Machine.execOpenAnswer n imm child a s
  | .openRetry n imm child => Sys2Proof.Machine.execOpenRetry n imm child s
  | .prune m => Sys2Proof.Machine.execPrune m s
  | .vwordRetire n => Sys2Proof.Machine.execVwordRetire n s
  | .matrixStepRetire n => Sys2Proof.Machine.execMatrixStepRetire n s
  | .transferRetire n q => Sys2Proof.Machine.execTransferRetire n q s
  | .ringClaimGrant n r => Sys2Proof.Machine.execRingClaimGrant n r s
  | .colophonMeet n q => Sys2Proof.Machine.execColophonMeet n q s
  | .atomicApply n => Sys2Proof.Machine.execAtomicApply n s
  | .translationWalk n va => Sys2Proof.Machine.execTranslationWalk n va s
  | .sequencerHaltRetire n q => Sys2Proof.Machine.execSequencerHaltRetire n q s
  | .unitHaltRetire n => Sys2Proof.Machine.execUnitHaltRetire n s
  | .poolSubmit => Sys2Proof.Machine.execPoolSubmit s
  | .taskDispatch d => Sys2Proof.Machine.execTaskDispatch d s
  | .unitStart n => Sys2Proof.Machine.execUnitStart n s
  | .quireStart d => Sys2Proof.Machine.execQuireStart d s
  | .cutResume n => Sys2Proof.Machine.execCutResume n s
  | .trapTake n => Sys2Proof.Machine.execTrapTake n s
  | .cutComplete n => Sys2Proof.Machine.execCutComplete n s
  | .snapshotCapture n => Sys2Proof.Machine.execSnapshotCapture n s
  | .unallocatedOpcode w => Sys2Proof.Machine.execUnallocatedOpcode w s
  | .writePerformed n => Sys2Proof.Machine.execWritePerformed n s
  | .mWordRetire n => Sys2Proof.Machine.execMWordRetire n s
  | .zuorePortUp p => Sys2Proof.Machine.execZuorePortUp p s
  | .zuorePortDown p => Sys2Proof.Machine.execZuorePortDown p s
  | .powerLoss => Sys2Proof.Machine.execPowerLoss s
  | .packagePowerLimitWrite watts => Sys2Proof.Machine.execPackagePowerLimitWrite watts s

end Sys2Proof.Machine
end

