-- ==== Sys2Proof/Machine/Moves.lean ====
section
/-! DEFINITION. The moves of the machine: the clock, an issue slot (R81), a microword of the attention sequencer (R371), a write of a BAR0
register by its offset (R401), a failing cell (R173, R340), and what the code stores and caches do by themselves (R338, R439). -/
namespace Sys2Proof.Machine

/-- An issue slot of a context under `ex`: K and F share one slot in a cycle (R81); K first takes a pending trap (R380). -/
def issueSlot (ex : Instr → State → Out) (n : CoreId) (q : Ctx) (s : State) : Out :=
  if q = .k ∨ q = .f then
    let c := s.core n
    if c.slotAt = s.ccount + 1 then stall s
    else if q = .k ∧ s.trapDue n then execTrapTake n s
    else
      let kk : Out := if s.trapDue n then stall { s with issued := false } else issueWith ex execUnallocatedOpcode n .k s
      let ff := issueWith ex execUnallocatedOpcode n .f s
      let win := slotWinner (outIssued kk) (outIssued ff) c
      if win.1 = some q then useSlot n win.2 (if q = .k then kk else ff) else stall s
  else issueWith ex execUnallocatedOpcode n q s

/-- The microword at UPC of a core's attention sequencer (R370); a reserved UOP is ILLEGAL_OPERAND (R371). -/
def microMove (n : CoreId) (s : State) : Out :=
  let u := microFields (s.core n).micro
  if u.1 = 0 then execAsEnd n u.2 s
  else if u.1 = 1 then execAsAdd n u.2 s
  else if u.1 = 2 then execAsLoop n u.2 s
  else if u.1 = 3 then execAsStep n u.2 s
  else if u.1 = 4 then execAsAccrd n u.2 s
  else if u.1 = 5 then execAsAcczr n u.2 s
  else if u.1 = 6 then execAsWld n u.2 s
  else if u.1 = 7 then execAsTld n u.2 s
  else if u.1 = 8 then execKvg n u.2 s
  else if u.1 = 9 then execExp n u.2 s
  else if u.1 = 10 then execStage n u.2 s
  else if s.attIssues n then .next (s.attFail n 0x02 (s.core n).micro)
  else stall s

/-- A code store drops the word of an address, so that the next fetch of it reads memory: of an address written while the units of a
task run, a fetch may return the old word or the new (R439). -/
def State.dropWord (s : State) (n : CoreId) (pc : Nat) : State := s.modCore n fun c => { c with code := Tab.del c.code pc }

/-- The translation caches drop a leaf, so that the next access of its page walks (R338). -/
def State.dropLeaf (s : State) (i : Nat) : State := { s with tcache := s.tcache.eraseIdx i }

/-- Whether a site's step is due in this cycle (R343, R437). -/
def State.sitesDue (s : State) : Bool :=
  (List.range 12).any fun i =>
    let x := s.site i
    x.stallDue s.ccount || x.enters s.dev.critT || x.leaves s.dev.critT s.dev.relT

/-- Whether the cycle cannot end yet: the dispatchers have something to do in it (R294, R296), a stamped step issues or misses (R203), a core's
count of cycles reaches HUNGT (R430), F starts an activation (R433), or a site enters or leaves self-refresh or raises its event (R343). -/
def State.cycleDue (s : State) : Bool :=
  s.dispatchDue || s.sitesDue ||
  s.cores.any fun x => (s.dev.ready && x.2.fDue) || x.2.hungDue s.dev.hungt s.ccount || s.stampDue (BitVec.ofNat 8 x.1)

/-- The clock (R78): the next cycle begins, and the own-slice atomics that are due in it are applied (R273). It waits for what comes about in the
present one; in OFF it does not run (R437). -/
def tickMove (s : State) : Out :=
  if decide (s.dev.power = 3) || s.cycleDue then stall s else .next s.tick.ownAmos.noteOwed

/-- A cell fails (R173, R340): the 64-byte block of device memory `k`, or the slice word numbered from 2^48, holds a single-bit error, or
one of more bits. -/
def cellFail (k : Nat) (double : Bool) (s : State) : Out :=
  if k < devSize / 64 ∨ (2 ^ 48 ≤ k ∧ k < 2 ^ 48 + 2 ^ 26) then
    .next { s with latent := Tab.set 0 s.latent k (if double then 2 else Nat.min 2 (Tab.get 0 s.latent k + 1)) }
  else stall s

/-- A write of a BAR0 register by its offset (R401, R402, R409, R432): of 8 bytes and aligned, else Unsupported Request. -/
def barMove (who : Requester) (off len : Nat) (v : Word) (s : State) : Out :=
  if len ≠ 8 then .next (s.answer .ur) else
  if off % 8 ≠ 0 then execRegisterWrite (BitVec.ofNat 23 off) v s else
  if off = 0x1000 then execSubmissionNotify v s
  else if off = 0x1008 then execFrameNotify v s
  else if off = 0x1010 then (if v.getLsbD 31 then execPreemptCut v s else execPreemptNode v s)
  else if off = 0x1110 then execInval v s
  else if off = 0x1200 then (if v.getLsbD 63 then execReplayFail v s else execReplayResume v s)
  else if off = 0x1300 then execSwcfgGo v s
  else if 0x10000 ≤ off ∧ off < 0x12000 then execJobRecordWrite (BitVec.ofNat 8 ((off - 0x10000) / 32)) (BitVec.ofNat 2 (off / 8)) v s
  else if 0x14000 ≤ off ∧ off < 0x14800 then execSubmissionRingWrite (BitVec.ofNat 6 ((off - 0x14000) / 32)) (BitVec.ofNat 2 (off / 8)) v s
  else if 0x18000 ≤ off ∧ off < 0x18800 then execTranslationRecordWrite (BitVec.ofNat 8 ((off - 0x18000) / 8)) v s
  else if off = 0x30008 then execEvconsWrite v s
  else if off = 0x30018 then execFaqconsWrite v s
  else if 0x30040 ≤ off ∧ off < 0x30060 then execFqconsWrite (BitVec.ofNat 2 ((off - 0x30040) / 8)) v s
  else if 0x30080 ≤ off ∧ off < 0x300A0 then execFwfpClear (BitVec.ofNat 2 ((off - 0x30080) / 8)) v s
  else if off = 0x30100 ∧ bitsOf v 62 2 = 1 then execDebugHaltRequest v s
  else if off = 0x30100 ∧ bitsOf v 62 2 = 2 then execDebugHaltRelease v s
  else if off = 0x30108 then
    (if bitsOf v 60 4 = 1 then execResetQueue who v s else if bitsOf v 60 4 = 2 then execResetEngine who v s
     else if bitsOf v 60 4 = 4 then execResetDie who v s else execResetPartition who v s)
  else if off = 0x30160 then execQuoteRequest false v s
  else if off = 0x30180 then execBadpageRequest v s
  else if 0x100000 ≤ off ∧ off < 0x200000 then execStreamDescriptorWrite (BitVec.ofNat 12 ((off - 0x100000) / 256)) (BitVec.ofNat 5 (off / 8)) v s
  else if 0x400000 ≤ off ∧ off < 0x410000 then
    (match who with
     | .driver => execDebugWindowAccess true (BitVec.ofNat 16 (off - 0x400000)) v s
     | .firmware n => .next (debugAccess { core := n, agent := 0, rank := 3 } true (off - 0x400000) v s))
  else execRegisterWrite (BitVec.ofNat 23 off) v s

end Sys2Proof.Machine
end

