-- ==== Sys2Proof/Machine/Step.lean ====
section
/-! DEFINITION. The step of the machine: the next move of the agenda, or one chosen by timing (log 1), is made. -/
namespace Sys2Proof.Machine

/-- Whether an instruction is a step of the part that timing may start by itself: not a word, and not an effect of the core
clock, a microword fetch or a decode failure. -/
def isEvent : Instr → Bool
  | .asEnd _ _ | .asAdd _ _ | .asLoop _ _ | .asStep _ _ | .asAccrd _ _ | .asAcczr _ _ | .asWld _ _ | .asTld _ _ | .kvg _ _ | .exp _ _
  | .stage _ _ | .unallocatedOpcode _ | .fusedReset | .snapshotCapture _ | .feventPop _ => false
  | i => (encode i).isNone

/-- Whether an event is a request of the host (R404); the host's requests are applied in order, each after an AtomicOp that came before it. -/
def hostRequest : Instr → Bool
  | .submissionNotify _ | .frameNotify _ | .preemptNode _ | .preemptCut _ | .swcfgGo _ | .inval _ | .replayResume _ | .replayFail _ | .jobRecordWrite _ _ _
  | .submissionRingWrite _ _ _ | .translationRecordWrite _ _ | .streamDescriptorWrite _ _ _ | .evconsWrite _ | .faqconsWrite _ | .fqconsWrite _ _
  | .fwfpClear _ _ | .debugHaltRequest _ | .debugHaltRelease _ | .debugWindowAccess _ _ _ | .registerWrite _ _ | .bar2Write _ _ | .bar2Read _ _
  | .fetchadd _ _ _ | .swap _ _ _ | .cas _ _ _ _ | .cas128 _ | .resetQueue .driver _ | .resetEngine .driver _ | .resetPartition .driver _
  | .resetDie .driver _ | .quoteRequest false _ | .badpageRequest _ => true
  | _ => false

/-- An issue slot of a context. -/
def issueMove (n : CoreId) (q : Ctx) (s : State) : Out := issueSlot exec n q s

/-- One move. -/
def makeMove (m : Move) (s : State) : Out :=
  match m with
  | .tick => tickMove s
  | .issue n q => issueMove n q s
  | .micro n => microMove n s
  | .attRetire n => attRetire n s
  | .bar .driver off len v => if s.hostBusy then stall s else barMove .driver off len v s
  | .bar (.firmware n) off len v => barMove (.firmware n) off len v s
  | .barRead off len => if s.hostBusy then stall s else execBarRead off len s
  | .deviceReset => execResetDevice s
  | .dropWord n pc => .next (s.dropWord n pc)
  | .fetchAhead n pc => fetchAhead n pc s
  | .dropLeaf i => .next (s.dropLeaf i)
  | .block n q i => blockMove n q i s
  | .readAhead n q i k => readAhead n q i k s
  | .cellFail k double => cellFail k double s
  | .homeAmo i => applyHome i s
  | .orphan i => performOrphan i s
  | .temperature site t => siteTemperature site t s
  | .setHungt v => setHungt v s
  | .setThresholds crit rel => setThresholds crit rel s
  | .idle => idleMove s
  | .i3cRead off => i3cRead off s
  | .i3cWrite off v => i3cWrite off v s
  | .event i => if isEvent i && !(hostRequest i && s.hostBusy) then exec i s else stall s

/-- One step: the next move of the agenda; with none, the move that timing makes, a free value (log 1). -/
def step (s : State) : Out :=
  match s.agenda with
  | m :: rest => makeMove m { s with agenda := rest }
  | [] => makeMove (Config.freeMove s.free) s.bump

/-- The context that runs a table word: K, C, or L (S for the stores), by the section it is read in. -/
def ctxOfTable (w : BitVec 32) : Ctx :=
  match tableSection w with
  | .kcode => .k
  | .ccode => .c
  | .tcode => match decode .tcode w with
    | some (.tst ..) | some (.sct ..) => .s
    | _ => .l

/-- `s` with a word placed where the next step fetches its instruction: in the code store of core 0 at the pc of the word's
context, a unit resident there, and that context's issue slot the next move (log 5). -/
def State.withFetchWord (s : State) (_nbits w : Nat) : State :=
  let v : BitVec 32 := BitVec.ofNat 32 w
  let q := ctxOfTable v
  let c := s.core 0
  let u : UnitInfo := { job := 0, task := 0, die := 0, slot := 0, arrived := [], texit := none }
  { s.setCore 0 { c with code := Tab.put c.code (c.seq q).pc.toNat v, unit := match c.unit with | some x => some x | none => some u } with
    agenda := [.issue 0 q] }

end Sys2Proof.Machine
end

