-- ==== Sys2Proof/Safety.lean ====
section
/-! DEFINITION. What counts as a safe run, and the terms claims are stated in: what two states have in common, and how a
word ends. -/
namespace Sys2Proof.Machine

/-- A step that neither faults nor is refused. -/
def Safe (s : State) : Prop := ∃ t, step s = .next t

/-! ## What two states have in common -/

/-- Every byte reads as before: device memory, and every slice as it reads in this cycle. -/
def SameBytes (s t : State) : Prop :=
  (∀ pa, t.devBytes pa 1 = s.devBytes pa 1) ∧
  ∀ (m : CoreId) (off : Nat), sliceByte (t.core m) s.ccount off = sliceByte (s.core m) s.ccount off

/-- Nothing outside the executing core has changed, but for the mark that a word issued. -/
def SameOutside (s t : State) : Prop :=
  { t with cores := s.cores, issued := s.issued } = s ∧ ∀ m, m ≠ s.cur.1 → t.core m = s.core m

/-- In the executing core only the executing sequencer, the cycle of the last retirement and the request that R138 wakes K for may have
changed. -/
def SameUnits (s t : State) : Prop :=
  { t.here.setSeq s.cur.2 s.seq with lastRetire := s.here.lastRetire, wake := s.here.wake } = s.here

/-- The executing sequencer keeps its flags, modes, masks, macro requests, stops and what it has acquired: at most registers, the
pc, the loop stack, the macro position and the time of the next issue have changed. -/
def SameStatus (s t : State) : Prop :=
  { t.seq with regs := s.seq.regs, regAt := s.seq.regAt, pc := s.seq.pc, loops := s.seq.loops, mpos := s.seq.mpos,
               nextIssue := s.seq.nextIssue } = s.seq

/-- As SameStatus, but that flags may have been set in `fcsr` (and until when). -/
def SameButFlags (fl : Flags) (s t : State) : Prop :=
  t.seq.fcsr = withFlags s.seq.fcsr fl ∧
  { t.seq with regs := s.seq.regs, regAt := s.seq.regAt, pc := s.seq.pc, loops := s.seq.loops, mpos := s.seq.mpos,
               nextIssue := s.seq.nextIssue, fcsr := s.seq.fcsr, flagAt := s.seq.flagAt } = s.seq

/-- Every register but those listed reads as before. -/
def SameRegs (ds : List (BitVec 5)) (s t : State) : Prop := ∀ r, r ∉ ds → t.reg r = s.reg r

/-- Every predicate but that of a number reads as before. -/
def SamePreds (d : Nat) (s t : State) : Prop := ∀ p, p ≠ d → p < 8 → t.pred p = s.pred p

/-- The frame of a word that writes at most the listed registers: no other register, flag, mode, predicate, trap register, queue,
ring, engine, core, table or byte of memory changes. -/
def RegFrame (ds : List (BitVec 5)) (s t : State) : Prop :=
  SameOutside s t ∧ SameUnits s t ∧ SameStatus s t ∧ SameRegs ds s t ∧ SameBytes s t

/-- The frame of a floating-point word: as RegFrame, and the flags `fl` are set. -/
def FpFrame (fl : Flags) (ds : List (BitVec 5)) (s t : State) : Prop :=
  SameOutside s t ∧ SameUnits s t ∧ SameButFlags fl s t ∧ SameRegs ds s t ∧ SameBytes s t

/-- As SameUnits, but that the divider may be busy. -/
def SameUnitsButDivider (s t : State) : Prop :=
  { t.here.setSeq s.cur.2 s.seq with lastRetire := s.here.lastRetire, wake := s.here.wake, divTill := s.here.divTill } = s.here

/-- As SameUnits, but that predicates may have changed. -/
def SameUnitsButPreds (s t : State) : Prop :=
  { (t.here.setSeq s.cur.2 s.seq).setSup s.cur.2 { t.here.sup s.cur.2 with preds := (s.here.sup s.cur.2).preds } with
    lastRetire := s.here.lastRetire, wake := s.here.wake } = s.here

/-! ## How a word ends -/

/-- Outside loops and macros the next word is the one at the next address (R84, R94). -/
def GoesOn (s t : State) : Prop :=
  t.issued = true ∧ (s.seq.loops = [] → s.seq.mpos = none → t.seq.pc = s.seq.pc + 4)

/-- Register `d` reads `v`, or zero where it is s0 (R110), and is readable from `lat` cycles after the issue (R125). -/
def Holds (d : BitVec 5) (v : Word) (lat : Nat) (s t : State) : Prop :=
  t.reg d = (if d = 0 then 0 else v) ∧ (d ≠ 0 → Tab.get 0 t.seq.regAt d.toNat = s.ccount + lat)

/-- The word completes: `d` holds `v`, control goes on, and the frame of a register word holds. -/
def WritesReg (i : Instr) (s : State) (d : BitVec 5) (v : Word) (lat : Nat) : Prop :=
  ∃ t, exec i s = .next t ∧ Holds d v lat s t ∧ GoesOn s t ∧ RegFrame [d] s t

/-- The word completes: `d` holds `v`, the flags `fl` are set, control goes on, and nothing else changes. -/
def WritesFp (i : Instr) (s : State) (d : BitVec 5) (v : Word) (lat : Nat) (fl : Flags) : Prop :=
  ∃ t, exec i s = .next t ∧ Holds d v lat s t ∧ GoesOn s t ∧ FpFrame fl [d] s t

/-- The word completes: predicate `d` reads `v` (p0 stays 1, R111), and nothing else changes but the flags `fl`. -/
def WritesPred (i : Instr) (s : State) (d : Nat) (v : Bool) (fl : Flags) : Prop :=
  ∃ t, exec i s = .next t ∧ t.pred d = (d == 0 || v) ∧ SamePreds d s t ∧ GoesOn s t ∧
    SameOutside s t ∧ SameUnitsButPreds s t ∧ SameButFlags fl s t ∧ SameRegs [] s t ∧ SameBytes s t

/-- The word completes: control goes to `x`, whose word issues two cycles later (R84), with the loop stack of R94. -/
def JumpsTo (i : Instr) (s : State) (x : Word) (ds : List (BitVec 5)) : Prop :=
  ∃ t, exec i s = .next t ∧ t.issued = true ∧ t.seq.pc = x ∧ t.seq.nextIssue = s.ccount + 2 ∧
    t.seq.loops = loopExit x s.seq.loops ∧ RegFrame ds s t

/-- The word completes, changing only the program counter. -/
def GoesOnOnly (i : Instr) (s : State) : Prop := ∃ t, exec i s = .next t ∧ GoesOn s t ∧ RegFrame [] s t

/-- A word that uses the divider: it completes as a register word and the divider is busy until the result is readable (R125). -/
def DividesInto (i : Instr) (s : State) (d : BitVec 5) (v : Word) (lat : Nat) : Prop :=
  ∃ t, exec i s = .next t ∧ Holds d v lat s t ∧ GoesOn s t ∧ t.here.divTill = s.ccount + lat ∧
    SameOutside s t ∧ SameUnitsButDivider s t ∧ SameStatus s t ∧ SameRegs [d] s t ∧ SameBytes s t

/-- The relation of a `cmp` condition (R56). -/
def condHolds (c : Nat) (x y : Int) : Prop :=
  (c = 0 ∧ x = y) ∨ (c = 1 ∧ x ≠ y) ∨ (c = 2 ∧ x < y) ∨ (c = 3 ∧ x ≥ y) ∨ (c = 4 ∧ x ≤ y) ∨ (c = 5 ∧ x > y)

/-- The word raises a cause with a value, precisely (R17). -/
def Raises (i : Instr) (s : State) (code : Nat) (v : Word) : Prop := exec i s = .next (s.raise code v)

/-- A trap of K or F with a handler has been taken (R378 to R380): the frame, `tsw`, `tepc`, `tcause` and `tval` are written, `hdepth` is
one more, control is at the handler, an open group is suspended, and nothing else of the core has changed. -/
def TrapTaken (s t : State) (code : Nat) (v : Word) : Prop :=
  let q := s.seq
  let u := s.here.sup s.cur.2
  t.here.sup s.cur.2 = { u with
    frames := q.loops :: u.frames, hdepth := u.hdepth + 1, tepc := q.pc, tval := v
    tsw := BitVec.ofNat 64 (macBits q.mpos * 2 ^ 8 + q.loops.length)
    tcause := BitVec.ofNat 64 ((q.pc - q.entry).toNat / 4 % 2 ^ 40 * 2 ^ 24 + macBits q.mpos * 2 ^ 11 + code) } ∧
  t.seq = { q with loops := [], mpos := none, pc := u.tvec, nextIssue := s.ccount + 2, halting := false } ∧
  { (t.here.setSeq s.cur.2 q).setSup s.cur.2 u with group := s.here.group } = s.here ∧
  t.here.group = (if s.cur.2 = .f then s.here.group else { s.here.group with susp := s.here.group.isOpen }) ∧
  SameOutside s t ∧ SameRegs [] s t ∧ SameBytes s t

/-- The token queues that W and P of a word of the executing sequencer name (R89). -/
def State.waitOf (s : State) (w : BitVec 1) : List Nat := if w = 1 then waitCodes (ctxNum s.cur.2) s.seq.wmask else []
/-- The token queues a word with P posts to. -/
def State.postOf (s : State) (p : BitVec 1) : List Nat := if p = 1 then postCodes (ctxNum s.cur.2) s.seq.pmask else []

/-- Whether the tokens of W are visible and those of P can be reserved (R80, R89). -/
def State.tokensReady (s : State) (w p : BitVec 1) : Bool :=
  s.here.tokensVisible (s.waitOf w) s.ccount && s.here.tokensFree (s.postOf p) s.ccount

/-- The state once a T-word has popped and reserved its tokens; popping acquires what their posts cover (R260). -/
def State.tookTokens (s : State) (w p : BitVec 1) : State :=
  let t := s.modHere fun c => (c.popTokens (s.waitOf w) s.ccount).reserveTokens (s.postOf p)
  if (s.waitOf w).isEmpty then t else t.acquire (s.here.tokenCover (s.waitOf w) s.ccount)

/-- A word of L or S has issued: it stands last among the words in flight, with what `f` says of it, and control goes on (R179). -/
def Flies (i : Instr) (s : State) (p : BitVec 1) (say : TFlight → Prop) : Prop :=
  ∃ t f, exec i s = .next t ∧ (t.here.tu s.cur.2).flight = (s.here.tu s.cur.2).flight ++ [f] ∧ f.id = s.here.nextId + 1 ∧
    f.post = (if p = 1 then s.seq.pmask else 0) ∧ say f ∧ GoesOn s t ∧ SameRegs [] s t ∧ SameBytes s t

/-- Instruction `i` does not issue: it has no effect in this cycle (R80). -/
def Waits (i : Instr) (s : State) : Prop := exec i s = .next s

/-- How a V-word of C ends (R49, R146, R36): its operand codes and fields are checked, it waits for what it reads and for its queues and tokens;
as it issues, the type and the slices it names are checked (R145, R149), and FP_TRAP or the refusal of its operands comes before its issue, which puts its
results into flight to retire after its latency; a word that names a slice steps `tix` (R143). -/
def VIssues (i : Instr) (s : State) (w p : BitVec 1) (x : VForm) (res : Option VRes) : Prop :=
  let u := s.here.vec
  let codes := x.dec = true ∧ (∀ c ∈ x.srcs, c < 68 ∨ c = 72) ∧ (∀ c, x.dst = some c → c < 64 ∨ (68 ≤ c ∧ c ≤ 72))
  let queues := (∀ c ∈ x.srcs, 64 ≤ c → c < 68 → ((s.here.iqOf (c - 64)).front s.ccount).isSome = true) ∧
    (∀ c, x.dst = some c → 68 ≤ c → c < 72 → (s.here.oqOf (c - 68)).canPush 4 s.ccount = true) ∧ s.tokensReady w p = true
  let names := ∃ c, (c ∈ x.srcs ∨ x.dst = some c) ∧ 32 ≤ c ∧ c < 64
  (¬codes → Raises i s 0x02 (s.word.setWidth 64)) ∧
  (codes → (s.vReady x = false ∨ ¬queues) → Waits i s) ∧
  (codes → s.vReady x = true → queues → (x.ok = false ∨ s.slicesOk x = false) → Raises i s 0x02 (s.word.setWidth 64)) ∧
  (codes → s.vReady x = true → queues → x.ok = true → s.slicesOk x = true →
    (res = none → Raises i s 0x02 (s.word.setWidth 64)) ∧
    ∀ r, res = some r → (r.flags &&& teOf s.seq.fcsr ≠ 0 → Raises i s 0x09 (r.flags.setWidth 64)) ∧
      (r.flags &&& teOf s.seq.fcsr = 0 → ∃ t f, exec i s = .next t ∧ t.here.vec.flight = u.flight ++ [f] ∧ f.due = s.ccount + x.lat - 1 ∧
        f.flags = r.flags ∧ f.eb = r.eb ∧ f.tile = r.tile ∧ f.shape = r.shape ∧ f.clr = r.clr ∧ f.rshp = r.rshp ∧ f.isRule = r.isRule ∧ f.post = (if p = 1 then s.seq.pmask else 0) ∧
        (∀ c o, x.dst = some c → r.out = some o →
          f.dst = (if s.vDst c = .none then [] else [(s.vDst c, o.1, o.2)]) ++ r.dst ∧ (68 ≤ c → c < 72 → f.oq = some (c - 68, o.1 &&& o.2))) ∧
        (x.dst = none → f.dst = r.dst) ∧
        (names → t.here.vec.tix.toNat = u.tix.toNat / 256 * 256 + (u.tix.toNat % 256 + u.tix.toNat / 256) % 256) ∧
        (¬names → t.here.vec.tix = u.tix) ∧ GoesOn s t ∧ SameRegs [] s t ∧ SameBytes s t))

/-! ## Words that run an action -/

/-- An action ends with a value and leaves a state. -/
def Ends {α : Type} (m : Act α) (s : State) (v : α) (u : State) : Prop := m s = (.ok v, u)

/-! ## Events of the device -/

/-- How an event of the device begins: the accesses are the device's own. -/
def State.asDevice (s : State) : State := { s with reader := deviceAgent }

/-- The event takes place and leaves `u`, where the device has no more use for what it has read over links. -/
def Becomes (i : Instr) (s u : State) : Prop := exec i s = .next { u.dropReads deviceAgent with reader := s.reader }

/-! ## Bytes moved by the copy sides -/

/-- The byte at a home as it reads in cycle `c` (R174). -/
def State.homeByte (s : State) (c : Nat) : Target → Byte
  | .slice m o => sliceByte (s.core m) c o
  | .dev pa => Tab.get Memory.unlisted s.mem pa
  | _ => 0

/-- The next byte of a home. -/
def Target.next : Target → Target
  | .slice m o => .slice m (o + 1)
  | .dev pa => .dev (pa + 1)
  | x => x

/-- An access of a core's job goes to a slice or to device memory with no walk: its leaf is cached (R338). -/
def State.direct (s : State) (n : CoreId) (acc : Access) (a : Nat) (t : Target) : Prop :=
  s.translate n.toNat (s.jobOf n) a acc = .ok t ∧
  ((∃ m o, t = .slice m o) ∨ ((∃ pa, t = .dev pa) ∧ (s.cachedAt n.toNat (s.jobOf n) a).any (fun c => c.entry.getLsbD 1) = true))

/-- Nothing stands in the way of the accesses of a copy side: no locked word, site in self-refresh, error, frozen slice, watchpoint or
stale-read check, and no slice has a write of this cycle or of the copy side's own that is not yet readable. -/
def State.plain (s : State) (n : CoreId) (q : Ctx) : Prop :=
  (∀ t len, s.locked t len = false) ∧ (∀ pa len, s.siteHeld pa len = false) ∧ (∀ b, Tab.get false s.poison b = false) ∧
  (∀ b, Tab.get 0 s.latent b = 0) ∧ (∀ m, (s.core m).frozen = false) ∧ (∀ a len w, (s.core n).watchHit a len w = none) ∧
  (s.core n).snapctl.getLsbD 1 = false ∧ ((s.core n).tu q).wrTill ≤ s.ccount ∧ ∀ m, ∀ w ∈ (s.core m).recent, w.cyc < s.ccount

/-- Bytes are stored in order at addresses that lead where `at_` says: each byte of a slice or of device memory is the last one stored there,
every other as before, once the exposed latency has passed (R174). -/
def Stores (s t : State) (at_ : Nat → Target) (out : List (Nat × Byte)) : Prop :=
  ∀ x : Target, ((∃ m o, x = .slice m o) ∨ ∃ pa, x = .dev pa) →
    t.homeByte (s.ccount + 6) x = (match out.reverse.find? fun y => decide (at_ y.1 = x) with
      | some y => y.2
      | none => s.homeByte (s.ccount + 6) x)

/-- The reads of the walk that an access of the executing context makes go through, with nothing recorded; F makes none (R336, R432). -/
def State.walks (s : State) (va : Nat) : Prop := s.cur.2 = .f ∨ Ends (walkReads s.cur.1.toNat (s.jobOf s.cur.1) va) s () s

/-- The word completes once its effects have left `u`: `d` holds `v`, control goes on, and beside that everything is as in `u`, but
for what the sequencer has acquired. -/
def FinishesIn (i : Instr) (s u : State) (d : BitVec 5) (v : Word) : Prop :=
  ∃ t, exec i s = .next t ∧ Holds d v 1 u t ∧ GoesOn u t ∧ SameOutside u t ∧ SameUnits u t ∧ SameRegs [d] u t ∧ SameBytes u t

end Sys2Proof.Machine
end

