-- ==== Sys2Proof/Certificates/Slice0/Obligations.lean ====
section
/-! DEFINITION. The statements about the model, each after the rules of the manual it formalises. -/
open Sys2Proof Sys2Proof.Machine

/-! ## Scalar words -/

/-- R91, R92, R110, R125: the register words of every context write their result, and nothing else but the pc. -/
def Obligations.ScalarWordsWriteTheirResult : Prop :=
  (∀ (s : State) (d a b : BitVec 5) (i : BitVec 13) (h : BitVec 6), s.readyFor [a, b] = true →
    WritesReg (.add d a b) s d (s.reg a + s.reg b) 1 ∧
    WritesReg (.sub d a b) s d (s.reg a - s.reg b) 1 ∧
    WritesReg (.and d a b) s d (s.reg a &&& s.reg b) 1 ∧
    WritesReg (.or d a b) s d (s.reg a ||| s.reg b) 1 ∧
    WritesReg (.xor d a b) s d (s.reg a ^^^ s.reg b) 1 ∧
    WritesReg (.shl d a b) s d (s.reg a <<< ((s.reg b).toNat % 64)) 1 ∧
    WritesReg (.shr d a b) s d (s.reg a >>> ((s.reg b).toNat % 64)) 1 ∧
    WritesReg (.sra d a b) s d ((s.reg a).sshiftRight ((s.reg b).toNat % 64)) 1 ∧
    WritesReg (.slt d a b) s d (if (s.reg a).toInt < (s.reg b).toInt then 1 else 0) 1 ∧
    WritesReg (.sltn d a b) s d (if (s.reg a).toNat < (s.reg b).toNat then 1 else 0) 1 ∧
    WritesReg (.addi d a i) s d (s.reg a + BitVec.ofInt 64 i.toInt) 1 ∧
    WritesReg (.andi d a i) s d (s.reg a &&& BitVec.ofInt 64 i.toInt) 1 ∧
    WritesReg (.ori d a i) s d (s.reg a ||| BitVec.ofInt 64 i.toInt) 1 ∧
    WritesReg (.xori d a i) s d (s.reg a ^^^ BitVec.ofInt 64 i.toInt) 1 ∧
    WritesReg (.shli d a h) s d (s.reg a <<< h.toNat) 1 ∧
    WritesReg (.shri d a h) s d (s.reg a >>> h.toNat) 1 ∧
    WritesReg (.srai d a h) s d ((s.reg a).sshiftRight h.toNat) 1 ∧
    WritesReg (.lui d i) s d (BitVec.ofNat 64 (i.toNat * 2 ^ 13)) 1) ∧
  (∀ c : Section, decode c 0xE1186400 = some (.sub 6 3 4) ∧ decode c 0xE594BFFF = some (.addi 5 5 0x1FFF) ∧
    decode c 0xE79CE003 = some (.shli 7 7 3) ∧ decode c 0xE9240040 = some (.lui 9 0x40))

/-- R119, R120, R121, R122, R124: the integer words of K at the width of their code; `w` names 8, 16, 32 or 64 bits.
R120, R125: the dividing words, with their fixed results for a zero divisor; they wait while the divider is busy. -/
def Obligations.IntegerWordsWriteTheirResult : Prop :=
  (
  (∀ (s : State) (d a b : BitVec 5) (w : BitVec 2), s.readyFor [d, a, b] = true →
    let k := 8 * 2 ^ w.toNat
    let sa := sextNat (s.reg a).toNat k
    let sb := sextNat (s.reg b).toNat k
    let na := (s.reg a).toNat % 2 ^ k
    let nb := (s.reg b).toNat % 2 ^ k
    let pos := (s.reg b).toNat % 64
    let len := Nat.min ((s.reg b).toNat / 256 % 128) 64
    WritesReg (.mul d a b w) s d (ws k (sa * sb)) 3 ∧
    WritesReg (.mulh d a b w) s d (ws k ((sa * sb).fdiv (2 ^ k))) 3 ∧
    WritesReg (.mulhn d a b w) s d (wn k (na * nb / 2 ^ k)) 3 ∧
    WritesReg (.min d a b w) s d (ws k (Min.min sa sb)) 1 ∧
    WritesReg (.max d a b w) s d (ws k (Max.max sa sb)) 1 ∧
    WritesReg (.minn d a b w) s d (wn k (Nat.min na nb)) 1 ∧
    WritesReg (.maxn d a b w) s d (wn k (Nat.max na nb)) 1 ∧
    WritesReg (.clz d a w) s d (wn k (clz k na)) 1 ∧
    WritesReg (.ctz d a w) s d (wn k (ctz k na)) 1 ∧
    WritesReg (.popc d a w) s d (wn k (popcount k na)) 1 ∧
    (∀ p : BitVec 4, WritesReg (.sel d a b p w) s d (if s.pred p.toNat then wn k na else wn k nb) 1) ∧
    (∀ h : BitVec 4, h.toNat < 4 → WritesReg (.lea d a b h) s d (s.reg a + s.reg b * BitVec.ofNat 64 (2 ^ h.toNat)) 1) ∧
    WritesReg (.bfx d a b w) s d (wn k (na / 2 ^ pos % 2 ^ len)) 1 ∧
    ∃ v : Word, WritesReg (.bfi d a b w) s d v 1 ∧ ∀ j < 64, v.getLsbD j =
      (decide (j < k) && if pos ≤ j ∧ j < pos + len then (s.reg a).getLsbD (j - pos) else (s.reg d).getLsbD j)) ∧
  (decode .kcode 0x004A6383 = some (.mul 5 6 7 3) ∧ decode .kcode 0x010A6382 = some (.div 5 6 7 2) ∧ decode .kcode 0x030A6003 = some (.clz 5 6 3) ∧
    decode .kcode 0x03CA638F = some (.sel 5 6 7 3 3) ∧ decode .kcode 0x050A638C = some (.lea 5 6 7 3) ∧ decode .kcode 0x054A6383 = some (.bfx 5 6 7 3))
  ) ∧
  (
  ∀ (s : State) (d a b : BitVec 5) (w : BitVec 2), s.readyFor [a, b] = true →
    let k := 8 * 2 ^ w.toNat
    let sa := sextNat (s.reg a).toNat k
    let sb := sextNat (s.reg b).toNat k
    let na := (s.reg a).toNat % 2 ^ k
    let nb := (s.reg b).toNat % 2 ^ k
    let lat := 2 + k / 2
    (s.here.divTill ≤ s.ccount →
      DividesInto (.div d a b w) s d (if sb = 0 then -1 else ws k (sa.tdiv sb)) lat ∧
      DividesInto (.divn d a b w) s d (if nb = 0 then wn k (2 ^ k - 1) else wn k (na / nb)) lat ∧
      DividesInto (.rem d a b w) s d (if sb = 0 then ws k sa else ws k (sa.tmod sb)) lat ∧
      DividesInto (.remn d a b w) s d (if nb = 0 then wn k na else wn k (na % nb)) lat) ∧
    (s.ccount < s.here.divTill →
      Waits (.div d a b w) s ∧ Waits (.divn d a b w) s ∧ Waits (.rem d a b w) s ∧ Waits (.remn d a b w) s)
  )

/-- R56, R111, R123: the predicate words write the predicate named by rd, p0 stays 1; a field that names 8 to 31 is ILLEGAL_OPERAND. -/
def Obligations.PredicateWordsWriteAPredicate : Prop :=
  (∀ (s : State) (d a b : BitVec 5) (n : BitVec 1) (c : BitVec 4) (w : BitVec 2), s.canIssue = true →
    let k := 8 * 2 ^ w.toNat
    (s.readyFor [a, b] = true → d.toNat < 8 → c.toNat < 6 → ∃ v : Bool, WritesPred (.cmp d a b n c w) s d.toNat v 0 ∧
      (v = true ↔ if n = 1 then condHolds c.toNat ((s.reg a).toNat % 2 ^ k : Nat) ((s.reg b).toNat % 2 ^ k : Nat)
        else condHolds c.toNat (sextNat (s.reg a).toNat k) (sextNat (s.reg b).toNat k))) ∧
    (d.toNat < 8 → a.toNat < 8 → b.toNat < 8 →
      WritesPred (.pand d a b) s d.toNat (s.pred a.toNat && s.pred b.toNat) 0 ∧
      WritesPred (.por d a b) s d.toNat (s.pred a.toNat || s.pred b.toNat) 0 ∧
      WritesPred (.pnot d a) s d.toNat (!s.pred a.toNat) 0) ∧
    (8 ≤ d.toNat → Raises (.cmp d a b n c w) s 0x02 (s.word.setWidth 64)) ∧
    (8 ≤ d.toNat ∨ 8 ≤ a.toNat ∨ 8 ≤ b.toNat →
      Raises (.pand d a b) s 0x02 (s.word.setWidth 64) ∧ Raises (.por d a b) s 0x02 (s.word.setWidth 64)) ∧
    (8 ≤ d.toNat ∨ 8 ≤ a.toNat → Raises (.pnot d a) s 0x02 (s.word.setWidth 64))) ∧
  (decode .kcode 0x0404530A = some (.cmp 2 5 6 0 2 2) ∧ decode .kcode 0x04461100 = some (.pand 3 1 2))

/-- R93, R94, R84, R109: a taken branch goes to the word offset from its own address, an untaken one on; a transfer inside a macro or
at the end of an active loop entry is ILLEGAL_INSTR.
R134, R59, R109: `call` writes the link and `call` and `ret` transfer; a misaligned target faults and leaves the link, and inside a
macro both are ILLEGAL_INSTR. -/
def Obligations.ControlGoesToItsTarget : Prop :=
  (
  (∀ (s : State) (d a : BitVec 5) (i : BitVec 13) (j : BitVec 18), s.readyFor [d, a] = true →
    let x := s.reg d
    let y := s.reg a
    let dst := s.seq.pc + 4 * BitVec.ofInt 64 i.toInt
    let goes := fun (u : Instr) (p : Prop) => (p → JumpsTo u s dst []) ∧ (¬p → GoesOnOnly u s)
    (s.seq.mpos = none → (∀ e ∈ s.seq.loops, e.stop ≠ s.seq.pc) →
      goes (.beq d a i) (x = y) ∧ goes (.bne d a i) (x ≠ y) ∧
      goes (.blt d a i) (x.toInt < y.toInt) ∧ goes (.bge d a i) (y.toInt ≤ x.toInt) ∧
      goes (.bltn d a i) (x.toNat < y.toNat) ∧ goes (.bgen d a i) (y.toNat ≤ x.toNat) ∧
      (JumpsTo (.jal d j) s (s.seq.pc + 4 * BitVec.ofInt 64 j.toInt) [d] ∧
        ∀ t, exec (.jal d j) s = .next t → t.reg d = if d = 0 then 0 else s.seq.pc + 4) ∧
      (y.toNat % 4 = 0 → JumpsTo (.jr d a) s y [d] ∧ ∀ t, exec (.jr d a) s = .next t → t.reg d = if d = 0 then 0 else s.seq.pc + 4) ∧
      (y.toNat % 4 ≠ 0 → Raises (.jr d a) s 0x04 y)) ∧
    ((s.seq.mpos.isSome ∨ ∃ e ∈ s.seq.loops, e.stop = s.seq.pc) →
      Raises (.beq d a i) s 0x01 (s.word.setWidth 64) ∧ Raises (.bne d a i) s 0x01 (s.word.setWidth 64) ∧
      Raises (.blt d a i) s 0x01 (s.word.setWidth 64) ∧ Raises (.bge d a i) s 0x01 (s.word.setWidth 64) ∧
      Raises (.bltn d a i) s 0x01 (s.word.setWidth 64) ∧ Raises (.bgen d a i) s 0x01 (s.word.setWidth 64) ∧
      Raises (.jal d j) s 0x01 (s.word.setWidth 64) ∧ Raises (.jr d a) s 0x01 (s.word.setWidth 64))) ∧
  (∀ c : Section, decode c 0xEA141FFD = some (.bne 5 0 0x1FFD) ∧ decode c 0xECFC0014 = some (.jal 31 20) ∧ decode c 0xED03E000 = some (.jr 0 31))
  ) ∧
  (
  (∀ (s : State) (d a : BitVec 5) (i : BitVec 12), s.readyFor [a] = true →
    let dst := (if a = 0 then s.seq.pc else s.reg a) + 4 * BitVec.ofInt 64 i.toInt
    let calls := fun (u : Instr) (x : Word) (ds : List (BitVec 5)) =>
      (s.seq.mpos = none → x.toNat % 4 = 0 → JumpsTo u s x ds) ∧
      (s.seq.mpos = none → x.toNat % 4 ≠ 0 → Raises u s 0x04 x) ∧
      (s.seq.mpos.isSome → Raises u s 0x01 (s.word.setWidth 64))
    calls (.call d a i) dst [d] ∧ calls (.ret a) (s.reg a) [] ∧
    (s.seq.mpos = none → dst.toNat % 4 = 0 → ∀ t, exec (.call d a i) s = .next t → t.reg d = if d = 0 then 0 else s.seq.pc + 4)) ∧
  (decode .kcode 0x607E0028 = some (.call 31 0 40) ∧ decode .kcode 0x6081F000 = some (.ret 31))
  )

/-! ## Floating-point, control and system words of K -/

/-- R128, R129, R33, R36, R125: the scalar arithmetic words round once under their mode and FTZ, set the flags raised, and raise FP_TRAP
instead where an enabled flag would be raised. -/
def Obligations.FloatWordsRoundOnceAndSetFlags : Prop :=
  ∀ (s : State) (p : BitVec 1) (d a b : BitVec 5) (r : BitVec 3), s.readyFor [d, a, b] = true →
    let f := fmtP p
    let m := fpMode s r
    let x := fpRead s f a
    let y := fpRead s f b
    let c := fpRead s f d
    let ends := fun (i : Instr) (z : Word × Flags) =>
      (z.2 &&& teOf s.seq.fcsr = 0 → WritesFp i s d z.1 4 z.2) ∧ (z.2 &&& teOf s.seq.fcsr ≠ 0 → Raises i s 0x09 (z.2.setWidth 64))
    let divides := fun (i : Instr) (z : Word × Flags) =>
      (s.here.divTill ≤ s.ccount → z.2 &&& teOf s.seq.fcsr = 0 →
        ∃ t, exec i s = .next t ∧ Holds d z.1 (if p = 1 then 24 else 12) s t ∧ GoesOn s t ∧
          t.here.divTill = s.ccount + (if p = 1 then 24 else 12) ∧
          SameOutside s t ∧ SameUnitsButDivider s t ∧ SameButFlags z.2 s t ∧ SameRegs [d] s t ∧ SameBytes s t) ∧
      (s.here.divTill ≤ s.ccount → z.2 &&& teOf s.seq.fcsr ≠ 0 → Raises i s 0x09 (z.2.setWidth 64)) ∧
      (s.ccount < s.here.divTill → Waits i s)
    ends (.fadd p d a b r) (fpResult s f m (Fv.add m x.1 y.1) (x.2 ||| y.2)) ∧
    ends (.fsub p d a b r) (fpResult s f m (Fv.add m x.1 y.1.negate) (x.2 ||| y.2)) ∧
    ends (.fmul p d a b r) (fpResult s f m (Fv.mul x.1 y.1) (x.2 ||| y.2)) ∧
    ends (.fma p d a b r) (fpResult s f m (Fv.fma m x.1 y.1 c.1) (x.2 ||| y.2 ||| c.2)) ∧
    divides (.fdiv p d a b r) (fpResult s f m (Fv.div x.1 y.1) (x.2 ||| y.2)) ∧
    divides (.fsqrt p d a r) (fpResult s f m (Fv.sqrt x.1) x.2)

/-- R27, R132: `fcvt` between the float formats, from a float to an integer of 32 or 64 bits, and back, each with one rounding.
R130, R131, R133: the minimum and maximum words, `fcmp`, `fclass`, `fmvi` and `fsgn`. -/
def Obligations.FloatWordsConvertAndSelect : Prop :=
  (
  ∀ (s : State) (d a : BitVec 5) (src dst : BitVec 4) (r : BitVec 3), s.readyFor [a] = true →
    src.toNat < 6 → dst.toNat < 6 →
    let m := fpMode s r
    let ends := fun (z : Word × Flags) =>
      (z.2 &&& teOf s.seq.fcsr = 0 → WritesFp (.fcvt d a src dst r) s d z.1 4 z.2) ∧
      (z.2 &&& teOf s.seq.fcsr ≠ 0 → Raises (.fcvt d a src dst r) s 0x09 (z.2.setWidth 64))
    let x := fpRead s (cvtFmt src) a
    let i := Fv.toInt m (if dst.toNat < 4 then 32 else 64) (dst = 2 ∨ dst = 4) x.1
    (src.toNat < 2 → dst.toNat < 2 → ends (fpResult s (cvtFmt dst) m (x.1, 0) x.2)) ∧
    (src.toNat < 2 → 2 ≤ dst.toNat → ends (BitVec.ofInt 64 i.1, x.2 ||| i.2)) ∧
    (src = 2 → dst.toNat < 2 → ends (fpResult s (cvtFmt dst) m (Fv.ofInteger ((s.reg a).setWidth 32).toInt, 0) 0)) ∧
    (src = 3 → dst.toNat < 2 → ends (fpResult s (cvtFmt dst) m (Fv.ofInteger (((s.reg a).setWidth 32).toNat : Int), 0) 0)) ∧
    (src = 4 → dst.toNat < 2 → ends (fpResult s (cvtFmt dst) m (Fv.ofInteger (s.reg a).toInt, 0) 0)) ∧
    (src = 5 → dst.toNat < 2 → ends (fpResult s (cvtFmt dst) m (Fv.ofInteger ((s.reg a).toNat : Int), 0) 0))
  ) ∧
  (
  ∀ (s : State) (p : BitVec 1) (d a b : BitVec 5) (x : BitVec 3) (k : BitVec 4) (i : BitVec 12), s.readyFor [a, b] = true →
    let f := fmtP p
    let u := fpRead s f a
    let v := fpRead s f b
    let minmax := fun (j : Instr) (isMax num : Bool) =>
      let z := Fv.minmax isMax num u.1 v.1
      let r := BitVec.ofNat 64 (f.round .rne false (if z.1.isNan then .nan false else z.1)).1
      let fl := u.2 ||| v.2 ||| z.2
      (fl &&& teOf s.seq.fcsr = 0 → WritesFp j s d r 1 fl) ∧ (fl &&& teOf s.seq.fcsr ≠ 0 → Raises j s 0x09 (fl.setWidth 64))
    let rel := fpRel k.toNat u.1 v.1
    let cfl := u.2 ||| v.2 ||| rel.2
    let top := f.width - 1
    let sa := (s.reg a).getLsbD top
    let sb := (s.reg b).getLsbD top
    minmax (.fmin p d a b x) false false ∧ minmax (.fmax p d a b x) true false ∧
    minmax (.fminn p d a b x) false true ∧ minmax (.fmaxn p d a b x) true true ∧
    (d.toNat < 8 → cfl &&& teOf s.seq.fcsr = 0 → WritesPred (.fcmp p d a b k x) s d.toNat rel.1 cfl) ∧
    (d.toNat < 8 → cfl &&& teOf s.seq.fcsr ≠ 0 → Raises (.fcmp p d a b k x) s 0x09 (cfl.setWidth 64)) ∧
    (8 ≤ d.toNat → Raises (.fcmp p d a b k x) s 0x02 (s.word.setWidth 64)) ∧
    WritesReg (.fclass p d a x) s d (BitVec.ofNat 64 (f.classOf ((s.reg a).toNat % 2 ^ f.width))) 1 ∧
    WritesReg (.fmvi p d i) s d (BitVec.ofNat 64 (f.round .rne false (Fv.ofInteger i.toInt)).1) 1 ∧
    ∃ w : Word, WritesReg (.fsgn p d a b k x) s d w 1 ∧
      (∀ j < top, w.getLsbD j = (s.reg a).getLsbD j) ∧
      w.getLsbD top = (if k = 0 then sb else if k = 1 then !sb else xor sa sb) ∧ w.toNat < 2 ^ f.width
  )

/-- R94, R53: `loop` pushes its body and count, skips the body for a count of 0, and faults as R94 lists; F has no loops.
R94: after a word that ends the innermost body, its count falls, and control returns to the start while it is not 0. -/
def Obligations.LoopsRunTheirBody : Prop :=
  (
  ∀ (s : State) (a : BitVec 5) (n : BitVec 13), s.readyFor [a] = true →
    let start := s.seq.pc + 4
    let stop := s.seq.pc + 4 * n.setWidth 64
    let fine := s.cur.2 ≠ .f ∧ s.seq.mpos = none ∧ (∀ e ∈ s.seq.loops, e.stop ≠ s.seq.pc)
    let room := n.toNat ≠ 0 ∧ n.toNat ≤ 4095 ∧ s.seq.loops.length ≠ 4 ∧ ∀ e ∈ s.seq.loops.head?, stop.toNat ≤ e.stop.toNat
    (fine → room → s.reg a ≠ 0 → ∃ t, exec (.loop a n) s = .next t ∧ t.issued = true ∧ t.seq.pc = start ∧
      t.seq.loops = { start := start, stop := stop, rem := (s.reg a).toNat } :: s.seq.loops ∧ RegFrame [] s t) ∧
    (fine → room → s.reg a = 0 → ∃ t, exec (.loop a n) s = .next t ∧ t.issued = true ∧ t.seq.pc = stop + 4 ∧
      t.seq.loops = s.seq.loops ∧ RegFrame [] s t) ∧
    (fine → ¬room → Raises (.loop a n) s 0x02 (s.word.setWidth 64)) ∧
    (¬fine → Raises (.loop a n) s 0x01 (s.word.setWidth 64))
  ) ∧
  (
  ∀ (a : Word) (e : LoopEntry) (es : List LoopEntry),
    (e.stop ≠ a → loopNext a (e :: es) = (e :: es, a + 4)) ∧
    (e.stop = a → 1 < e.rem → loopNext a (e :: es) = ({ e with rem := e.rem - 1 } :: es, e.start)) ∧
    (e.stop = a → e.rem ≤ 1 → loopNext a (e :: es) = loopNext a es) ∧
    loopNext a [] = ([], a + 4)
  )

/-- R113, R117, R118: what `csrr` reads of each CSR in K and in F, with `shape` and `tix` as at the start of the cycle; an address without a
CSR of the context is ILLEGAL_OPERAND, and the context's own `fcsr` is waited for.
R113, R117, R118: `csrw`, `csrs` and `csrc` write, set and clear: a CSR of the context's own reads the new value from then on (17
bits of `fcsr`) and no other CSR changes; one of L, C or S takes it at the next cycle; read-only CSRs and reserved values are
ILLEGAL_OPERAND, and `fwshare` is PROTECTION to K. -/
def Obligations.CsrsAreReadAndWritten : Prop :=
  (
  ∀ (s : State) (d : BitVec 5), s.readyFor [] = true → (s.cur.2 = .k ∨ s.cur.2 = .f) →
    let c := s.here
    let u := c.sup s.cur.2
    (s.ccount < s.seq.flagAt → Waits (.csrr d 0x001) s) ∧
    (s.seq.flagAt ≤ s.ccount → WritesReg (.csrr d 0x001) s d (s.seq.fcsr.setWidth 64) 1) ∧
    (∀ x ∈ ([(0x002, c.l.fcsr.setWidth 64), (0x003, c.c.fcsr.setWidth 64), (0x004, c.s.fcsr.setWidth 64), (0x020, c.vec.shape0.setWidth 64),
        (0x021, c.vec.tix0.setWidth 64), (0x030, BitVec.ofNat 64 s.ccount),
        (0x031, BitVec.ofNat 64 (s.dev.dev.toNat * 2 ^ 16 + s.cur.1.toNat)), (0x032, c.prio.setWidth 64), (0x040, u.tvec),
        (0x041, u.tepc), (0x042, u.tsw), (0x043, u.tcause), (0x044, u.tval), (0x045, BitVec.ofNat 64 u.hdepth),
        (0x070, Tab.get 0 c.wpt 0), (0x071, Tab.get 0 c.wpt 1), (0x072, Tab.get 0 c.wpt 2), (0x073, Tab.get 0 c.wpt 3),
        (0x078, c.snapctl.setWidth 64)] : List (BitVec 12 × Word)), WritesReg (.csrr d x.1) s d x.2 1) ∧
    WritesReg (.csrr d 0x060) s d (BitVec.ofNat 64 (c.fused.toNat * 2 ^ 16 + (if c.fpri then 2 ^ 8 else 0) + c.quota.toNat)) 1 ∧
    (s.cur.2 = .k → WritesReg (.csrr d 0x010) s d (c.k.wmask.setWidth 64) 1 ∧ WritesReg (.csrr d 0x011) s d (c.k.pmask.setWidth 64) 1 ∧
      WritesReg (.csrr d 0x012) s d c.mimage 1) ∧
    (s.cur.2 = .f → (c.events = [] → WritesReg (.csrr d 0x061) s d 0 1) ∧
      ∀ e es, c.events = e :: es → WritesReg (.csrr d 0x061) s d
        (e ||| BitVec.ofNat 64 (2 ^ 63 + (es.length + 1) * 2 ^ 56 + c.evDrops * 2 ^ 32)) 1) ∧
    ∀ a : BitVec 12, a.toNat ∉ [0x001, 0x002, 0x003, 0x004, 0x020, 0x021, 0x030, 0x031, 0x032, 0x040, 0x041, 0x042, 0x043, 0x044, 0x045,
        0x060, 0x070, 0x071, 0x072, 0x073, 0x078] → a.toNat ∉ (if s.cur.2 = .k then [0x010, 0x011, 0x012] else [0x061]) →
      Raises (.csrr d a) s 0x02 (s.word.setWidth 64)
  ) ∧
  (
  ∀ (s : State) (r : BitVec 5) (c : BitVec 12) (old : Word), s.readyFor [r] = true → (s.cur.2 = .k ∨ s.cur.2 = .f) →
    (c.toNat = 1 → s.seq.flagAt ≤ s.ccount) → csrRead s c.toNat = some old →
    let v := s.reg r
    let writes := fun (i : Instr) (new : Word) (kind : Nat) =>
      (csrRO c.toNat = true → Raises i s 0x02 (s.word.setWidth 64)) ∧
      (c.toNat ≠ 0x060 → csrRO c.toNat = false → csrOk c.toNat new = false → Raises i s 0x02 (s.word.setWidth 64)) ∧
      (c.toNat ∈ [0x001, 0x010, 0x011, 0x012, 0x040, 0x041, 0x042, 0x043, 0x044, 0x070, 0x071, 0x072, 0x073, 0x078] →
        csrOk c.toNat new = true →
        ∃ t, exec i s = .next t ∧ csrRead t c.toNat = some (if c.toNat = 1 then BitVec.ofNat 64 (new.toNat % 2 ^ 17) else new) ∧
          (∀ x, x ≠ c.toNat → csrRead t x = csrRead s x) ∧ GoesOn s t ∧ SameOutside s t ∧ SameRegs [] s t ∧ SameBytes s t) ∧
      (c.toNat ∈ [0x002, 0x003, 0x004, 0x020, 0x021] → csrOk c.toNat new = true →
        ∃ t, exec i s = .next t ∧ t.here.csrPend = s.here.csrPend ++ [(c.toNat, kind, v)] ∧
          (∀ x, csrRead t x = csrRead s x) ∧ GoesOn s t ∧ SameOutside s t ∧ SameRegs [] s t ∧ SameBytes s t) ∧
      (c.toNat = 0x060 → s.cur.2 = .k → Raises i s 0x06 (s.word.setWidth 64))
    writes (.csrw r c) v 0 ∧ writes (.csrs r c) (old ||| v) 1 ∧ writes (.csrc r c) (old &&& ~~~v) 2
  )

/-! ## Traps -/

/-- R136, R376, R377, R380: `trap` and `brk` take the trap they name in K and F; `trap` with a code that is not allocated is
ILLEGAL_OPERAND. -/
def Obligations.TrapWordsTakeTheTrap : Prop :=
  ∀ (s : State) (c : BitVec 12), s.canIssue = true → (s.cur.2 = .k ∨ s.cur.2 = .f) →
    let u := s.here.sup s.cur.2
    let code := c.toNat % 256
    let halts := s.cur.2 = .k ∧ s.here.snapctl.getLsbD 3 = true
    u.tvec ≠ 0 → u.hdepth < 4 →
      (1 ≤ code → code ≤ 0x13 → ¬(halts ∧ (code = 0x11 ∨ code = 0x12)) →
        ∃ t, exec (.trap c) s = .next t ∧ TrapTaken s t code (BitVec.ofNat 64 (c.toNat / 256))) ∧
      (¬halts → ∃ t, exec (.brk c) s = .next t ∧ TrapTaken s t 0x12 (c.setWidth 64)) ∧
      (code = 0 ∨ 0x13 < code → ∃ t, exec (.trap c) s = .next t ∧ TrapTaken s t 0x02 (s.word.setWidth 64)) ∧
      (halts → ∃ t, exec (.brk c) s = .next t ∧ t.here.debugHalt ≠ .running ∧ t.here.supK.tval = c.setWidth 64 ∧
        t.here.supK.hdepth = u.hdepth ∧ t.seq.pc = s.seq.pc)

/-- R377, R380, R17: any cause that a word of K or F raises precisely is taken at that word, at a depth below 4 and with a handler.
R377, R300: without a handler, or at depth 4, a cause of K is fatal: it is passed to the dispatcher and K issues nothing more.
R49: a word that is no instruction raises ILLEGAL_INSTR with the word. -/
def Obligations.RaisedCausesAreTaken : Prop :=
  (
  ∀ (s : State) (code : Nat) (v : Word), (s.cur.2 = .k ∨ s.cur.2 = .f) → (s.here.sup s.cur.2).tvec ≠ 0 → (s.here.sup s.cur.2).hdepth < 4 →
    code ≠ 0x11 → code ≠ 0x12 → TrapTaken s (s.raise code v) code v
  ) ∧
  (
  ∀ (s : State) (code : Nat) (v : Word), s.cur.2 = .k → (s.here.supK.tvec = 0 ∨ 4 ≤ s.here.supK.hdepth) → code ≠ 0x11 → code ≠ 0x12 →
    let t := s.raise code v
    t.here.fatal = some (code, v) ∧ t.canIssue = false ∧ t.here.supK = s.here.supK ∧ t.seq.pc = s.seq.pc ∧ SameRegs [] s t ∧ SameBytes s t
  ) ∧
  (
  ∀ (s : State) (w : BitVec 32), s.canIssue = true →
    exec (.unallocatedOpcode w) s = .next (({ s with word := w } : State).raise 0x01 (w.setWidth 64))
  )

/-- R381: a cause raised by a word of L, C or S stops that sequencer at its word, and changes nothing else.
R380, R381: K takes the pending fault of L, C or S at a boundary at depth 0: STOP names the sequencer, SEQ and CODE tell the fault. -/
def Obligations.SequencerFaultsReachK : Prop :=
  (
  ∀ (s : State) (code : Nat) (v : Word), (s.cur.2 = .l ∨ s.cur.2 = .c ∨ s.cur.2 = .s) →
    let t := s.raise code v
    t.seq = { s.seq with stop := some { code := code, val := v, off := (s.seq.pc - s.seq.entry).toNat / 4, mac := s.seq.mpos,
                                        late := false, held := none } } ∧
    t.canIssue = false ∧ SameOutside s t ∧ t.here.setSeq s.cur.2 s.seq = s.here ∧ SameBytes s t
  ) ∧
  (
  ∀ (s : State) (n : CoreId) (q : Ctx) (r : StopRec), s.trapDue n = true → (s.core n).nextTrap = some (q, r) →
    (s.core n).late = [] → (s.core n).supK.tvec ≠ 0 → (r.code ≠ 0x11 ∧ r.code ≠ 0x12) → (s.core n).k.loops.length ≤ 4 →
    ∃ t, exec (.trapTake n) s = .next t ∧ (q = .l ∨ q = .c ∨ q = .s) ∧
      (t.core n).k.pc = (s.core n).supK.tvec ∧ (t.core n).k.nextIssue = s.ccount + 2 ∧ (t.core n).k.loops = [] ∧
      (t.core n).supK.tepc = (s.core n).k.pc ∧ (t.core n).supK.tval = r.val ∧ (t.core n).supK.hdepth = 1 ∧
      (t.core n).supK.frames = (s.core n).k.loops :: (s.core n).supK.frames ∧
      (t.core n).supK.tcause = causeWord r.off r.mac r.late (ctxNum q) r.code ∧
      ((t.core n).supK.tsw.toNat / 2 ^ 20 % 8 = 2 ^ (ctxNum q - 1)) ∧
      ((t.core n).seq q).taken = true ∧ (∀ x, (t.core n).k.reg x = (s.core n).k.reg x) ∧
      (∀ m, m ≠ n → t.core m = s.core m) ∧ SameBytes s t
  )

/-- R137, R382: `tret` restores entries 0 to LDEPTH - 1 of the frame (the outermost; the list holds the innermost first), the depth, the pc
and the macro position; SUSP falls at depth 0. K's restarts the sequencers that STOP names, each at its held word, which SKIP discards where
SEQ names its sequencer. The model's reading (log 27): which entries of the frame LDEPTH keeps, that the parameter of the macro word is read again, and
that the entry of the handler after BAD_RETURN rewrites `tsw` and `tcause`.
R137: the checks of `tret` in their order: ILLEGAL_INSTR at depth 0 or in a macro, BAD_RETURN for a bad `tsw`, MISALIGNED for a
misaligned `tepc`; with FATAL the trap is passed on. -/
def Obligations.TretRestoresWhatEntrySaved : Prop :=
  (
  ∀ (s : State), s.canIssue = true → (s.cur.2 = .k ∨ s.cur.2 = .f) →
    let u := s.here.sup s.cur.2
    let saved := u.frames.headD []
    let mac : MacroPos := { idx := u.tsw.toNat / 2 ^ 9 % 64, p := none, word := u.tsw.toNat / 2 ^ 15 % 32, last := false }
    let named := fun (q : Ctx) => s.cur.2 = .k ∧ (q = .l ∨ q = .c ∨ q = .s) ∧ u.tsw.getLsbD (19 + ctxNum q) = true
    let skips := fun (q : Ctx) => u.tsw.getLsbD 25 = true ∧ u.tcause.toNat / 2 ^ 8 % 4 = ctxNum q
    s.seq.mpos = none → u.hdepth ≠ 0 → u.tepc.toNat % 4 = 0 → u.tsw &&& tswReserved = 0 → u.tsw.toNat % 8 ≤ 4 → u.tsw.getLsbD 24 = false →
    (∀ q r, named q → skips q → (s.here.seq q).stop = some r → r.held = none) →
    ∃ t, exec .tret s = .next t ∧ t.issued = true ∧
      t.seq = { s.seq with loops := saved.drop (saved.length - u.tsw.toNat % 8), pc := u.tepc
                           mpos := if u.tsw.getLsbD 8 then some mac else none, nextIssue := s.ccount + 2 } ∧
      t.here.sup s.cur.2 = { u with hdepth := u.hdepth - 1, frames := u.frames.tail } ∧
      t.here.group = (if s.cur.2 = .f then s.here.group
        else { s.here.group with susp := s.here.group.susp && decide (u.hdepth ≠ 1) }) ∧
      (∀ q, q ≠ s.cur.2 → ¬named q → t.here.seq q = s.here.seq q) ∧
      (∀ q, named q → (s.here.seq q).stop = none → t.here.seq q = s.here.seq q) ∧
      (∀ q, named q → (s.here.seq q).stop ≠ none → ¬skips q → t.here.seq q = { s.here.seq q with stop := none, taken := false }) ∧
      (∀ q, named q → (s.here.seq q).stop ≠ none → skips q → (t.here.seq q).stop = none ∧ (t.here.seq q).taken = false ∧
        ((s.here.seq q).loops = [] → (s.here.seq q).mpos = none → (t.here.seq q).pc = (s.here.seq q).pc + 4) ∧
        (t.here.seq q).regs = (s.here.seq q).regs ∧ (t.here.seq q).fcsr = (s.here.seq q).fcsr) ∧
      SameOutside s t ∧ SameRegs [] s t ∧ SameBytes s t
  ) ∧
  (
  ∀ (s : State), s.canIssue = true → (s.cur.2 = .k ∨ s.cur.2 = .f) →
    let u := s.here.sup s.cur.2
    let badSw := u.tsw &&& tswReserved ≠ 0 ∨ 4 < u.tsw.toNat % 8 ∨
      (u.tsw.getLsbD 24 = true ∧ ¬(1 ≤ u.tcause.toNat % 256 ∧ u.tcause.toNat % 256 ≤ 0x13))
    (s.seq.mpos.isSome ∨ u.hdepth = 0 → Raises .tret s 0x01 (s.word.setWidth 64)) ∧
    (s.seq.mpos = none → u.hdepth ≠ 0 → badSw → Raises .tret s 0x03 u.tsw) ∧
    (s.seq.mpos = none → u.hdepth ≠ 0 → ¬badSw → u.tepc.toNat % 4 ≠ 0 → Raises .tret s 0x04 u.tepc) ∧
    (s.seq.mpos = none → u.hdepth ≠ 0 → ¬badSw → u.tepc.toNat % 4 = 0 → u.tsw.getLsbD 24 = true → s.cur.2 = .k →
      ∃ t, exec .tret s = .next t ∧ t.here.fatal = some (u.tcause.toNat % 256, u.tval))
  )

/-! ## Queue words, waits and memory words -/

/-- R53, R85, R95, R98, R260: `qpush` appends an entry (reserved while earlier words have not retired), `qpop` takes the oldest visible
one and acquires what its push released; both wait for the queue, and fault on a queue that is not theirs. A push of K waits for the stores to
host memory that it releases (R405). -/
def Obligations.DataQueueWordsMoveEntries : Prop :=
  (∀ (s : State) (q a d : BitVec 5), s.canIssue = true → s.cur.2 ≠ .f →
    let n := q.toNat
    let mayPush := (s.cur.2 = .k ∧ n < 4) ∨ (s.cur.2 = .l ∧ (n = 4 ∨ n = 7)) ∨ (s.cur.2 = .c ∧ n = 5) ∨ (s.cur.2 = .s ∧ n = 6)
    let mayPop := (s.cur.2 = .k ∧ 5 ≤ n ∧ n ≤ 7) ∨ (s.cur.2 = .l ∧ n ≤ 1) ∨ (s.cur.2 = .c ∧ (n = 2 ∨ n = 4)) ∨ (s.cur.2 = .s ∧ n = 3)
    (mayPush → s.readable a = true → s.mayRelease = true → (s.here.dq n).canPush 8 s.ccount = true →
      ∃ t, exec (.qpush q a) s = .next t ∧
        (t.here.dq n).entries = (s.here.dq n).entries ++ [if s.behind then { val := none, vis := 0, cov := Cover.none }
          else { val := some (s.reg a), vis := s.ccount + 1, cov := s.covering }] ∧
        (∀ j, j ≠ n → t.here.dq j = s.here.dq j) ∧ GoesOn s t ∧ SameStatus s t ∧ SameOutside s t ∧ SameRegs [] s t ∧ SameBytes s t) ∧
    (mayPush → (s.readable a = false ∨ s.mayRelease = false ∨ (s.here.dq n).canPush 8 s.ccount = false) → Waits (.qpush q a) s) ∧
    (¬mayPush → Raises (.qpush q a) s 0x02 (s.word.setWidth 64)) ∧
    (mayPop → ∀ v cov, (s.here.dq n).front s.ccount = some (v, cov) →
      ∃ t, exec (.qpop d q) s = .next t ∧ Holds d v 1 s t ∧ (t.here.dq n).entries = (s.here.dq n).entries.tail ∧
        (∀ j, j ≠ n → t.here.dq j = s.here.dq j) ∧ t.seq.cover = s.seq.cover.join cov ∧ t.seq.fcsr = s.seq.fcsr ∧
        GoesOn s t ∧ SameOutside s t ∧ SameRegs [d] s t ∧ SameBytes s t) ∧
    (mayPop → (s.here.dq n).front s.ccount = none → Waits (.qpop d q) s) ∧
    (¬mayPop → Raises (.qpop d q) s 0x02 (s.word.setWidth 64))) ∧
  (∀ (s : State) (q a d : BitVec 5), s.canIssue = true → s.cur.2 = .f →
    Raises (.qpush q a) s 0x01 (s.word.setWidth 64) ∧ Raises (.qpop d q) s 0x01 (s.word.setWidth 64)) ∧
  (∀ c : Section, decode c 0xEE00A000 = some (.qpush 0 5) ∧ decode c 0xEE980000 = some (.qpop 6 0))

/-- R53, R88, R96, R97, R98: `tkpost`, `tkwait`, `tkmask` and `nop`; a post of K waits for the stores to host memory that it releases (R405). -/
def Obligations.TokenWordsMoveTokens : Prop :=
  (∀ (s : State) (c p w : BitVec 4), s.canIssue = true → s.cur.2 ≠ .f →
    let n := c.toNat
    let me := ctxNum s.cur.2
    (n / 4 = me → n % 4 ≠ me → s.mayRelease = true → (s.here.tkOf n).canPush 15 s.ccount = true →
      ∃ t, exec (.tkpost c) s = .next t ∧ (t.here.tkOf n).entries.length = (s.here.tkOf n).entries.length + 1 ∧
        (s.behind = false → (t.here.tkOf n).entries = (s.here.tkOf n).entries ++ [{ val := some (), vis := s.ccount + 1, cov := s.covering }]) ∧
        (∀ j, j ≠ n → t.here.tkOf j = s.here.tkOf j) ∧ GoesOn s t ∧ SameStatus s t ∧ SameOutside s t ∧ SameRegs [] s t ∧ SameBytes s t) ∧
    (n / 4 = me → n % 4 ≠ me → (s.mayRelease = false ∨ (s.here.tkOf n).canPush 15 s.ccount = false) → Waits (.tkpost c) s) ∧
    ((n / 4 ≠ me ∨ n % 4 = me) → Raises (.tkpost c) s 0x02 (s.word.setWidth 64)) ∧
    (n % 4 = me → n / 4 ≠ me → ∀ cov, (s.here.tkOf n).front s.ccount = some ((), cov) →
      ∃ t, exec (.tkwait c) s = .next t ∧ (t.here.tkOf n).entries = (s.here.tkOf n).entries.tail ∧
        (∀ j, j ≠ n → t.here.tkOf j = s.here.tkOf j) ∧ t.seq.cover = s.seq.cover.join cov ∧
        GoesOn s t ∧ SameOutside s t ∧ SameRegs [] s t ∧ SameBytes s t) ∧
    (n % 4 = me → n / 4 ≠ me → (s.here.tkOf n).front s.ccount = none → Waits (.tkwait c) s) ∧
    ((n % 4 ≠ me ∨ n / 4 = me) → Raises (.tkwait c) s 0x02 (s.word.setWidth 64)) ∧
    (w.getLsbD me = false → p.getLsbD me = false →
      ∃ t, exec (.tkmask p w) s = .next t ∧ t.seq.wmask = w ∧ t.seq.pmask = p ∧ t.here.tk = s.here.tk ∧
        GoesOn s t ∧ SameOutside s t ∧ SameRegs [] s t ∧ SameBytes s t) ∧
    (w.getLsbD me = true ∨ p.getLsbD me = true → Raises (.tkmask p w) s 0x02 (s.word.setWidth 64))) ∧
  (∀ (s : State) (c p w : BitVec 4), s.canIssue = true → s.cur.2 = .f →
    Raises (.tkpost c) s 0x01 (s.word.setWidth 64) ∧ Raises (.tkwait c) s 0x01 (s.word.setWidth 64) ∧
    Raises (.tkmask p w) s 0x01 (s.word.setWidth 64)) ∧
  (∀ s : State, s.canIssue = true → GoesOnOnly .nop s) ∧
  (∀ c : Section, decode c 0xEF000001 = some (.tkpost 1) ∧ decode c 0xEF800001 = some (.tkwait 1) ∧ decode c 0xE0000000 = some .nop ∧
    decode c 0xF0000005 = some (.tkmask 0 5) ∧ decode c 0xF0000045 = some (.tkmask 4 5))

/-- R99, R100, R83: `halt` waits at its own address for its retirement; in K it is ILLEGAL_INSTR while a group is open; F's ends its
activation.
R99: the halt line of L or S rises once its flight is empty, and that of C once its V-words, steps and posts have retired. -/
def Obligations.HaltsWaitAndRetire : Prop :=
  (
  ∀ (s : State), s.canIssue = true →
    (s.cur.2 ≠ .f → s.noTransfer = false → s.seq.macroQ = [] → (s.cur.2 = .k → s.here.group.isOpen = false) →
      ∃ t, exec .halt s = .next t ∧ t.issued = true ∧ t.seq = { s.seq with halting := true } ∧ t.canIssue = false ∧
        SameOutside s t ∧ SameRegs [] s t ∧ SameBytes s t) ∧
    (s.cur.2 = .k → s.here.group.isOpen = true → Raises .halt s 0x01 (s.word.setWidth 64)) ∧
    (s.cur.2 = .f → ∃ t, exec .halt s = .next t ∧ t.issued = true ∧ t.here.fActive = false ∧ t.canIssue = false ∧
      SameOutside s t ∧ SameRegs [] s t ∧ SameBytes s t)
  ) ∧
  (
  ∀ (s : State) (n : CoreId) (q : Ctx), ((s.core n).seq q).halting = true → ((s.core n).seq q).stop = none →
    (s.core n).cutting = .running → (s.core n).debugHalt = .running →
    let c := s.core n
    let idle := (q = .l ∧ c.tl.flight = []) ∨ (q = .s ∧ c.ts.flight = []) ∨
      (q = .c ∧ c.vec.flight = [] ∧ (∀ f ∈ c.mat.flight, f.att = true) ∧ c.cposts = [])
    (idle → ∃ t, exec (.sequencerHaltRetire n q) s = .next t ∧ ((t.core n).seq q).halted = true ∧ ((t.core n).seq q).halting = false ∧
      (∀ m, m ≠ n → t.core m = s.core m) ∧ SameBytes s t) ∧
    (¬idle → Waits (.sequencerHaltRetire n q) s)
  )

/-- R135, R138, R139, R393, R107, R108: `fence` and `wfi` go on once their conditions hold and wait before, `snap` notes the capture, and
`mcall` runs its macro in K or requests it of L, C or S: a halted target is ILLEGAL_OPERAND, a full queue is waited for. That `fence` waits for the
same writes at every scope is the model's choice (log 38). -/
def Obligations.WaitsAndCallsOfK : Prop :=
  ∀ (s : State) (sc kd : BitVec 2) (p : BitVec 5) (q : BitVec 2) (m : BitVec 6), s.canIssue = true →
    (kd = 0 → s.covered s.seq.cover = true → GoesOnOnly (.fence sc kd) s) ∧
    (kd = 0 → s.covered s.seq.cover = false → Waits (.fence sc kd) s) ∧
    (kd ≠ 0 → s.released = true → GoesOnOnly (.fence sc kd) s) ∧
    (kd ≠ 0 → s.released = false → Waits (.fence sc kd) s) ∧
    (s.wfiReady = true → GoesOnOnly .wfi s) ∧ (s.wfiReady = false → Waits .wfi s) ∧
    (s.here.snapctl.getLsbD 0 = false → GoesOnOnly .snap s) ∧
    (s.here.snapctl.getLsbD 0 = true → ∃ t, exec .snap s = .next t ∧ s.ccount + 1 ∈ t.here.snapAt ∧ GoesOn s t ∧ SameRegs [] s t ∧ SameBytes s t) ∧
    (s.cur.2 = .k → s.seq.mpos = none → 1 ≤ p.toNat → p.toNat ≤ 28 →
      let fetched := fun (u : State) => Ends (fetchMacro s.cur.1 q.toNat m.toNat) s () u ∧ u.cur = s.cur
      (∀ u, q = 0 → fetched u → ∃ t, exec (.mcall p q m) s = .next t ∧ t.issued = true ∧ t.seq.pc = u.seq.pc ∧
        t.seq.mpos = some { idx := m.toNat, p := some p.toNat, word := 0, last := false } ∧ t.seq.nextIssue = u.ccount + 1 ∧ SameBytes u t) ∧
      (∀ x, (q = 1 ∧ x = Ctx.l) ∨ (q = 2 ∧ x = Ctx.c) ∨ (q = 3 ∧ x = Ctx.s) →
        let y := s.here.seq x
        ((y.halting = true ∨ y.halted = true) → Raises (.mcall p q m) s 0x02 (s.word.setWidth 64)) ∧
        (y.halting = false → y.halted = false → 4 ≤ y.macroQ.length → Waits (.mcall p q m) s) ∧
        (∀ u, y.halting = false → y.halted = false → y.macroQ.length < 4 → fetched u →
          ∃ t, exec (.mcall p q m) s = .next t ∧ GoesOn u t ∧
            (t.here.seq x).macroQ = y.macroQ ++ [{ idx := m.toNat, p := p.toNat, vis := u.ccount + 1 }] ∧ SameBytes u t))) ∧
    (s.cur.2 = .f ∨ s.seq.mpos.isSome → Raises (.mcall p q m) s 0x01 (s.word.setWidth 64)) ∧
    (s.cur.2 = .k → s.seq.mpos = none → (p.toNat = 0 ∨ 28 < p.toNat) → Raises (.mcall p q m) s 0x02 (s.word.setWidth 64))

/-- R126, R127, R175, R332, R407: where the reads of the walk go through, the loads of K and F fault as the checks list, in their order;
the data of slices and device memory is written, sign- or zero-extended, and the next word issues no earlier than the fourth cycle after; K
waits for host-tier and remote data, the request for which leaves once the ports carry traffic and K's writes over links are performed. -/
def Obligations.LoadsReadTheirBytes : Prop :=
  ∀ (s : State) (d a : BitVec 5) (i : BitVec 12), s.readyFor [a] = true → s.covered s.seq.cover = true → (s.cur.2 = .k ∨ s.cur.2 = .f) →
    let ea := s.reg a + BitVec.ofInt 64 i.toInt
    s.walks ea.toNat →
    let loads := fun (u : Instr) (size : Nat) (signed : Bool) =>
      (2 ^ 57 ≤ ea.toNat → Raises u s 0x05 ea) ∧
      (ea.toNat < 2 ^ 57 → ea.toNat % size ≠ 0 → Raises u s 0x04 ea) ∧
      (ea.toNat < 2 ^ 57 → ea.toNat % size = 0 →
        (∀ c, s.targetOf s.cur.1 s.cur.2 ea.toNat .read = .error c → Raises u s c ea) ∧
        (∀ tg w, s.cur.2 = .k → s.targetOf s.cur.1 s.cur.2 ea.toNat .read = .ok tg → s.here.watchHit ea.toNat size false = some w → Raises u s 0x11 w) ∧
        (∀ tg, s.cur.2 = .k → s.targetOf s.cur.1 s.cur.2 ea.toNat .read = .ok tg → s.here.watchHit ea.toNat size false = none →
          ((∃ pa, tg = .host pa) ∨ (∃ v pa, tg = .remote v pa)) →
          (s.linked tg = false ∨ s.farClear s.cur.1 tg = false → Waits u s) ∧
          (s.linked tg = true → s.farClear s.cur.1 tg = true → ∃ t, exec u s = .next t ∧ t.issued = true ∧
            t.here.kWait = some (.load d size signed tg ea.toNat) ∧ t.canIssue = false ∧
            (∃ r, t.far = s.far ++ [r] ∧ r.kind = .load ∧ r.tgt = tg ∧ r.len = size ∧ r.got = none ∧ r.failed = false) ∧
            (∀ v pa, tg = .remote v pa → t.dev.linkOut = s.dev.linkOut ++ [(s.portOf v, .load v pa size)]) ∧
            SameRegs [] s t ∧ SameBytes s t)) ∧
        (∀ tg b r, s.cur.2 = .k → s.targetOf s.cur.1 s.cur.2 ea.toNat .read = .ok tg → s.here.watchHit ea.toNat size false = none →
          ((∃ pa, tg = .dev pa) ∨ (∃ m off, tg = .slice m off)) → Ends (kRead s.cur.1 tg ea.toNat size) s b r →
          ∃ t, exec u s = .next t ∧ t.reg d = (if d = 0 then 0 else loadValue b signed) ∧ GoesOn s t ∧ s.ccount + 4 ≤ t.seq.nextIssue ∧
            SameRegs [d] s t ∧ SameBytes s t) ∧
        (∀ pa b r, s.cur.2 = .f → s.targetOf s.cur.1 s.cur.2 ea.toNat .read = .ok (.dev pa) → Ends (readTarget (.dev pa) size ea.toNat) s b r →
          ∃ t, exec u s = .next t ∧ t.reg d = (if d = 0 then 0 else loadValue (s.devBytes pa size) signed) ∧ GoesOn s t ∧ SameRegs [d] s t ∧ SameBytes s t) ∧
        (∀ off, s.cur.2 = .f → size ≠ 8 → s.targetOf s.cur.1 s.cur.2 ea.toNat .read = .ok (.bar off) → Raises u s 0x04 ea) ∧
        (∀ off, s.cur.2 = .f → size = 8 → s.targetOf s.cur.1 s.cur.2 ea.toNat .read = .ok (.bar off) →
          ∃ t, exec u s = .next t ∧ t.reg d = (if d = 0 then 0 else s.barRead off) ∧ GoesOn s t ∧ SameRegs [d] s t ∧ SameBytes s t))
    loads (.ldB d a i) 1 false ∧ loads (.ldH d a i) 2 false ∧ loads (.ldW d a i) 4 false ∧ loads (.ldD d a i) 8 false ∧
    loads (.ldsB d a i) 1 true ∧ loads (.ldsH d a i) 2 true ∧ loads (.ldsW d a i) 4 true

/-- R126, R127, R174, R176, R264: where the reads of the walk go through, K's stores fault as the checks list and wait for a free entry, one
to the own slice also for K's earlier writes and a locked word; outside a group a store completes, forwarded to K's later loads byte by
byte, and no byte reads changed until it is performed; in a group it completes, captured, and goes to no home. The wait of a store to the own
slice, and that K's stores are performed in program order, are the model's choice (log 38).
R127, R174, R254, R273, R329, R340, R405, R407: the oldest pending store of K waits for what it follows, for a locked word, a site in
self-refresh and a link that carries no traffic; then it reaches its home. In a block of device memory that is not poisoned its bytes are
written; in a slice that no other write reaches in the cycle they read six cycles later, and every other byte as it would have; one to a frozen
slice is discarded and its QUIRE_PEER_FAULT kept for K (R178; log 36); to host memory and other devices its request is sent, and no memory here
changes. -/
def Obligations.StoresAreForwardedAndPerformed : Prop :=
  (
  ∀ (s : State) (d a : BitVec 5) (i : BitVec 12), s.readyFor [d, a] = true → s.cur.2 = .k →
    let ea := s.reg a + BitVec.ofInt 64 i.toInt
    s.walks ea.toNat →
    let c := s.here
    let stores := fun (u : Instr) (size : Nat) =>
      (2 ^ 57 ≤ ea.toNat → Raises u s 0x05 ea) ∧
      (ea.toNat < 2 ^ 57 → ea.toNat % size ≠ 0 → Raises u s 0x04 ea) ∧
      (ea.toNat < 2 ^ 57 → ea.toNat % size = 0 →
        (∀ c, s.targetOf s.cur.1 .k ea.toNat .write = .error c → Raises u s c ea) ∧
        (∀ tg w, s.targetOf s.cur.1 .k ea.toNat .write = .ok tg → s.here.watchHit ea.toNat size true = some w → Raises u s 0x11 w) ∧
        (∀ tg, s.targetOf s.cur.1 .k ea.toNat .write = .ok tg → s.here.watchHit ea.toNat size true = none →
          (s.here.fwdFree s.ccount = false → Waits u s) ∧
          (∀ o, tg = .slice s.cur.1 o → c.capturing = false → c.frozen = false →
            (s.inOrder s.cur.1 (c.storeSeq + 1) s.seq.cover tg = false ∨ s.locked tg size = true) → Waits u s) ∧
          (c.fwdFree s.ccount = true → c.capturing = false →
            (∀ o, tg = .slice s.cur.1 o → c.frozen = false → s.inOrder s.cur.1 (c.storeSeq + 1) s.seq.cover tg = true ∧ s.locked tg size = false) →
            ∃ t, exec u s = .next t ∧ t.here.storeSeq = c.storeSeq + 1 ∧ GoesOn s t ∧ SameRegs [] s t ∧ SameBytes s t ∧
              ∀ j, j < size → (fwdByte (t.here.liveFwd t.ccount) (ea.toNat + j)).map (·.2) = some (BitVec.ofNat 8 ((s.reg d).toNat / 256 ^ j))) ∧
          (c.fwdFree s.ccount = true → c.capturing = true → (∃ v pa, tg = .remote v pa) → Raises u s 0x06 ea) ∧
          (c.fwdFree s.ccount = true → c.capturing = true → ∀ ls, (∀ v pa, tg ≠ .remote v pa) →
            captureAll (c.storeSeq + 1) c.group.lines ea.toNat (toBytes size (s.reg d).toNat) = some ls →
            ∃ t, exec u s = .next t ∧ t.here.group = { c.group with lines := ls } ∧ t.here.fwd = c.liveFwd s.ccount ∧ GoesOn s t ∧
              SameOutside s t ∧ SameRegs [] s t ∧ SameBytes s t)))
    stores (.stB d a i) 1 ∧ stores (.stH d a i) 2 ∧ stores (.stW d a i) 4 ∧ stores (.stD d a i) 8
  ) ∧
  (
  ∀ (s : State) (n : CoreId) (x : Store), ((s.core n).fwd.find? fun t => t.doneAt.isNone) = some x → 0 < x.bytes.length →
    let len := x.bytes.length
    let ready := x.sent = false ∧ s.inOrder n x.seq x.cover x.tgt = true ∧ s.locked x.tgt len = false ∧ s.linked x.tgt = true ∧
      ∀ pa, x.tgt = .dev pa → s.siteHeld pa len = false
    let mine := fun (t : State) (d : Option Nat) (snt : Bool) => ∀ y ∈ (t.core n).fwd, y.seq = x.seq → y.doneAt = d ∧ y.sent = snt
    (¬ready → Waits (.writePerformed n) s) ∧
    (ready → ∀ pa, x.tgt = .dev pa → pa % 64 + len ≤ 64 → Tab.get false s.poison (pa / 64) = false → Tab.get 0 s.latent (pa / 64) < 2 →
      ∃ t, exec (.writePerformed n) s = .next t ∧ t.devBytes pa len = x.bytes ∧
      (∀ a, (a < pa ∨ pa + len ≤ a) → t.devBytes a 1 = s.devBytes a 1) ∧ mine t (some s.ccount) false ∧
      ∀ m o, sliceByte (t.core m) s.ccount o = sliceByte (s.core m) s.ccount o) ∧
    (ready → ∀ m o, x.tgt = .slice m o → (s.core m).frozen = false → (∀ w ∈ (s.core m).recent, w.cyc < s.ccount) →
      ∃ t, exec (.writePerformed n) s = .next t ∧ mine t (some (s.ccount + 6)) false ∧ SameBytes s t ∧
      (∀ i b, x.bytes[i]? = some b → sliceByte (t.core m) (s.ccount + 6) (o + i) = b) ∧
      (∀ a, (a < o ∨ o + len ≤ a) → sliceByte (t.core m) (s.ccount + 6) a = sliceByte (s.core m) (s.ccount + 6) a) ∧
      ∀ k a, k ≠ m → sliceByte (t.core k) (s.ccount + 6) a = sliceByte (s.core k) (s.ccount + 6) a) ∧
    (ready → ∀ m o, x.tgt = .slice m o → (s.core m).frozen = true → ∃ t, exec (.writePerformed n) s = .next t ∧ SameBytes s t ∧
      (t.core n).late = (s.core n).late ++ [(0x0E, causeWord x.src.1 x.src.2 true 0 0x0E, BitVec.ofNat 64 x.va)]) ∧
    (ready → ((∃ pa, x.tgt = .host pa) ∨ ∃ v pa, x.tgt = .remote v pa) → ∃ t r, exec (.writePerformed n) s = .next t ∧ mine t none true ∧
      t.far = s.far ++ [r] ∧ r.kind = .store x.seq x.bytes ∧ r.tgt = x.tgt ∧ r.core = n ∧ SameBytes s t ∧
      (∀ pa, x.tgt = .host pa → t.dev.hostOut = s.dev.hostOut ++ [(pa, x.bytes)] ∧ t.dev.linkOut = s.dev.linkOut) ∧
      ∀ v pa, x.tgt = .remote v pa → t.dev.linkOut = s.dev.linkOut ++ [(s.portOf v, .store v pa x.bytes)] ∧ t.dev.hostOut = s.dev.hostOut)
  )

/-! ## Stores performed, atomics, ring words and groups -/

/-- R60, R271, R272, R273, R432: where the reads of the walk go through, the atomic words of K check their address as a store of their width
does and send their request, with the operands of the word, to the own slice presented at once (then not before the writes it follows); a
return form waits for the old value, a no-return form goes on. F's are presented to their home, those to a BAR0 register applied at once. When
an atomic to the own slice is presented, and what it waits for, is the model's choice (log 38). -/
def Obligations.AtomicWordsSendTheirRequest : Prop :=
  ∀ (s : State) (d a b : BitVec 5) (w : BitVec 1), s.readyFor [a, b, d] = true → s.covered s.seq.cover = true → (s.cur.2 = .k ∨ s.cur.2 = .f) →
    let ea := s.reg a
    let k := if w = 1 then 8 else 4
    s.walks ea.toNat →
    let sends := fun (u : Instr) (op : Nat) (ret : Bool) (cmp : Word) =>
      (2 ^ 57 ≤ ea.toNat → Raises u s 0x05 ea) ∧
      (ea.toNat < 2 ^ 57 → ea.toNat % k ≠ 0 → Raises u s 0x04 ea) ∧
      (ea.toNat < 2 ^ 57 → ea.toNat % k = 0 → ∀ c, s.targetOf s.cur.1 s.cur.2 ea.toNat .atomic = .error c → Raises u s c ea) ∧
      (ea.toNat < 2 ^ 57 → ea.toNat % k = 0 → s.cur.2 = .k → ∀ tg, s.targetOf s.cur.1 .k ea.toNat .atomic = .ok tg →
        let r : AmoReq := {
          id := s.here.nextId + 1, seq := s.here.storeSeq + 1, pres := none, op := op, dbl := decide (w = 1), ret := if ret then some d else none
          va := ea.toNat, tgt := tg, opnd := BitVec.ofNat 64 ((s.reg b).toNat % 2 ^ (8 * k)), cmp := BitVec.ofNat 64 (cmp.toNat % 2 ^ (8 * k))
          fcsr := s.seq.fcsr, cover := s.covering, src := ((s.seq.pc - s.seq.entry).toNat / 4, s.seq.mpos) }
        let watched := s.here.watchHit ea.toNat k false ≠ none ∨ s.here.watchHit ea.toNat k true ≠ none
        let goes := fun (x : AmoReq) => ∃ t, exec u s = .next t ∧ t.issued = true ∧ SameRegs [] s t ∧ SameBytes s t ∧ t.here.amos = s.here.amos ++ [x] ∧
          t.here.storeSeq = s.here.storeSeq + 1 ∧
          (if ret then t.here.kWait = some (.atomic (s.here.nextId + 1)) ∧ t.canIssue = false else GoesOn s t)
        (s.here.capturing = true → Raises u s 0x01 (s.word.setWidth 64)) ∧
        (s.here.capturing = false → ¬watched → (∀ o, tg ≠ .slice s.cur.1 o) → goes r) ∧
        (s.here.capturing = false → ¬watched → (∃ o, tg = .slice s.cur.1 o) →
          (s.amoMay s.cur.1 r = true → goes { r with pres := some (s.ccount, 0) }) ∧ (s.amoMay s.cur.1 r = false → Waits u s))) ∧
      (ea.toNat < 2 ^ 57 → ea.toNat % k = 0 → s.cur.2 = .f → ∀ pa, physTarget ea.toNat = .ok (.dev pa) →
        let r : HomeAmo := {
          who := .firmware s.cur.1 (if ret then some d else none), pres := (s.ccount, s.amoPlace (.dev pa)), op := op, dbl := decide (w = 1)
          va := ea.toNat, tgt := .dev pa, opnd := BitVec.ofNat 64 ((s.reg b).toNat % 2 ^ (8 * k)), cmp := BitVec.ofNat 64 (cmp.toNat % 2 ^ (8 * k))
          fcsr := s.seq.fcsr, applied := false }
        ∃ t, exec u s = .next t ∧ t.amoq = s.amoq ++ [r] ∧ t.issued = true ∧ SameRegs [] s t ∧ SameBytes s t ∧
          (if ret then t.canIssue = false else GoesOn s t)) ∧
      (ea.toNat < 2 ^ 57 → ea.toNat % k = 0 → s.cur.2 = .f → ∀ off, physTarget ea.toNat = .ok (.bar off) →
        if k = 4 then Raises u s 0x04 ea else
        let z := amoValue op 64 s.seq.fcsr (s.barRead off).toNat (s.reg b).toNat cmp.toNat
        ∃ t, exec u s = .next t ∧ t.amoq = s.amoq ∧ t.issued = true ∧
          (z.1 = none → SameBytes s t) ∧ (ret = true → t.reg d = (if d = 0 then 0 else s.barRead off) ∧ SameRegs [d] s t) ∧ (ret = false → SameRegs [] s t))
    let pair := fun (u v : Instr) (op : Nat) => sends u op true (s.reg d) ∧ sends v op false 0
    pair (.amoAdd d a b w) (.amoAddNr a b w) 1 ∧ pair (.amoAnd d a b w) (.amoAndNr a b w) 2 ∧ pair (.amoOr d a b w) (.amoOrNr a b w) 3 ∧
    pair (.amoXor d a b w) (.amoXorNr a b w) 4 ∧ pair (.amoMin d a b w) (.amoMinNr a b w) 5 ∧ pair (.amoMax d a b w) (.amoMaxNr a b w) 6 ∧
    pair (.amoMinn d a b w) (.amoMinnNr a b w) 7 ∧ pair (.amoMaxn d a b w) (.amoMaxnNr a b w) 8 ∧ pair (.amoSwap d a b w) (.amoSwapNr a b w) 9 ∧
    sends (.amoCas d a b w) 10 true (s.reg d) ∧ (sends (.amoCasNr d a b w) 10 false (s.reg d)) ∧
    pair (.amoInc d a b w) (.amoIncNr a b w) 11 ∧ pair (.amoFadd d a b w) (.amoFaddNr a b w) 12 ∧
    pair (.amoFmin d a b w) (.amoFminNr a b w) 13 ∧ pair (.amoFmax d a b w) (.amoFmaxNr a b w) 14

/-- R272: the new values of the integer atomics.
R254, R273: the oldest atomic of K on device memory is presented once the writes it follows are done, and applied six cycles later or
more, as the next of its word: it reads the old value, writes the new one at its own bytes alone, and returns the old value in the
destination of a return form, setting its flags. An atomic of F, the host or another device is applied at its home in the same way (R274). -/
def Obligations.AtomicsActAtTheirHome : Prop :=
  (
  ∀ (w : Nat) (fc : BitVec 17) (a b c : Nat), (w = 32 ∨ w = 64) → a < 2 ^ w → b < 2 ^ w → c < 2 ^ w →
    amoValue 1 w fc a b c = (some ((a + b) % 2 ^ w), 0) ∧ amoValue 2 w fc a b c = (some (a &&& b), 0) ∧
    amoValue 3 w fc a b c = (some (a ||| b), 0) ∧ amoValue 4 w fc a b c = (some (a ^^^ b), 0) ∧
    (∃ v, amoValue 5 w fc a b c = (some v, 0) ∧ (v = a ∨ v = b) ∧ sextNat v w = Min.min (sextNat a w) (sextNat b w)) ∧
    (∃ v, amoValue 6 w fc a b c = (some v, 0) ∧ (v = a ∨ v = b) ∧ sextNat v w = Max.max (sextNat a w) (sextNat b w)) ∧
    amoValue 7 w fc a b c = (some (Nat.min a b), 0) ∧ amoValue 8 w fc a b c = (some (Nat.max a b), 0) ∧
    amoValue 9 w fc a b c = (some b, 0) ∧ amoValue 10 w fc a b c = ((if a = c then some b else none), 0) ∧
    amoValue 11 w fc a b c = (some (if b ≤ a then 0 else a + 1), 0)
  ) ∧
  (
  (∀ (s : State) (n : CoreId) (r : AmoReq) (rest : List AmoReq) (pa : Nat), (s.core n).amos = r :: rest → (∀ x ∈ rest, x.id ≠ r.id) →
    r.tgt = .dev pa →
    (r.pres = none → s.amoMay n r = true → ∃ t j, exec (.atomicApply n) s = .next t ∧
      (t.core n).amos = { r with pres := some (s.ccount, j) } :: rest ∧ (∀ m, m ≠ n → t.core m = s.core m) ∧ SameBytes s t) ∧
    (r.pres = none → s.amoMay n r = false → Waits (.atomicApply n) s) ∧
    ((∃ p, r.pres = some p ∧ s.ccount < p.1 + 6) → Waits (.atomicApply n) s) ∧
    (r.pres ≠ none → s.amoDue n r = true →
    let k := if r.dbl then 8 else 4
    s.siteHeld pa k = false → pa % k = 0 → Tab.get false s.poison (pa / 64) = false → Tab.get 0 s.latent (pa / 64) = 0 →
    let old := ofBytes (s.devBytes pa k)
    let z := amoValue r.op (8 * k) r.fcsr old r.opnd.toNat r.cmp.toNat
    ∃ t, exec (.atomicApply n) s = .next t ∧ (t.core n).amos = rest ∧
      t.devBytes pa k = (match z.1 with | some v => toBytes k v | none => s.devBytes pa k) ∧
      (∀ a, (a < pa ∨ pa + k ≤ a) → t.devBytes a 1 = s.devBytes a 1) ∧
      (∀ d, r.ret = some d → (t.core n).k.reg d = (if d = 0 then 0 else BitVec.ofNat 64 old) ∧
        (t.core n).k.fcsr = withFlags (s.core n).k.fcsr z.2 ∧ (t.core n).kWait = none ∧
        (∀ x, x ≠ d → (t.core n).k.reg x = (s.core n).k.reg x)) ∧
      (r.ret = none → (t.core n).k = (s.core n).k))) ∧
  (∀ (s : State) (i : Nat) (r : HomeAmo) (pa : Nat), s.amoq[i]? = some r → r.tgt = .dev pa →
    let k := if r.dbl then 8 else 4
    (s.homeDue r = false → applyHome i s = .next s) ∧
    (s.homeDue r = true → s.siteHeld pa k = false → pa % k = 0 → Tab.get false s.poison (pa / 64) = false → Tab.get 0 s.latent (pa / 64) = 0 →
      let old := ofBytes (s.devBytes pa k)
      let z := amoValue r.op (8 * k) r.fcsr old r.opnd.toNat r.cmp.toNat
      ∃ t, applyHome i s = .next t ∧ t.amoq = s.amoq.set i { r with applied := true } ∧
        t.devBytes pa k = (match z.1 with | some v => toBytes k v | none => s.devBytes pa k) ∧
        (∀ a, (a < pa ∨ pa + k ≤ a) → t.devBytes a 1 = s.devBytes a 1) ∧
        (∀ n d, r.who = .firmware n (some d) → (t.core n).f.reg d = (if d = 0 then 0 else BitVec.ofNat 64 old) ∧
          (t.core n).f.fcsr = withFlags (s.core n).f.fcsr z.2) ∧
        (r.who = .host → t.dev.reply = .data (toBytes k old)) ∧
        (∀ v, r.who = .remote v → t.dev.linkOut = s.dev.linkOut ++ [(s.portOf v.toNat, .answer v.toNat (toBytes k old))])))
  )

/-- R181, R186, R189, R194: the ring words of K: `rg.set` and `rg.reset` take effect at the next cycle, `rg.stat` reads the register it
selects; a reserved value, and `rg.reset` of a proxy, is ILLEGAL_OPERAND. -/
def Obligations.RingWordsOfKTakeEffect : Prop :=
  ∀ (s : State) (d a b n : BitVec 5), s.readyFor [a, b] = true →
    let r := s.here.ring n.toNat
    let job := s.jobOf s.cur.1
    (s.ringOk job s.cur.1 n.toNat (s.reg a) (s.reg b) = false → Raises (.rgSet a b n) s 0x02 (s.word.setWidth 64)) ∧
    (s.ringOk job s.cur.1 n.toNat (s.reg a) (s.reg b) = true → s.ringNamed s.cur.1 n.toNat = true → Waits (.rgSet a b n) s) ∧
    (s.ringOk job s.cur.1 n.toNat (s.reg a) (s.reg b) = true → s.ringNamed s.cur.1 n.toNat = false → s.here.ringPend = [] →
      ∃ t, exec (.rgSet a b n) s = .next t ∧ GoesOn s t ∧ SameRegs [] s t ∧ SameBytes s t ∧ t.here.rings = s.here.rings ∧
        ((t.tick.core s.cur.1).ring n.toNat = { Ring.reset with base := s.reg a, ctl := s.reg b, waits := r.waits })) ∧
    (r.proxy = true → Raises (.rgReset n) s 0x02 (s.word.setWidth 64)) ∧
    (r.proxy = false → s.ringNamed s.cur.1 n.toNat = false → s.here.ringPend = [] →
      ∃ t, exec (.rgReset n) s = .next t ∧ GoesOn s t ∧ SameRegs [] s t ∧ SameBytes s t ∧
        ((t.tick.core s.cur.1).ring n.toNat = { Ring.reset with base := r.base, ctl := r.ctl, waits := r.waits })) ∧
    (s.reg a = 0 → WritesReg (.rgStat d a 1 n) s d r.base 1 ∧ WritesReg (.rgStat d a 2 n) s d r.ctl 1 ∧
      (r.proxy = false → WritesReg (.rgStat d a 0 n) s d (BitVec.ofNat 64 r.stat) 1)) ∧
    (s.reg a = 0 → r.proxy = true → s.covered s.seq.cover = true → ∃ t, exec (.rgStat d a 0 n) s = .next t ∧ GoesOn s t ∧
      t.reg d = (if d = 0 then 0 else BitVec.ofNat 64 (s.homeRing s.cur.1 n.toNat).stat) ∧ SameRegs [d] s t ∧ SameBytes s t) ∧
    (n.toNat = 0 ∨ n.toNat = 1 ∨ n.toNat = 3 →
      let xst := fun (c : Core) => if n = 0 then c.xstK else if n = 1 then c.tl.xst else c.ts.xst
      ∃ t, exec (.rgStat d a 3 n) s = .next t ∧ GoesOn s t ∧ t.reg d = (if d = 0 then 0 else (xst s.here).setWidth 64) ∧ SameRegs [d] s t ∧
        SameBytes s t ∧ (s.here.ringPend = [] → xst (t.tick.core s.cur.1) = xst s.here &&& ~~~((s.reg a).setWidth 4))) ∧
    (n.toNat = 2 ∨ 4 ≤ n.toNat → Raises (.rgStat d a 3 n) s 0x02 (s.word.setWidth 64)) ∧
    (s.reg a ≠ 0 → Raises (.rgStat d a 0 n) s 0x02 (s.word.setWidth 64) ∧ Raises (.rgStat d a 1 n) s 0x02 (s.word.setWidth 64) ∧
      Raises (.rgStat d a 2 n) s 0x02 (s.word.setWidth 64))

/-- R184, R185: the home of a ring grants its oldest claim the position CLAIM while an entry is free; a claim behind a colophon fails with
RING_COLOPHON_MISUSE.
R183: a pop marks the position, and HEAD passes the marked positions without a gap. -/
def Obligations.RingHomesGrantAndPop : Prop :=
  (
  ∀ (s : State) (n : CoreId) (i : BitVec 5) (w : RingWait) (rest : List RingWait),
    let r := (s.core n).ring i.toNat
    r.waits = w :: rest → r.valid = true →
    (r.colo = false → 1 ≤ r.free → ∃ t, exec (.ringClaimGrant n i) s = .next t ∧
      (t.core n).ring i.toNat = { r with waits := rest, claim := r.claim + 1, colo := w.colo } ∧
      (∀ f ∈ ((t.core w.core).tu w.ctx).flight, f.id = w.id → f.claimed = some r.claim ∧ f.needsClaim = false) ∧ SameBytes s t) ∧
    (r.colo = false → r.free = 0 → Waits (.ringClaimGrant n i) s) ∧
    (r.colo = true → ∃ t, exec (.ringClaimGrant n i) s = .next t ∧ (t.core n).ring i.toNat = { r with waits := rest } ∧
      (∀ f ∈ ((t.core w.core).tu w.ctx).flight, f.id = w.id → f.failed = some (0x13, f.word.setWidth 64)) ∧ SameBytes s t)
  ) ∧
  (
  ∀ (r : Ring) (p : Nat), r.head ≤ p → r.head ∉ r.marks → (∀ x ∈ r.marks, r.head ≤ x) →
    (p ≠ r.head → (r.pop p).head = r.head ∧ p ∈ (r.pop p).marks) ∧
    (p = r.head → r.head < (r.pop p).head ∧ (r.pop p).head ∉ (r.pop p).marks ∧ ∀ q, r.head < q → q < (r.pop p).head → q ∈ r.marks)
  )

/-- R262, R264, R265, R267, R268, R269: the group words: `grp.open` opens an empty group, groups do not nest, `grp.commit` waits for K's
earlier writes, performs the lines of an unbound group and closes it, `grp.abort` discards them and returns the blocks taken, and both write
the number of lines; `grp.stat` reads the status. F has no group: its group words are ILLEGAL_INSTR. The second translation of a line's block at the
commit is the model's choice (log 46).
R267, R268, R340: a line of a group is performed in the block of device memory that it names: its valid bytes are written, and no other
byte. -/
def Obligations.GroupsOpenCloseAndPerform : Prop :=
  (
  (∀ (s : State) (d : BitVec 5), s.canIssue = true → s.cur.2 = .k →
    let g := s.here.group
    (g.isOpen = false → ∃ t, exec .grpOpen s = .next t ∧ t.here.group = { Group.reset with isOpen := true } ∧ GoesOn s t ∧
      SameStatus s t ∧ SameOutside s t ∧ SameRegs [] s t ∧ SameBytes s t) ∧
    (g.isOpen = true → Raises .grpOpen s 0x01 (s.word.setWidth 64)) ∧
    (g.isOpen = false ∨ g.bound.isSome → Raises (.grpCommit d) s 0x01 (s.word.setWidth 64)) ∧
    (g.isOpen = true → g.bound = none → (s.storesDone s.cur.1 = false ∨ s.covered s.seq.cover = false) → Waits (.grpCommit d) s) ∧
    (g.isOpen = true → g.bound = none → ∀ k u, Ends (commitGroup s.cur.1 id) s k u → u.cur = s.cur →
      ∃ t, exec (.grpCommit d) s = .next t ∧ t.reg d = (if d = 0 then 0 else BitVec.ofNat 64 g.lines.length) ∧ t.here.group = Group.reset ∧
        GoesOn u t ∧ SameRegs [d] u t ∧ SameBytes u t) ∧
    (∀ k u, Ends (abortGroup s.cur.1) s k u → u.cur = s.cur →
      ∃ t, exec (.grpAbort d) s = .next t ∧ t.reg d = (if d = 0 then 0 else BitVec.ofNat 64 k) ∧ GoesOn u t ∧ SameRegs [d] u t ∧ SameBytes u t) ∧
    (g.bound = none → ∃ t, exec (.grpAbort d) s = .next t ∧ t.here.group = Group.reset ∧ GoesOn s t ∧
      t.reg d = (if d = 0 then 0 else BitVec.ofNat 64 (if g.isOpen then g.lines.length else 0)) ∧
      SameOutside s t ∧ SameRegs [d] s t ∧ SameBytes s t) ∧
    WritesReg (.grpStat d) s d (BitVec.ofNat 64 g.stat) 1) ∧
  (∀ (s : State) (d : BitVec 5), s.canIssue = true → s.cur.2 = .f →
    Raises .grpOpen s 0x01 (s.word.setWidth 64) ∧ Raises (.grpCommit d) s 0x01 (s.word.setWidth 64) ∧
    Raises (.grpAbort d) s 0x01 (s.word.setWidth 64) ∧ Raises (.grpStat d) s 0x01 (s.word.setWidth 64))
  ) ∧
  (
  ∀ (s : State) (n : CoreId) (l : Line) (pa : Nat), Ends (resolve n .k l.blk .write) s (.dev pa) s → s.siteHeld pa 64 = false → pa % 64 = 0 →
    s.locked (.dev pa) 64 = false → Tab.get false s.poison (pa / 64) = false → Tab.get 0 s.latent (pa / 64) < 2 →
    ∃ u, Ends (performLine n l) s () u ∧ (∀ i, i < 64 → u.devBytes (pa + i) 1 = if l.mask.getLsbD i then [BitVec.ofNat 8 (l.data.toNat / 256 ^ i)] else s.devBytes (pa + i) 1) ∧
    ∀ a, (a < pa ∨ pa + 64 ≤ a) → u.devBytes a 1 = s.devBytes a 1
  )

/-! ## T-words -/

/-- R70, R179, R180, R187, R188: the transfer words run on their own sequencer (else ILLEGAL_INSTR); one whose target exists, whose slot,
queue and tokens are free and whose descriptor passes the checks issues with its operands as read, in program order.
R190, R191, R193, R205, R208: `rclone`, `rinit` and `wfeed` issue once their operands pass, `wfeed` taking its buffer, and `tdset` loads
its descriptor. -/
def Obligations.TransferWordsIssue : Prop :=
  (
  ∀ (s : State) (a l t d : BitVec 5) (m2 : BitVec 2) (m w p o : BitVec 1) (o2 : BitVec 2), s.readyFor [a, l] = true →
    (s.cur.2 = .l ∨ s.cur.2 = .s) →
    let u := s.here.tu s.cur.2
    let td := Tab.get 0 u.td d.toNat
    let moves := fun (i : Instr) (op mode tgt : Nat) (mine ord keep : Bool) =>
      let dst := op = 2 ∨ op = 5
      let r := s.here.ring tgt
      let ring := mode = 0 ∧ op ≠ 3
      let bad := (mode = 1 ∧ 4 ≤ tgt) ∨ (mode = 2 ∧ tgt ≠ 4 ∧ tgt ≠ 7) ∨ (mode = 3 ∧ 2 ≤ tgt)
      (mine = false → Raises i s 0x01 (s.word.setWidth 64)) ∧
      (mine = true → bad → Raises i s 0x02 (s.word.setWidth 64)) ∧
      (mine = true → ¬bad → 16 ≤ slotsUsed u → Waits i s) ∧
      (mine = true → ¬bad → slotsUsed u < 16 → s.tokensReady w p = true →
        (ring → r.valid = true ∧ (dst → (s.homeRing s.cur.1 tgt).valid = true ∧
          (s.homeRing s.cur.1 tgt).mayTake s.ccount (readerRank (s.ringHome s.cur.1 tgt).1 s.cur.1 s.cur.2) = true)) →
        (mode = 1 → dst → ((s.here.oqOf tgt).front s.ccount).isSome = true) →
        (mode = 1 → ¬dst → (s.here.iqOf tgt).canPush 4 s.ccount = true) →
        (mode = 2 → (s.here.dq tgt).entries.length + (if s.ccount < (s.here.dq tgt).freeAt then (s.here.dq tgt).freed else 0) +
          Nat.min (tCount op td) 8 ≤ 8) →
        (mode = 3 → s.here.bufRead tgt s.ccount = false ∧ stepFirst s s.cur.1 tgt = false) →
        Ends (tCheck s.wordVal op mode td (s.reg a) (s.reg l) (if mode = 1 then 256 else r.size)) s () s →
        Flies i s p fun f => f.kind = .move ∧ f.op = op ∧ f.mode = mode ∧ f.target = tgt ∧ f.a = s.reg a ∧ f.l = s.reg l ∧ f.td = td ∧
          f.ord = ord ∧ f.keep = keep ∧ f.cursor = 0)
    let l' := decide (s.cur.2 = .l)
    let s' := decide (s.cur.2 = .s)
    moves (.tld a l t d m2 w p o) 1 m2.toNat t.toNat l' (o == 1) false ∧
    moves (.tst a l t d m w p o2) 2 m.toNat t.toNat s' (o2.getLsbD 0) (o2.getLsbD 1) ∧
    moves (.cpy a l d w p o) 3 0 0 true (o == 1) false ∧
    moves (.gat a l t d m w p o) 4 m.toNat t.toNat l' (o == 1) false ∧
    moves (.sct a l t d m w p o2) 5 m.toNat t.toNat s' (o2.getLsbD 0) (o2.getLsbD 1) ∧
    moves (.win a l t d m w p o) 6 m.toNat t.toNat l' (o == 1) false
  ) ∧
  (
  ∀ (s : State) (a l t d : BitVec 5) (w p : BitVec 1), s.readyFor [a, l] = true → s.tokensReady w p = true → (s.cur.2 = .l ∨ s.cur.2 = .s) →
    let u := s.here.tu s.cur.2
    let s' := s.tookTokens w p
    (slotsUsed u < 16 → Ends (rowCheck (s.reg a) .write) s' () s' →
      (Flies (.rinit a l w p) s p fun f => f.kind = .rows ∧ f.op = 8 ∧ f.a = s.reg a ∧ f.l = s.reg l) ∧
      (Ends (rowCheck (s.reg l) .read) s' () s' →
        Flies (.rclone a l w p) s p fun f => f.kind = .rows ∧ f.op = 7 ∧ f.a = s.reg a ∧ f.l = s.reg l)) ∧
    (16 ≤ slotsUsed u → Waits (.rinit a l w p) s ∧ Waits (.rclone a l w p) s) ∧
    (s.cur.2 = .s → Raises (.wfeed a l t d w p) s 0x01 (s.word.setWidth 64)) ∧
    (s.cur.2 = .l → 2 ≤ t.toNat → Raises (.wfeed a l t d w p) s 0x02 (s.word.setWidth 64)) ∧
    (s.cur.2 = .l → t.toNat < 2 → slotsUsed u < 16 → s.reg l ≠ 0 → s.inWindow (s.reg a).toNat = false → tdCvt (Tab.get 0 u.td d.toNat) = 0 →
      s.here.bufRead t.toNat s.ccount = false → stepFirst s s.cur.1 t.toNat = false →
      (Flies (.wfeed a l t d w p) s p fun f => f.kind = .move ∧ f.op = 9 ∧ f.target = t.toNat ∧ f.a = s.reg a ∧ f.l = s.reg l) ∧
      ∀ v, exec (.wfeed a l t d w p) s = .next v → (v.here.wbuf t.toNat).st = 1) ∧
    (u.flight.any TFlight.writesMem = false → s.covered s.seq.cover = true → (s.reg a).toNat % 64 = 0 → s'.covered s'.seq.cover = true →
      ∀ b x v, Ends (tReadBy false s.cur.1 s.cur.2 (s.reg a).toNat 64) s' (b, x) v → v.cur = s.cur →
        tdOk (BitVec.ofNat 512 (ofBytes b)) = true →
        ∃ y, exec (.tdset a d w p) s = .next y ∧ Tab.get 0 (y.here.tu s.cur.2).td d.toNat = BitVec.ofNat 512 (ofBytes b) ∧
          y.issued = true ∧ s.ccount + 4 ≤ y.seq.nextIssue ∧ SameRegs [] v y ∧ SameBytes v y)
  )

/-- R181, R183, R185, R192: the ring words of L and S, with a count of at least 1 that the ring can hold: each waits for its ring, and
claims, pushes, pops or ends it; `rgwf` that meets the colophon stays in flight for it; a claim behind a colophon is RING_COLOPHON_MISUSE. A
count of 0 needs nothing. That the count is held against that of the register named, a proxy's too, and that `rgclaim` behind a colophon raises at
once, too few free entries or not, is the model's choice (log 48). -/
def Obligations.RingWordsIssue : Prop :=
  ∀ (s : State) (l t : BitVec 5) (w p : BitVec 1), s.readyFor [l] = true → s.tokensReady w p = true → (s.cur.2 = .l ∨ s.cur.2 = .s) →
    let n := (s.reg l).toNat
    let i := t.toNat
    let r := s.here.ring i
    let h := s.homeRing s.cur.1 i
    let only := fun (u : Instr) (g : Ring) => ∃ v, exec u s = .next v ∧ GoesOn s v ∧ SameRegs [] s v ∧ SameBytes s v ∧ v.homeRing s.cur.1 i = g
    let mine := h.mayTake s.ccount (readerRank (s.ringHome s.cur.1 i).1 s.cur.1 s.cur.2)
    (r.valid = false → ∀ u ∈ [Instr.rgwf l t w p, .rgwe l t w p, .rgclaim l t w p, .rgpush l t w p, .rgpop l t w p, .rgend t w p],
      Raises u s 0x02 (s.word.setWidth 64)) ∧
    (r.count < n → ∀ u ∈ [Instr.rgwf l t w p, .rgwe l t w p, .rgclaim l t w p, .rgpop l t w p], Raises u s 0x02 (s.word.setWidth 64)) ∧
    (r.valid = true → n = 0 → only (.rgwf l t w p) h ∧ only (.rgwe l t w p) h ∧ only (.rgclaim l t w p) h ∧ only (.rgpush l t w p) h ∧
      only (.rgpop l t w p) h) ∧
    (r.valid = true → h.valid = true → 1 ≤ n → n ≤ r.count →
      (h.free < n → Waits (.rgwe l t w p) s) ∧ (n ≤ h.free → only (.rgwe l t w p) h) ∧
      (h.filled s.ccount < n → (h.colo = true → h.tail ≠ h.claim) → Waits (.rgwf l t w p) s) ∧
      (n ≤ h.filled s.ccount → h.isColophon h.head = false → only (.rgwf l t w p) h) ∧
      (n ≤ h.filled s.ccount ∨ (h.colo = true ∧ h.tail = h.claim) → h.isColophon h.head = true →
        Flies (.rgwf l t w p) s p fun f => f.kind = .ringWord ∧ f.op = 0x0A ∧ f.rpos = some h.head ∧ f.target = i) ∧
      (h.filled s.ccount < n → h.colo = true → h.tail = h.claim → h.isColophon h.head = false → only (.rgwf l t w p) h) ∧
      (h.colo = false → n ≤ h.free → h.waits = [] → only (.rgclaim l t w p) (h.claimN s.cur.1 n)) ∧
      (h.colo = false → (h.free < n ∨ h.waits ≠ []) → Waits (.rgclaim l t w p) s) ∧
      (h.colo = true → Raises (.rgclaim l t w p) s 0x13 (s.word.setWidth 64)) ∧
      (n ≤ h.claimed → Flies (.rgpush l t w p) s p fun f => f.kind = .ringWord ∧ f.op = 0x0D ∧ f.l = s.reg l ∧ f.target = i) ∧
      (h.claimed < n → Raises (.rgpush l t w p) s 0x02 (s.word.setWidth 64)) ∧
      (mine = false → Waits (.rgpop l t w p) s) ∧
      (mine = true → n ≤ h.filled s.ccount → Flies (.rgpop l t w p) s p fun f => f.kind = .ringWord ∧ f.op = 0x0E ∧ f.taken.length = n ∧ f.target = i)) ∧
    (r.valid = true → h.colo = true → Raises (.rgend t w p) s 0x13 (s.word.setWidth 64)) ∧
    (r.valid = true → h.colo = false →
      (Flies (.rgend t w p) s p fun f => f.kind = .ringWord ∧ f.op = 0x0F ∧ f.needsClaim = true ∧ f.target = i) ∧
      ∀ v, exec (.rgend t w p) s = .next v → (v.homeRing s.cur.1 i).waits = h.waits ++ [{ core := s.cur.1, ctx := s.cur.2, id := s.here.nextId + 1, colo := true }])

/-- R179, R34, R84, R85, R182, R183, R184, R192: the oldest word of L or S retires: a queued push becomes visible, a ring push or pop acts on
its home once that is VALID, and a transfer whose blocks are done and whose writes over links are performed leaves the flight: its ring entry is pushed,
popped or released, its queue entries hold what it moved, its weight buffer is FULL. Which claimed positions an `rgpush` pushes is the model's
choice (log 48).
R185: the oldest word of L or S that meets the colophon pops everything pushed and ends its stream as `halt` does. -/
def Obligations.TransfersRetireInOrder : Prop :=
  (
  ∀ (s : State) (n : CoreId) (q : Ctx) (f : TFlight) (rest : List TFlight), (q = .l ∨ q = .s) → ((s.core n).tu q).flight = f :: rest →
    (∀ g ∈ rest, g.id ≠ f.id) → ((s.core n).seq q).stop = none → f.parked = none → f.failed = none →
    (s.core n).cutting = .running → (s.core n).debugHalt = .running →
    let cov := s.coverOf n q
    let h := s.homeRing n f.target
    let gone := fun (t : State) => ((t.core n).tu q).flight = rest
    (f.kind = .popped → ∃ t, exec (.transferRetire n q) s = .next t ∧ gone t) ∧
    (f.kind = .post → 16 ≤ f.code → ∃ t, exec (.transferRetire n q) s = .next t ∧ gone t ∧
      (t.core n).dq (f.code - 16) = ((s.core n).dq (f.code - 16)).fill f.val cov s.ccount) ∧
    (f.kind = .post → f.code < 16 → ∃ t, exec (.transferRetire n q) s = .next t ∧ gone t ∧
      (t.core n).tkOf f.code = ((s.core n).tkOf f.code).fill () cov s.ccount) ∧
    (f.kind = .ringWord → f.op ≠ 0x10 → h.valid = false → Waits (.transferRetire n q) s) ∧
    (f.kind = .ringWord → f.op = 0x0D → h.valid = true → ∃ t, exec (.transferRetire n q) s = .next t ∧ gone t ∧
      t.homeRing n f.target = h.pushN n cov (s.fillAt n f.target) f.l.toNat) ∧
    (f.kind = .ringWord → f.op = 0x0E → h.valid = true → f.taken.any h.isColophon = false → f.taken.all (h.isFilled s.ccount) = true →
      ∃ t, exec (.transferRetire n q) s = .next t ∧ gone t ∧ t.homeRing n f.target = f.taken.foldl (fun r p => r.pop p) h) ∧
    (f.kind = .ringWord → f.op = 0x0E → (f.taken.any h.isColophon = true ∨ f.taken.all (h.isFilled s.ccount) = false) →
      Waits (.transferRetire n q) s) ∧
    (f.kind = .ringWord → f.op = 0x0F → h.valid = true → ∀ p, f.claimed = some p →
      ∃ t, exec (.transferRetire n q) s = .next t ∧ gone t ∧ t.homeRing n f.target = h.push p cov s.ccount) ∧
    (f.kind = .move → f.emptyWin = false → (f.op = 9 → (unpackRows (tdEsz f.td) f.got 128 0 []).2 = none) → f.accessed = true → f.needsClaim = false →
      (f.fillsRing = true → f.claimed ≠ none) → (f.namesRing = true → h.valid = true) → s.farWrites (f.agent n q) = false → ∃ t, exec (.transferRetire n q) s = .next t ∧ gone t ∧
        (∀ p, f.rpos = some p → f.claimed = none → t.homeRing n f.target = if f.keep then h.release p else h.pop p) ∧
        (∀ p, f.claimed = some p → f.rpos = none → t.homeRing n f.target = h.push p cov ((s.core n).tu q).wrTill) ∧
        (f.rpos = none → f.claimed = none →
          (f.mode = 1 → memIsDst f.op = false → f.xst.getLsbD 1 = false →
            (t.core n).iqOf f.target = ((s.core n).iqOf f.target).fill (f.pvec.getD 0) cov s.ccount) ∧
          (f.mode = 2 → (t.core n).dq f.target = (List.range (tCount f.op f.td)).foldl (fun d i =>
            d.fill (BitVec.ofNat 64 ((f.pvec.getD 0).toNat / 256 ^ ((cvtSizes f.op f.td).2 * i) % 256 ^ (cvtSizes f.op f.td).2)) cov s.ccount) ((s.core n).dq f.target)) ∧
          (f.mode = 3 → (t.core n).wbuf f.target = { (s.core n).wbuf f.target with st := 2, esize := tdSize f.td }))) ∧
    (f.kind = .rows → f.cursor ≠ 1 → s.covered f.cover = true → s.farWrites (f.agent n q) = false →
      ∀ u, Ends (rowsEffect n q f) { s with reader := f.agent n q } () u → u.farWrites (f.agent n q) = false →
        ∃ t, exec (.transferRetire n q) s = .next t ∧ gone t ∧ SameBytes u t)
  ) ∧
  (
  ∀ (s : State) (n : CoreId) (q : Ctx) (f : TFlight) (p : Nat), (q = .l ∨ q = .s) → ((s.core n).tu q).flight = [f] →
    ((s.core n).seq q).stop = none → (s.core n).cutting = .running → (s.core n).debugHalt = .running → f.failed = none →
    f.reads = [p] → (s.homeRing n f.target).isColophon p = true → ((s.core n).ring f.target).fwdEn = false →
    ∃ t, exec (.colophonMeet n q) s = .next t ∧ ((t.core n).tu q).flight = [] ∧ ((t.core n).seq q).halting = true ∧
      ((t.core n).seq q).regs = f.seq0.regs ∧ ((t.core n).seq q).fcsr = ((s.core n).seq q).fcsr ∧
      (t.homeRing n f.target).colo = false ∧ (t.homeRing n f.target).head = (s.homeRing n f.target).tail ∧
      (t.homeRing n f.target).tail = (s.homeRing n f.target).tail ∧ SameBytes s t
  )

/-- R174, R179, R180, R182, R184, R187, R188, R206, R207, R208: a block of a transfer whose accesses go to slices and device memory moves its
bytes. They are read by pattern, by index, by window or from the ring entry or queue entry taken, converted, and stored: by pattern, by index or
contiguously in memory, in the ring entry claimed with zero bits behind the last block, in the vector of a queue entry, or in the weight buffer.
Every other byte stays as it was.
R190, R328, R331: the effect of `rclone` and `rinit` on granules of device memory: the destination holds the source's bytes, or the pattern
repeated, every other byte of memory stays, and FALLBACK tells of granules that are not co-located. A clone of a granule to itself does nothing. -/
def Obligations.TransfersMoveTheirBytes : Prop :=
  (
  ∀ (s : State) (n : CoreId) (q : Ctx) (f : TFlight) (k : Nat) (at_ : Nat → Target), (q = .l ∨ q = .s) → s.plain n q →
    k < f.blocks → (∀ b ∈ f.ahead, b.1 ≠ k) → (∀ g ∈ ((s.core n).tu q).flight, g.id = f.id → g = f) →
    (∀ a, a % 64 ≠ 63 → at_ (a + 1) = (at_ a).next) → (cvtSizes f.op f.td).1 = tdSize f.td →
    let sz := tdSize f.td
    let is := f.elems k
    let base := tBase f.op f.a f.l (tdW f.td 3)
    let get := fun (a len : Nat) => (List.range len).map fun j => s.homeByte s.ccount (at_ (a + j))
    let bytesAt := fun (as : List (Nat × Nat)) => as.flatMap fun x => (List.range x.2).map fun j => x.1 + j
    let reads := fun (as : List (Nat × Nat)) => ∀ a ∈ bytesAt as, s.direct n .read a (at_ a)
    let writes := fun (as : List (Nat × Nat)) => ∀ a ∈ bytesAt as, s.direct n .write a (at_ a)
    let conv := fun (w : Nat) (b : List Byte) => (convertAll (tdCvt f.td) f.fcsr w b).1
    let index := fun (i : Nat) => (f.l + BitVec.ofNat 64 (4 * (i / tdN f.td 0))).toNat
    let pat := fun (i : Nat) => patAddr base f.td i
    let ind := fun (i : Nat) => (f.a + BitVec.ofNat 64 (ofBytes (get (index i) 4)) * tdS f.td 1 + BitVec.ofNat 64 (i % tdN f.td 0 * sz)).toNat
    let own := ((s.core n).tu q).flight
    -- the block's bytes as they come, and where they come from
    let source := fun (src : List Byte) =>
      (f.op = 9 ∧ reads [((f.a + BitVec.ofNat 64 (64 * k)).toNat, f.blockLen k)] ∧ src = get (f.a + BitVec.ofNat 64 (64 * k)).toNat (f.blockLen k)) ∨
      ((f.op = 1 ∨ f.op = 3) ∧ reads (is.map fun i => (pat i, sz)) ∧ src = conv sz (is.flatMap fun i => get (pat i) sz)) ∨
      (f.op = 4 ∧ (∀ i ∈ is, index i % 4 = 0) ∧ reads (is.map fun i => (index i, 4)) ∧ reads (is.map fun i => (ind i, sz)) ∧
        src = conv sz (is.flatMap fun i => get (ind i) sz)) ∨
      (f.op = 6 ∧ reads (is.filterMap fun i => (winAddr f i).map fun a => (a, sz)) ∧
        src = conv sz (is.flatMap fun i => match winAddr f i with | some a => get a sz | none => toBytes sz (tdW f.td 5).toNat)) ∨
      ((f.op = 2 ∨ f.op = 5) ∧ f.mode = 1 ∧ src = toBytes (f.blockLen k) ((f.pvec.getD 0).toNat / 2 ^ (512 * k))) ∨
      ((f.op = 2 ∨ f.op = 5) ∧ f.mode = 0 ∧ reads [(entryAddr s n f.target (f.rpos.getD 0) (64 * k), f.blockLen k)] ∧
        src = get (entryAddr s n f.target (f.rpos.getD 0) (64 * k)) (f.blockLen k))
    let moves := fun (as : List (Nat × Nat)) (bs : List Byte) => writes as → ∃ t, Ends (moveBlock n q f k) s () t ∧
      Stores s t at_ ((bytesAt as).zip bs) ∧ ∀ g ∈ ((t.core n).tu q).flight, g.id = f.id → g.cursor = k + 1 ∧ g.pvec = f.pvec
    let takes := fun (good : State → TFlight → Prop) => ∃ t, Ends (moveBlock n q f k) s () t ∧ SameBytes s t ∧
      ∀ g ∈ own, g.id = f.id → ∃ h ∈ ((t.core n).tu q).flight, h.id = f.id ∧ h.cursor = k + 1 ∧ good t h
    ∀ src, source src →
      (f.op = 3 → moves [((f.a + BitVec.ofNat 64 (64 * k)).toNat, src.length)] src) ∧
      (f.op = 2 → moves (is.map fun i => (pat i, sz)) (conv (cvtSizes f.op f.td).2 src)) ∧
      (f.op = 5 → (∀ i ∈ is, index i % 4 = 0) → reads (is.map fun i => (index i, 4)) → moves (is.map fun i => (ind i, sz)) (conv (cvtSizes f.op f.td).2 src)) ∧
      ((f.op = 1 ∨ f.op = 4 ∨ f.op = 6) → f.mode = 0 →
        let e := entryAddr s n f.target (f.claimed.getD 0)
        let rest := ((s.core n).ring f.target).size - f.bytes
        moves ((e (64 * k), src.length) :: if k + 1 = f.blocks then [(e f.bytes, rest)] else []) (src ++ if k + 1 = f.blocks then List.replicate rest 0 else [])) ∧
      ((f.op = 1 ∨ f.op = 4 ∨ f.op = 6) → (f.mode = 1 ∨ f.mode = 2) → takes fun _ h => h.pvec = some (vecPut (f.pvec.getD 0) (64 * k) src)) ∧
      (f.op = 1 → f.mode = 3 → takes fun t _ =>
        (t.core n).wbuf f.target = { (s.core n).wbuf f.target with img := Tab.setRange 0 ((s.core n).wbuf f.target).img (64 * k) src }) ∧
      (f.op = 9 → f.mode = 3 → takes fun t h => h.got = f.got ++ src ∧
        (t.core n).wbuf f.target = { (s.core n).wbuf f.target with img := (unpackRows (tdEsz f.td) (f.got ++ src) 128 0 []).1 })
  ) ∧
  (
  ∀ (s : State) (n : CoreId) (q : Ctx) (f : TFlight) (ps pd : Nat), (q = .l ∨ q = .s) → s.plain n q →
    (∀ g ∈ ((s.core n).tu q).flight, g.id = f.id → g = f) → f.a.toNat % 1024 = 0 →
    (∀ i, i < 1024 → s.direct n .write (f.a.toNat + i) (.dev (pd + i))) →
    let fills := fun (b : Nat → Byte) (x : BitVec 4) => ∃ t, Ends (rowsEffect n q f) s () t ∧
      (∀ i, i < 1024 → t.homeByte s.ccount (.dev (pd + i)) = b i) ∧
      (∀ a, (a < pd ∨ pd + 1024 ≤ a) → t.homeByte s.ccount (.dev a) = s.homeByte s.ccount (.dev a)) ∧
      (∀ m o, sliceByte (t.core m) s.ccount o = sliceByte (s.core m) s.ccount o) ∧
      ∀ g ∈ ((t.core n).tu q).flight, g.id = f.id → g.xst = f.xst ||| x
    (f.op = 8 → fills (fun i => BitVec.ofNat 8 (f.l.toNat / 256 ^ (i % 8))) 0) ∧
    (f.op = 7 → f.a ≠ f.l → s.direct n .read f.l.toNat (.dev ps) →
      fills (fun i => s.homeByte s.ccount (.dev (ps + i))) (if colocated ps pd then 0 else 1)) ∧
    (f.op = 7 → f.a = f.l → Ends (rowsEffect n q f) s () s)
  )

/-! ## The matrix engine -/

/-- R80, R197 to R203, R211 to R217: an M-word raises what its first group of checks finds, SCHEDULE_MISS when it is late by more than its
slack, waits until it is on time and ready, raises what its last group finds, and else issues with its retirement time set.
R197, R215, R216, R217: the retirement times of steps, fills and read-outs, by format and columns. -/
def Obligations.MatrixWordsIssue : Prop :=
  (
  ∀ (s : State) (a b n : BitVec 5) (c e sh w p u : BitVec 1) (f x : BitVec 3) (r : BitVec 2), s.readyFor [n, n + 1] = true → s.cur.2 = .c →
    let now := s.ccount
    let core := s.cur.1
    let stamp := s.reg (n + 1)
    let d := sextNat (now % 2 ^ 52 + (2 ^ 52 - stamp.toNat % 2 ^ 52)) 52
    let slack : Int := (stamp.toNat / 2 ^ 52 : Nat)
    let issues := fun (i : Instr) (A : MArgs) (st : Bool) =>
      let ready := s.tokensReady w p = true ∧ mReady s core A false = true ∧
        s.covered (s.seq.cover.join (s.here.tokenCover (s.waitOf w) now)) = true ∧ ¬(isStep A.op = true ∧ attStepReady s core = true)
      (mGroup1 s core A = false → Raises i s 0x02 (s.word.setWidth 64)) ∧
      (mGroup1 s core A = true →
        (st = true → slack < d → Raises i s 0x07 stamp) ∧
        (st = true → d < 0 → Waits i s) ∧
        ((st = true → 0 ≤ d ∧ d ≤ slack) → ¬ready → Waits i s) ∧
        ((st = true → 0 ≤ d ∧ d ≤ slack) → ready → mMeets s.here A = none →
          (∀ code, mGroup3 s core A = some code → Raises i s code (s.word.setWidth 64)) ∧
          (mGroup3 s core A = none → ∃ t y, exec i s = .next t ∧ t.here.mat.flight = s.here.mat.flight ++ [y] ∧ y.op = A.op ∧ y.issued = now ∧
            y.due = A.dueAt A.cols now ∧ y.n = A.n ∧ y.post = (if p = 1 then s.seq.pmask else 0) ∧
            (isStep A.op = true → t.here.mat.arrayTill = now + A.occupancy A.cols) ∧ GoesOn s t ∧ SameRegs [] s t ∧ SameBytes s t)))
    let step := fun (op ra : Nat) (e : Bool) =>
      ({ op := op, ra := ra, rb := b.toNat, acc := c.toNat, fmt := f.toNat, e := e, buf := u.toNat, n := s.reg n, rnd := 0 } : MArgs)
    let fill := fun (op : Nat) =>
      ({ op := op, ra := a.toNat, rb := 0, acc := 0, fmt := f.toNat, e := false, buf := u.toNat, n := 0, rnd := 0 } : MArgs)
    issues (.mma b n c f sh w p u) (step 1 0 false) (sh == 1) ∧ issues (.mmaE b n c f sh w p u) (step 1 0 true) (sh == 1) ∧
    issues (.mmaA a b n c f sh w p u) (step 2 a.toNat true) (sh == 1) ∧
    issues (.mabs b n c f sh w p u) (step 3 0 false) (sh == 1) ∧ issues (.mabsE b n c f sh w p u) (step 3 0 true) (sh == 1) ∧
    issues (.mwin b n c f e sh w p u) (step 8 0 (e == 1)) (sh == 1) ∧ issues (.mdw b n c f e sh w p u) (step 9 0 (e == 1)) (sh == 1) ∧
    issues (.wld a f w p u) (fill 4) false ∧ issues (.wstr a f w p u) (fill 5) false ∧
    issues (.accrd a n c f w p r) { op := 6, ra := a.toNat, rb := 0, acc := c.toNat, fmt := f.toNat, e := false, buf := 0, n := s.reg n, rnd := r } false ∧
    issues (.accrdE a b n c f w p r)
      { op := 6, ra := a.toNat, rb := b.toNat, acc := c.toNat, fmt := f.toNat, e := true, buf := 0, n := s.reg n, rnd := r } false ∧
    issues (.acczr c x w p) { op := 7, ra := 0, rb := 0, acc := c.toNat, fmt := 0, e := false, buf := 0, n := 0, rnd := 0 } false
  ) ∧
  (
  ∀ (a : MArgs) (cols now : Nat),
    ((a.op = 1 ∨ a.op = 2 ∨ a.op = 3 ∨ a.op = 8) →
      (a.fmt = 0 → a.dueAt cols now = now + (cols + 1) / 2 + 23) ∧ (a.fmt = 1 ∨ a.fmt = 2 → a.dueAt cols now = now + cols + 23) ∧
      (a.fmt = 3 → a.dueAt cols now = now + 4 * cols + 23) ∧ (a.fmt = 4 → a.dueAt cols now = now + 16 * cols + 23)) ∧
    (a.op = 9 → a.dueAt cols now = now + 2 * cols + 23) ∧
    (a.op = 6 → a.dueAt cols now = now + cols + 7) ∧ (a.op = 7 → a.dueAt cols now = now + 1)
  )

/-- R42, R183, R197, R198, R204, R209, R211 to R217: what the retirement of each M-word leaves: a step its columns in the accumulator and
its rings popped, a fill its buffer FULL, a store and a read-out their ring entries pushed, `acczr` the accumulator NONE. The entries hold the image of
the buffer, or the rounded values and radii of the columns, with zero bits behind them, and no other byte of the slice changes. That the writes
of a word are presented at its retirement is the model's choice (log 30). -/
def Obligations.MatrixWordsRetire : Prop :=
  ∀ (s : State) (n : CoreId) (f : MFlight), (s.core n).cutting ≠ .stopped → (s.core n).debugHalt ≠ .stopped → f.failed = none → f.cut = none →
    let c := s.core n
    let x := c.mat.accOf f.acc
    let cov := s.coverOf n .c
    let next := fun (sel : MFlight → Bool) => nextM s.ccount (fun g => sel g && !c.holdsM g.id) [] c.mat.flight = some f
    let gone := fun (t : State) => (t.core n).mat.flight = c.mat.flight.filter fun g => decide (g.id ≠ f.id)
    let bytesOf := fun (t : State) (o : Nat) => sliceByte (t.core n) (s.ccount + 6) o
    let fresh := ∀ w ∈ c.recent, w.cyc < s.ccount
    let baseA := s.ringOff n f.ringA (f.posA.getD 0) 0
    let baseB := s.ringOff n f.ringB (f.posB.getD 0) 0
    let sizeA := (c.ring f.ringA).size
    let sizeB := (c.ring f.ringB).size
    let nr := f.n.toNat % 2 ^ 10
    let rf := mFmt f.fmt
    let rsz := rf.width / 8
    let ftz := f.ftz.getLsbD (if f.fmt = 1 then 1 else if f.fmt = 2 then 0 else if f.fmt = 3 then 2 else 3)
    let els := fun (col : Nat) => (List.range 128).map fun r => 512 * r + f.n.toNat / 2 ^ 16 % 2 ^ 10 + col
    let apart := f.enc = false ∨ baseA + Nat.max sizeA (128 * nr * rsz) ≤ baseB ∨ baseB + Nat.max sizeB (512 * nr) ≤ baseA
    (next (fun g => isStep g.op) → isStep f.op = true →
      ∃ t, exec (.matrixStepRetire n) s = .next t ∧ gone t ∧
        ((t.core n).mat.accOf f.acc).el = (stepColumns f f.from_ f.slotsOf x.el c.mat.bound).1 ∧
        ((t.core n).mat.accOf f.acc).afmt = x.afmt ∧ (t.core n).mat.bound = (stepColumns f f.from_ f.slotsOf x.el c.mat.bound).2.1 ∧
        (t.core n).c.flagPend = c.c.flagPend ||| (f.flags ||| (stepColumns f f.from_ f.slotsOf x.el c.mat.bound).2.2) ∧
        (∀ p, f.posB = some p → f.posA = none → (t.core n).ring f.ringB = (c.ring f.ringB).pop p) ∧ SameBytes s t) ∧
    (next (fun g => !isStep g.op) → f.op = 4 →
      ∃ t, exec (.mWordRetire n) s = .next t ∧ gone t ∧
        (t.core n).wbuf f.buf = { st := 2, esize := 2 ^ mEsz f.fmt, img := Tab.setRange 0 [] 0 f.opnd } ∧
        (∀ p, f.posA = some p → (t.core n).ring f.ringA = (c.ring f.ringA).pop p) ∧ SameBytes s t) ∧
    (next (fun g => !isStep g.op) → (f.op = 5 ∨ f.op = 6) → s.outLocked n f = true → Waits (.mWordRetire n) s) ∧
    (next (fun g => !isStep g.op) → f.op = 5 → s.outLocked n f = false → f.from_ = 0 →
      ∃ t, exec (.mWordRetire n) s = .next t ∧ gone t ∧ (t.core n).ring f.ringA = (c.ring f.ringA).push (f.posA.getD 0) cov (s.ccount + 6) ∧
        (∀ pa, t.devBytes pa 1 = s.devBytes pa 1) ∧
        (fresh → (∀ i b, f.img[i]? = some b → bytesOf t (baseA + i) = b) ∧
          (∀ i, f.img.length ≤ i → i < sizeA → bytesOf t (baseA + i) = 0) ∧
          ∀ o, (o < baseA ∨ baseA + Nat.max sizeA f.img.length ≤ o) → bytesOf t o = bytesOf s o)) ∧
    (next (fun g => !isStep g.op) → f.op = 6 → s.outLocked n f = false → f.from_ < f.slotsOf →
      ∃ t, exec (.mWordRetire n) s = .next t ∧ gone t ∧
        (f.enc = false ∨ f.ringB ≠ f.ringA → (t.core n).ring f.ringA = (c.ring f.ringA).push (f.posA.getD 0) cov (s.ccount + 6)) ∧
        (f.enc = true → f.ringB ≠ f.ringA → (t.core n).ring f.ringB = (c.ring f.ringB).push (f.posB.getD 0) cov (s.ccount + 6)) ∧
        (t.core n).mat.accOf f.acc = x ∧ (∀ pa, t.devBytes pa 1 = s.devBytes pa 1) ∧
        (fresh → 1 ≤ f.fmt → f.fmt ≤ 4 → apart →
          (∀ col h r y, 16 * f.from_ ≤ col → col < 16 * (nr / 16) → h < 2 → r < 64 →
            ((Tab.pick (0, 0) x.el (els col)).zip (Tab.pick 0 c.mat.bound (els col)))[64 * h + r]? = some y →
            let v := foldEl (if x.afmt = 2 then .f64 else .f32) rf (modeOf f.frm) ftz f.enc { sum := y.1.1.toNat, comp := y.1.2.toNat, bound := y.2.toNat }
            (∀ j, j < rsz → bytesOf t (baseA + ((h * nr + col) * 64 + r) * rsz + j) = BitVec.ofNat 8 (v.1 / 256 ^ j)) ∧
            (f.enc = true → ∀ j, j < 4 → bytesOf t (baseB + ((h * nr + col) * 64 + r) * 4 + j) = BitVec.ofNat 8 (v.2.1 / 256 ^ j))) ∧
          (∀ i, 128 * nr * rsz ≤ i → i < sizeA → bytesOf t (baseA + i) = 0) ∧
          (f.enc = true → ∀ i, 512 * nr ≤ i → i < sizeB → bytesOf t (baseB + i) = 0) ∧
          ∀ o, (o < baseA ∨ baseA + Nat.max sizeA (128 * nr * rsz) ≤ o) → (f.enc = false ∨ o < baseB ∨ baseB + Nat.max sizeB (512 * nr) ≤ o) →
            bytesOf t o = bytesOf s o)) ∧
    (next (fun g => !isStep g.op) → f.op = 7 →
      ∃ t, exec (.mWordRetire n) s = .next t ∧ gone t ∧ (t.core n).mat.accOf f.acc = { afmt := 0, el := [] } ∧
        (t.core n).mat.bown = (if c.mat.bown = f.acc + 1 then 0 else c.mat.bown) ∧ SameBytes s t)

/-! ## The vector side -/

/-- R141, R146, R151 to R165: the lane-wise V-words issue with the result of their lane function in every active lane, and retire after
their latency; the codes, the lane type, the interlocks, the queues and FP_TRAP are checked as R146 orders them. -/
def Obligations.LaneWordsIssue : Prop :=
  ∀ (s : State) (d a b : BitVec 7) (w p : BitVec 1) (r : BitVec 2), s.canIssue = true → s.cur.2 = .c →
    let u := s.here.vec
    let t := u.ty
    let fm := laneFmt t
    let ftz := s.vFtz fm
    let m := s.vMode r
    let la := fun (c : BitVec 7) (j : Nat) => laneAt (laneW t) (s.vOperand c.toNat) j
    let form := fun (srcs : List Nat) (ok : Bool) (lat : Nat) (div expo : Bool) =>
      { VForm.lanes u srcs d.toNat ok lat with dec := decide (srcs.length < 3 ∨ d.toNat < 64), divider := div, expo := expo }
    let lanes := fun (track : Bool) (g : Nat → LaneOut) => some (lanesRes (laneW t) (track && u.bt) (mapLanes u g))
    let arith := fun (i : Instr) (op : Nat) (srcs : List Nat) (ok : Bool) (y z : Nat → Nat) =>
      VIssues i s w p (form srcs ok (if 7 ≤ op then (if laneW t = 64 then 24 else 12) else 4) (decide (7 ≤ op)) false)
        (lanes true fun j => if laneInt t then intLane op t u.sat (la a j) (y j) (z j) else fpLane op fm m ftz (la a j) (y j) (z j))
    let two := fun (i : Instr) (g : Nat → Nat → LaneOut) =>
      VIssues i s w p (form [a.toNat, b.toNat] true 2 false false) (lanes false fun j => g (la a j) (la b j))
    let one := fun (i : Instr) (ok : Bool) (g : Nat → LaneOut) =>
      VIssues i s w p (form [a.toNat] ok 2 false false) (lanes false fun j => g (la a j))
    arith (.vadd d a b w p r) 2 [a.toNat, b.toNat] true (la b) (fun _ => 0) ∧
    arith (.vsub d a b w p r) 3 [a.toNat, b.toNat] true (la b) (fun _ => 0) ∧
    arith (.vmul d a b w p r) 4 [a.toNat, b.toNat] true (la b) (fun _ => 0) ∧
    arith (.vfma d a b w p r) 5 [a.toNat, b.toNat, d.toNat] true (la b) (la d) ∧
    arith (.vfms d a b w p r) 6 [a.toNat, b.toNat, d.toNat] true (la b) (la d) ∧
    arith (.vdiv d a b w p r) 7 [a.toNat, b.toNat] (!laneInt t) (la b) (fun _ => 0) ∧
    arith (.vsqrt d a w p r) 8 [a.toNat] (!laneInt t) (fun _ => 0) (fun _ => 0) ∧
    arith (.vrcp d a w p r) 9 [a.toNat] (!laneInt t) (fun _ => 0) (fun _ => 0) ∧
    two (.vmin d a b w p r) (minmaxLane t ftz false false) ∧ two (.vmax d a b w p r) (minmaxLane t ftz true false) ∧
    two (.vminn d a b w p r) (minmaxLane t ftz false true) ∧ two (.vmaxn d a b w p r) (minmaxLane t ftz true true) ∧
    one (.vabs d a w p r) true (signLane t u.sat true) ∧ one (.vneg d a w p r) true (signLane t u.sat false) ∧
    two (.vand d a b w p r) (fun x y => .plain (x &&& y)) ∧ two (.vor d a b w p r) (fun x y => .plain (x ||| y)) ∧
    two (.vxor d a b w p r) (fun x y => .plain (x ^^^ y)) ∧ one (.vnot d a w p r) true (fun x => .plain (2 ^ laneW t - 1 - x)) ∧
    two (.vshl d a b w p r) (fun x y => .plain (shiftLane (laneW t) 0 x y)) ∧ two (.vshr d a b w p r) (fun x y => .plain (shiftLane (laneW t) 1 x y)) ∧
    two (.vsra d a b w p r) (fun x y => .plain (shiftLane (laneW t) 2 x y)) ∧
    VIssues (.vscale d a b w p r) s w p (form [a.toNat, b.toNat] (!laneInt t) 4 false false)
      (lanes true fun j => scaleLane t m ftz (la a j) (la b j)) ∧
    VIssues (.vexp2 d a w p r) s w p (form [a.toNat] (expTy t) 8 false true) (lanes true fun j => exp2Lane fm m ftz (la a j)) ∧
    VIssues (.vlog2 d a w p r) s w p (form [a.toNat] (expTy t) 8 false true) (lanes true fun j => log2Lane fm m ftz (la a j)) ∧
    two (.vperm d a b w p r) (fun _ y => .plain (la a (y % laneL t))) ∧
    one (.vbcast d a w p r) true (fun _ => .plain (la a 0)) ∧ one (.vmov d a w p r) true LaneOut.plain ∧
    one (.vclass d a w p r) (!laneInt t) (fun x => .plain (classLane t x)) ∧
    one (.vpopc d a w p r) true (fun x => .plain (popcount 64 x)) ∧
    VIssues (.vmagsum d a w p r) s w p { VForm.lanes u [a.toNat] d.toNat (decide (t < 4)) 4 with eb := true }
      (some (lanesRes (laneW t) true (mapLanes u fun j => magLane fm m ftz (Tab.get 0 u.eb j) (la a j))))

/-- R142, R144, R155, R156, R159, R162, R166 to R169: the V-words that are not lane-wise issue with their results: mask and flags of a
comparison, lanes of a conversion, elements of a transpose (element (c, r) is the source's element (r, c)), the image a rule slot takes;
`vshape` governs from the next word. That the lanes a conversion writes to a slice form one image, and that `vrule` with RO = 1 still waits
for and pops a queue its va names, are the model's choices (log 47). -/
def Obligations.OtherVectorWordsIssue : Prop :=
  ∀ (s : State) (d a b : BitVec 7) (w p k : BitVec 1) (r : BitVec 2) (i : BitVec 21) (g : BitVec 14), s.canIssue = true → s.cur.2 = .c →
    let u := s.here.vec
    let t := u.ty
    let fm := laneFmt t
    let la := fun (c : BitVec 7) (j : Nat) => laneAt (laneW t) (s.vOperand c.toNat) j
    let lg := Nat.log2 (laneL t)
    let reduces := fun (x : Instr) (op : Nat → Nat → LaneOut) (idle : Nat) (track : Bool) =>
      let y := Tree.reduce op lg { xs := (List.range (laneL t)).map fun j => if u.active j then la a j else idle, flags := 0, err := some 0 }
      VIssues x s w p (VForm.lanes u [a.toNat] d.toNat true (4 + 2 * lg))
        (some { VRes.none with out := some (BitVec.ofNat 2048 (y.xs.headD 0), allBits), flags := y.flags
                               eb := if track && u.bt && !laneInt t then [(0, y.err)] else [] })
    let old := u.cfgOf d.toNat
    VIssues (.vsel d a b w p r) s w p { VForm.lanes u [a.toNat, b.toNat] d.toNat true 2 with masks := r.toNat :: u.maskRead }
      (some (lanesRes (laneW t) false (mapLanes u fun j => .plain (if (Tab.get 0 u.vm r.toNat).getLsbD j then la a j else la b j)))) ∧
    reduces (.vsum d a w p r) (sumOp t (s.vMode r) (s.vFtz fm) u.sat) (sumZero t (s.vMode r)) true ∧
    reduces (.vmaxr d a w p r) (minmaxLane t (s.vFtz fm) true false) (maxLeast t) false ∧
    (∃ f x, VIssues (.vcmp d a b w p r) s w p { VForm.lanes u [a.toNat, b.toNat] 0 true 2 with dst := none, dec := decide (d.toNat < 8) } (some f) ∧
      f.dst = [(.mask d.toNat, x)] ∧
      f.flags = (List.range (laneL t)).foldl (fun y j => if u.active j then y ||| (cmpLane t (s.vFtz fm) r.toNat (la a j) (la b j)).2 else y) 0 ∧
      (∀ j, j < laneL t → u.active j = true → (x.2.getLsbD j = true ∧ x.1.getLsbD j = (cmpLane t (s.vFtz fm) r.toNat (la a j) (la b j)).1)) ∧
      (∀ j, j < laneL t → u.active j = false → x.2.getLsbD j = false) ∧
      (∀ j, laneL t ≤ j → j < 256 → x.2.getLsbD j = true ∧ x.1.getLsbD j = false)) ∧
    (∃ ok outs, VIssues (.vcvt d a b w p r) s w p { VForm.lanes u [a.toNat] d.toNat ok 4 with dec := decide (b.toNat < 16 ∧ laneRsv b.toNat = false) }
        (some (lanesRes (laneW b.toNat) u.bt outs)) ∧
      (ok = true ↔ b.toNat ≠ t ∧ (laneL t = laneL b.toNat ∨
        (laneL b.toNat < laneL t ∧ u.part < laneL t / laneL b.toNat) ∨ (laneL t < laneL b.toNat ∧ u.part < laneL b.toNat / laneL t))) ∧
      outs.length = laneL b.toNat ∧
      ∀ j, j < laneL b.toNat → outs[j]? = some (
        let conv := fun (x : Nat) => cvtLane t b.toNat (s.vMode r) s.vFtz u.sat u.scale (la a x)
        if ¬u.active j then none
        else if laneL t = laneL b.toNat then some (conv j)
        else if laneL b.toNat < laneL t then some (conv (u.part * laneL b.toNat + j))
        else if u.part * laneL t ≤ j ∧ j < u.part * laneL t + laneL t then some (conv (j - u.part * laneL t)) else none)) ∧
    (∃ f, VIssues (.vshape i w p) s w p (VForm.bare (!laneRsv (i.toNat % 16)) 2 []) (some f) ∧ f = { VRes.none with clr := !u.bt && i.getLsbD 4, shape := some i } ∧
      ∀ t, exec (.vshape i w p) s = .next t → t.here.vec.flight.length = u.flight.length + 1 → t.here.vec.gov = i) ∧
    (∃ f x, VIssues (.mcfg d g w p k) s w p (VForm.bare (decide (d.toNat < 8) && cfgLegal g) 2 (if k = 1 then [d.toNat] else [])) (some f) ∧
      f.tile = some (d.toNat, x, g) ∧ f.rshp = (decide (k = 1) && decide (g ≠ old)) ∧ (k = 0 → x = 0) ∧
      (k = 1 → x.toNat = (Tab.get 0 u.tile d.toNat).toNat % 2 ^ Nat.min (cfgRows old * cfgCols old * cfgW old) (cfgRows g * cfgCols g * cfgW g))) ∧
    VIssues (.mzero d w p r) s w p (VForm.bare (decide (d.toNat < 8)) 2 []) (some { VRes.none with tile := some (d.toNat, 0, old) }) ∧
    (∃ f x c, VIssues (.mtr d a w p r) s w p (VForm.bare (decide (d.toNat < 8) && decide (a.toNat < 8)) 34 [a.toNat]) (some f) ∧
      f.tile = some (d.toNat, x, c) ∧ c.toNat % 16 = (u.cfgOf a.toNat).toNat % 16 ∧
      c.toNat / 16 % 16 = (u.cfgOf a.toNat).toNat / 256 % 16 ∧ c.toNat / 256 = (u.cfgOf a.toNat).toNat / 16 % 16 ∧
      let o := u.cfgOf a.toNat
      let elem := fun (m : BitVec 131072) (k : Nat) => m.toNat / 2 ^ (cfgW o * k) % 2 ^ cfgW o
      ∀ y z, y < cfgCols o → z < cfgRows o → cfgW o * (y * cfgRows o + z) + cfgW o ≤ 131072 →
        elem x (y * cfgRows o + z) = elem (Tab.get 0 u.tile a.toNat) (z * cfgCols o + y)) ∧
    (∃ f, VIssues (.vrelax d a b w p r) s w p
        { VForm.lanes u [a.toNat, b.toNat] d.toNat (decide (t = 1)) 8 with dec := decide (d.toNat < 30), eb := true, ruleTab := true } f ∧
      let segs := fun (j : Nat) => usedSegs (Tab.get 0 u.rule (laneAt 32 (s.vOperand b.toNat) j % 16))
      let lane := fun (j : Nat) => relaxLane (laneAt 32 (s.vOperand a.toNat) j) (Tab.get 0 u.eb j).toNat (segs j)
      (f = none ↔ ∃ j, j < 64 ∧ u.active j = true ∧ segs j = []) ∧
      ∀ y, f = some y → ∃ x0 x1 x2 : Vec × Vec, y.out = some x0 ∧
        y.dst = [(.vreg (d.toNat + 1), x1.1, x1.2), (.vreg (d.toNat + 2), x2.1, x2.2)] ∧
        ∀ j, j < 64 → u.active j = true → laneAt 32 x0.1 j = (lane j).1 % 2 ^ 32 ∧ laneAt 32 x1.1 j = (lane j).2.1 % 2 ^ 32 ∧
          laneAt 32 x2.1 j = (lane j).2.2 % 2 ^ 32) ∧
    (∃ f, VIssues (.vrule d a b w p r) s w p { VForm.bare true 2 [] with srcs := [a.toNat, b.toNat], dst := some d.toNat, ruleTab := true } f ∧
      let sel := laneAt 32 (s.vOperand b.toNat) 0
      (f = none ↔ sel < 2 ^ 31 ∧ imageOk (s.vOperand a.toNat) = false) ∧
      ∀ y, f = some y → y = { VRes.none with
        out := some (Tab.get 0 u.rule (sel % 16), allBits)
        dst := if sel < 2 ^ 31 then [(.rule (sel % 16), s.vOperand a.toNat, allBits)] else [], isRule := true })

/-- R152: integer lanes of `vadd`, `vsub`, `vmul`, `vfma` and `vfms` wrap; under SAT they clamp to the range of their type.
R140, R141, R146: at retirement each active lane of the destination register holds its result, and the others keep their bits; every
other register keeps its value. -/
def Obligations.LanesWrapClampOrKeep : Prop :=
  (
  ∀ (t a b d : Nat), 8 ≤ t → t < 16 → a < 2 ^ laneW t → b < 2 ^ laneW t → d < 2 ^ laneW t →
    let w := laneW t
    let v := fun (x : Nat) => if t < 12 then sextNat x w else (x : Int)
    let lo : Int := if t < 12 then -(2 ^ (w - 1) : Int) else 0
    let hi : Int := if t < 12 then (2 ^ (w - 1) : Int) - 1 else (2 ^ w : Int) - 1
    let is := fun (op : Nat) (e : Int) =>
      v (intLane op t true a b d).bits = (if e < lo then lo else if hi < e then hi else e) ∧
      ((intLane op t false a b d).bits : Int) = e % (2 ^ w : Int) ∧ ∀ sat, (intLane op t sat a b d).flags = 0
    is 2 (v a + v b) ∧ is 3 (v a - v b) ∧ is 4 (v a * v b) ∧ is 5 (v a * v b + v d) ∧ is 6 (v a * v b - v d)
  ) ∧
  (
  ∀ (u : VUnit) (n k j : Nat) (track : Bool) (g : Nat → LaneOut), laneRsv u.ty = false → k < 32 → j < laneL u.ty → n ≠ k →
    ∀ o, (lanesRes (laneW u.ty) track (mapLanes u g)).out = some o →
      let v := u.write (.vreg k, o.1, o.2)
      laneAt (laneW u.ty) (Tab.get 0 v.v k) j =
        (if u.active j then (g j).bits % 2 ^ laneW u.ty else laneAt (laneW u.ty) (Tab.get 0 u.v k) j) ∧
      Tab.get 0 v.v n = Tab.get 0 u.v n
  )

/-- R34, R146, R148: the oldest V-word retires in order once it is due: it leaves the flight, its destinations (registers, masks, tiles and
their configurations, rule slots, `shape`) and `eb` are written, its flags are pending for `fcsr_c`, and the next words see them from the next cycle. -/
def Obligations.VectorWordsRetireInOrder : Prop :=
  ∀ (s : State) (n : CoreId) (f : VFlight) (rest : List VFlight), (s.core n).vec.flight = f :: rest → (s.core n).cutting ≠ .stopped →
    (s.core n).debugHalt ≠ .stopped →
    let u := (s.core n).vec
    (s.ccount < f.due → Waits (.vwordRetire n) s) ∧
    (f.due ≤ s.ccount → ∃ t, exec (.vwordRetire n) s = .next t ∧ (t.core n).vec.flight = rest ∧ (t.core n).vec.v = (u.retire f).v ∧
      (t.core n).vec.vm = (u.retire f).vm ∧ (t.core n).vec.eb = (u.retire f).eb ∧ (t.core n).vec.tile = (u.retire f).tile ∧
      (t.core n).vec.cfg = (u.retire f).cfg ∧ (t.core n).vec.shape = (u.retire f).shape ∧
      (t.core n).vec.rule = (u.retire f).rule ∧ (∀ i img, f.dst = [(.rule i, img, allBits)] → Tab.get 0 (u.retire f).rule i = img) ∧
      (∀ i, f.shape = some i → f.rshp = false → (u.retire f).shape.toNat = u.shape.toNat / 2 ^ 21 * 2 ^ 21 + i.toNat) ∧
      (t.core n).vec.lastRet = s.ccount ∧ (t.core n).c.flagPend = (s.core n).c.flagPend ||| f.flags ∧
      (∀ x, f.oq = some x → (t.core n).oqOf x.1 = ((s.core n).oqOf x.1).fill x.2 (s.coverOf n .c) s.ccount) ∧
      ((s.core n).csrPend = [] → (t.tick.core n).c.fcsr = withFlags (s.core n).c.fcsr ((s.core n).c.flagPend ||| f.flags)) ∧ SameBytes s t)

/-! ## KV words and duplex streams -/

/-- R264, R347 to R362: the KV words of K complete with the value and the effects of their rules, once K's earlier accesses are performed; but
for `kv.slot` they read what stands at the homes, past K's group (`bare`, and `back` again).
R348, R355: a KV or duplex word in F is ILLEGAL_INSTR, waits for K's earlier accesses, and refuses a number that is no stream and a
stream of another job. -/
def Obligations.KvWordsTakeEffect : Prop :=
  (
  ∀ (s : State) (d a b : BitVec 5), s.cur.2 = .k → s.covered s.seq.cover = true → s.storesDone s.cur.1 = true →
    s.here.amos = [] → (s.reg a).toNat < 4096 → (s.sd (s.reg a).toNat 0).getLsbD 63 = true →
    bitsOf (s.sd (s.reg a).toNat 0) 48 8 = (s.jobOf s.cur.1).toNat →
    let n := s.cur.1
    let t := (s.reg a).toNat
    let pool := (s.sd t 4).toNat
    let x := (s.reg b).toNat
    let l := x / 2 ^ 32
    let p := x % 2 ^ 32
    let g := s.curG t
    let bare := fun (v : State) => v.modCore n fun c => { c with group := { c.group with lines := [] } }
    let back := fun (u v : State) => v.modCore n fun c => { c with group := { c.group with lines := (u.core n).group.lines } }
    let done := fun (i : Instr) (srcs : List (BitVec 5)) (u : State) (v : Nat) => s.readyFor (a :: srcs) = true → FinishesIn i s u d (w64 v)
    let bad := fun (i : Instr) (srcs : List (BitVec 5)) (c : Nat) => s.readyFor (a :: srcs) = true → Raises i s c (s.word.setWidth 64)
    -- kv.slot
    (2 ^ 44 ≤ x ∨ s.nlayer t ≤ l → bad (.kvSlot d a b) [b] 0x02) ∧
    (x < 2 ^ 44 → l < s.nlayer t →
      (g ≤ p ∨ s.maxb t ≤ p / 64 → done (.kvSlot d a b) [b] s 0) ∧
      (p < g → p / 64 < s.maxb t → ∀ e u, Ends (kViewW n (s.tableAt t l (p / 64))) s e u →
        (e = 0 → done (.kvSlot d a b) [b] u 0) ∧
        ∀ h v, e ≠ 0 → Ends (kvHdr n e) u h v → done (.kvSlot d a b) [b] v
          (if h.surv.testBit (p % 64) then h.data + popcount 64 (h.surv % 2 ^ (p % 64)) * 2 ^ (h.lslot + 6) else 0))) ∧
    -- kv.append
    (s.here.capturing = false → bad (.kvAppend d a b) [b] 0x01) ∧
    (s.here.capturing = true → (s.nlayer t ≤ x ∨ ∃ y, s.here.group.bound = some y ∧ (y.toNat ≠ t ∨ x ∈ s.here.group.layers)) →
      bad (.kvAppend d a b) [b] 0x02) ∧
    (s.here.capturing = true → x < s.nlayer t →
      (∀ y, s.here.group.bound = some y → y.toNat = t ∧ x ∉ s.here.group.layers) →
      let s0 := if s.here.group.bound.isNone then s.modCore n fun c => { c with group := { c.group with
        bound := some (BitVec.ofNat 12 t), tseq := w64 (s.tseq t), layers := [], takenBlks := [], deferred := [] } } else s
      let entry := s.tableAt t x (g / 64)
      (s.maxb t ≤ g / 64 → done (.kvAppend d a b) [b] s0 3) ∧
      (g / 64 < s.maxb t → ∀ e u1, Ends (kViewW n entry) (bare s0) e u1 →
        let u := back s0 u1
        (e = 0 → ∀ v, Ends (kvTake n true pool t x) (bare u) none v → done (.kvAppend d a b) [b] (back u v) 2) ∧
        (e ≠ 0 → ∀ o w v, Ends (kvHdr n e) (bare u) o w → 1 < o.ref → Ends (kvCopy s true t x (g / 64) g o) w none v →
          done (.kvAppend d a b) [b] (back u v) 2) ∧
        ∀ h fresh v, ((fresh = true ∧ e = 0 ∧ ∃ y w, Ends (kvTake n true pool t x) (bare u) (some y) w ∧ Ends (kvHdr n y) w h v) ∨
            (fresh = false ∧ e ≠ 0 ∧ Ends (kvHdr n e) (bare u) h v ∧ h.ref ≤ 1) ∨
            (fresh = true ∧ e ≠ 0 ∧ ∃ o w, Ends (kvHdr n e) (bare u) o w ∧ 1 < o.ref ∧ Ends (kvCopy s true t x (g / 64) g o) w (some h) v)) →
          ∀ w1 w2 w3, Ends (kCapture n h.va (toBytes 8 (h.surv ||| 2 ^ (g % 64)))) (back u v) () w1 →
            Ends (kCapture n (h.va + 24) [BitVec.ofNat 8 (g % 64 + 1)]) w1 () w2 →
            (if fresh = true then Ends (kCapture n entry (toBytes 8 h.va)) w2 () w3 else w3 = w2) →
            done (.kvAppend d a b) [b] (w3.modCore n fun c => { c with group := { c.group with
              layers := c.group.layers ++ [x]
              deferred := if fresh && decide (e ≠ 0) then c.group.deferred ++ [e] else c.group.deferred } })
              (h.data + popcount 64 (h.surv % 2 ^ (g % 64)) * 2 ^ (h.lslot + 6)))) ∧
    -- kv.evict
    (s.here.boundTo t = true → bad (.kvEvict d a b) [b, d] 0x01) ∧
    (s.here.boundTo t = false → (2 ^ 44 ≤ x ∨ s.nlayer t ≤ l ∨ p % 64 ≠ 0 → bad (.kvEvict d a b) [b, d] 0x02) ∧
      (x < 2 ^ 44 → l < s.nlayer t → p % 64 = 0 → (s.maxb t ≤ p / 64 → done (.kvEvict d a b) [b, d] s 0) ∧
        (p / 64 < s.maxb t → ∀ e u, Ends (kViewW n (s.tableAt t l (p / 64))) (bare s) e u →
          (e = 0 → done (.kvEvict d a b) [b, d] (back s u) 0) ∧
          ∀ h v, e ≠ 0 → Ends (kvHdr n e) u h v →
            let gone := (s.reg d).toNat % 2 ^ h.npos &&& h.surv
            let compacts := fun (h : KvHdr) (v : State) =>
              let new := h.surv &&& (2 ^ 64 - 1 - gone)
              ∀ w z, Ends (kvCompact n h new) v () w → Ends (kPutW n h.va new) w () z →
                let y := z.unland fun va => va == h.va
                done (.kvEvict d a b) [b, d] (back s (if g / 64 = p / 64 then y.bumpSd t 9 0 else y)) (popcount 64 new)
            (gone = 0 → done (.kvEvict d a b) [b, d] (back s v) (popcount 64 h.surv)) ∧
            (gone ≠ 0 → 1 < h.ref → ∀ w, Ends (kvCopy s false t l (p / 64) g h) v none w → done (.kvEvict d a b) [b, d] (back s w) 2) ∧
            (gone ≠ 0 → 1 < h.ref → ∀ h' w w1 w2, Ends (kvCopy s false t l (p / 64) g h) v (some h') w →
              Ends (kPutW n (s.tableAt t l (p / 64)) h'.va) w () w1 → Ends (kvRelease n t e) w1 () w2 → compacts h' w2) ∧
            (gone ≠ 0 → h.ref ≤ 1 → compacts h v)))) ∧
    -- kv.trunc
    (g < x → bad (.kvTrunc d a b) [b] 0x02) ∧
    (x ≤ g → ∀ r u, Ends (kvTruncate s t x) s r u → done (.kvTrunc d a b) [b] u (if r = true then 0 else 2) ∧
      (r = true → u.curG t = x ∧ u.curP t = Nat.min x (s.curP t))) ∧
    -- kv.share
    (x < 4096 → (s.sd x 0).getLsbD 63 = true → bitsOf (s.sd x 0) 48 8 = (s.jobOf n).toNat →
      (g ≠ 0 ∨ s.nlayer t ≠ s.nlayer x ∨ s.sd t 4 ≠ s.sd x 4 ∨ s.curG x < (s.reg d).toNat → bad (.kvShare d a b) [b, d] 0x02) ∧
      (g = 0 → s.nlayer t = s.nlayer x → s.sd t 4 = s.sd x 4 → (s.reg d).toNat ≤ s.curG x →
        ∀ u v, Ends (shareEmpty s t) (bare s) () u → Ends (shareBlocks s t x (s.reg d).toNat) u () v →
          done (.kvShare d a b) [b, d] (((back s v).setCur t (s.reg d).toNat 0).setP t (s.reg d).toNat) 0))
  ) ∧
  (
  ∀ (s : State) (d a b : BitVec 5) (i : Instr),
    i ∈ [.kvSlot d a b, .kvAppend d a b, .kvEvict d a b, .kvTrunc d a b, .kvShare d a b, .dxCur d a b 0, .dxCur d a b 1, .dxCur d a b 2,
      .dxTrunc d a, .dxFrame d a, .dxEmit d a b, .dxCkpt d a, .dxStat d a 0, .dxStat d a 1, .dxStat d a 2, .dxStat d a 3, .dxStat d a 4,
      .dxStat d a 5] →
    let t := (s.reg a).toNat
    let performed := s.covered s.seq.cover && s.storesDone s.cur.1 && s.here.amos.isEmpty
    (s.canIssue = false → Waits i s) ∧
    (s.canIssue = true → s.cur.2 = .f → Raises i s 0x01 (s.word.setWidth 64)) ∧
    (s.canIssue = true → s.cur.2 ≠ .f → (s.readable a = false ∨ performed = false → Waits i s) ∧
      (s.readyFor [a, b, d] = true → performed = true →
        (4096 ≤ t → Raises i s 0x02 (s.word.setWidth 64)) ∧
        (t < 4096 → ((s.sd t 0).getLsbD 63 = false ∨ bitsOf (s.sd t 0) 48 8 ≠ (s.jobOf s.cur.1).toNat) → Raises i s 0x06 (s.word.setWidth 64))))
  )

/-- R352, R363 to R368: the duplex words of K complete with the value and the effects of their rules. -/
def Obligations.DuplexWordsTakeEffect : Prop :=
  ∀ (s : State) (d a b : BitVec 5), s.cur.2 = .k → s.covered s.seq.cover = true → s.storesDone s.cur.1 = true →
    s.here.amos = [] → (s.reg a).toNat < 4096 → (s.sd (s.reg a).toNat 0).getLsbD 63 = true →
    bitsOf (s.sd (s.reg a).toNat 0) 48 8 = (s.jobOf s.cur.1).toNat →
    let n := s.cur.1
    let t := (s.reg a).toNat
    let g := s.curG t
    let p := s.curP t
    let q := (s.reg b).toNat % 2 ^ 32
    let d12 := s.sd t 12
    let done := fun (i : Instr) (srcs : List (BitVec 5)) (u : State) (v : Nat) => s.readyFor (a :: srcs) = true → FinishesIn i s u d (w64 v)
    let bad := fun (i : Instr) (srcs : List (BitVec 5)) (c : Nat) (v : Word) => s.readyFor (a :: srcs) = true → Raises i s c v
    let word := s.word.setWidth 64
    -- dx.cur
    done (.dxCur d a b 0) [] s g ∧ done (.dxCur d a b 1) [] s p ∧ bad (.dxCur d a b 3) [] 0x02 word ∧
    (q < p ∨ g < q → bad (.dxCur d a b 2) [b] 0x02 word) ∧
    (p ≤ q → q ≤ g → done (.dxCur d a b 2) [b] (s.setP t q) p ∧
      (s.setP t q).curP t = q ∧ (s.setP t q).curG t = g ∧ (s.setP t q).sd t 2 = w64 s.ccount) ∧
    -- dx.frame
    (∀ u, Ends (kRegister s t) s () u →
      let tail := bitsOf (u.sd t 7) 32 32
      let head := bitsOf (u.sd t 7) 0 32
      let frame := u.frameAt t head
      (tail = head → done (.dxFrame d a) [] u 0) ∧
      (tail ≠ head → ∀ stamp v z, Ends (kPutW n (u.sd t 6).toNat ((head + 1) % 2 ^ 32 + 2 ^ bitsOf (u.sd t 0) 32 4)) (u.bumpSd t 7 0) () v →
        Ends (kViewW n (frame + 8)) v stamp z →
        ((u.sd t 2).toNat ≤ stamp → done (.dxFrame d a) [] z frame) ∧
        (stamp < (u.sd t 2).toNat → (u.sd t 0).getLsbD 62 = false → done (.dxFrame d a) [] (z.bumpSd t 16 32) (frame + 1)) ∧
        (stamp < (u.sd t 2).toNat → (u.sd t 0).getLsbD 62 = true → s.readyFor [a] = true →
          exec (.dxFrame d a) s = .next ((z.bumpSd t 16 32).raise 0x0C (w64 frame))))) ∧
    -- dx.emit
    (s.here.capturing = false → bad (.dxEmit d a b) [b] 0x01 word) ∧
    (s.here.capturing = true → (s.here.boundTo t = false ∨ ∃ l, l < s.nlayer t ∧ l ∉ s.here.group.layers) →
      bad (.dxEmit d a b) [b] 0x02 word) ∧
    (s.here.capturing = true → s.here.boundTo t = true → (∀ l, l < s.nlayer t → l ∈ s.here.group.layers) →
      ∀ u, Ends (kRegister s t) s () u →
        let stale := u.tseq t ≠ s.here.group.tseq.toNat ∨ ((u.sd t 9).getLsbD 63 = true ∧ (u.sd t 8).toNat ≤ s.ccount)
        (stale → ∀ k v, Ends (abortGroup n) u k v → done (.dxEmit d a b) [b] (v.bumpSd t 17 32) 1) ∧
        (¬stale → ∀ k v w, Ends (kCapture n ((u.sd t 15).toNat + 4 * u.curG t) (toBytes 4 q)) u () v →
          Ends (commitGroup n fun x => x.setCur t (x.curG t + 1) (x.curP t)) v k w → done (.dxEmit d a b) [b] (w.blockTill (w.ccount + 6)) 0)) ∧
    -- dx.trunc
    (bestCk s t = none → bad (.dxTrunc d a) [] 0x0D (w64 p)) ∧
    (∀ c, bestCk s t = some c → ∀ u r v, (if s.here.boundTo t = true then ∃ k, Ends (abortGroup n) s k u else u = s) →
      Ends (kvTruncate s t p) u r v → (r = false → done (.dxTrunc d a) [] v 2) ∧
      (r = true → ∀ w, Ends (copyBlocks n ((s.sd t 11).toNat + c * s.rsz t * 64) (s.sd t 10).toNat (s.rsz t)) v () w →
        ∃ z, done (.dxTrunc d a) [] z 0 ∧ z.mem = w.mem ∧ z.cores = w.cores ∧ (z.sd t 9).getLsbD 63 = false ∧
          bitsOf (z.sd t 12) 36 4 = c ∧
          ∀ k, k < 16 → (z.sd t 12).getLsbD (16 + k) = ((w.sd t 12).getLsbD (16 + k) && decide (w.ckpos t k ≤ p)))) ∧
    -- dx.ckpt
    (s.here.boundTo t = true → bad (.dxCkpt d a) [] 0x01 word) ∧
    (s.here.boundTo t = false →
      let k := if bitsOf d12 16 16 = 0 then 0 else (bitsOf d12 36 4 + 1) % 16
      ∀ u, Ends (copyBlocks n (s.sd t 10).toNat ((s.sd t 11).toNat + k * s.rsz t * 64) (s.rsz t)) s () u →
        ∃ z, done (.dxCkpt d a) [] z k ∧ z.mem = u.mem ∧ z.cores = u.cores ∧ z.ckpos t k = u.curG t ∧
          bitsOf (z.sd t 12) 36 4 = k ∧ (z.sd t 12).getLsbD (16 + k) = true ∧
          ∀ j, j < 16 → j ≠ k → (z.sd t 12).getLsbD (16 + j) = d12.getLsbD (16 + j)) ∧
    -- dx.stat
    done (.dxStat d a 0) [] s (g * 2 ^ 32 + p) ∧ done (.dxStat d a 1) [] s (bitsOf (s.sd t 16) 32 32) ∧
    done (.dxStat d a 2) [] s (bitsOf (s.sd t 16) 0 32) ∧ done (.dxStat d a 3) [] s (bitsOf (s.sd t 17) 32 32) ∧
    done (.dxStat d a 4) [] s (s.sd t 7).toNat ∧ done (.dxStat d a 5) [] s (s.sd t 9).toNat ∧
    bad (.dxStat d a 6) [] 0x02 word ∧ bad (.dxStat d a 7) [] 0x02 word

/-! ## Symbols and affine tensors -/

/-- R227, R229 to R236: the symbol, condensation words of K complete with their value and their effects; where a symbol is not live the
changes before it stand.
R242, R250: `af.add` adds the bound of every element to the remainder (REM), or mints one diagonal generator for each element that is
not 0 where the tensor has room for them. -/
def Obligations.SymbolWordsTakeEffect : Prop :=
  (
  ∀ (s : State) (d a b : BitVec 5), s.cur.2 = .k →
    let job := s.jobOf s.cur.1
    let die := dieOf s.cur.1
    let x := (s.reg a).toNat
    let k := (s.reg b).toNat
    let done := fun (i : Instr) (srcs : List (BitVec 5)) (u : State) (r : BitVec 5) (v : Nat) =>
      s.readyFor srcs = true → FinishesIn i s (u.modHere fun c => c.pushed 0x44) r (w64 v)
    let cond := fun (i : Instr) (srcs : List (BitVec 5)) (u : State) (r : BitVec 5) (v : Nat) =>
      s.readyFor srcs = true → FinishesIn i s (u.modHere fun c => c.pushed 0x45) r (w64 v)
    let bad := fun (i : Instr) (srcs : List (BitVec 5)) (c : Nat) (v : Word) => s.readyFor srcs = true → Raises i s c v
    let word := s.word.setWidth 64
    -- the counts of `ids` change one after the other, through the states `f`
    let counts := fun (f : Nat → State) (m : Nat) (id : Nat → Nat) (up : Bool) => ∀ j, j < m → id j < 2 ^ 24 ∧
      ∃ c, (f j).symCount job (BitVec.ofNat 24 (id j)) = some c ∧ (up = true → c < 2 ^ 32 - 1) ∧
        f (j + 1) = (f j).setSym job (BitVec.ofNat 24 (id j)) (if up = true then c + 1 else c - 1)
    let q := (s.die die).nextOf job
    -- sym.alloc
    (2 ^ 16 < x → bad (.symAlloc d a) [a] 0x02 word) ∧ (x = 0 → done (.symAlloc d a) [a] s d 0) ∧
    (0 < x → x ≤ 2 ^ 16 → (2 ^ 16 < (s.die die).syms.length + x ∨ 2 ^ 22 < q + x → bad (.symAlloc d a) [a] 0x0B (w64 x)) ∧
      ((s.die die).syms.length + x ≤ 2 ^ 16 → q + x ≤ 2 ^ 22 → done (.symAlloc d a) [a] (s.takeSyms die job x).2 d (4 * q + die) ∧
        ((s.takeSyms die job x).2.die die).nextOf job = q + x ∧
        ((s.takeSyms die job x).2.die die).syms = (s.die die).syms ++ (List.range x).map fun j => (job, BitVec.ofNat 24 (4 * (q + j) + die), 1))) ∧
    -- sym.free
    (2 ^ 16 ≤ k → bad (.symFree a b) [a, b] 0x02 word) ∧
    (k < 2 ^ 16 → ∀ f m, f 0 = s → m ≤ k → counts f m (fun j => (s.reg a + w64 (4 * j)).toNat) false →
      (m = k → done (.symFree a b) [a, b] (f k) 0 0) ∧
      (m < k → (2 ^ 24 ≤ (s.reg a + w64 (4 * m)).toNat ∨ (f m).symCount job (BitVec.ofNat 24 (x + 4 * m)) = none) → s.readyFor [a, b] = true →
        exec (.symFree a b) s = .next ((f m).raise 0x02 (s.reg a + w64 (4 * m))))) ∧
    -- sym.ref, sym.unref
    (s.released = true → ∀ t u, Ends (readAffine s.cur.1 (s.reg a)) s t u →
      let ids := t.ids ++ t.diag.map fun y => y.id
      let stops := fun (i : Instr) (f : Nat → State) (m : Nat) => (f m).symCount job (BitVec.ofNat 24 (ids.getD m 0)) = none →
        s.readyFor [a] = true → exec i s = .next ((f m).raise 0x02 (w64 (ids.getD m 0)))
      ∀ f m, f 0 = u → m ≤ ids.length →
        (counts f m (fun j => ids.getD j 0) true →
          (m = ids.length → done (.symRef d a) [a] (f m) d m) ∧ (m < ids.length → stops (.symRef d a) f m)) ∧
        (counts f m (fun j => ids.getD j 0) false →
          (m = ids.length → done (.symUnref d a) [a] (f m) d m) ∧ (m < ids.length → stops (.symUnref d a) f m))) ∧
    -- sym.stat
    (2 ^ 24 ≤ x → bad (.symStat d a 0) [a] 0x02 word) ∧
    (x < 2 ^ 24 → done (.symStat d a 0) [a] s d ((s.symCount job (BitVec.ofNat 24 x)).getD 0)) ∧
    (4 ≤ x → bad (.symStat d a 1) [a] 0x02 word) ∧ (x < 4 → done (.symStat d a 1) [a] s d (s.die x).syms.length) ∧
    done (.symStat d a 2) [a] s d (s.allowance job) ∧ done (.symStat d a 3) [a] s d s.here.cond.toNat ∧
    -- cond.set
    (2 ^ 17 ≤ x → bad (.condSet a) [a] 0x02 word) ∧
    (x < 2 ^ 17 → cond (.condSet a) [a] (s.modHere fun c => { c with cond := s.reg a }) 0 0) ∧
    -- cond.run
    (s.released = true → 2 ^ 32 ≤ k → bad (.condRun d a b) [a, b] 0x02 word) ∧
    (s.released = true → k < 2 ^ 32 → ∀ t u, Ends (readAffine s.cur.1 (s.reg a)) s t u →
      (t.gens ≤ k → cond (.condRun d a b) [a, b] u d 0) ∧
      (k < t.gens → ∀ slabs v, Ends (readSlabs s.cur.1 t) u slabs v →
        let c := condenseWith t (slabs.map fun m => (chunksOf t.sz m).map (magOf t.fmt)) [] k
        ∀ rem w y z, Ends (readRem s.cur.1 t c.ups) v rem w →
        Ends (tensorWrites s.cur.1 t (t.writes (slabMoves t slabs c.slabs) rem
          (Tab.pick 0 ((t.ids.zipIdx).map fun m => (m.2, m.1)) c.slabs) (c.diag.filterMap fun j => t.diag[j]?) (t.ccnt + c.count))) w () y →
        Ends (dropCounts job c.gone) y () z → cond (.condRun d a b) [a, b] z d (t.gens - k)))
  ) ∧
  (
  ∀ (s : State) (d a b : BitVec 5), s.cur.2 = .k → s.released = true → s.readyFor [a, b] = true →
    let n := s.cur.1
    let job := s.jobOf n
    let die := dieOf n
    ((s.reg b).toNat % 64 ≠ 0 → Raises (.afAdd d a b 0) s 0x04 (s.reg b) ∧ Raises (.afAdd d a b 1) s 0x04 (s.reg b)) ∧
    ((s.reg b).toNat % 64 = 0 → ∀ t u bytes v, Ends (readAffine n (s.reg a)) s t u →
      Ends (readVirt n .k (s.reg b).toNat (4 * t.nelem)) u bytes v →
      let delta := ((chunksOf 4 bytes).zipIdx.map fun y => (y.2, magOf .f32 y.1)).filter fun y => decide (y.2 ≠ some 0)
      let new := delta.filter fun y => y.2.isSome
      let mint := fun (z : State) => z.modHere fun c => c.pushed 0x45
      (∀ rem w z, Ends (readRem n t delta) v rem w → Ends (tensorWrites n t (t.writes [] rem t.ids t.diag t.ccnt)) w () z →
        FinishesIn (.afAdd d a b 1) s (mint z) d 0) ∧
      (t.gens + new.length ≤ s.allowance job → t.diag.length + new.length ≤ t.dcap → new.length ≤ (s.die die).symRoom job →
        let q := (v.die die).nextOf job
        let minted := new.zipIdx.map fun y => ({ id := (symId die (q + y.2)).toNat, idx := y.1.1, val := (t.fmt.round .rup false (.fin false (y.1.2.getD 0))).1 } : DiagEnt)
        ∀ rem w z, Ends (readRem n t (delta.filter fun y => y.2.isNone)) (v.takeSyms die job new.length).2 rem w →
          Ends (tensorWrites n t (t.writes [] rem t.ids (minted.foldl (fun l y => insertDiag y l) t.diag) t.ccnt)) w () z →
          FinishesIn (.afAdd d a b 0) s (mint z) d (w64 new.length)))
  )

/-! ## Words on tasks, counters, barriers and keys -/

/-- R298, R308, R312 to R316: the task words of K complete with their effects, those that write a job's memory once K's earlier writes are
performed; `texit` reads its successor's block after them, and `cnt.wait` reads as a load of K does, with K's own writes. -/
def Obligations.TaskWordsTakeEffect : Prop :=
  ∀ (s : State) (d a b : BitVec 5) (m : BitVec 1) (l k : BitVec 2) (u : UnitInfo), s.cur.2 = .k → s.here.unit = some u →
    let n := s.cur.1
    let job := u.job
    let x := (s.reg a).toNat
    let done := fun (i : Instr) (srcs : List (BitVec 5)) (v : State) (r : BitVec 5) (y : Nat) => s.readyFor srcs = true → FinishesIn i s v r (w64 y)
    let bad := fun (i : Instr) (srcs : List (BitVec 5)) (c : Nat) => s.readyFor srcs = true → Raises i s c (s.word.setWidth 64)
    let late := fun (i : Instr) (srcs : List (BitVec 5)) (v : State) (c : Nat) (y : Word) => s.readyFor srcs = true → exec i s = .next ((restore s v).raise c y)
    -- spawn
    (s.released = false → s.canIssue = true → Waits (.spawn a m) s) ∧
    (s.released = true → (x = 0 ∨ 2 ^ 24 ≤ x → bad (.spawn a m) [a] 0x02) ∧
      (x ≠ 0 → x < 2 ^ 24 → ∀ t v r w, Ends (wordCheck job x) s t v → Ends (readTcb job u.task.toNat) v r w →
        (8 ≤ tf r 3 32 4 → late (.spawn a m) [a] w 0x02 (w64 x)) ∧
        (tf r 3 32 4 < 8 → w.pool.length < 4096 → ∀ y z, Ends (tcbField job x 3 32 4 (tf r 3 32 4 + 1)) w () y →
          (if m = 1 then Ends (addMember job t) y () z else z = y) →
          done (.spawn a m) [a] { z with pool := z.pool ++ [{ job := job, task := BitVec.ofNat 24 x, overflow := false, since := z.ccount }] } 0 0))) ∧
    -- texit
    ((∃ ln, s.launchAt u.die.toNat u.slot = some ln ∧ 1 < ln.total) ∨ s.here.group.isOpen = true → bad (.texit a m) [a] 0x01) ∧
    ((∀ ln, s.launchAt u.die.toNat u.slot = some ln → ln.total ≤ 1) → s.here.group.isOpen = false →
      (2 ^ 24 ≤ x → bad (.texit a m) [a] 0x02) ∧
      (x ≠ 0 → x < 2 ^ 24 → s.canIssue = true → s.released = false → Waits (.texit a m) s) ∧
      (x < 2 ^ 24 → s.readyFor [a] = true → (x = 0 ∨ s.released = true) → ∀ v, (if x = 0 then v = s else ∃ t, Ends (wordCheck job x) s t v) →
        ∃ t, exec (.texit a m) s = .next t ∧ t.issued = true ∧ t.seq = { v.seq with halting := true } ∧ SameOutside v t ∧ SameBytes v t ∧
          t.here = { (v.here.setSeq v.cur.2 t.seq) with unit := v.here.unit.map fun y =>
            { y with texit := if x = 0 then none else some (BitVec.ofNat 24 x, decide (m = 1)) } })) ∧
    -- cnt.add, cnt.wait
    (s.here.capturing = true → bad (.cntAdd a b) [a, b] 0x01) ∧
    (s.here.capturing = false → 65536 ≤ x → bad (.cntAdd a b) [a, b] 0x02) ∧ (65536 ≤ x → bad (.cntWait d a b) [a, b] 0x02) ∧
    (s.here.capturing = false → x < 65536 → s.walks (s.ctrAt job x) → ∀ t, s.targetOf n .k (s.ctrAt job x) .atomic = .ok t →
      let r : AmoReq := {
        id := s.here.nextId + 1, seq := s.here.storeSeq + 1, pres := none, op := 1, dbl := true, ret := none, va := s.ctrAt job x, tgt := t
        opnd := s.reg b, cmp := 0, fcsr := s.seq.fcsr, cover := s.covering, src := ((s.seq.pc - s.seq.entry).toNat / 4, s.seq.mpos) }
      let adds := fun (y : AmoReq) => done (.cntAdd a b) [a, b] (s.modHere fun c => { c with
        amos := c.amos ++ [y], nextId := c.nextId + 1, storeSeq := c.storeSeq + 1 }) 0 0
      (s.mayRelease = false → Waits (.cntAdd a b) s) ∧
      (s.mayRelease = true → ((∀ o, t ≠ .slice n o) → adds r) ∧
        ((∃ o, t = .slice n o) → (s.amoMay n r = false → Waits (.cntAdd a b) s) ∧
          (s.amoMay n r = true → adds { r with pres := some (s.ccount, 0) })))) ∧
    (x < 65536 → s.canIssue = true → s.covered s.seq.cover = false → Waits (.cntWait d a b) s) ∧
    (x < 65536 → s.covered s.seq.cover = true → ∀ y v, Ends (kViewW n (s.ctrAt job x)) s y v →
      ((w64 y).toNat < (s.reg b).toNat → Waits (.cntWait d a b) s) ∧
      ((s.reg b).toNat ≤ (w64 y).toNat → done (.cntWait d a b) [a, b] v d y)) ∧
    -- cancel
    (s.released = true → l = 0 → (x = 0 ∨ 2 ^ 24 ≤ x → bad (.cancel a l) [a] 0x02) ∧
      (x ≠ 0 → x < 2 ^ 24 → ∀ v, Ends (cancelTask job x) s () v →
        (v.here.unit.isSome = true → done (.cancel a l) [a] v 0 0) ∧
        (v.here.unit = none → s.readyFor [a] = true → exec (.cancel a l) s = .next { v with issued := true }))) ∧
    (s.released = true → l ≠ 0 → ((if l = 3 then x ≠ 0 else 2 ^ 20 ≤ x) → bad (.cancel a l) [a] 0x02) ∧
      ((if l = 3 then x = 0 else x < 2 ^ 20) → ∀ g v, Ends (levelV0 job x) s g v →
        (l ≠ 3 → lvKind g ≠ l.toNat - 1 → late (.cancel a l) [a] v 0x02 (s.word.setWidth 64)) ∧
        (l = 3 ∨ lvKind g = l.toNat - 1 → ∀ w, Ends (markCancelled job x) v () w →
          (w.here.unit.isSome = true → done (.cancel a l) [a] w 0 0) ∧
          (w.here.unit = none → s.readyFor [a] = true → exec (.cancel a l) s = .next { w with issued := true })))) ∧
    -- bar.arrive, bar.wait
    (∀ ln, s.launchAt u.die.toNat u.slot = some ln →
      let e := Tab.get 0 u.arrived k.toNat
      let y := Tab.get Barrier.start ln.bars k.toNat
      (ln.quire = false ∨ e ≠ 0 → bad (.barArrive k) [] 0x01) ∧ (ln.quire = false ∨ e = 0 → bad (.barWait d k) [] 0x01) ∧
      (ln.quire = true → e = 0 → done (.barArrive k) []
        ((s.modLaunch u.die.toNat u.slot fun z => { z with bars := Tab.put z.bars k.toNat (
          if z.total ≤ y.arrivals + 1 + y.forfeits then
            { episode := y.episode + 1, arrivals := 0, forfeits := z.forfeited, cov := Cover.none, past := y.past ++ [(y.forfeits, y.cov.join s.covering)] }
          else { y with arrivals := y.arrivals + 1, cov := y.cov.join s.covering }) }).modHere
          fun c => { c with unit := some { u with arrived := Tab.set 0 u.arrived k.toNat (y.episode + 1) } }) 0 0) ∧
      (ln.quire = true → e ≠ 0 → y.episode < e → s.canIssue = true → Waits (.barWait d k) s) ∧
      (ln.quire = true → e ≠ 0 → e ≤ y.episode → done (.barWait d k) []
        (s.modHere fun c => { c with unit := some { u with arrived := Tab.set 0 u.arrived k.toNat 0 } }) d (y.past.getD (e - 1) (0, Cover.none)).1)) ∧
    -- keyq
    (let key := x % 2 ^ 48
      let reserved := if (s.reserver job key).isSome then 2 ^ 62 else 0
      (s.keyAt job key = none → done (.keyq d a) [a] s d 0) ∧
      ∀ e, s.keyAt job key = some e → (∀ t, e.ex = some t →
          done (.keyq d a) [a] s d (2 ^ 63 + reserved + e.sh.length % 2 ^ 16 * 2 ^ 40 + t.toNat)) ∧
        (e.ex = none → (∀ t, s.reserver job key = some t → done (.keyq d a) [a] s d (2 ^ 62 + e.sh.length % 2 ^ 16 * 2 ^ 40 + t.toNat)) ∧
          (s.reserver job key = none → done (.keyq d a) [a] s d (e.sh.length % 2 ^ 16 * 2 ^ 40)))) ∧
    -- in F
    (∀ t : State, t.cur.2 = .f → t.canIssue = true → ∀ i ∈ [.spawn a m, .texit a m, .cntAdd a b, .cntWait d a b, .cancel a l, .barArrive k,
      .barWait d k, .keyq d a, .symAlloc d a, .symFree a b, .symRef d a, .symUnref d a, .symStat d a k, .condSet a, .condRun d a b,
      .afAdd d a b m, .bpSend a, .bpRecv a, .bpWait d a b, .bpCancel a b, .bpStat d a], Raises i t 0x01 (t.word.setWidth 64))

/-! ## Words that hand work to an engine -/

/-- R278, R369, R372: `as.load`, `as.go`, `as.wait` and `coll.red` complete with their effects. -/
def Obligations.AttentionAndCollectiveWords : Prop :=
  ∀ (s : State) (d a b : BitVec 5) (nf : BitVec 1),
    let n := s.cur.1
    let q := s.cur.2
    let va := s.reg a
    let v := (s.reg b).toNat
    let k := v % 2 ^ 13
    let i := v / 2 ^ 16 % 2 ^ 12
    let idle := s.here.att.busy = false
    let words := fun (bytes : List Byte) => (dwords bytes).map w64
    let late := fun (x : Instr) (u : State) (c : Nat) (y : Word) => exec x s = .next ((restore s u).raise c y)
    let word := s.word.setWidth 64
    (s.canIssue = true → s.here.att.busy = true → Waits (.asLoad a b) s ∧ Waits (.asGo a) s ∧ Waits (.asWait d nf) s) ∧
    -- as.load
    (s.readyFor [a, b] = true → idle → s.covered s.seq.cover = true →
      let ok := v / 2 ^ 13 % 8 = 0 ∧ v / 2 ^ 28 = 0 ∧ 1 ≤ k ∧ k ≤ 4096 ∧ i + k ≤ 4096
      (¬ok → Raises (.asLoad a b) s 0x02 word) ∧ (ok → va.toNat % 8 ≠ 0 → Raises (.asLoad a b) s 0x04 va) ∧
      (ok → va.toNat % 8 = 0 → ∀ bytes u, Ends (kfView n q va.toNat (8 * k)) s bytes u →
        FinishesIn (.asLoad a b) s (u.modCore n fun c => { c with att := { c.att with store := Tab.setRange 0 c.att.store i (words bytes) } }) 0 0)) ∧
    -- as.go
    (s.canIssue = true → s.covered s.seq.cover = false → Waits (.asLoad a b) s ∧ Waits (.asGo a) s ∧ Waits (.collRed a) s) ∧
    (s.canIssue = true → s.mayRelease = false → Waits (.asGo a) s ∧ Waits (.collRed a) s) ∧
    (s.readyFor [a] = true → idle → s.covered s.seq.cover = true → s.mayRelease = true →
      (va.toNat % 64 ≠ 0 → Raises (.asGo a) s 0x04 va) ∧
      (va.toNat % 64 = 0 → ∀ bytes u, Ends (kfView n q va.toNat 128) s bytes u →
        let d0 := ((words bytes).headD 0).toNat
        (4096 ≤ d0 → late (.asGo a) u 0x02 word) ∧
        (d0 < 4096 → FinishesIn (.asGo a) s (u.modCore n fun c => { c.pushed 0x46 with att := { c.att with
          ar := Tab.setRange 0 [] 1 ((words bytes).drop 1), upc := d0, busy := true, fault := false, cover := u.covering, nextIssue := u.ccount + 1, started := true } }) 0 0))) ∧
    -- as.wait
    (s.readyFor [] = true → idle →
      let cleared := s.modHere fun c => { c with att := { c.att with fault := false } }
      let x := s.here.att
      (x.fault = true → nf = 0 → exec (.asWait d nf) s = .next (cleared.raise x.cause x.tval)) ∧
      (x.fault = true → nf = 1 → FinishesIn (.asWait d nf) s cleared d (w64 (2 ^ 63 + x.cause * 2 ^ 48 + x.fupc % 4096 * 2 ^ 32 + x.ended % 2 ^ 32))) ∧
      (x.fault = false → FinishesIn (.asWait d nf) s cleared d (w64 (x.fupc % 4096 * 2 ^ 32 + x.ended % 2 ^ 32)))) ∧
    -- coll.red
    (s.readyFor [a] = true → s.covered s.seq.cover = true → s.mayRelease = true →
      let free := (q = .f ∨ s.here.capturing = false) ∧ s.here.coll.length < 16
      (¬free → Waits (.collRed a) s) ∧ (free → va.toNat % 64 ≠ 0 → Raises (.collRed a) s 0x04 va) ∧
      (free → va.toNat % 64 = 0 → ∀ bytes u, Ends (kfView n q va.toNat 64) s bytes u →
        let ws := words bytes
        let src := ws.getD 0 0
        let dst := ws.getD 1 0
        (collOk ws = false → late (.collRed a) u 0x02 word) ∧
        (collOk ws = true → src.toNat % 64 ≠ 0 → late (.collRed a) u 0x04 src) ∧
        (collOk ws = true → src.toNat % 64 = 0 → dst.toNat % 64 ≠ 0 → late (.collRed a) u 0x04 dst) ∧
        (collOk ws = true → src.toNat % 64 = 0 → dst.toNat % 64 = 0 → ∀ y z,
          Ends (rangeCheck n q (rq ws 0 0 57) (srcBytes ws) .read) u () y →
          Ends (windowCheck (s.jobOf n) (rq ws 1 0 57) (rq ws 2 0 32 * accBytes (rq ws 3 0 3))) y () z →
          let r : CollReq :=
            { addr := va.toNat, job := z.jobOf n, phys := z.isF, words := ws, started := false, sent := 0, ended := 0, err := 0, flags := 0, parked := none
              cover := z.covering }
          FinishesIn (.collRed a) s (z.modHere fun c => { c.pushed 0x47 with coll := c.coll ++ [r] }) 0 0)))

/-- R414, R419, R421, R422: the plane words complete with their effects: a request joins the engine, and an open leaves to every child
whose port carries traffic; a wait ends with the counter, once its zero is readable; a cancellation and a status act on the request they
name. They read once what K has acquired is readable, and a receive's zeros follow K's earlier writes. -/
def Obligations.PlaneWordsTakeEffect : Prop :=
  ∀ (s : State) (d a b : BitVec 5), s.cur.2 = .k →
    let n := s.cur.1
    let va := (s.reg a).toNat
    let job := s.jobOf n
    let word := s.word.setWidth 64
    let late := fun (x : Instr) (u : State) (c : Nat) (y : Word) => exec x s = .next ((restore s u).raise c y)
    let req := fun (send : Bool) (ws : List Word) =>
      ({ addr := va, job := job, isSend := send, words := ws, answers := [], openAt := [], parent := none, tiles := [], nextPlane := 0, nextTile := 0,
         err := 0, cnt := 0, done := false, cover := s.covering, out := [], owes := [], zeroAt := 0 } : PlaneReq)
    let joined := fun (z : State) (r : PlaneReq) => (List.range r.nch).foldl (fun v j => v.openTo n z.here.planes.length j)
      (z.modHere fun c => { c with planes := c.planes ++ [{ r with
        zeroAt := if r.isSend then 0 else z.slicesTill, answers := (List.range r.nch).map fun i => (i, 2) }] })
    -- an open
    (∀ (v : State) (m : CoreId) (i j : Nat) (r : PlaneReq), (v.core m).planes[i]? = some r → let peer := r.child j
      (v.portTo peer = none → v.openTo m i j = v) ∧
      (∀ y, v.portTo peer = some y → ((v.openTo m i j).core m).planes[i]? =
          some { r with answers := Tab.put r.answers j 0, openAt := Tab.put r.openAt j (v.ccount + 1) } ∧
        (v.openTo m i j).dev.linkOut = (v.send peer (.opening peer
          { dev := v.dev.dev, job := r.job, tag := BitVec.ofNat 24 r.tag, fmt := BitVec.ofNat 3 r.fmt, nt := r.nt })).dev.linkOut)) ∧
    (s.canIssue = true → s.covered s.seq.cover = false → Waits (.bpWait d a b) s ∧ Waits (.bpCancel a b) s ∧ Waits (.bpStat d a) s) ∧
    -- bp.send, bp.recv
    (s.readyFor [a] = true →
      let free := s.covered s.seq.cover = true ∧ s.mayRelease = true ∧ s.here.capturing = false ∧ (s.here.planes.filter fun r => !r.done).length < 16
      (¬free → Waits (.bpSend a) s ∧ Waits (.bpRecv a) s) ∧ (s.released = false → Waits (.bpRecv a) s) ∧
      (free → va % 64 ≠ 0 → Raises (.bpSend a) s 0x04 (s.reg a) ∧ (s.released = true → Raises (.bpRecv a) s 0x04 (s.reg a))) ∧
      (free → va % 64 = 0 → ∀ bytes u, Ends (kView n va 64) s bytes u →
        let ws := (dwords bytes).map w64
        let bytesOf := (req true ws).nt * (req true ws).tileBytes
        (planeOk s true ws = false → late (.bpSend a) u 0x02 word) ∧
        (s.released = true → planeOk s false ws = false ∨ (s.receiveOf job (req false ws).tag).isSome = true → late (.bpRecv a) u 0x02 word) ∧
        (planeOk s true ws = true → ∀ z, Ends (rangeCheck n .k (req true ws).base bytesOf .read) u () z →
          FinishesIn (.bpSend a) s (joined z (req true ws)) 0 0) ∧
        (s.released = true → planeOk s false ws = true → s.receiveOf job (req false ws).tag = none → ∀ x y z,
          Ends (rangeCheck n .k (req false ws).base bytesOf .write) u () x → Ends (rangeCheck n .k (req false ws).pctr (req false ws).nt .write) x () y →
          (s.planeReqs.filter fun r => !r.2.2.isSend && !r.2.2.done).length < 256 →
          Ends (writeVirt n .k (planeWriter n) (req false ws).pctr (List.replicate (req false ws).nt 0)) y () z →
          FinishesIn (.bpRecv a) s (joined { z with cores := z.cores.map fun x =>
            (x.1, { x.2 with planes := x.2.planes.filter fun y => !(y.done && decide (y.job = job) && decide (y.addr = va)) }) } (req false ws)) 0 0))) ∧
    -- words on a posted receive
    (s.postedAt job va = none → s.readyFor [a, b] = true → s.covered s.seq.cover = true → Raises (.bpWait d a b) s 0x02 word ∧ Raises (.bpCancel a b) s 0x02 word) ∧
    (∀ m i r, s.postedAt job va = some (m, i, r) → s.readyFor [a, b] = true → s.covered s.seq.cover = true →
      let v := (s.reg b).toNat
      let t := v % 2 ^ 16
      let k := v / 2 ^ 16 % 64
      (2 ^ 22 ≤ v ∨ r.nt ≤ t ∨ r.fw < k → Raises (.bpWait d a b) s 0x02 word) ∧
      (v < 2 ^ 22 → t < r.nt → k ≤ r.fw → s.ccount < r.zeroAt → Waits (.bpWait d a b) s) ∧
      (v < 2 ^ 22 → t < r.nt → k ≤ r.fw → r.zeroAt ≤ s.ccount → ∀ bytes u, Ends (kView n (r.pctr + t) 1) s bytes u →
        let c := bytes.headD 0
        let there := (c.getLsbD 7 = true ∧ k ≤ c.toNat % 64) ∨ c.getLsbD 6 = true
        (¬there → Waits (.bpWait d a b) s) ∧ (there → FinishesIn (.bpWait d a b) s u d (c.setWidth 64))) ∧
      ((v / 2 ^ 16 % 2 ^ 47 ≠ 0 ∨ (2 ^ 63 ≤ v ∧ t ≠ 0) ∨ (v < 2 ^ 63 ∧ r.nt ≤ t)) → Raises (.bpCancel a b) s 0x02 word) ∧
      (v < 2 ^ 16 → t < r.nt → ∀ y z, Ends (cancelTile (m, i) t false) s () y → Ends (planeSettle m i) y () z →
        FinishesIn (.bpCancel a b) s z 0 0) ∧
      (v = 2 ^ 63 → ∀ (f : Nat → State) z, f 0 = s → (∀ j, j < r.nt → Ends (cancelTile (m, i) j false) (f j) () (f (j + 1))) →
        Ends (planeSettle m i) (f r.nt) () z → FinishesIn (.bpCancel a b) s z 0 0)) ∧
    -- bp.stat
    (s.readyFor [a] = true → s.covered s.seq.cover = true →
      let own := s.here.planes.reverse.find? fun r => decide (r.job = job) && decide (r.addr = va) && !r.done
      (∀ r, own = some r → FinishesIn (.bpStat d a) s s d (w64 (r.cnt * 2 ^ 32 + r.err * 2 ^ 8 + r.nch))) ∧
      (own = none → ∀ v u, Ends (kViewW n (va + 24)) s v u → FinishesIn (.bpStat d a) s u d (w64 v)))

/-! ## The attention sequencer -/

/-- R369 to R373: a microword that the sequencer may issue acts as its entry says and UPC goes on; its faults are recorded in the status, and
after one it is idle once its microwords in flight have ended. A copy waits for a transfer slot before its checks, and one whose gathering reads
fault takes its slot and keeps the fault for its retirement. The accesses are those of agent 4 (`rd`), which waits for its own writes over links.
R373: a staging copy that is wanted lands whole, its header says so, and it is marked; an unwanted one is discarded and counted. -/
def Obligations.MicrowordsTakeEffect : Prop :=
  (
  ∀ (s : State) (n : CoreId) (m : Micro), s.attIssues n = true →
    let c := s.core n
    let a := c.att
    let now := s.ccount
    let micro := Tab.get 0 a.store a.upc
    let x := a.reg m.x.toNat
    let y := a.reg m.y.toNat
    let drained := (∀ f ∈ c.mat.flight, f.att = false) ∧ c.ta.flight = [] ∧ a.exp = none
    let rd := (n, 4, 0)
    let s' := { s with reader := rd }
    let may := s.covered a.cover = true ∧ s.farWrites rd = false
    -- the core `n` is left as `c'`, and nothing else changes but the agent and the reads that it has made over links
    let leaves := fun (i : Instr) (c' : Core) => ∃ t, exec i s = .next t ∧ t.core n = c' ∧ { t with cores := s.cores, reader := s.reader, far := s.far } = s ∧
      (t.far = s.far ∨ t.far = (s.dropReads rd).far) ∧ ∀ k, k ≠ n → t.core k = s.core k
    let goes := fun (i : Instr) (a' : Att) (upc : Nat) => leaves i { c with att := { a' with upc := upc % 4096, nextIssue := now + 1 } }
    let fails := fun (i : Instr) (code : Nat) (v : Word) =>
      leaves i { c with att := if drained then { a with fault := true, cause := code, fupc := a.upc, tval := v, busy := false, ended := (a.ended + 1) % 2 ^ 32 }
                               else { a with fault := true, cause := code, fupc := a.upc, tval := v } }
    let matrix := fun (i : Instr) (ok : Bool) (A : MArgs) =>
      let ready := mReady s n A true = true ∧ s.covered a.cover = true ∧ mMeets c A = none
      (ok = false ∨ mGroup1 s n A = false → fails i 0x02 micro) ∧
      (ok = true → mGroup1 s n A = true → (¬ready → Waits i s) ∧
        (ready → (∀ code, mGroup3 s n A = some code → fails i code micro) ∧
          (mGroup3 s n A = none → ∃ t f, exec i s = .next t ∧ (t.core n).mat.flight = c.mat.flight ++ [f] ∧ f.op = A.op ∧ f.att = true ∧
            f.due = A.dueAt A.cols now ∧ f.n = A.n ∧ (t.core n).att.upc = (a.upc + 1) % 4096 ∧ (t.core n).att.ar = a.ar ∧
            (t.core n).att.nextIssue = now + 1 ∧ SameBytes s t ∧ ∀ k, k ≠ n → t.core k = s.core k)))
    let fmt := m.ctl.toNat / 2 ^ 5
    let acc := m.ctl.toNat / 2 ^ 3 % 2
    let acts := fun (i : Instr) (u : State) => may → exec i s = .next ((u.dropReads rd).attNext n)
    let waits := fun (i : Instr) => exec i s = .next s'
    (¬may → waits (.asTld n m) ∧ (m.rb.toNat < 16 → waits (.kvg n m)) ∧ waits (.stage n m)) ∧
    -- ADD, LOOP, END
    goes (.asAdd n m) (a.setReg m.x.toNat (y + m.imm.signExtend 64)) (a.upc + 1) ∧
    (x = 0 → goes (.asLoop n m) a (a.upc + 1)) ∧ (x ≠ 0 → goes (.asLoop n m) (a.setReg m.x.toNat (x - 1)) (m.imm.toNat % 4096)) ∧
    (drained → leaves (.asEnd n m) { c with att := { a with busy := false, fault := false, cause := 0, fupc := a.upc, ended := (a.ended + 1) % 2 ^ 32 } }) ∧
    (¬drained → Waits (.asEnd n m) s) ∧
    -- STEP, ACCRD, ACCZR, WLD
    matrix (.asStep n m) (stepOk m) (stepArgs m) ∧
    (let cols := w64 (m.imm.toNat % 2 ^ 10 + m.imm.toNat / 2 ^ 16 % 2 ^ 10 * 2 ^ 16)
      let A : MArgs := { op := 6, ra := m.ra.toNat, rb := m.rb.toNat, acc := acc, fmt := fmt, e := m.ctl.getLsbD 4, buf := 0, n := cols, rnd := BitVec.ofNat 2 (m.ctl.toNat % 4) }
      matrix (.asAccrd n m) (decide (1 ≤ fmt) && decide (fmt < 5)) A) ∧
    matrix (.asAcczr n m) true { op := 7, ra := 0, rb := 0, acc := acc, fmt := 0, e := false, buf := 0, n := 0, rnd := 0 } ∧
    matrix (.asWld n m) (decide (fmt < 5)) { op := 4, ra := m.ra.toNat, rb := 0, acc := 0, fmt := fmt, e := false, buf := m.ctl.toNat / 4 % 2, n := 0, rnd := 0 } ∧
    -- TLD
    (let td := Tab.get 0 c.tl.td (m.imm.toNat % 32)
      let f : TFlight := { copyFlight n s 1 m.ra.toNat with a := x, l := y, td := td }
      (4 ≤ c.ta.flight.length → may → waits (.asTld n m)) ∧
      (c.ta.flight.length < 4 → (c.ring m.ra.toNat).valid = false → may → fails (.asTld n m) 0x02 micro) ∧
      (c.ta.flight.length < 4 → (c.ring m.ra.toNat).valid = true → ∀ u, Ends (tCheck micro 1 0 td x y (c.ring m.ra.toNat).size) s' () u →
        acts (.asTld n m) (u.flyCopy n f))) ∧
    -- KVG
    (let t := x.toNat
      let l := y.toNat / 2 ^ 32
      let b := y.toNat % 2 ^ 32 / 64
      let slot := m.rb.toNat < 16 ∧ may ∧ c.ta.flight.length < 4
      let valid := (c.ring m.ra.toNat).valid = true
      let flies := fun (u : State) (bytes : List Byte) (k : Nat) =>
        (bytes.length ≤ (c.ring m.ra.toNat).size → acts (.kvg n m)
          ((u.flyCopy n { copyFlight n u 0x11 m.ra.toNat with got := bytes }).modCore n fun c => { c with att := c.att.setReg m.rb.toNat (w64 k) })) ∧
        ((c.ring m.ra.toNat).size < bytes.length → exec (.kvg n m) s = .next ((undo s' u).attFail n 0x02 micro))
      let live := (s.sd t 0).getLsbD 63 = true ∧ bitsOf (s.sd t 0) 48 8 = (s.jobOf n).toNat
      (16 ≤ m.rb.toNat → fails (.kvg n m) 0x02 micro) ∧ (m.rb.toNat < 16 → may → 4 ≤ c.ta.flight.length → waits (.kvg n m)) ∧
      (slot → (¬valid ∨ 4096 ≤ t) → fails (.kvg n m) 0x02 micro) ∧ (slot → valid → t < 4096 → ¬live → fails (.kvg n m) 0x06 micro) ∧
      (slot → valid → t < 4096 → live → (2 ^ 44 ≤ y.toNat ∨ s.nlayer t ≤ l) → fails (.kvg n m) 0x02 micro) ∧
      (slot → valid → t < 4096 → live → y.toNat < 2 ^ 44 → l < s.nlayer t →
        (∀ code v u, kvgRead n t l b s' = (.error (.fault code v), u) → s'.mayReplay (s.jobOf n) n code = false →
          let w := undo s' u
          acts (.kvg n m) (w.flyCopy n { copyFlight n w 0x11 m.ra.toNat with failed := some (code, v) })) ∧
        ∀ e u, (if s.maxb t ≤ b then e = 0 ∧ u = s' else ∃ z, Ends (attRead n (s.tableAt t l b) 8) s' z u ∧ e = ofBytes z) →
          (e = 0 → flies u [] 0) ∧
          (e ≠ 0 → ∀ hb v h w bytes z, Ends (attRead n e 64) u hb v → Ends (kvHdrOf e hb) v h w →
            let below := s.curG t - 64 * b
            let k := popcount 64 (if below < 64 then h.surv % 2 ^ below else h.surv)
            let staged := h.tier = 1 ∧ s.stgTag t (l % 2) = 2 ^ 15 + l ∧ (t, l % 2, b, e) ∈ s.landed
            Ends (attRead n (if staged then s.stgAt t (l % 2) b h.slot + 64 else h.data) (k * h.slot)) w bytes z → flies z bytes k))) ∧
    -- EXP: its issue, and its retirement once it is due
    (let k := m.imm.toNat
      let r := c.ring m.ra.toNat
      let h := s.homeRing n m.ra.toNat
      let g := s.homeRing n m.rb.toNat
      let p := h.nextRead
      let rank := readerRank (s.ringHome n m.ra.toNat).1 n .f
      let ok := k % 64 = 0 ∧ r.valid = true ∧ (c.ring m.rb.toNat).valid = true ∧ 4 * k ≤ r.size ∧ 4 * k ≤ (c.ring m.rb.toNat).size
      let ready := may ∧ a.exp = none ∧ h.valid = true ∧ h.isFilled now p = true ∧ h.mayTake now rank = true ∧
        h.isColophon p = false ∧ s.covered h.cov = true ∧ g.valid = true ∧ (g.colo = true ∨ (1 ≤ g.free ∧ g.waits = []))
      (¬ok → fails (.exp n m) 0x02 micro) ∧ (ok → ¬ready → waits (.exp n m)) ∧ (ok → ready → g.colo = true → fails (.exp n m) 0x13 micro) ∧
      (ok → ready → g.colo = false → ∀ b u, Ends (attRead n (r.addr p) (4 * k)) s' b u →
        let outs := (List.range (b.length / 4)).map fun i => exp2Lane .f32 (mode2 (BitVec.ofNat 2 (m.ctl.toNat % 4)) (frmOf c.c.fcsr)) (ftzOf c.c.fcsr .f32)
          (ofBytes ((b.drop (4 * i)).take 4))
        let v := u.modHome n m.ra.toNat fun r => r.take u.ccount rank
        ∃ f : TFlight, f.target = m.rb.toNat ∧ f.code = m.ra.toNat ∧ f.rpos = some p ∧ f.claimed = some (v.homeRing n m.rb.toNat).claim ∧
          f.got = (outs.flatMap fun o => toBytes 4 o.bits) ∧ f.failed = none ∧ f.flags = outs.foldl (fun g o => g ||| o.flags) 0 ∧ f.val = w64 (u.ccount + k / 64 + 8) ∧
          acts (.exp n m) ((v.modHome n m.rb.toNat fun h => { h with claim := h.claim + 1 }).modCore n fun c =>
            { c.pushed 0x43 with att := { c.att with exp := some f, cover := c.att.cover.join h.cov } })) ∧
      ∀ f q u, a.exp = some f → f.val.toNat ≤ now → f.failed = none → f.claimed = some q → (s.homeRing n f.target).valid = true → (s.homeRing n f.code).valid = true →
        Ends (writeVirt n .c (attWriter n) ((c.ring f.target).addr q) (f.got ++ List.replicate ((c.ring f.target).size - f.got.length) 0)) s () u →
        attRetire n s = .next (((u.modHome n f.code fun r => r.pop (f.rpos.getD 0)).modHome n f.target fun r => r.push q (u.coverOf n .f) (now + 6)).modCore n fun c =>
          ({ c with att := { c.att with exp := none }, c := c.c.retireFlags f.flags } : Core).attSettle)) ∧
    -- STAGE
    (let t := x.toNat
      let l := y.toNat
      t < 4096 → (s.sd t 0).getLsbD 63 = true → bitsOf (s.sd t 0) 48 8 = (s.jobOf n).toNat → l < s.nlayer t →
        ∀ f : Nat → State, f 0 = { s'.setSd t 17 (putBits (s.sd t 17) (16 * (l % 2)) 16 (2 ^ 15 + l)) with
            landed := s.landed.filter fun z => !(z.1 == t && z.2.1 == l % 2) } →
          (∀ j, j < s.maxb t → ∃ z u, Ends (attRead n (s.tableAt t l j) 8) (f j) z u ∧
            (ofBytes z = 0 → f (j + 1) = u) ∧
            (ofBytes z ≠ 0 → ∃ hb v h w, Ends (attRead n (ofBytes z) 64) u hb v ∧ Ends (kvHdrOf (ofBytes z) hb) v h w ∧
              (h.tier ≠ 1 → f (j + 1) = w) ∧
              (h.tier = 1 → ∃ q, Ends (writeVirt n .l (attWriter n) (ofBytes z + 8) (toBytes 8 (h.h1 / 64 * 64 + 16 + h.lslot))) w () q ∧
                f (j + 1) = q.modCore n fun c => { c with staging := c.staging ++ [{ stream := t, layer := l, blk := j, hdr := ofBytes z, parked := none }] }))) →
          acts (.stage n m) (f (s.maxb t)))
  ) ∧
  (
  ∀ (s : State) (n : CoreId) (i : Nat) (k : StageCopy), (s.core n).staging[i]? = some k → k.parked = none →
    let rd := (n, 10, ((k.hdr * 2 ^ 12 + k.stream) * 2 ^ 12 + k.layer) * 2 ^ 32 + k.blk)
    let s0 := { s with reader := rd }.modCore n fun c => { c with staging := c.staging.eraseIdx i }
    let t := k.stream
    let buf := k.layer % 2
    let job : BitVec 8 := BitVec.ofNat 8 (bitsOf (s.sd t 0) 48 8)
    ∀ z u, Ends (readJob job (s.tableAt t k.layer k.blk) 8 n.toNat) s0 z u →
      (s.stgTag t buf ≠ 2 ^ 15 + k.layer ∨ ofBytes z ≠ k.hdr → exec (.stageLanding n i) s = .next ((u.bumpSd t 16 0).dropReads rd)) ∧
      (s.stgTag t buf = 2 ^ 15 + k.layer → ofBytes z = k.hdr → ∀ hb h data v w x y q, Ends (readJob job k.hdr 64 n.toNat) u hb v → Ends (kvHdrOf k.hdr hb) v h w →
        Ends (readJob job h.data (64 * h.slot) n.toNat) w data x → Ends (writeJob job (attWriter n) (s.stgAt t buf k.blk h.slot) (hb ++ data)) x () y →
        Ends (writeJobW job (attWriter n) (k.hdr + 8) (h.h1 / 64 * 64 + 32 + h.lslot)) y () q →
        exec (.stageLanding n i) s = .next ({ q with landed := q.landed ++ [(t, buf, k.blk, k.hdr)] }.dropReads rd))
  )

/-! ## Dispatchers and units -/

/-- R292, R294, R296, R300, R304, R312, R317, R322: what the dispatch blocks do: a pooled entry is submitted or enters its queue, a task that has waited
2^16 cycles reserves its keys, and the first eligible task is dispatched, cancelled or parked, one in a cycle, the dies in order. That one task
in a cycle comes back from the pool to a queue is the model's choice (log 15). -/
def Obligations.DispatchStepsTakeEffect : Prop :=
  ∀ (s : State),
    -- POOL_SUBMIT
    (∀ u, Ends (firstPoolEntry s.pool) s.asDevice none u → Waits .poolSubmit s) ∧
    (∀ p u, Ends (firstPoolEntry s.pool) s.asDevice (some p) u →
      let u' := { u with pool := u.pool.erase p }
      (p.overflow = false → ∀ t v, Ends (soft [] (readTcb p.job p.task.toNat)) u' t v → (t = [] → Becomes .poolSubmit s v) ∧
        (t ≠ [] → ∀ w, Ends (submitTask p.job p.task.toNat t) v () w → Becomes .poolSubmit s w)) ∧
      (p.overflow = true → ∀ t v q w, Ends (soft [] (readTcb p.job p.task.toNat)) u' t v → Ends (queueOf p.job t) v q w →
        Becomes .poolSubmit s (w.modDie q.1 fun d =>
          { d with ready := Tab.put d.ready q.2 (d.queue q.2 ++ [{ job := p.job, task := p.task, since := w.ccount, reserving := false, pooled := true }]) }))) ∧
    -- KEY_RESERVATION
    (∀ job task, (s.readyOf job task = none → Waits (.keyReservation job task) s) ∧ ∀ die pri e, s.readyOf job task = some (die, pri, e) →
      (e.reserving = true ∨ s.ccount < e.since + 2 ^ 16 → Waits (.keyReservation job task) s) ∧
      (e.reserving = false → e.since + 2 ^ 16 ≤ s.ccount → ∀ t u, Ends (soft [] (readTcb job task.toNat)) s.asDevice t u →
        Becomes (.keyReservation job task) s (({ (u.modDie die fun d => { d with ready := Tab.put d.ready pri ((d.queue pri).map fun x =>
            if x.job = job ∧ x.task = task then { x with reserving := true } else x) }) with
          wantKeys := u.wantKeys ++ ((accordOf t).map fun k => (job, task, k.1)) } : State).settleKeys))) ∧
    -- TASK_DISPATCH
    (∀ d : BitVec 2,
      let s0 := s.asDevice.regrip
      let die := d.toNat
      let lead : CoreId := BitVec.ofNat 8 (64 * die)
      let other := (∃ k, k < die ∧ s.owes k = true) ∨ ∃ x ∈ s0.dies, die ≤ x.1 ∧ x.2.dispAt = s0.ccount + 1
      let ends := fun (w : State) => Becomes (.taskDispatch d) s (w.modDie die fun x => { x with dispAt := w.ccount + 1 })
      (other ∨ (s0.die die).freeSlot = none → Waits (.taskDispatch d) s) ∧
      ∀ slot, ¬other → (s0.die die).freeSlot = some slot →
        (∀ u, Ends (firstEligible (s0.die die).considered) s0 none u → Waits (.taskDispatch d) s) ∧
        ∀ e t u, Ends (firstEligible (s0.die die).considered) s0 (some (e, t)) u →
          let job := e.job
          let id := e.task.toNat
          let mine := fun (l : Launch) => l.job == job && l.task == e.task
          -- of a cancelled level
          (∀ v w, Ends (levelsCancelled job t) u true v → Ends (cancelTask job id) v () w → ends w) ∧
          -- failing a check: parked
          (∀ v w, Ends (levelsCancelled job t) u false v → Ends (soft none (checkTask job id)) v none w →
            ((w.die die).fqFull = true → Waits (.taskDispatch d) s) ∧
            ((w.die die).fqFull = false → ∀ q y z,
              let cuts := match w.parked.find? mine with | some l => l.resume | none => []
              (if tf t 3 63 1 = 1 then ∃ f : Nat → State, f 0 = w ∧ (∀ i x, cuts[i]? = some x → Ends (abortSaved job (saveOf t) x) (f i) () (f (i + 1))) ∧
                  Ends (soft () (tcbField job id 3 19 1 0)) ((f cuts.length).dropKeys job e.task fun _ => true) () q
                else q = w) →
              let q' := if (w.parked.find? mine).isNone then { q with parked := q.parked ++ [(newLaunch job e.task t [] 0).parkedForm] } else q
              Ends (soft () (tcbField job id 3 24 8 2)) (((q'.leaveReady job e.task).dropWants job e.task).putFault lead 0x02 (w64 (lnrOf t)) job e.task) () y →
              Ends (setTaskState job id 5) y () z → ends z)) ∧
          -- dispatched
          (∀ v b r w y z q, Ends (levelsCancelled job t) u false v → Ends (soft none (checkTask job id)) v (some (b, r)) w →
            Ends (setTaskState job id 3) (((accordOf b).foldl (fun s k => s.takeKey job e.task k.1 k.2) (w.leaveReady job e.task)).dropWants job e.task) () y →
            Ends (soft () (tcbField job id 3 19 1 1)) y () z →
            let new := newLaunch job e.task b r z.launchSeq
            let l := match z.parked.find? mine with
              | some p => { p with prio := new.prio, order := new.order, recAddr := new.recAddr, words := new.words, total := new.total }
              | none => new
            Ends (finishLaunch die slot lead) (({ z with launchSeq := z.launchSeq + 1, parked := z.parked.filter fun l => !mine l } : State).modDie die
              fun d => { d with launches := Tab.put d.launches slot l }) () q → ends q))

/-- R100 to R102, R288 to R290, R306: a free core takes the next tuple of its launch and starts with the state of R101, R112, R147 and its
image, which a core that changes its job reads 2,048 cycles later, once what R102 names is clear; a quire starts all its units at once; a unit
whose halt may retire leaves its core. -/
def Obligations.UnitsStartAndEnd : Prop :=
  ∀ (s : State) (n : CoreId) (d : BitVec 2),
    let s0 := s.regrip
    -- UNIT_START
    ((s.core n).starting = none → s0.best n = none → exec (.unitStart n) s = .next s0) ∧
    (∀ die slot l v, (s.core n).starting = none → s0.best n = some (die, slot, l) → s0.coreFree n = true → l.gathers = false → l.toResume n = false → l.startAt ≠ s0.ccount + 1 →
      (∀ m : CoreId, m.toNat < n.toNat → s0.coreFree m = true → ∀ x, s0.best m = some (die, slot, x) → x.toResume m = true) →
      Ends (startUnit n die slot l.started false) s0.asDevice () v → Becomes (.unitStart n) s v) ∧
    -- the image of a unit whose core is clear by now
    (∀ at_ node u, (s.core n).starting = some (at_, node) → (s.core n).unit = some u →
      (s.ccount < at_ → Waits (.unitStart n) s) ∧
      (at_ ≤ s.ccount → ∀ l v, s.launchAt u.die.toNat u.slot = some l →
        let go := fun (q : Seq) => { q with nextIssue := s.ccount + 1 }
        Ends (readImage n l node) (s.asDevice.modCore n fun c => { c with starting := none, k := go c.k, l := go c.l, c := go c.c, s := go c.s }) () v →
        Becomes (.unitStart n) s v)) ∧
    -- QUIRE_START
    (∀ slot l, ((s0.die d.toNat).launches.find? fun x => x.2.gathers && !x.2.stopWalk && decide (0 < x.2.total) && decide (x.2.held.length = x.2.cnt + 1)) = some (slot, l) →
      ∀ f : Nat → State, f 0 = (l.held.foldl (fun s n => s.modCore n fun c => { c with quireHeld := false }) s0.asDevice).modLaunch d.toNat slot (fun l => { l with held := [] }) →
        (∀ i, i < l.total → Ends (startUnit (BitVec.ofNat 8 (l.first + i)) d.toNat slot i false) (f i) () (f (i + 1))) →
        Becomes (.quireStart d) s (f l.total)) ∧
    -- the start of a unit, of the job and with an image that the core can take
    (∀ die slot i inherit l, s.launchAt die slot = some l → l.fromNode = false → (s.core n).prevJob = some l.job → (s.core n).newJob = false →
      let u : UnitInfo := { job := l.job, task := l.task, die := BitVec.ofNat 2 die, slot := slot, arrived := [], texit := none }
      let c := (s.core n).startState u l (unitTuple (l.words.map BitVec.toNat) i) inherit s.ccount s.slicesTill
      let s1 := (s.setCore n c).modLaunch die slot fun l => { l with started := l.started + 1, startAt := s.ccount + 1, fromNode := false }
      c.k.pc = l.entry 0 ∧ c.l.pc = l.entry 1 ∧ c.c.pc = l.entry 2 ∧ c.s.pc = l.entry 3 ∧ c.supK = Sup.reset ∧ c.q = [] ∧ c.unit = some u ∧
      c.k.loops = [] ∧ c.k.halted = false ∧ c.slice = (s.core n).slice ∧ c.rings = (s.core n).rings ∧ c.prio = l.prio ∧
      (∀ j x, (unitTuple (l.words.map BitVec.toNat) i)[j]? = some x → Tab.get 0 c.k.regs (j + 1) = BitVec.ofInt 64 x) ∧
      ∀ im rm v w, Ends (hwWords l.job l.image 128) s1 im v →
        (if im.getD 2 0 % 2 ^ 32 = 0 then rm = [] ∧ w = v else Ends (hwWords l.job (l.image + 1024) 64) v rm w) →
        (regImageOk w l.job n im rm = true → Ends (startUnit n die slot i inherit) s () (w.modCore n fun c => c.withImage im rm)) ∧
        (regImageOk w l.job n im rm = false → Ends (startUnit n die slot i inherit) s () (w.startTrap n 0x02 (w64 l.image)))) ∧
    -- of another job
    (∀ die slot i inherit l, s.launchAt die slot = some l → (s.core n).prevJob ≠ some l.job ∨ (s.core n).newJob = true →
      let u : UnitInfo := { job := l.job, task := l.task, die := BitVec.ofNat 2 die, slot := slot, arrived := [], texit := none }
      let z := (s.clearCodes n).modCore n Core.clearJob
      let c := (z.core n).startState u l (unitTuple (l.words.map BitVec.toNat) i) inherit (s.ccount + 2048) z.slicesTill
      c.slice = [] ∧ c.mat = MUnit.reset ∧ c.tl.td = [] ∧ c.ts.td = [] ∧ c.vec.rule = [] ∧ c.k.nextIssue = s.ccount + 2049 ∧
      (∀ j, { c.ring j with waits := [] } = { Ring.reset with waits := [] }) ∧
      Ends (startUnit n die slot i inherit) s () (((z.setCore n c).modLaunch die slot fun l =>
        { l with started := l.started + 1, startAt := s.ccount + 1, fromNode := false }).modCore n fun c => { c with starting := some (s.ccount + 2048, l.fromNode) })) ∧
    -- UNIT_HALT_RETIRE
    (∀ u, (s.core n).unit = some u → (s.haltReady n = false → Waits (.unitHaltRetire n) s) ∧
      (s.haltReady n = true → ∀ v,
        let ws := (List.range 8).map fun i => (s.core n).k.reg (BitVec.ofNat 5 (i + 1))
        Ends (finishLaunch u.die.toNat u.slot n) ((s.asDevice.modCore n Core.noUnit).modLaunch u.die.toNat u.slot fun l =>
          let l := ({ l with ended := l.ended + 1, texit := u.texit } : Launch).noteEnd s.ccount n ws
          if l.quire then l.forfeit u else l) () v →
        Becomes (.unitHaltRetire n) s v))

/-- R383 to R389, R393: pre-emption stops a walk or cuts the resident units, a core at rest is saved and leaves, a cut unit resumes; debug
halts stop and release a core, and the window writes it. That a cut begun under NODE ends the walk as a cut (log 25), and what a cut core's
writes at a site in self-refresh do (log 40), are the model's reading. -/
def Obligations.CutsAndHaltsTakeEffect : Prop :=
  ∀ (s : State) (n : CoreId) (v : Word), s.dev.ready = true →
    let named := v.toNat / 2 ^ 40 = 0 ∧ v.toNat / 2 ^ 24 % 2 ^ 7 = 0
    let job : BitVec 8 := BitVec.ofNat 8 (v.toNat / 2 ^ 32)
    let task : BitVec 24 := BitVec.ofNat 24 v.toNat
    -- PREEMPT in its two modes
    (v.getLsbD 31 = false → (¬named ∨ s.launchOf job task = none → exec (.preemptNode v) s = .next s) ∧
      (named → ∀ die slot l, s.launchOf job task = some (die, slot, l) → (l.stopWalk = true → exec (.preemptNode v) s = .next s) ∧
        (l.stopWalk = false →
          let t := s.asDevice.modLaunch die slot fun l => { l with stopWalk := true, node := true }
          (s.unitCores die slot ≠ [] → Becomes (.preemptNode v) s t) ∧
          (s.unitCores die slot = [] → ∀ w, Ends (finishLaunch die slot (BitVec.ofNat 8 (64 * die))) t () w → Becomes (.preemptNode v) s w)))) ∧
    (v.getLsbD 31 = true → (¬named ∨ s.launchOf job task = none → exec (.preemptCut v) s = .next s) ∧
      (named → ∀ die slot l, s.launchOf job task = some (die, slot, l) →
        let t := s.asDevice.modLaunch die slot fun l => { l with stopWalk := true, node := false }
        let t' := (t.unitCores die slot).foldl (fun s m => s.modCore m fun c => c.beginCut s.ccount) t
        (s.unitCores die slot ≠ [] → Becomes (.preemptCut v) s t') ∧
        (s.unitCores die slot = [] → ∀ w, Ends (finishLaunch die slot (BitVec.ofNat 8 (64 * die))) t' () w → Becomes (.preemptCut v) s w))) ∧
    -- CUT_COMPLETE
    (∀ u, (s.core n).unit = some u → let atRest := (s.core n).cutting = .stopping ∧ s.atRest n = true
      let s1 := s.settleCore n
      (¬atRest → Waits (.cutComplete n) s) ∧ (atRest → s1.sliceStill n = false → exec (.cutComplete n) s = .next s1) ∧
      (atRest → s1.sliceStill n = true → (s.core n).frozen = false →
        ∀ w, Ends (saveUnit n u.die.toNat u.slot) (s1.setAside n).asDevice () w →
        (∃ m ∈ w.unitCores u.die.toNat u.slot, (w.core m).frozen = false ∨ (w.core m).cutting ≠ .stopped) →
        exec (.cutComplete n) s = .next { w.dropReads deviceAgent with reader := s.reader })) ∧
    -- CUT_RESUME
    (let s0 := s.regrip
      ∀ die slot l u, s0.best n = some (die, slot, l) → s0.coreFree n = true → s0.mayResume n l = true → (l.resume.find? fun u => decide (u.core = n)) = some u →
      ∀ t x img y c, Ends (soft [] (readTcb l.job l.task.toNat)) s0.asDevice t x →
        Ends (tryAct (readBlockOf l.job (saveOf t + u.rank * 2 ^ 22) u.kept)) x (.ok img) y → coreFrom s0 l.job n img (s0.core n) u.kept = some c →
        ∃ w, exec (.cutResume n) s = .next w ∧ (w.core n).k.regs = c.k.regs ∧ (w.core n).k.pc = c.k.pc ∧ (w.core n).l.pc = c.l.pc ∧ (w.core n).c.pc = c.c.pc ∧
          (w.core n).s.pc = c.s.pc ∧ (w.core n).supK = c.supK ∧ (w.core n).vec = c.vec ∧ (w.core n).mat = c.mat ∧ (∀ i, { (w.core n).ring i with waits := (c.ring i).waits } = c.ring i) ∧
          (w.core n).q = c.q ∧ (w.core n).tk = c.tk ∧ (w.core n).slice = c.slice ∧ (w.core n).group = c.group ∧ (w.core n).prio = l.prio ∧ w.mem = y.mem) ∧
    -- debug halts
    (v.toNat / 2 ^ 62 = 1 → v.toNat / 2 ^ 8 % 2 ^ 53 = 0 → exec (.debugHaltRequest v) s =
      .next (({ s with dev := { s.dev with dbgctl := BitVec.ofNat 8 v.toNat } } : State).modCore (BitVec.ofNat 8 v.toNat) fun c => c.beginHalt s.ccount)) ∧
    (v.toNat / 2 ^ 62 = 2 → v.toNat / 2 ^ 8 % 2 ^ 53 = 0 → exec (.debugHaltRelease v) s =
      .next (let m : CoreId := BitVec.ofNat 8 v.toNat
        let t := ({ s with dev := { s.dev with dbgctl := m } } : State).modCore m fun c => c.release s.ccount
        if (s.core m).debugHalt = .stopped then t.resendClaims m else t)) ∧
    ((s.core n).debugHalt = .stopping → s.atRest n = true →
      exec (.debugHaltComplete n) s = .next (((s.settleCore n).withdrawClaims n).modCore n fun c => { c.withdrawAmo with debugHalt := .stopped })) ∧
    (∀ off : BitVec 16, let m : CoreId := BitVec.ofNat 8 s.dev.dbgsel.toNat
      ((s.core m).debugHalt ≠ .stopped → exec (.debugWindowAccess true off v) s = .next s) ∧
      ((s.core m).debugHalt = .stopped → exec (.debugWindowAccess true off v) s =
        .next (s.debugWrite hostWriter m (s.dev.dbgsel.toNat / 2 ^ 16 % 64 * 2 ^ 16 + off.toNat / 8 * 8) v)) ∧
      exec (.debugWindowAccess false off v) s = .next { s with dev := { s.dev with reply := .data (toBytes 8 (s.debugRead off.toNat).toNat) } }) ∧
    -- SNAPSHOT_CAPTURE
    (s.ccount ∈ (s.core n).snapAt → ∃ t, exec (.snapshotCapture n) s = .next t ∧ Tab.get 0 (t.core n).snap 0 = w64 s.ccount ∧
      Tab.get 0 (t.core n).snap 1 = (s.core n).k.snapWord ∧ Tab.get 0 (t.core n).snap 5 = w64 ((s.core n).tok s.ccount) ∧ s.ccount ∉ (t.core n).snapAt) ∧
    (s.ccount ∉ (s.core n).snapAt → Waits (.snapshotCapture n) s)

/-! ## The host -/

/-- R292, R304, R305, R309, R310: a notified submission ring is consumed entry by entry, each refused with its reason or carried out by the
step of its OP, and the producer's allowance follows. -/
def Obligations.SubmissionRingsAreConsumed : Prop :=
  ∀ (s : State) (v : Word) (r : BitVec 6),
    let k := r.toNat
    let x := s.sub k
    (s.dev.ready = false ∨ 64 ≤ v.toNat ∨ (s.sub v.toNat).h2.getLsbD 0 = false → exec (.submissionNotify v) s = .next s) ∧
    (s.dev.ready = true → v.toNat < 64 → (s.sub v.toNat).h2.getLsbD 0 = true →
      ∀ t, Ends (settleRing v.toNat 4097) (s.asDevice.modSub v.toNat fun x => { x with active := true }) () t → Becomes (.submissionNotify v) s t) ∧
    (x.active = false → Waits (.submit r) s ∧ Waits (.cancelTask r) s ∧ Waits (.cancelGraph r) s ∧ Waits (.cancelPhase r) s ∧ Waits (.cancelJob r) s) ∧
    (x.active = true → ∀ e u, Ends (subEntry k) s.asDevice (some e) u →
      let op := e / 2 ^ 24 % 16
      let id := e % 2 ^ 24
      let ends := fun (i : Instr) (why : Option Nat) (w : State) => ∀ t, Ends (settleRing k 4097) (w.consume k why) () t → Becomes i s t
      let level := fun (i : Instr) (kind : Option Nat) (rec : Nat) =>
        ∀ g w, Ends (soft none (do pure (some (← levelV0 x.job rec)))) u (some g) w →
          (2 ^ 20 ≤ rec ∨ (∃ y, kind = some y ∧ lvKind g ≠ y) → ends i (some 3) w) ∧
          (rec < 2 ^ 20 → (∀ y, kind = some y → lvKind g = y) → ∀ z, Ends (markCancelled x.job rec) w () z → ends i none z)
      (op ≠ 0 → Waits (.submit r) s) ∧
      (op = 0 → (id = 0 → ends (.submit r) (some 1) u) ∧
        (id ≠ 0 → ∀ ok w, Ends (submitChecked x.job id) u ok w → ends (.submit r) (if ok = true then none else some 1) w)) ∧
      (op = 1 → ∀ t w, Ends (soft [] (readTcb x.job id)) u t w →
        (id = 0 ∨ t = [] ∨ tf t 0 0 24 ≠ id → ends (.cancelTask r) (some 3) w) ∧
        (id ≠ 0 → t ≠ [] → tf t 0 0 24 = id → ∀ z, Ends (cancelTask x.job id) w () z → ends (.cancelTask r) none z)) ∧
      (op = 2 → level (.cancelGraph r) (some 0) id) ∧ (op = 3 → level (.cancelPhase r) (some 1) id) ∧ (op = 4 → level (.cancelJob r) none 0)) ∧
    -- what consuming an entry leaves
    (∀ why, let y := (s.consume k why).sub k
      bitsOf y.h2 32 32 = (x.cons + 1) % 2 ^ 32 ∧ y.h0 = x.h0 ∧ y.h1 = x.h1 ∧ (why = none → y.h3 = x.h3) ∧
      (∀ z, why = some z → z < 16 → bitsOf y.h3 44 4 = z ∧ bitsOf y.h3 48 16 = Nat.min 65535 (bitsOf x.h3 48 16 + 1) ∧ bitsOf y.h3 0 32 = x.cons))

/-- R285, R301, R309, R333, R351, R352, R401, R402, R403, R432, R433: writes of BAR0 tables and registers are taken, with their read-only parts kept, or
discarded where a reserved bit is set, where the queue index is out of its range, or before READY; a frame notify registers the frames of any
stream. The model's choices and readings in it: a write of a ring lets its entries be consumed again (log 16), a job record that makes a job sets NEXT to 1
at every die (log 24) and takes the plane requests that the ended job of its number left (log 33), and which accesses a translation record's
read waits for (log 18). -/
def Obligations.RegisterWritesAreTaken : Prop :=
  ∀ (s : State) (job : BitVec 8) (d e : BitVec 2) (r : BitVec 6) (t : BitVec 12) (k : BitVec 5) (off : BitVec 23) (v : Word),
    (s.dev.ready = false → ∀ i ∈ [.jobRecordWrite job d v, .submissionRingWrite r d v, .translationRecordWrite job v, .streamDescriptorWrite t k v, .frameNotify v,
      .evconsWrite v, .faqconsWrite v, .fqconsWrite e v, .fwfpClear e v, .inval v], exec i s = .next s) ∧
    (s.dev.ready = true →
      -- job records
      (v &&& jobReserved d.toNat ≠ 0 ∨ (d = 0 ∧ v.toNat % 2 ^ 16 = 0) → exec (.jobRecordWrite job d v) s = .next s) ∧
      (v &&& jobReserved d.toNat = 0 → ¬(d = 0 ∧ v.toNat % 2 ^ 16 = 0) → ∃ u, exec (.jobRecordWrite job d v) s = .next u ∧
        { u with jobs := s.jobs, dies := s.dies, cores := s.cores } = s ∧ (d ≠ 0 → u.cores = s.cores) ∧
        (d = 0 → ∀ m, let c := s.core m
          u.core m = { c with newJob := c.newJob || decide (c.prevJob = some job), planes := c.planes.filter fun x => decide (x.job ≠ job) }) ∧
        (¬(d = 0 ∧ (s.job job).made = false) → u.dies = s.dies) ∧
        (d = 0 → (s.job job).made = false → ∀ x, u.die x = { s.die x with next := Tab.set 1 (s.die x).next job.toNat 1 }) ∧ (∀ j, j ≠ job → u.job j = s.job j) ∧ (d = 0 → u.job job = { s.job job with j0 := v, made := true }) ∧
        (d = 1 → u.job job = { s.job job with j1 := v }) ∧ (d = 2 → u.job job = { s.job job with j2 := v }) ∧ (d = 3 → u.job job = { s.job job with j3 := v })) ∧
      -- submission rings
      (s.subOk d.toNat v = false → exec (.submissionRingWrite r d v) s = .next s) ∧
      (s.subOk d.toNat v = true → ∀ u, Ends (settleRing r.toNat 4097) (s.asDevice.modSub r.toNat fun x =>
          if d = 0 then { x with h0 := v } else if d = 1 then { x with h1 := v } else if d = 2 then { x with h2 := putBits v 32 32 x.cons } else x) () u →
        Becomes (.submissionRingWrite r d v) s u) ∧
      -- translation records
      (v.toNat / 2 ^ 57 ≠ 0 ∨ v.toNat / 4 % 2 ^ 10 ≠ 0 → exec (.translationRecordWrite job v) s = .next s) ∧
      (v.toNat / 2 ^ 57 = 0 → v.toNat / 4 % 2 ^ 10 = 0 → ∃ u, exec (.translationRecordWrite job v) s = .next u ∧ Tab.get 0 u.xlate job.toNat = v ∧
        (∀ c, c ∈ u.tcache ↔ c ∈ s.tcache ∧ c.job ≠ job) ∧ u.dev.recCover = s.dev.recCover.join (s.accessesOf job) ∧
        u.far = s.far.map (fun x => if s.farOfJob job x = true then { x with old := true } else x) ∧
        { u with xlate := s.xlate, tcache := s.tcache, far := s.far, dev := { u.dev with recCover := s.dev.recCover } } = s) ∧
      -- stream descriptors and frames
      (v &&& sdReserved k.toNat ≠ 0 → exec (.streamDescriptorWrite t k v) s = .next s) ∧
      (v &&& sdReserved k.toNat = 0 →
        let u := s.setSd t.toNat k.toNat ((v &&& sdWritable k.toNat) ||| (s.sd t.toNat k.toNat &&& ~~~sdWritable k.toNat))
        exec (.streamDescriptorWrite t k v) s =
          .next (if (u.sd t.toNat 0).getLsbD 63 = true ∧ sdLimits (u.sd t.toNat 0) (u.sd t.toNat 12) = false then s else u)) ∧
      (4096 ≤ v.toNat → exec (.frameNotify v) s = .next s) ∧
      (v.toNat < 4096 → ∀ x u,
        Ends (attempt (registerFrames v.toNat (fun a => readJob (BitVec.ofNat 8 (bitsOf (s.sd v.toNat 0) 48 8)) a 16) 4097)) s.asDevice x u →
        Becomes (.frameNotify v) s u) ∧
      -- consumer indexes
      (exec (.evconsWrite v) s = .next { s with dev := { s.dev with evCons := consAfter s.dev.evCons s.dev.evProd v } }) ∧
      (exec (.faqconsWrite v) s = .next { s with dev := { s.dev with faqCons := consAfter s.dev.faqCons s.dev.faqProd v } }) ∧
      (let x := s.die e.toNat
        let cons := consAfter x.fqCons x.fqProd v
        let room := 1024 - (x.fqProd + 2 ^ 32 - cons) % 2 ^ 32
        exec (.fqconsWrite e v) s = .next ((x.held.take room).foldl (fun s n => match (s.core n).fatal with
          | some (code, val) => s.startFatalCut n code val
          | none => s) (s.modDie e.toNat fun x => { x with fqCons := cons, held := x.held.drop room }))) ∧
      (∃ u, exec (.fwfpClear e v) s = .next u ∧ { u with dev := { u.dev with fwfp := s.dev.fwfp } } = s ∧
        ∀ i, i < 256 → u.dev.fwfp.getLsbD i = (s.dev.fwfp.getLsbD i && !(decide (i / 64 = e.toNat) && v.getLsbD (i % 64)))) ∧
      -- the other registers
      (off.toNat % 8 = 0 → ownRow off.toNat v = false → exec (.registerWrite off v) s = .next { s with dev := s.dev.write off.toNat v })) ∧
    (off.toNat % 8 ≠ 0 → exec (.registerWrite off v) s = .next { s with dev := { s.dev with reply := .ur } })

/-- R336, R338, R339: a walk caches the entries it reads, an invalidation drops the entries of its range once what used them is performed, and a reply to a
page lets its words go on or fail. -/
def Obligations.TranslationsAreCachedAndDropped : Prop :=
  ∀ (s : State) (n : CoreId) (v : Word),
    let job := s.jobOf n
    let rec_ := Tab.get 0 s.xlate job.toNat
    let a := v.toNat
    -- TRANSLATION_WALK
    ((s.core n).unit.isSome = true → a < 2 ^ 57 → rec_.getLsbD 0 = true → (∀ c ∈ s.cachedAt n.toNat job a, c.entry.getLsbD 1 = false) →
      let path := s.walkOf n.toNat job a
      let good := fun (lv : Nat) (e : Word) => leadsOn lv e = true ∨ (entryOk e = true ∧ e.getLsbD 1 = true ∧ leafOk lv e = true)
      s.leafOf n.toNat job a = walkLeaf path ∧
      (∀ c w u, walkReads n.toNat job a s = (.error (.fault c w), u) → exec (.translationWalk n v) s = .next (restore s u)) ∧
      ∀ u, Ends (walkReads n.toNat job a) s () u → ∃ t, exec (.translationWalk n v) s = .next t ∧ { t with tcache := u.tcache } = u ∧
        (∀ c ∈ t.tcache, c ∈ u.tcache ∨ (c.job = job ∧ (c.place = n.toNat ∨ c.place = 256 + dieOf n) ∧ (∃ pa, (c.lv, pa, c.entry) ∈ path) ∧
          good c.lv c.entry ∧ c.size = levelSize c.lv ∧ c.base = a / c.size * c.size)) ∧
        ((u.tcache.filter fun c => decide (c.place = n.toNat)).length + path.length ≤ 128 → ∀ lv pa e, (lv, pa, e) ∈ path → good lv e →
          ∃ c ∈ t.tcache, c.place = n.toNat ∧ c.job = job ∧ c.lv = lv ∧ c.entry = e ∧ c.base ≤ a ∧ a < c.base + c.size)) ∧
    -- INVAL
    (s.dev.ready = true → (v = 0 → exec (.inval v) s = .next { s with dev := { s.dev with inv2 := 0 } }) ∧
      (v ≠ 0 → exec (.inval v) s = .next { s with dev := { s.dev with
        inv2 := v, inv0 := s.dev.inv0 ||| w64 (2 ^ 63), invs := s.dev.invs ++ [(BitVec.ofNat 8 s.dev.inv0.toNat, s.dev.inv1.toNat, v.toNat)] } })) ∧
    -- INVALIDATION_COMPLETE
    (∀ j base len rest, s.dev.invs = (j, base, len) :: rest →
      let lo := base / 2 ^ 16 * 2 ^ 16
      let hi := (base + len + 2 ^ 16 - 1) / 2 ^ 16 * 2 ^ 16
      (s.pendingIn j lo hi = true → Waits .invalidationComplete s) ∧
      (s.pendingIn j lo hi = false → ∃ t, exec .invalidationComplete s = .next t ∧ t.dev.invs = rest ∧
        t.dev.inv0.getLsbD 63 = (s.dev.inv0.getLsbD 63 && !decide (rest = [])) ∧
        (∀ c, c ∈ t.tcache ↔ c ∈ s.tcache ∧ ¬(c.job = j ∧ c.base < hi ∧ lo < c.base + c.size)) ∧ { t with tcache := s.tcache, dev := s.dev } = s)) ∧
    -- REPLAY
    (s.dev.ready = true →
      let j : BitVec 8 := BitVec.ofNat 8 v.toNat
      let page := v.toNat / 2 ^ 16 % 2 ^ 41
      let dropped := fun (t : State) => ∀ d q, q ∈ (t.die d).replay ↔ q ∈ (s.die d).replay ∧ ¬(q.job = j ∧ q.va / 2 ^ 16 = page)
      (v.getLsbD 63 = false → ∃ t, exec (.replayResume v) s = .next t ∧ t.mem = s.mem ∧ dropped t ∧
        ∀ m : CoreId, s.jobOf m = j → (s.core m).unit.isSome = true → ∀ f ∈ (s.core m).tl.flight, f.parked = some page →
          { f with parked := none } ∈ (t.core m).tl.flight) ∧
      (v.getLsbD 63 = true → ∃ t, exec (.replayFail v) s = .next t ∧ t.mem = s.mem ∧ dropped t ∧
        ∀ m : CoreId, s.jobOf m = j → (s.core m).unit.isSome = true → ∀ f ∈ (s.core m).tl.flight, f.parked = some page →
          { f with parked := none, failed := some (0x05, s.replayVa j m .l page) } ∈ (t.core m).tl.flight))

/-! ## Memory requests from outside, and answers -/

/-- R273, R274, R333, R340, R400, R403, R404: a host access of BAR2 reads or writes device memory at its home and is answered, an AtomicOp is
presented to its home; outside the memory, before READY or misaligned it is an Unsupported Request (for an AtomicOp log 34), and an uncorrectable
error is a Completer Abort. -/
def Obligations.HostReachesDeviceMemory : Prop :=
  ∀ (s : State) (pa len : Nat) (bytes : List Byte) (v cmp : Word),
    let answered := fun (u : State) (r : HostReply) => ({ u with dev := { u.dev with reply := r } } : State)
    let outside := fun (k : Nat) => s.dev.ready = false ∨ devSize < pa + k
    exec (.cas128 pa) s = .next (answered s .ur) ∧
    (outside bytes.length → exec (.bar2Write pa bytes) s = .next (answered s .ur)) ∧
    (s.dev.ready = true → pa + bytes.length ≤ devSize → (s.siteHeld pa bytes.length = true ∨ s.locked (.dev pa) bytes.length = true → Waits (.bar2Write pa bytes) s) ∧
      (s.siteHeld pa bytes.length = false → s.locked (.dev pa) bytes.length = false → exec (.bar2Write pa bytes) s = .next (answered (s.writeDev pa bytes).1 .none))) ∧
    (outside len → exec (.bar2Read pa len) s = .next (answered s .ur)) ∧
    (s.dev.ready = true → pa + len ≤ devSize → (s.covered s.dev.recCover = false ∨ s.oldDone = false ∨ s.locked (.dev pa) len = true → Waits (.bar2Read pa len) s)) ∧
    (s.dev.ready = true → pa + len ≤ devSize → s.covered s.dev.recCover = true → s.oldDone = true → s.locked (.dev pa) len = false →
      (∀ x u, Ends (readDev pa len (w64 pa)) s x u → exec (.bar2Read pa len) s = .next (answered u (.data x.1))) ∧
      (s.siteHeld pa len = true → Waits (.bar2Read pa len) s) ∧
      (∀ b, len ≠ 0 → b = pa / 64 → s.siteHeld pa len = false → Tab.get false s.poison b = true →
        exec (.bar2Read pa len) s = .next (answered s .abort))) ∧
    (∀ dbl : Bool, let k := if dbl = true then 8 else 4
      let amo := fun (i : Instr) (op c : Nat) =>
        (outside k ∨ pa % k ≠ 0 → exec i s = .next (answered s .ur)) ∧
        (s.dev.ready = true → pa + k ≤ devSize → pa % k = 0 →
          (s.covered s.dev.recCover = false ∨ s.oldDone = false ∨ s.hostBusy = true → Waits i s) ∧
          (s.covered s.dev.recCover = true → s.oldDone = true → s.hostBusy = false → exec i s = .next { s with amoq := s.amoq ++ [
            { who := .host, pres := (s.ccount, s.amoPlace (.dev pa)), op := op, dbl := dbl, va := pa, tgt := .dev pa, opnd := w64 (v.toNat % 2 ^ (8 * k))
              cmp := w64 (c % 2 ^ (8 * k)), fcsr := 0, applied := false }] }))
      amo (.fetchadd dbl pa v) 1 0 ∧ amo (.swap dbl pa v) 9 0 ∧ amo (.cas dbl pa cmp v) 10 cmp.toNat)

/-- R273, R402, R405, R407, R408: a request of another device reads or writes its home here and is answered, an atomic is presented to its home; the
answer to a request of this device ends the load or atomic that K waits in, brings a read its bytes, or performs a write; one unanswered for 2^24
cycles is sent once more, and then fails; a port reads as it is. When answers come, and that an answer without the data asked for is an error, are the
model's choices (log 33), and that a request beyond the memory stops the model (log 35), and what the failure of a store that has retired does (log 36). -/
def Obligations.LinksCarryRequests : Prop :=
  ∀ (s : State) (k : Nat) (q : RemoteReq) (data : List Byte) (p : BitVec 4),
    let open_ := s.dev.ready = true ∧ s.dev.zen = true
    let answer := fun (u : State) (b : List Byte) => ({ u with dev := { u.dev with linkOut := u.dev.linkOut ++ [(u.portOf q.dev.toNat, .answer q.dev.toNat b)] } } : State)
    -- REMOTE_REQUEST
    (¬open_ → Waits (.remoteRequest q) s) ∧ (open_ → devSize < q.pa + q.len → exec (.remoteRequest q) s = .fault (.absentAddress q.pa)) ∧
    (open_ → q.pa + q.len ≤ devSize →
      (q.kind = .load → (s.locked (.dev q.pa) q.len = true → Waits (.remoteRequest q) s) ∧
        (s.locked (.dev q.pa) q.len = false →
          (∀ x u, Ends (readDev q.pa q.len (w64 q.pa)) s x u → exec (.remoteRequest q) s = .next (answer u x.1)) ∧
          ∀ c w u, readDev q.pa q.len (w64 q.pa) s = (.error (.fault c w), u) → exec (.remoteRequest q) s = .next (answer (restore s u) []))) ∧
      (q.kind = .store → (s.siteHeld q.pa q.len = true ∨ s.locked (.dev q.pa) q.len = true → Waits (.remoteRequest q) s) ∧
        (s.siteHeld q.pa q.len = false → s.locked (.dev q.pa) q.len = false →
          exec (.remoteRequest q) s = .next (answer (s.writeDev q.pa (q.data.take q.len)).1 []))) ∧
      (∀ op, q.kind = .amo op → let legal := (q.len = 4 ∨ q.len = 8) ∧ q.pa % q.len = 0 ∧ 1 ≤ op.toNat ∧ op.toNat ≤ 14
        (¬legal → Waits (.remoteRequest q) s) ∧
        (legal → exec (.remoteRequest q) s = .next { s with amoq := s.amoq ++ [
          { who := .remote q.dev, pres := (s.ccount, s.amoPlace (.dev q.pa)), op := op.toNat, dbl := decide (q.len = 8), va := q.pa, tgt := .dev q.pa
            opnd := w64 (ofBytes (q.data.take q.len)), cmp := w64 (q.cmp.toNat % 2 ^ (8 * q.len)), fcsr := q.fcsr, applied := false }] }))) ∧
    -- the ends of the requests of this device
    (s.dev.zen = false → Waits (.remoteResponse k data) s) ∧
    (∀ r, s.far[k]? = some r → r.got = none → r.failed = false →
      let gone := { s with far := s.far.erase r }
      let c := s.core r.core
      let mine := fun (f : Core → Core) => gone.modCore r.core f
      let wants := r.kind = .load ∨ r.kind = .read ∨ ∃ id m, r.kind = .amo id m
      -- with its data
      let brings := fun (i : Instr) =>
        (∀ d size signed t va, r.kind = .load → c.kWait = some (.load d size signed t va) → ∃ u, exec i s = .next u ∧ u.far = gone.far ∧
          (u.core r.core).kWait = none ∧ (u.core r.core).l = c.l ∧ u.mem = s.mem ∧ (c.k.loops = [] → c.k.mpos = none → (u.core r.core).k.pc = c.k.pc + 4) ∧
          (d ≠ 0 → c.liveFwd r.since = [] → c.group.lines = [] → data.length = size → (u.core r.core).k.reg d = loadValue data signed)) ∧
        (r.kind = .read → exec i s = .next { s with far := s.far.set k { r with got := some data, failed := false } }) ∧
        (∀ b, r.kind = .write b ∨ r.kind = .back → exec i s = .next gone) ∧
        (∀ seq b, r.kind = .store seq b → r.agent ≠ 11 → exec i s =
          .next (mine fun c => { c with fwd := c.fwd.map fun t => if t.seq = seq then { t with doneAt := some s.ccount } else t })) ∧
        (∀ id m a, r.kind = .amo id m → r.agent ≠ 11 → (c.amos.find? fun a => a.id = id) = some a →
          let bits := if a.dbl = true then 64 else 32
          let old := ofBytes data % 2 ^ bits
          let u := mine fun c => { c with amos := c.amos.filter fun a => a.id ≠ id }
          (a.ret = none → exec i s = .next u) ∧
          (∀ d, a.ret = some d → exec i s = .next (u.kEnds r.core d (w64 old) (amoValue a.op bits a.fcsr old a.opnd.toNat a.cmp.toNat).2)))
      -- without
      let fails := fun (i : Instr) (code : Nat) =>
        (∀ d size signed t va, r.kind = .load → c.kWait = some (.load d size signed t va) → exec i s = .next (gone.waitFault r.core code (w64 va))) ∧
        (r.kind = .read → exec i s = .next { s with far := s.far.set k { r with got := none, failed := true } }) ∧
        (∀ id m a, r.kind = .amo id m → r.agent ≠ 11 → (c.amos.find? fun a => a.id = id) = some a →
          let less := fun (c : Core) => { c with amos := c.amos.filter fun a => a.id ≠ id }
          (∀ d, a.ret = some d → exec i s = .next ((mine less).waitFault r.core code (w64 a.va))) ∧
          (a.ret = none → ∃ u, exec i s = .next u ∧ u.far = gone.far ∧ (u.core r.core).amos = (less c).amos ∧
            (u.core r.core).late = c.late ++ [(code, causeWord r.src.1 r.src.2 true 0 code, w64 r.va)]))
      -- a store that fails counts as performed, and K takes its failure late
      let lost := fun (i : Instr) (code : Nat) => ∀ seq b, r.kind = .store seq b → r.agent ≠ 11 → ∃ u, exec i s = .next u ∧ u.far = gone.far ∧
        (u.core r.core).late = c.late ++ [(code, causeWord r.src.1 r.src.2 true 0 code, w64 r.va)] ∧
        ∀ t ∈ (u.core r.core).fwd, t.seq = seq → t.doneAt = some s.ccount
      (r.tgt.isHost = true → brings (.hostTierCompletion k true data) ∧ (wants → fails (.hostTierCompletion k false data) 0x05) ∧
        (¬wants → exec (.hostTierCompletion k false data) s = exec (.hostTierCompletion k true data) s)) ∧
      (r.tgt.isRemote = true → s.dev.zen = true → (¬wants ∨ data ≠ [] → brings (.remoteResponse k data)) ∧ (wants → data = [] → fails (.remoteResponse k data) 0x0F)) ∧
      (r.tgt.isRemote = true → let i := Instr.remoteTimeout k
        (s.ccount < r.since + 2 ^ 24 → Waits i s) ∧
        (r.since + 2 ^ 24 ≤ s.ccount → r.retried = false → (s.dev.zen = false → Waits i s) ∧
          (s.dev.zen = true → exec i s = .next { r.send s with far := s.far.set k { r with since := s.ccount, retried := true } })) ∧
        (r.since + 2 ^ 24 ≤ s.ccount → r.retried = true → fails i 0x0F ∧ lost i 0x0F))) ∧
    -- ports
    (∃ t, exec (.zuorePortUp p) s = .next t ∧ { t with dev := { t.dev with zup := s.dev.zup } } = s ∧
      ∀ i, i < 16 → t.dev.zup.getLsbD i = (s.dev.zup.getLsbD i || decide (i = p.toNat))) ∧
    (∃ t, exec (.zuorePortDown p) s = .next t ∧ { t with dev := { t.dev with zup := s.dev.zup } } = s ∧
      ∀ i, i < 16 → t.dev.zup.getLsbD i = (s.dev.zup.getLsbD i && decide (i ≠ p.toNat)))

/-! ## Firmware -/

/-- R81, R203, R343, R430, R431, R433, R434, R437: bring-up, events and activations of F, the steps that count cycles, SCHEDULE_MISS, the sites'
self-refresh and the power states. The model's choices: what boot ROM reads and where the image goes (log 13), HUNGT 0 as 1 and the thresholds'
inputs (log 23), the state a power limit leaves (log 2), a limit above 2,000 W (log 17), a site above 11 (log 35). -/
def Obligations.FirmwareStepsTakeEffect : Prop :=
  ∀ (s : State) (n : CoreId) (site watts : Nat),
    let c := s.core n
    let d := s.dev
    -- FIRMWARE_IMAGE_VERIFY
    (∀ image sig place, let i := Instr.firmwareImageVerify image sig place
      let passes := xmssVerify Config.romKey image sig = true ∧ d.minVersion ≤ Config.imageVersion image
      let held := s.siteHeld place image.length = true ∨ devSize < place + image.length
      (d.ready = true ∨ d.fail = true ∨ d.power = 3 → Waits i s) ∧
      (d.ready = false → d.fail = false → d.power ≠ 3 → (¬passes → exec i s = .next { s with dev := { d with fail := true } }) ∧
        (passes → held → Waits i s) ∧
        (passes → ¬held → let v := (s.writeDev place image).1
          let least := match Config.imageMinimum image with | some m => Nat.max d.minVersion m | none => d.minVersion
          ∃ t, exec i s = .next t ∧ { t with cores := v.cores, dev := v.dev } = v ∧
          t.dev = { v.dev with ready := true, version := Config.imageVersion image, image := image, minVersion := least } ∧
          ∀ m, t.core m = (v.core m).startF s.ccount))) ∧
    -- F's events and activations
    exec (.feventPop n) s = .next (s.setCore n { c with events := c.events.tail }) ∧
    (d.ready = true → c.fActive = false → c.events ≠ [] → ∃ t, exec (.fActivationStart n) s = .next (s.setCore n t) ∧ t.fActive = true ∧
      t.f.pc = Config.fEntry ∧ t.f.regs = c.f.regs ∧ t.f.halted = false ∧ { t with fActive := c.fActive, f := c.f } = c) ∧
    (d.ready = false ∨ c.fActive = true ∨ c.events = [] → Waits (.fActivationStart n) s) ∧
    (∀ code task,
      let t := s.event code n task
      let m := eventCore code n
      ((s.core m).events.length < 16 → (t.core m).events = (s.core m).events ++ [BitVec.ofNat 64 (code * 2 ^ 48 + n.toNat * 2 ^ 40 + task % 2 ^ 24)]) ∧
      (16 ≤ (s.core m).events.length → (t.core m).events = (s.core m).events ∧ (t.core m).evDrops = Nat.min 255 ((s.core m).evDrops + 1)) ∧
      t.dev.msix = d.msix ++ [eventVector code n]) ∧
    -- steps that count cycles
    (s.ccount % 256 = 0 → ∃ t, exec .fusedReset s = .next t ∧ { t with cores := s.cores } = s ∧ ∀ m, t.core m = { s.core m with fused := 0 }) ∧
    (s.ccount % 256 ≠ 0 → Waits .fusedReset s) ∧
    (c.unit = none → Waits (.hung n) s) ∧
    (∀ u, c.unit = some u → (s.ccount < c.lastRetire + Nat.max 1 d.hungt → Waits (.hung n) s) ∧
      (c.lastRetire + Nat.max 1 d.hungt ≤ s.ccount → exec (.hung n) s = .next ((s.setCore n { c with lastRetire := s.ccount }).event 1 n u.task.toNat))) ∧
    -- SCHEDULE_MISS: C's next word is a stamped step whose registers are readable and whose operands pass, and its slack is over
    (let s0 : State := { s with cur := (n, .c), issued := false, reader := (n, 2, 0) };
      (s0.canIssue = false → Waits (.scheduleMiss n) s) ∧
      (s0.canIssue = true → ∀ w u i a r x p, Ends (fetchWord n .c) s0 w u → decode .ccode w = some i → stepWord i = some (a, r, 1, x, p) →
        let v : State := { u with word := w }
        let stamp := v.reg (r + 1)
        v.readyFor [r, r + 1] = true → mGroup1 v n { a with n := v.reg r } = true →
        ((bitsOf stamp 52 12 : Int) < stampDiff v.ccount stamp → ∃ t, exec (.scheduleMiss n) s = .next t ∧ t = (v.raise 0x07 stamp).dropReads (n, 2, 0) ∧
          (t.core n).c = { v.seq with stop := some { code := 0x07, val := stamp, off := v.seq.off, mac := v.seq.mpos, late := false, held := none } }) ∧
        (stampDiff v.ccount stamp ≤ (bitsOf stamp 52 12 : Int) → stampDiff v.ccount stamp < 0 → Waits (.scheduleMiss n) s))) ∧
    -- sites
    (12 ≤ site → ∀ i ∈ [.memoryStall site, .selfRefreshEnter site, .selfRefreshExit site], exec i s = .fault (.absentSite site)) ∧
    (site < 12 → let x := s.site site;
      (x.refresh = true → x.stalled = false → x.since + 3600000 ≤ s.ccount →
        exec (.memoryStall site) s = .next (({ s with sites := Tab.put s.sites site { x with stalled := true } } : State).event 4 0 0)) ∧
      (x.refresh = false ∨ x.stalled = true ∨ s.ccount < x.since + 3600000 → Waits (.memoryStall site) s) ∧
      (x.refresh = false → d.critT ≤ x.temp → d.power ≠ 3 → exec (.selfRefreshEnter site) s =
        .next (({ s with sites := Tab.put s.sites site { x with refresh := true, since := s.ccount, stalled := false } } : State).event 6 0 0)) ∧
      (x.refresh = true ∨ x.temp < d.critT ∨ d.power = 3 → Waits (.selfRefreshEnter site) s) ∧
      (x.refresh = true → x.temp < d.relT → x.temp < d.critT → ∃ t, exec (.selfRefreshExit site) s = .next t ∧ t.site site = { x with refresh := false } ∧
        (∀ j, j ≠ site → t.site j = s.site j) ∧ { t with sites := s.sites } = s) ∧
      (x.refresh = false ∨ d.relT ≤ x.temp ∨ d.critT ≤ x.temp → Waits (.selfRefreshExit site) s)) ∧
    -- power
    (d.ready = true → d.power = 0 → exec .capped s = .next { s with dev := { d with power := 1 } }) ∧
    (d.ready = false ∨ d.power ≠ 0 → Waits .capped s) ∧
    (2000 < watts ∨ d.power = 3 → exec (.packagePowerLimitWrite watts) s = .next s) ∧
    (watts ≤ 2000 → d.power ≠ 3 → ∃ t, exec (.packagePowerLimitWrite watts) s = .next t ∧ t.dev.limit = watts ∧ t.dev.power.toNat < 3 ∧
      { t with dev := d, free := s.free } = s ∧ { t.dev with limit := d.limit, power := d.power } = d ∧
      (d.ready = true → d.power.toNat < 2 → t.dev.power.toNat < 2) ∧ (d.ready = false ∨ d.power = 2 → t.dev.power = d.power)) ∧
    (∃ t, exec .powerLoss s = .next t ∧ t.mem = [] ∧ t.cores = [] ∧ t.dies = [] ∧ t.jobs = [] ∧ t.keys = [] ∧ t.ccount = 0 ∧
      t.dev.ready = false ∧ t.dev.leafNext = 0 ∧ t.dev.leafEnd = 0 ∧ t.dev.badPages = d.badPages ∧ t.dev.sigCounter = d.sigCounter ∧
      t.dev.minVersion = d.minVersion ∧ t.dev.power = 3)

/-- R342, R432, R435, R436: a quote and a bad page are requested by a write of GO and answered by F; a quote begins with the digest of the
image, each leaf is used once, and a page is listed once. -/
def Obligations.QuotesAndBadPagesAreAnswered : Prop :=
  ∀ (s : State) (i3c : Bool) (v : Word),
    let d := s.dev
    let q := d.quoteRegs i3c
    let ended := fun (t : State) (st : BitVec 2) => (t.dev.quoteRegs i3c).go = false ∧ (t.dev.quoteRegs i3c).status = st ∧ t.mem = s.mem
    let page := v.toNat % 2 ^ 24
    -- QUOTE_REQUEST
    (d.ready = false ∨ v.toNat % 2 ^ 61 ≠ 0 ∨ v.getLsbD 63 = false ∨ q.go = true → exec (.quoteRequest i3c v) s = .next s) ∧
    (d.ready = true → v.toNat % 2 ^ 61 = 0 → v.getLsbD 63 = true → q.go = false → ∃ t, exec (.quoteRequest i3c v) s = .next t ∧
      t.dev.quotes = d.quotes ++ [(i3c, q.nonce)] ∧ t.dev.quoteRegs i3c = { q with go := true, status := 1 } ∧
      t.dev.quoteRegs (!i3c) = d.quoteRegs (!i3c) ∧ { t with dev := d } = s) ∧
    -- QUOTE_COMPLETE
    (d.quotes = [] ∨ d.ready = false → Waits .quoteComplete s) ∧
    (∀ nonce rest, d.quotes = (i3c, nonce) :: rest → d.ready = true →
      (d.leafNext = d.leafEnd → 2 ^ 40 ≤ d.sigCounter → ∃ t, exec .quoteComplete s = .next t ∧ ended t 2 ∧ (t.dev.quoteRegs i3c).res = q.res ∧
        t.dev.quotes = rest ∧ t.dev.sigCounter = d.sigCounter) ∧
      (∀ leaf, (d.leafNext ≠ d.leafEnd → leaf = d.leafNext) → (d.leafNext = d.leafEnd → d.sigCounter < 2 ^ 40 ∧ leaf = d.sigCounter) →
        ∃ t, exec .quoteComplete s = .next t ∧ ended t 0 ∧ t.dev.quotes = rest ∧ t.dev.leafNext = leaf + 1 ∧
          (t.dev.quoteRegs i3c).res.length = 10005 ∧ (∀ i, i < 64 → (t.dev.quoteRegs i3c).res[i]? = (shake256 d.image 64)[i]?) ∧ (∀ i, i < 8 → (t.dev.quoteRegs i3c).res[104 + i]? = (toBytes 8 leaf)[i]?) ∧
          (∀ i, i < 32 → (t.dev.quoteRegs i3c).res[72 + i]? = (toBytes 32 nonce.toNat)[i]?) ∧
          (∀ i, i < 8 → (t.dev.quoteRegs i3c).res[64 + i]? = (toBytes 8 d.version)[i]?) ∧
          t.dev.sigCounter = (if d.leafNext = d.leafEnd then d.sigCounter + 1024 else d.sigCounter) ∧
          t.dev.leafEnd = (if d.leafNext = d.leafEnd then d.sigCounter + 1024 else d.leafEnd))) ∧
    -- BADPAGE_REQUEST
    (let bad := v.toNat / 2 ^ 57 % 2 ^ 4 ≠ 0 ∨ v.toNat / 2 ^ 24 % 2 ^ 20 ≠ 0 ∨ devSize ≤ page * 2 ^ 16;
      (d.ready = false ∨ bad ∨ (v.getLsbD 63 = true ∧ d.badGo = true) → exec (.badpageRequest v) s = .next s) ∧
      (d.ready = true → ¬bad → v.getLsbD 63 = false → exec (.badpageRequest v) s = .next { s with dev := { d with badPage := page } }) ∧
      (d.ready = true → ¬bad → v.getLsbD 63 = true → d.badGo = false →
        exec (.badpageRequest v) s = .next (({ s with dev := { d with badGo := true, badPage := page } } : State).event 8 0 0))) ∧
    -- BADPAGE_ANSWER
    (d.ready = false ∨ d.badGo = false → Waits .badpageAnswer s) ∧
    (d.ready = true → d.badGo = true → ∃ t, exec .badpageAnswer s = .next t ∧ t.dev.badGo = false ∧ t.dev.badCount = t.dev.badPages.length ∧
      { t with dev := d } = s ∧ (d.badPage ∈ d.badPages → t.dev.badResult = 1 ∧ t.dev.badPages = d.badPages) ∧
      (d.badPage ∉ d.badPages → 4096 ≤ d.badPages.length → t.dev.badResult = 2 ∧ t.dev.badPages = d.badPages) ∧
      (d.badPage ∉ d.badPages → d.badPages.length < 4096 → t.dev.badResult = 0 ∧ t.dev.badPages = d.badPages ++ [d.badPage]))

/-! ## Resets -/

/-- R4, R428, R429, R432, R437: a write of RESET is refused, waits behind a rung it overlaps, is absorbed, or starts its rung, which resets what it
reaches and completes once the writes of its cores are performed; a device reset waits like the others. How rungs overlap, and rungs 1 and 2
on a cut unit's save block, are the model's reading (log 24). -/
def Obligations.ResetRungsTakeEffect : Prop :=
  ∀ (s : State) (who : Requester) (v : Word),
    let num := v.toNat / 2 ^ 60
    let core : CoreId := BitVec.ofNat 8 (v.toNat / 2 ^ 8)
    let first := v.toNat / 2 ^ 8 % 2 ^ 8
    let last := first + v.toNat / 2 ^ 16 % 2 ^ 8
    let qid := v.toNat / 2 ^ 48 % 2 ^ 8
    let reserved := v.toNat / 2 ^ 56 % 2 ^ 4 ≠ 0 ∨ v.toNat / 2 ^ 24 % 2 ^ 24 ≠ 0 ∨ v.toNat / 2 ^ 2 % 2 ^ 6 ≠ 0
    let own := ∃ n : CoreId, who = .firmware n ∧ dieOf n = v.toNat % 4
    let refused : State := { s with dev := { s.dev with refused := true } }
    let accepted : State := { s with dev := { s.dev with refused := false } }
    -- what a write that is taken does
    let starts := fun (i : Instr) (s0 : State) (r : Rung) =>
      ((∃ h ∈ s.dev.rungs, r.num < h.num ∧ h.covers r = true) → Becomes i s s0) ∧
      ((∀ h ∈ s.dev.rungs, ¬(r.num < h.num ∧ h.covers r = true)) →
        let l := s.dev.rungs.filter fun x => decide (x ∈ runningRungs [] s.dev.rungs) || !(decide (x.num < r.num) && r.covers x)
        let s1 : State := { s0 with dev := { s0.dev with rungs := l ++ [r] } }
        ((∃ x ∈ l, x.overlaps r = true) → Becomes i s s1) ∧
        ((∀ x ∈ l, x.overlaps r = false) → ∀ t, Ends (applyRung r) s1.asDevice () t → Becomes i s t))
    -- rungs 1 to 4
    let row := fun (i : Instr) (ok : Prop) (r : Rung) =>
      (s.dev.ready = false → exec i s = .next s) ∧ (s.dev.ready = true → ¬ok → exec i s = .next refused) ∧ (s.dev.ready = true → ok → starts i accepted r)
    let mine := ¬reserved ∧ (∃ n, who = .firmware n) ∧ s.cutOrHalted core = true
    (num = 1 → row (.resetQueue who v) (mine ∧ ((qid < 0x40 ∧ qid ∉ [0, 5, 10, 15]) ∨ (0x48 ≤ qid ∧ qid < 0x4C))) { num := 1, first := core.toNat, cnt := 1, qid := qid }) ∧
    (num = 2 → row (.resetEngine who v) (mine ∧ 0x40 ≤ qid ∧ qid < 0x48) { num := 2, first := core.toNat, cnt := 1, qid := qid }) ∧
    (num = 3 → row (.resetPartition who v) (¬reserved ∧ last < 256) { num := 3, first := first, cnt := v.toNat / 2 ^ 16 % 2 ^ 8 + 1, qid := 0 }) ∧
    (num = 4 → row (.resetDie who v) (¬reserved ∧ ¬own) { num := 4, first := 64 * (v.toNat % 4), cnt := 64, qid := 0 }) ∧
    (num = 0 ∨ 5 ≤ num → s.dev.ready = true → exec (.resetPartition who v) s = .next refused) ∧
    starts .resetFunctionLevel s { num := 5, first := 0, cnt := 256, qid := 0 } ∧
    starts .resetDevice s { num := 6, first := 0, cnt := 256, qid := 0 } ∧
    -- what the rungs leave
    (∀ r, r.num = 1 → r.cnt = 1 → r.first < 256 → s.cutOrHalted (BitVec.ofNat 8 r.first) = true →
      ((s.core (BitVec.ofNat 8 r.first)).unit ≠ none ∨ (s.core (BitVec.ofNat 8 r.first)).debugHalt = .stopped) → ∃ t, Ends (applyRung r) s () t ∧ t.mem = s.mem ∧
      let a := s.core (BitVec.ofNat 8 r.first)
      let b := t.core (BitVec.ofNat 8 r.first)
      (∀ k, k < 16 → r.qid = k → (b.tkOf k).entries = []) ∧ (∀ k, k < 8 → r.qid = 0x10 + k → (b.dq k).entries = [] ∧ (b.dq k).pops = (a.dq k).pops) ∧
      (∀ k, k < 32 → r.qid = 0x20 + k → (b.ring k).head = (a.ring k).head ∧ (b.ring k).tail = (a.ring k).head ∧ (b.ring k).claim = (a.ring k).head ∧
        (b.ring k).base = (a.ring k).base ∧ (b.ring k).ctl = (a.ring k).ctl)) ∧
    (∀ r x, r.num = 1 ∨ r.num = 2 → r.cnt = 1 → r.first < 256 → let n : CoreId := BitVec.ofNat 8 r.first
      s.cutOrHalted n = true → (s.core n).unit = none → (s.core n).debugHalt ≠ .stopped → s.savedOn n = [x] →
      ∀ t, Ends (changeSaved n (if r.num = 1 then fun y => y.modCore n fun c => c.clearQueue r.qid else fun y => y.clearEngine n r.qid) x)
        (s.modCore n fun c => { c with code := [] }) () t → Ends (applyRung r) s () t) ∧
    (∀ r, r.num = 3 → (∀ n ∈ r.cores, (s.core n).unit = none) → ∃ t, Ends (applyRung r) s () t ∧ t.mem = s.mem ∧
      (∀ n ∈ r.cores, let c := t.core n
        c.k = Seq.reset ∧ c.l = Seq.reset ∧ c.c = Seq.reset ∧ c.s = Seq.reset ∧ c.supK = Sup.reset ∧ c.slice = [] ∧ c.code = [] ∧ c.q = [] ∧ c.tk = [] ∧
        c.unit = none ∧ c.vec = VUnit.reset ∧ c.mat = MUnit.reset ∧ c.group = Group.reset ∧ c.events = (s.core n).events ∧ c.f.regs = (s.core n).f.regs) ∧
      (∀ n, n ∉ r.cores → (t.core n).k = (s.core n).k ∧ (t.core n).slice = (s.core n).slice)) ∧
    (∀ r t, r.num = 5 → Ends (applyRung r) s () t → t.jobs = [] ∧ t.subs = [] ∧ t.streams = [] ∧ t.dev.evq = [] ∧ t.dev.zen = false ∧ t.dev.fwfp = 0 ∧
      t.dev.leafNext = 0 ∧ t.dev.leafEnd = 0) ∧
    (∀ r, r.num = 6 → ∃ t, Ends (applyRung r) s () t ∧ t.mem = [] ∧ t.cores = [] ∧ t.dies = [] ∧ t.jobs = [] ∧ t.keys = [] ∧ t.ccount = 0 ∧
      t.dev.ready = false ∧ t.dev.leafNext = 0 ∧ t.dev.leafEnd = 0 ∧ t.dev.badPages = s.dev.badPages ∧ t.dev.sigCounter = s.dev.sigCounter ∧
      t.dev.minVersion = s.dev.minVersion ∧ t.dev.power = 0) ∧
    -- RESET_RUNG_COMPLETE
    (let quiet := fun (r : Rung) => r.num < 3 ∨ 4 < r.num ∨ ∀ n ∈ r.cores, s.writesOut n = true;
      ((∀ r ∈ runningRungs [] s.dev.rungs, ¬quiet r) → Waits .resetRungComplete s) ∧
      (∀ r, s.dev.rungs = [r] → quiet r → Becomes .resetRungComplete s { s with dev := { s.dev with rungs := [] } }) ∧
      (∀ r q, s.dev.rungs = [r, q] → r.overlaps q = true → quiet r → ∀ t, Ends (applyRung q) (State.asDevice { s with dev := { s.dev with rungs := [q] } }) () t →
        Becomes .resetRungComplete s t))

/-! ## Windows and planes -/

/-- R275 to R279, R409: contributions enter their switch, wait, join a round or are rejected; a round that has every port closes with its result
at the home; the engine sends the blocks of a request and completes it; window entries are configured. -/
def Obligations.ContributionsCombineInWindows : Prop :=
  ∀ (s : State) (n : CoreId) (c : Contribution) (m0 : Word) (i : Nat),
    let sw := s.sw c.sw
    let behind := s.modSw c.sw fun w => { w with waiting := w.waiting ++ [c] }
    -- what happens at a switch
    ((∃ x ∈ sw.waiting, x.port = c.port) → s.arrive c = behind) ∧ ((∀ x ∈ sw.waiting, x.port ≠ c.port) → s.arrive c = s.contribute c 4) ∧
    (∀ fuel, (sw.matching c = none → s.contribute c (fuel + 1) = s.blocksEnd c.cores 0 (some 2)) ∧ ∀ j k, sw.matching c = some (j, k) →
      let e := Tab.get [] sw.win j
      let mine := fun (r : Round) => decide (r.entry = j) && decide (r.blk = k)
      let add := fun (l : List Round) => s.modSw c.sw fun w => { w with rounds := l }
      (∀ r, sw.rounds.find? mine = some r → (∃ x ∈ r.got, x.port = c.port) → s.contribute c (fuel + 1) = behind) ∧
      (sw.rounds.find? mine = none → winDepth e ≤ (sw.rounds.filter fun r => decide (r.entry = j)).length → s.contribute c (fuel + 1) = behind) ∧
      (∀ got, ((sw.rounds.find? mine = none ∧ (sw.rounds.filter fun r => decide (r.entry = j)).length < winDepth e ∧ got = [c]) ∨
          ∃ r, sw.rounds.find? mine = some r ∧ (∀ x ∈ r.got, x.port ≠ c.port) ∧ got = r.got ++ [c]) →
        ((∃ p ∈ winPorts e, ∀ x ∈ got, x.port.toNat ≠ p) →
          s.contribute c (fuel + 1) = add ((sw.rounds.filter fun r => !mine r) ++ [{ entry := j, blk := k, got := got }])) ∧
        ((∀ p ∈ winPorts e, ∃ x ∈ got, x.port.toNat = p) →
          let outs := (List.range 64).map fun h => combine (winFmt e) ((byPort (winPorts e) got).map fun x => (x.scale, (x.elems[h]?).getD 0))
          let fl := outs.foldl (fun a o => a ||| o.2) (got.foldl (fun a x => a ||| x.flags) 0)
          let da := winBase e + k * 64 * accBytes (winFmt e)
          let t := add (sw.rounds.filter fun r => !mine r)
          (Config.switchOut c.sw (winPort e) = none → s.homeBusy da (64 * accBytes (winFmt e)) = true → s.contribute c (fuel + 1) = behind) ∧
          ((Config.switchOut c.sw (winPort e) = none → s.homeBusy da (64 * accBytes (winFmt e)) = false) →
          s.contribute c (fuel + 1) = match Config.switchOut c.sw (winPort e) with
            | none => (if da / 2 ^ 40 = s.dev.dev.toNat ∧ da % 2 ^ 40 < devSize then (t.writeDev (da % 2 ^ 40) (outs.flatMap fun o => toBytes (accBytes (winFmt e)) o.1)).1 else t).blocksEnd
                (got.flatMap fun x => x.cores) fl none
            | some (h, q) =>
              let up : Contribution := { sw := h, port := BitVec.ofNat 6 q, addr := da, blk := 0, fmt := (if winFmt e = 4 then 4 else 3), scale := 0, flags := fl
                                         elems := outs.map fun o => BitVec.ofNat 64 o.1, cores := got.flatMap fun x => x.cores }
              if (t.sw h).waiting.any (fun x => decide (x.port = up.port)) = true then t.modSw h fun w => { w with waiting := w.waiting ++ [up] } else t.contribute up fuel)))) ∧
    -- CONTRIBUTION_ARRIVAL
    (c.cores = [] → exec (.contributionArrival c) s = .next (s.arrive c)) ∧
    (c.cores = [n] → ((s.core n).coll = [] → Waits (.contributionArrival c) s) ∧ ∀ r rest, (s.core n).coll = r :: rest →
      let da := rq r.words 1 0 57
      (s.portTo (da / 2 ^ 40) = none → Waits (.contributionArrival c) s) ∧
      (r.ended < r.sent ∨ (r.started = false ∧ ((s.core n).cutting ≠ .running ∨ (s.core n).debugHalt ≠ .running)) → Waits (.contributionArrival c) s) ∧
      ∀ p, s.portTo (da / 2 ^ 40) = some p → r.sent < rq r.words 2 0 32 / 64 → r.sent ≤ r.ended → r.parked = none → s.covered r.cover = true →
        (r.started = true ∨ ((s.core n).cutting = .running ∧ (s.core n).debugHalt = .running)) →
          ∀ el sc u, Ends (readBlock n r r.sent) { s with reader := (n, 5, r.addr) } (el, sc) u →
          exec (.contributionArrival c) s = .next (((u.dropReads (n, 5, r.addr)).modColl n fun r => { r with started := true, sent := r.sent + 1 }).arrive
            { sw := p, port := BitVec.ofNat 6 (Config.switchIn p), addr := da, blk := r.sent, fmt := BitVec.ofNat 3 (rq r.words 3 0 3), scale := sc, flags := 0, elems := el,
              cores := [n] })) ∧
    -- CONTRIBUTION_ADMIT
    (s.waitingAll[i]? = none → Waits (.contributionAdmit i) s) ∧
    (∀ k j x, s.waitingAll[i]? = some (k, j, x) →
      let t := (s.modSw k fun w => { w with waiting := w.waiting.eraseIdx j }).contribute x 4
      ((∃ y ∈ (s.sw k).waiting.take j, y.port = x.port) → Waits (.contributionAdmit i) s) ∧
      ((∀ y ∈ (s.sw k).waiting.take j, y.port ≠ x.port) → (t.sw k).waiting.length ≠ (s.sw k).waiting.length → exec (.contributionAdmit i) s = .next t) ∧
      ((t.sw k).waiting.length = (s.sw k).waiting.length → Waits (.contributionAdmit i) s)) ∧
    -- COLL_REQUEST_COMPLETE
    ((s.core n).coll = [] → Waits (.collRequestComplete n) s) ∧
    (∀ r rest, (s.core n).coll = r :: rest →
      let d4 := 2 ^ 63 + r.err * 2 ^ 8 + r.flags.toNat
      let a := (n, 5, r.addr)
      let gone := fun (t : State) => t.modCore n fun c => { c with coll := rest }
      let written := fun (t : State) => t.modColl n fun r => { r with ended := rq r.words 2 0 32 / 64 + 1 }
      let s1 : State := { s with reader := a }
      (r.ended < rq r.words 2 0 32 / 64 ∨ r.parked ≠ none → Waits (.collRequestComplete n) s) ∧
      (r.ended = rq r.words 2 0 32 / 64 → r.parked = none → r.addr = noRecord → exec (.collRequestComplete n) s = .next (written s)) ∧
      (r.ended = rq r.words 2 0 32 / 64 → r.parked = none → r.addr ≠ noRecord → ∀ u,
        (r.phys = true → s.siteHeld (r.addr + 32) 8 = false ∧ s.locked (.dev (r.addr + 32)) 8 = false ∧ u = (s1.writeDev (r.addr + 32) (toBytes 8 d4)).1) →
        (r.phys = false → Ends (writeJob r.job (engine n) (r.addr + 32) (toBytes 8 d4)) s1 () u) →
        exec (.collRequestComplete n) s = .next (written u)) ∧
      (rq r.words 2 0 32 / 64 < r.ended → r.parked = none → (s.farWrites a = true → Waits (.collRequestComplete n) s) ∧
        (s.farWrites a = false → (rq r.words 3 40 1 = 0 → Becomes (.collRequestComplete n) s (gone s)) ∧
          (rq r.words 3 40 1 = 1 → ∀ t, Ends (ctrAdd r.job (rq r.words 3 8 32) 1) s.asDevice () t → Becomes (.collRequestComplete n) s (gone t))))) ∧
    -- SWCFG
    (let old := Tab.get 0 s.dev.swcfg 0
      let m0' := putBits m0 61 2 (old.toNat / 2 ^ 61 % 4)
      let bad := m0.toNat / 2 ^ 23 % 2 ^ 38 ≠ 0 ∨ m0.toNat / 2 ^ 14 % 4 ≠ 0 ∨ m0.toNat / 2 ^ 4 % 2 ^ 4 ≠ 0
      let up := s.dev.zen = true ∧ s.dev.zup.getLsbD (m0.toNat % 2 ^ 4) = true
      let wrote : State := { s with dev := { s.dev with swcfg := Tab.set 0 s.dev.swcfg 0 m0' } }
      (s.dev.ready = false ∨ bad ∨ old.getLsbD 63 = true → exec (.swcfgGo m0) s = .next s) ∧
      (s.dev.ready = true → ¬bad → old.getLsbD 63 = false → (m0.getLsbD 63 = false ∨ up → exec (.swcfgGo m0) s = .next wrote) ∧
        (m0.getLsbD 63 = true → ¬up → exec (.swcfgGo m0) s = .next { wrote with dev := { wrote.dev with swcfgDown := true } })) ∧
      (s.dev.swcfgDown = true → (Tab.get 0 s.tick.dev.swcfg 0) = putBits old 61 3 2 ∧ s.tick.dev.swcfgDown = false) ∧
      (old.getLsbD 63 = false ∨ s.dev.swcfgDown = true → ∀ link, Waits (.swcfgReply link) s) ∧
      (old.getLsbD 63 = true → s.dev.swcfgDown = false → exec (.swcfgReply false) s = .next (s.swcfgEnd 2) ∧
        let e := [Tab.get 0 s.dev.swcfg 1, Tab.get 0 s.dev.swcfg 2, Tab.get 0 s.dev.swcfg 3, Tab.get 0 s.dev.swcfg 4]
        let j := old.toNat / 2 ^ 16 % 2 ^ 6
        (winOk (s.sw (swOf old)) j e = true → exec (.swcfgReply true) s = .next ((s.modSw (swOf old) fun w => { w with win := Tab.put w.win j e }).swcfgEnd 0)) ∧
        (winOk (s.sw (swOf old)) j e = false → exec (.swcfgReply true) s = .next (s.swcfgEnd 1))))

/-- R402, R410 to R412, R414 to R416, R420: the plane engine forms the planes of an accepted send and sends them in order, a bad source as a bad plane;
it lands those that arrive in their tiles and forwards them, answers opens, retries them, and sends and takes prunes. When a plane of another device
counts as in turn is the model's reading (log 33). -/
def Obligations.PlanesMove : Prop :=
  ∀ (s : State) (n : CoreId) (i child : Nat) (p : PlaneMsg) (o : OpenMsg) (a : OpenAns) (x : PruneMsg),
    let v := s.asDevice
    let settled := fun (e : Instr) (m : CoreId) (j : Nat) (u : State) => ∀ t, Ends (planeSettle m j) u () t → Becomes e s t
    -- the planes of a tile
    (∀ (r : PlaneReq) b e, 1 ≤ r.fmt → r.fmt ≤ 4 → b.length = r.tileBytes → e < 256 →
      let w := (mFmt r.fmt).width
      let el := ofBytes ((b.drop (w / 8 * e)).take (w / 8))
      (r.planeOf b 0).length = 32 * (w - r.fw) ∧ ofBytes (r.planeOf b 0) / 2 ^ (e * (w - r.fw)) % 2 ^ (w - r.fw) = el / 2 ^ r.fw ∧
      ∀ k, 1 ≤ k → k ≤ r.fw → (r.planeOf b k).length = 32 ∧ (ofBytes (r.planeOf b k)).testBit e = el.testBit (r.fw - k)) ∧
    -- PLANE_SEND
    ((s.core n).planes[i]? = none → Waits (.planeSend n i) s ∧ Waits (.openAnswer n i child a) s ∧ Waits (.openRetry n i child) s) ∧
    (∀ r, (s.core n).planes[i]? = some r →
      let sendTo := fun (u : State) (ks : List Nat) (m : PlaneMsg) => ks.foldl (fun u c => u.send (r.child c) (.plane (r.child c) m)) u
      (r.isSend = true → r.done = true ∨ r.toSend = [] ∨ s.covered r.cover = false → Waits (.planeSend n i) s) ∧
      (r.isSend = true → r.done = false → ∀ k t rest, r.toSend = (k, t) :: rest →
        let kids := (List.range r.nch).filter fun c => !r.prunedBy t c
        let m : PlaneMsg := { job := r.job, tag := BitVec.ofNat 24 r.tag, tile := t, plane := k, bad := false, bits := [] }
        let next := fun (y : PlaneReq) => { y with nextPlane := if t + 1 < r.nt then k else k + 1, nextTile := if t + 1 < r.nt then t + 1 else 0 }
        let read := tryAct (engRead n r.job (r.base + t * r.tileBytes) r.tileBytes)
        ((∃ c ∈ kids, Tab.get 9 r.answers c ≠ 1 ∨ s.portTo (r.child c) = none) → Waits (.planeSend n i) s) ∧
        ((∀ c ∈ kids, Tab.get 9 r.answers c = 1 ∧ (s.portTo (r.child c)).isSome = true) → s.covered r.cover = true →
          (∀ b u, Ends read v (.ok b) u → settled (.planeSend n i) n i ((sendTo u kids { m with bits := r.planeOf b k }).modPlane n i fun y =>
            (next y).setTile t { r.tile t with sent := (r.tile t).sent + 1 })) ∧
          (∀ c u, Ends read v (.error c) u → settled (.planeSend n i) n i ((sendTo u kids { m with bad := true }).modPlane n i fun y =>
            { ((next y).setTile t { r.tile t with ended := true }) with err := 1 })))) ∧
      -- a receive forwards what has arrived, and pays the prunes it owes
      (r.isSend = false → (r.out = [] → exec (.planeSend n i) s = .next (s.payPrunes n i)) ∧ ∀ m rest, r.out = m :: rest →
        let kids := (List.range r.nch).filter fun c => !r.prunedBy m.tile c
        ((∃ c ∈ kids, Tab.get 9 r.answers c ≠ 1 ∨ s.portTo (r.child c) = none) → Waits (.planeSend n i) s) ∧
        ((∀ c ∈ kids, Tab.get 9 r.answers c = 1 ∧ (s.portTo (r.child c)).isSome = true) →
          settled (.planeSend n i) n i ((sendTo v kids m).modPlane n i fun y => { y with out := rest }))) ∧
      (∀ d, r.parent = some d → (s.portTo d).isSome = true →
        (s.payPrunes n i).dev.linkOut = s.dev.linkOut ++ r.owes.map fun t => (s.portOf d, LinkMsg.pruned d { dev := s.dev.dev, job := r.job, tag := BitVec.ofNat 24 r.tag, tile := t })) ∧
      -- OPEN_ANSWER, OPEN_RETRY
      (s.dev.zen = false ∨ r.done = true ∨ r.nch ≤ child ∨ Tab.get 9 r.answers child ≠ 0 → Waits (.openAnswer n i child a) s) ∧
      (s.dev.zen = true → r.done = false → child < r.nch → Tab.get 9 r.answers child = 0 →
        settled (.openAnswer n i child a) n i (v.modPlane n i fun y => { y with
          answers := Tab.put y.answers child (match a with | .accept => 1 | .notYet => 2 | .mismatch => 3), err := if a = .mismatch then 3 else y.err })) ∧
      (let last := Tab.get 0 r.openAt child;
        (r.done = true ∨ Tab.get 9 r.answers child ≠ 2 ∨ (last ≠ 0 ∧ s.ccount < last + 1023) → Waits (.openRetry n i child) s) ∧
        (r.done = false → Tab.get 9 r.answers child = 2 → (last = 0 ∨ last + 1023 ≤ s.ccount) →
          (s.portTo (r.child child) = none → exec (.openRetry n i child) s = .next s) ∧
          ((s.portTo (r.child child)).isSome = true → exec (.openRetry n i child) s = .next ((s.send (r.child child) (.opening (r.child child)
            { dev := s.dev.dev, job := r.job, tag := BitVec.ofNat 24 r.tag, fmt := BitVec.ofNat 3 r.fmt, nt := r.nt })).modPlane n i fun y =>
              { y with answers := Tab.put y.answers child 0, openAt := Tab.put y.openAt child (s.ccount + 1) }))))) ∧
    -- PLANE_ARRIVAL
    (s.dev.zen = false → ∀ e ∈ [.planeArrival p, .openReq o, .prune x], Waits e s) ∧
    (s.dev.zen = true → s.receiveOf p.job p.tag.toNat = none → exec (.planeArrival p) s = .next s) ∧
    (∀ m j r, s.dev.zen = true → s.receiveOf p.job p.tag.toNat = some (m, j, r) →
      let y := r.tile p.tile
      let taken := v.modPlane m j fun r => { (r.passOver p) with out := if (r.passOver p).nch = 0 then (r.passOver p).out else (r.passOver p).out ++ [p] }
      let early := s.ccount < r.zeroAt ∨ s.ccount < y.readyAt ∨ s.farWrites deviceAgent = true
      (r.parent = none ∨ r.nt ≤ p.tile ∨ r.fw < p.plane ∨ r.inTurn p = false ∨ early → Waits (.planeArrival p) s) ∧
      (r.inTurn p = true → p.plane = y.sent) ∧
      (r.parent ≠ none → p.tile < r.nt → p.plane ≤ r.fw → r.inTurn p = true → ¬early →
        (p.bad = true → ∀ u, Ends (soft () (cancelTile (m, j) p.tile true)) taken () u → settled (.planeArrival p) m j (u.modPlane m j fun r =>
          { (r.setTile p.tile { r.tile p.tile with ctr := (r.tile p.tile).ctr ||| 0x40, ended := true, sent := r.fw + 1 }) with err := 1 })) ∧
        (p.bad = false → ctrCanc y.ctr = true → settled (.planeArrival p) m j
          (taken.modPlane m j fun r => { (r.setTile p.tile { y with sent := y.sent + 1 }) with cnt := (r.cnt + 1) % 2 ^ 16 })) ∧
        (p.bad = false → ctrCanc y.ctr = false →
          let el := landBits r y p
          let ctr : BitVec 8 := BitVec.ofNat 8 (0x80 + p.plane)
          ∀ u w, Ends (writeJob r.job (planeWriter m) (r.base + p.tile * r.tileBytes) (el.flatMap fun e => toBytes ((mFmt r.fmt).width / 8) e)) taken () u →
            Ends (writeJob r.job (planeWriter m) (r.pctr + p.tile) [ctr]) u () w →
            settled (.planeArrival p) m j (w.modPlane m j fun r =>
              r.setTile p.tile { y with ctr := ctr, sent := y.sent + 1, elems := el, readyAt := w.slicesTill })))) ∧
    -- OPEN
    (let answer := fun (b : OpenAns) (u : State) => u.send o.dev.toNat (.opened o.dev.toNat o.job o.tag.toNat b);
      (s.dev.zen = true → s.receiveOf o.job o.tag.toNat = none → exec (.openReq o) s = .next (answer .notYet s)) ∧
      (∀ m j r, s.dev.zen = true → s.receiveOf o.job o.tag.toNat = some (m, j, r) → r.fmt = o.fmt.toNat → r.nt = o.nt →
        exec (.openReq o) s = .next ((answer .accept (s.modPlane m j fun r => { r with parent := some o.dev.toNat })).payPrunes m j))) ∧
    -- PRUNE
    (let hits := s.planeReqs.filter fun y => !y.2.2.done && decide (y.2.2.job = x.job) && decide (y.2.2.tag = x.tag.toNat) && decide (x.tile < y.2.2.nt) &&
        (List.range y.2.2.nch).any fun c => decide (y.2.2.child c = x.dev.toNat);
      (s.dev.zen = true → hits = [] → exec (.prune x) s = .next s) ∧
      ∀ m j r rest, s.dev.zen = true → hits = (m, j, r) :: rest →
        settled (.prune x) m j (v.modPlane m j fun r => r.setTile x.tile { r.tile x.tile with
          pruned := (r.tile x.tile).pruned ++ ((List.range r.nch).filter fun c => decide (r.child c = x.dev.toNat)).filter fun c => !(r.tile x.tile).pruned.contains c }))

/-- R80, R94, R117, R118, R126, R127, R137, R142 to R146, R155, R156, R159, R162, R166 to R168, R179, R184, R185, R381: under the conditions on the state and
the operands under which the manual lets it execute, each of these words and steps completes: the loop, CSR and trap-return words, the
stores, the V-words that are not lane-wise (FP_TRAP enabled for no flag), a store performed, a word of L or S retired or ended by a colophon, a claim
granted, and a trap taken. -/
def Obligations.WordsAndStepsComplete : Prop :=
  -- the scalar words
  (∀ (s : State) (d a : BitVec 5) (n : BitVec 13) (i c : BitVec 12),
    let q := s.seq
    let kf := s.cur.2 = .k ∨ s.cur.2 = .f
    let done := fun (e : Instr) (prop : State → Prop) => ∃ t, exec e s = .next t ∧ t.issued = true ∧ prop t
    let room := n.toNat ≠ 0 ∧ n.toNat ≤ 4095 ∧ q.loops.length < 4 ∧ ∀ e ∈ q.loops.head?, (q.pc + 4 * n.setWidth 64).toNat ≤ e.stop.toNat
    (s.readyFor [a] = true → s.cur.2 ≠ .f → q.mpos = none → (∀ e ∈ q.loops, e.stop ≠ q.pc) → room →
      done (.loop a n) fun t => t.seq.pc = (if s.reg a = 0 then q.pc + 4 * n.setWidth 64 + 4 else q.pc + 4) ∧
        t.seq.loops.length = (if s.reg a = 0 then q.loops.length else q.loops.length + 1)) ∧
    (kf → s.readyFor [] = true → (c.toNat = 1 → q.flagAt ≤ s.ccount) → ∀ v, csrRead s c.toNat = some v →
      done (.csrr d c) fun t => t.reg d = (if d = 0 then 0 else v)) ∧
    (kf → s.readyFor [a] = true → (c.toNat = 1 → q.flagAt ≤ s.ccount) → (c.toNat = 0x060 → s.cur.2 = .f) → csrRO c.toNat = false → ∀ v, csrRead s c.toNat = some v →
      (csrOk c.toNat (s.reg a) = true → done (.csrw a c) (SameRegs [] s)) ∧
      (csrOk c.toNat (v ||| s.reg a) = true → done (.csrs a c) (SameRegs [] s)) ∧
      (csrOk c.toNat (v &&& ~~~(s.reg a)) = true → done (.csrc a c) (SameRegs [] s))) ∧
    (kf → s.canIssue = true → q.mpos = none → let u := s.here.sup s.cur.2
      u.hdepth ≠ 0 → u.tsw &&& tswReserved = 0 → u.tsw.toNat % 8 ≤ 4 → u.tsw.getLsbD 24 = false → u.tepc.toNat % 4 = 0 →
      done .tret fun t => (∀ x, (s.here.seq x).stop = none) → t.seq.pc = u.tepc ∧ (t.here.sup s.cur.2).hdepth = u.hdepth - 1) ∧
    (s.cur.2 = .k → s.readyFor [d, a] = true → let ea := s.reg a + BitVec.ofInt 64 i.toInt
      s.walks ea.toNat → ea.toNat < 2 ^ 57 → s.here.capturing = false → s.here.fwdFree s.ccount = true → ∀ tg, s.targetOf s.cur.1 .k ea.toNat .write = .ok tg →
      let stores := fun (e : Instr) (size : Nat) => ea.toNat % size = 0 → s.here.watchHit ea.toNat size true = none →
        ((∃ o, tg = .slice s.cur.1 o) → s.here.frozen = false →
          s.inOrder s.cur.1 (s.here.storeSeq + 1) q.cover tg = true ∧ s.locked tg size = false) →
        done e fun t => t.here.storeSeq = s.here.storeSeq + 1 ∧ SameRegs [] s t
      stores (.stB d a i) 1 ∧ stores (.stH d a i) 2 ∧ stores (.stW d a i) 4 ∧ stores (.stD d a i) 8)) ∧
  -- the V-words
  (∀ (s : State) (d a b : BitVec 7) (w p k : BitVec 1) (r : BitVec 2) (i : BitVec 21) (g : BitVec 14), s.canIssue = true → s.cur.2 = .c →
    teOf s.seq.fcsr = 0 → s.tokensReady w p = true →
    let u := s.here.vec
    let completes := fun (e : Instr) (x : VForm) =>
      (∀ c ∈ x.srcs, c < 68 ∨ c = 72) → (∀ c, x.dst = some c → c < 64 ∨ (68 ≤ c ∧ c ≤ 72)) → s.vReady x = true →
      (∀ c ∈ x.srcs, 64 ≤ c → c < 68 → ((s.here.iqOf (c - 64)).front s.ccount).isSome = true) →
      (∀ c, x.dst = some c → 68 ≤ c → c < 72 → (s.here.oqOf (c - 68)).canPush 4 s.ccount = true) → x.ok = true → s.slicesOk x = true →
      ∃ t f, exec e s = .next t ∧ t.issued = true ∧ t.here.vec.flight = u.flight ++ [f] ∧ f.due = s.ccount + x.lat - 1
    let tile := fun (lat : Nat) (masks : List Nat) => VForm.bare true lat masks
    let part := u.part
    let seg := fun (j : Nat) => usedSegs (Tab.get 0 u.rule (laneAt 32 (s.vOperand b.toNat) j % 16))
    completes (.vsel d a b w p r) { VForm.lanes u [a.toNat, b.toNat] d.toNat true 2 with masks := r.toNat :: u.maskRead } ∧
    (d.toNat < 8 → completes (.vcmp d a b w p r) { VForm.lanes u [a.toNat, b.toNat] 0 true 2 with dst := none }) ∧
    (b.toNat < 16 → laneRsv b.toNat = false → b.toNat ≠ u.ty →
      (laneL b.toNat < laneL u.ty → part < laneL u.ty / laneL b.toNat) → (laneL u.ty < laneL b.toNat → part < laneL b.toNat / laneL u.ty) →
      completes (.vcvt d a b w p r) (VForm.lanes u [a.toNat] d.toNat true 4)) ∧
    (∀ e ∈ [Instr.vsum d a w p r, .vmaxr d a w p r], completes e (VForm.lanes u [a.toNat] d.toNat true (4 + 2 * Nat.log2 (laneL u.ty)))) ∧
    (laneRsv (i.toNat % 16) = false → completes (.vshape i w p) (tile 2 [])) ∧
    (d.toNat < 8 → cfgLegal g = true → completes (.mcfg d g w p k) (tile 2 (if k = 1 then [d.toNat] else []))) ∧
    (d.toNat < 8 → completes (.mzero d w p r) (tile 2 [])) ∧ (d.toNat < 8 → a.toNat < 8 → completes (.mtr d a w p r) (tile 34 [a.toNat])) ∧
    (u.ty = 1 → d.toNat < 30 → (∀ j, j < 64 → u.active j = true → seg j ≠ []) →
      completes (.vrelax d a b w p r) { VForm.lanes u [a.toNat, b.toNat] d.toNat true 8 with eb := true, ruleTab := true }) ∧
    (2 ^ 31 ≤ laneAt 32 (s.vOperand b.toNat) 0 ∨ imageOk (s.vOperand a.toNat) = true →
      completes (.vrule d a b w p r) { VForm.bare true 2 [] with srcs := [a.toNat, b.toNat], dst := some d.toNat, ruleTab := true })) ∧
  -- steps
  (∀ (s : State) (n : CoreId) (q : Ctx) (i : BitVec 5),
    let c := s.core n
    let done := fun (e : Instr) => ∃ t, exec e s = .next t ∧ t ≠ s
    (∀ x pa, (c.fwd.find? fun t => t.doneAt.isNone) = some x → x.sent = false → x.tgt = .dev pa → 0 < x.bytes.length → pa % 64 + x.bytes.length ≤ 64 →
      Tab.get false s.poison (pa / 64) = false → Tab.get 0 s.latent (pa / 64) < 2 → s.siteHeld pa x.bytes.length = false →
      s.inOrder n x.seq x.cover x.tgt = true → s.locked x.tgt x.bytes.length = false → done (.writePerformed n)) ∧
    ((c.ring i.toNat).waits ≠ [] → (c.ring i.toNat).valid = true → (c.ring i.toNat).colo = true ∨ 1 ≤ (c.ring i.toNat).free → done (.ringClaimGrant n i)) ∧
    (∀ f rest, q = .l ∨ q = .s → (c.tu q).flight = f :: rest → (∀ g ∈ rest, g.id ≠ f.id) → (c.seq q).stop = none → f.parked = none → f.failed = none →
      c.cutting = .running → c.debugHalt = .running →
      (f.kind = .popped ∨ f.kind = .post ∨ (f.kind = .ringWord ∧ (f.op = 0x0D ∨ (f.op = 0x0F ∧ f.claimed ≠ none)) ∧ (s.homeRing n f.target).valid = true) → done (.transferRetire n q)) ∧
      (∀ p, rest = [] → f.reads = [p] → (s.homeRing n f.target).isColophon p = true → (c.ring f.target).fwdEn = false → done (.colophonMeet n q))) ∧
    (∀ x r, s.trapDue n = true → c.late = [] → c.nextTrap = some (x, r) → c.supK.tvec ≠ 0 → r.code ≠ 0x11 → r.code ≠ 0x12 → done (.trapTake n)))

/-! ## The step, the words, reset, and what every step keeps -/

/-- R48, R49, R78, R80, R81, R84: the step that gives a context its issue slot fetches the word at its program counter and runs exactly the
instruction it decodes to; a word that decodes to none has the fate of R49. L, C and S have a slot of their own; K and F share one, which
the rules of R81 give to one of them. The other moves are the clock, which waits for what comes about in the present cycle (R203, R294, R343, R430, R433), a
read or a write of a BAR0 register (R401), the steps of R79, a microword of the attention sequencer (R370), a block of a transfer (R174, R179), an atomic at its
home (R273), a store or atomic of a cut unit (R343), a failing cell (R173, R340), inputs of the sites, of F and of the sideband (R430, R432, R437), and what the code
stores and the translation caches fetch and drop (R439, R338). A request of the host follows an AtomicOp that came before it (R404). That the agenda schedules
the moves is the model's (logs 1 and 10). -/
def Obligations.StepRunsTheDecodedInstruction : Prop :=
  ∀ (s : State) (m : Move) (rest : List Move), s.agenda = m :: rest →
    let s1 : State := { s with agenda := rest }
    (∀ n q, m = .issue n q →
      let c := s1.core n
      -- the outcome `o` of the next word of a context
      let runs := fun (p : Ctx) (o : Out) =>
        let who := (n, if p = .f then 7 else ctxNum p, 0)
        let s0 : State := { s1 with cur := (n, p), issued := false, reader := who }
        let ready := s0.canIssue = true ∧ (p = .k → s1.farWrites who = false)
        (¬ready ∧ o = .next s0) ∨ (ready ∧ ∃ w u, Ends (fetchWord n p) s0 w u ∧
          ((∃ i, decode p.sect w = some i ∧ o = endReads who (exec i { u with word := w })) ∨
            (decode p.sect w = none ∧ o = endReads who (exec (.unallocatedOpcode w) { u with word := w }))))
      (∀ o, q ≠ .k → q ≠ .f → runs q o → step s = o) ∧
      (q = .k ∨ q = .f → (c.slotAt = s.ccount + 1 → step s = .next s1) ∧
        (c.slotAt ≠ s.ccount + 1 → q = .k → s1.trapDue n = true → step s = exec (.trapTake n) s1) ∧
        (c.slotAt ≠ s.ccount + 1 → s1.trapDue n = false → ∀ ok of, runs .k ok → runs .f of →
          let both := outIssued ok = true ∧ outIssued of = true
          let forF := c.fpri = true ∨ c.fused.toNat < c.quota.toNat
          let winner := fun (p : Ctx) => (p = .k ∧ outIssued ok = true ∧ ¬(outIssued of = true ∧ forF)) ∨ (p = .f ∧ outIssued of = true ∧ (outIssued ok = true → forF))
          let count := both ∧ c.fpri = false
          let taken := fun (o : Out) (counts : Prop) => (∀ e, o = .fault e → step s = .fault e) ∧ ∀ t, o = .next t → ∃ x, step s = .next (t.setCore n x) ∧
            x.slotAt = t.ccount + 1 ∧ (counts → x.fused = (t.core n).fused + 1) ∧ (¬counts → x.fused = (t.core n).fused) ∧
            { x with slotAt := (t.core n).slotAt, fused := (t.core n).fused } = t.core n
          (¬winner q → step s = .next s1) ∧ (q = .k → winner q → taken ok False) ∧ (q = .f → winner q → taken of count)))) ∧
    (m = .tick → (s.dev.power ≠ 3 → s1.cycleDue = false → step s = .next s1.tick.ownAmos.noteOwed) ∧ s1.tick.ccount = s.ccount + 1 ∧ s1.tick.mem = s.mem ∧
      (s.dev.power = 3 ∨ s1.cycleDue = true → step s = .next s1)) ∧
    (s1.cycleDue = true ↔ s1.dispatchDue = true ∨
      (∃ i, i < 12 ∧ let x := s.site i; x.stallDue s.ccount = true ∨ x.enters s.dev.critT = true ∨ x.leaves s.dev.critT s.dev.relT = true) ∨
      ∃ x ∈ s.cores, (s.dev.ready = true ∧ x.2.fActive = false ∧ x.2.events ≠ []) ∨ (x.2.unit ≠ none ∧ x.2.lastRetire + Nat.max 1 s.dev.hungt ≤ s.ccount) ∨
        s1.stampDue (BitVec.ofNat 8 x.1) = true) ∧
    (∀ i, m = .event i → isEvent i = true → (hostRequest i = false ∨ s1.hostBusy = false → step s = exec i s1) ∧
      (hostRequest i = true → s1.hostBusy = true → step s = .next s1)) ∧
    (∀ who off len v, m = .bar who off len v → (who = .driver → s1.hostBusy = false) → step s = barMove who off len v s1) ∧
    (∀ off len, m = .barRead off len → s1.hostBusy = false → step s = execBarRead off len s1) ∧
    (∀ i, (m = .homeAmo i → step s = applyHome i s1) ∧ (m = .orphan i → step s = performOrphan i s1)) ∧
    (∀ i j, (m = .temperature i j → step s = siteTemperature i j s1) ∧ (m = .setHungt i → step s = setHungt i s1) ∧
      (m = .setThresholds i j → step s = setThresholds i j s1) ∧ (m = .idle → step s = idleMove s1) ∧ (m = .i3cRead i → step s = i3cRead i s1)) ∧
    (∀ off v, m = .i3cWrite off v → step s = i3cWrite off v s1) ∧
    (∀ n, (m = .micro n → step s = microMove n s1) ∧ (m = .attRetire n → step s = attRetire n s1)) ∧
    (m = .deviceReset → step s = exec .resetDevice s1) ∧
    (∀ n pc, m = .dropWord n pc → ∃ t, step s = .next t ∧ (t.core n).code = (s.core n).code.filter (fun x => x.1 != pc) ∧
      t = s1.setCore n { s.core n with code := (t.core n).code }) ∧
    (∀ i, m = .dropLeaf i → step s = .next { s1 with tcache := s.tcache.eraseIdx i }) ∧
    (∀ n q i, m = .block n q i → step s = blockMove n q i s1) ∧ (∀ n q i k, m = .readAhead n q i k → step s = readAhead n q i k s1) ∧
    (∀ n pc, m = .fetchAhead n pc → step s = fetchAhead n pc s1) ∧ (∀ k double, m = .cellFail k double → step s = cellFail k double s1)

/-- R48, R51, R54, R62, R66, R69 and the words the manual writes out beside its examples: each decodes, in its section, to the instruction it
stands for. -/
def Obligations.SampleWordsDecode : Prop :=
  decode .kcode 0xE0942200 = some (.add 5 1 2) ∧ decode .tcode 0xF0800000 = some .halt ∧ decode .ccode 0xE594BFFF = some (.addi 5 5 0x1FFF) ∧
  decode .kcode 0xEA141FFD = some (.bne 5 0 0x1FFD) ∧ decode .tcode 0xEE00A000 = some (.qpush 0 5) ∧ decode .kcode 0xF0000045 = some (.tkmask 4 5) ∧
  decode .kcode 0x210E3018 = some (.ldD 7 3 24) ∧ decode .kcode 0x010A6382 = some (.div 5 6 7 2) ∧ decode .kcode 0x0404530A = some (.cmp 2 5 6 0 2 2) ∧
  decode .kcode 0x420A6382 = some (.fdiv 0 5 6 7 2) ∧ decode .kcode 0x61006001 = some (.csrw 6 1) ∧ decode .kcode 0x87408382 = some (.amoFmaxNr 8 7 0) ∧
  decode .kcode 0xA40A5302 = none ∧ decode .kcode 0xA4005302 = some (.rgSet 5 6 2) ∧ decode .kcode 0xA9CA6381 = some (.afAdd 5 6 7 1) ∧
  decode .kcode 0xC8406000 = some (.asGo 6) ∧ decode .kcode 0xCC8A6380 = some (.bpWait 5 6 7) ∧
  decode .ccode 0x0A0C241A = some (.vfma 3 4 65 1 0 2) ∧ decode .ccode 0x4D201840 = some (.vrule 72 3 4 0 0 0) ∧ decode .ccode 0x4E086721 = some (.mcfg 2 0x672 0 0 1) ∧
  decode .ccode 0x82021AA8 = some (.mmaE 4 6 1 2 0 1 0 0) ∧ decode .ccode 0x84219E64 = some (.mmaA 2 3 7 1 1 0 0 1 0) ∧
  decode .tcode 0x04A61054 = some (.tld 5 6 2 1 1 0 1 0) ∧ decode .tcode 0x0920188A = some (.tst 9 0 3 2 0 1 0 2) ∧ decode .tcode 0x38071000 = some (.rgpop 7 2 0 0)

/-- R4, R112, R147, R181, R204, R209, R401, R402, R428, R430, R433, R437: the machine after device reset: the time base at zero, every core's registers, tiles,
rings and buffers at their reset values, device memory zero, and the registers of the device as their maps give them. The power
state and its limit are the model's choice (log 6). -/
def Obligations.ResetLeavesTheReset : Prop :=
  let s := State.reset
  s.ccount = 0 ∧ Memory.wf s.mem = true ∧ (∀ a, s.devBytes a 1 = [0]) ∧
  (∀ n r, ((s.core n).k.reg r = 0 ∧ (s.core n).l.reg r = 0 ∧ (s.core n).c.reg r = 0 ∧ (s.core n).s.reg r = 0 ∧ (s.core n).f.reg r = 0)) ∧
  (∀ n, let c := s.core n
    c.k.fcsr = 0 ∧ c.k.wmask = 0 ∧ c.k.pmask = 0 ∧ c.k.loops = [] ∧ c.mimage = 0 ∧ c.supK.hdepth = 0 ∧ c.supK.tvec = 0 ∧ c.supK.tcause = 0 ∧ c.snapctl = 0 ∧
    c.unit = none ∧ c.vec.shape = 0 ∧ c.vec.tix = 0 ∧ c.vec.v = [] ∧ c.vec.eb = [] ∧ c.mat = MUnit.reset ∧ c.rings = [] ∧ c.fpri = false ∧ c.quota = 16 ∧
    c.fActive = false ∧ c.events = []) ∧
  s.dev.ready = false ∧ s.dev.fail = false ∧ s.dev.zen = false ∧ s.dev.dev = 0 ∧ s.dev.hungt = 2 ^ 26 ∧ s.dev.limit = 2000 ∧ s.dev.power = 0 ∧ s.dev.evProd = 0 ∧
  s.dev.evCons = 0 ∧ s.dev.fwfp = 0 ∧ s.dev.rungs = [] ∧ s.jobs = [] ∧ s.tcache = [] ∧ s.keys = []

/-- R48, R49: decoding and encoding agree: every well-formed instruction reads back from its word in each section that holds it, with every
operand at every value; what a word decodes to is well formed, stands in that section and encodes to that word; and exactly the
instructions that some section holds have a word. -/
def Obligations.DecodeAndEncodeAgree : Prop :=
  (∀ sec i w, i.wf = true → i.fits sec = true → encode i = some w → decode sec w = some i) ∧
  (∀ sec w i, decode sec w = some i → i.wf = true ∧ i.fits sec = true ∧ encode i = some w) ∧
  (∀ i, (encode i).isSome = true ↔ ∃ sec, i.fits sec = true)

/-- The model's own invariant, from every state that meets it: device memory stays in its one canonical form (addresses strictly rising, no
entry equal to what an unlisted address reads as) in every step, whoever moves. -/
def Obligations.MemoryStaysCanonical : Prop :=
  ∀ s t : State, Memory.wf s.mem = true → step s = .next t → Memory.wf t.mem = true

/-- No step of the machine is refused, in any state: every instruction and every other step has its meaning. -/
def Obligations.NoStepIsRefused : Prop :=
  ∀ (s : State) (r : Refusal), step s ≠ .refused r
end

