-- ==== Sys2Proof/Laws/Tables.lean ====
section
/-! SUPPORT. Sparse tables: what a table reads after each operation on it, and that every operation keeps the canonical form. -/
namespace Sys2Proof

theorem Tab.get_put_same {α : Type} (d : α) (t : Tab α) (n : Nat) (x : α) : Tab.get d (Tab.put t n x) n = x := by
  induction t with
  | nil => simp [Tab.put, Tab.get]
  | cons h t ih =>
    obtain ⟨k, v⟩ := h
    simp only [Tab.put]
    split
    · simp [Tab.get]
    · split
      · simp [Tab.get]
      · have : k ≠ n := by omega
        simp [Tab.get, this, ih]

theorem Tab.get_put_ne {α : Type} (d : α) (t : Tab α) (n m : Nat) (x : α) (h : m ≠ n) :
    Tab.get d (Tab.put t n x) m = Tab.get d t m := by
  induction t with
  | nil => simp [Tab.put, Tab.get, h.symm]
  | cons e t ih =>
    obtain ⟨k, v⟩ := e
    simp only [Tab.put]
    split
    · simp [Tab.get, h.symm]
    · split
      · subst_vars; simp [Tab.get, h.symm]
      · simp [Tab.get, ih]

theorem Tab.get_del_same {α : Type} (d : α) (t : Tab α) (n : Nat) : Tab.get d (Tab.del t n) n = d := by
  induction t with
  | nil => rfl
  | cons e t ih =>
    obtain ⟨k, v⟩ := e
    simp only [Tab.del]
    split
    · exact ih
    · rename_i h; simp [Tab.get, h, ih]

theorem Tab.get_del_ne {α : Type} (d : α) (t : Tab α) (n m : Nat) (h : m ≠ n) :
    Tab.get d (Tab.del t n) m = Tab.get d t m := by
  induction t with
  | nil => rfl
  | cons e t ih =>
    obtain ⟨k, v⟩ := e
    simp only [Tab.del]
    split
    · subst_vars; simp [Tab.get, h.symm, ih]
    · simp [Tab.get, ih]

@[simp] theorem Tab.get_set_same {α : Type} [DecidableEq α] (d : α) (t : Tab α) (n : Nat) (x : α) :
    Tab.get d (Tab.set d t n x) n = x := by
  unfold Tab.set
  split
  · subst_vars; exact Tab.get_del_same _ _ _
  · exact Tab.get_put_same _ _ _ _

theorem Tab.get_set_ne {α : Type} [DecidableEq α] (d : α) (t : Tab α) (n m : Nat) (x : α) (h : m ≠ n) :
    Tab.get d (Tab.set d t n x) m = Tab.get d t m := by
  unfold Tab.set
  split
  · exact Tab.get_del_ne _ _ _ _ h
  · exact Tab.get_put_ne _ _ _ _ _ h

@[simp] theorem Tab.put_put {α : Type} (t : Tab α) (n : Nat) (x y : α) : Tab.put (Tab.put t n x) n y = Tab.put t n y := by
  induction t with
  | nil => simp [Tab.put]
  | cons e t ih =>
    obtain ⟨k, v⟩ := e
    simp only [Tab.put]
    split
    · simp [Tab.put]
    · split
      · simp [Tab.put]
      · rename_i h1 h2
        simp [Tab.put, h1, h2, ih]

/-- A range written reads back. -/
theorem Tab.get_setRange_in {α : Type} [DecidableEq α] (d : α) (xs : List α) :
    ∀ (t : Tab α) (n i : Nat) (h : i < xs.length), Tab.get d (Tab.setRange d t n xs) (n + i) = xs[i] := by
  induction xs with
  | nil => intro t n i h; simp at h
  | cons x xs ih =>
    intro t n i h
    cases i with
    | zero =>
      simp only [Tab.setRange, Nat.add_zero, List.getElem_cons_zero]
      have : ∀ (ys : List α) (t : Tab α) (m : Nat), n < m → Tab.get d (Tab.setRange d t m ys) n = Tab.get d t n := by
        intro ys
        induction ys with
        | nil => intros; rfl
        | cons y ys ihy => intro t m hm; simp only [Tab.setRange]; rw [ihy _ _ (by omega), Tab.get_set_ne _ _ _ _ _ (by omega)]
      rw [this _ _ _ (Nat.lt_succ_self n), Tab.get_set_same]
    | succ j =>
      simp only [Tab.setRange, List.getElem_cons_succ]
      have := ih (Tab.set d t n x) (n + 1) j (by simpa using h)
      rw [← this]; congr 1; omega

/-- Outside a range written nothing changes. -/
theorem Tab.get_setRange_out {α : Type} [DecidableEq α] (d : α) (xs : List α) :
    ∀ (t : Tab α) (n m : Nat), (m < n ∨ n + xs.length ≤ m) → Tab.get d (Tab.setRange d t n xs) m = Tab.get d t m := by
  induction xs with
  | nil => intros; rfl
  | cons x xs ih =>
    intro t n m h
    simp only [List.length_cons] at h
    simp only [Tab.setRange]
    rw [ih _ _ _ (by omega), Tab.get_set_ne _ _ _ _ _ (by omega)]

/-! ## The canonical form -/

theorem Tab.wfFrom_mono {α : Type} [DecidableEq α] (d : α) (t : Tab α) (a b : Nat) (h : a ≤ b) (w : Tab.wfFrom d b t = true) :
    Tab.wfFrom d a t = true := by
  cases t with
  | nil => rfl
  | cons e t =>
    simp only [Tab.wfFrom, Bool.and_eq_true, decide_eq_true_eq] at w ⊢
    exact ⟨⟨Nat.le_trans h w.1.1, w.1.2⟩, w.2⟩

theorem Tab.wfFrom_del {α : Type} [DecidableEq α] (d : α) (t : Tab α) (n : Nat) :
    ∀ lo, Tab.wfFrom d lo t = true → Tab.wfFrom d lo (Tab.del t n) = true := by
  induction t with
  | nil => intros; rfl
  | cons e t ih =>
    obtain ⟨k, v⟩ := e
    intro lo w
    simp only [Tab.wfFrom, Bool.and_eq_true, decide_eq_true_eq] at w
    simp only [Tab.del]
    split
    · exact ih _ (Tab.wfFrom_mono d t lo (k + 1) (by omega) w.2)
    · simp only [Tab.wfFrom, Bool.and_eq_true, decide_eq_true_eq]
      exact ⟨w.1, ih _ w.2⟩

theorem Tab.wfFrom_put {α : Type} [DecidableEq α] (d : α) (t : Tab α) (n : Nat) (x : α) (hx : x ≠ d) :
    ∀ lo, lo ≤ n → Tab.wfFrom d lo t = true → Tab.wfFrom d lo (Tab.put t n x) = true := by
  induction t with
  | nil => intro lo hl _; simp [Tab.put, Tab.wfFrom, hl, hx]
  | cons e t ih =>
    obtain ⟨k, v⟩ := e
    intro lo hl w
    simp only [Tab.wfFrom, Bool.and_eq_true, decide_eq_true_eq, Bool.not_eq_true', decide_eq_false_iff_not] at w
    simp only [Tab.put]
    split
    · simp only [Tab.wfFrom, Bool.and_eq_true, decide_eq_true_eq, Bool.not_eq_true', decide_eq_false_iff_not]
      exact ⟨⟨hl, hx⟩, ⟨by omega, w.1.2⟩, w.2⟩
    · split
      · subst_vars
        simp only [Tab.wfFrom, Bool.and_eq_true, decide_eq_true_eq, Bool.not_eq_true', decide_eq_false_iff_not]
        exact ⟨⟨hl, hx⟩, w.2⟩
      · simp only [Tab.wfFrom, Bool.and_eq_true, decide_eq_true_eq, Bool.not_eq_true', decide_eq_false_iff_not]
        exact ⟨w.1, ih _ (by omega) w.2⟩

/-- A table stays canonical when a value is set. -/
theorem Tab.wf_set {α : Type} [DecidableEq α] (d : α) (t : Tab α) (n : Nat) (x : α) (w : Tab.wf d t = true) :
    Tab.wf d (Tab.set d t n x) = true := by
  unfold Tab.set
  split
  · exact Tab.wfFrom_del d t n 0 w
  · rename_i h; exact Tab.wfFrom_put d t n x h 0 (Nat.zero_le _) w

/-- A table stays canonical when a range is stored. -/
theorem Tab.wf_setRange {α : Type} [DecidableEq α] (d : α) (xs : List α) :
    ∀ (t : Tab α) (n : Nat), Tab.wf d t = true → Tab.wf d (Tab.setRange d t n xs) = true := by
  induction xs with
  | nil => intro t n w; exact w
  | cons x xs ih => intro t n w; exact ih _ _ (Tab.wf_set d t n x w)

namespace Machine

/-- The one place that changes device memory keeps its canonical form. -/
theorem setDev_wf (s : State) (pa : Nat) (bytes : List Byte) (w : Memory.wf s.mem = true) :
    Memory.wf (s.setDev pa bytes).mem = true := Tab.wf_setRange _ _ _ _ w

/-- Reset memory is canonical. -/
theorem reset_mem_wf : Memory.wf State.reset.mem = true := rfl

end Machine

end Sys2Proof
end

