-- ==== Sys2Proof/Laws/Reads.lean ====
section
/-! SUPPORT. How actions run, and what a read of device memory gives where no error and no refresh stands in its way: the bytes of memory, and
the state as it was. -/
namespace Sys2Proof.Machine

/-! ## Actions -/

theorem Act.run_bind {α β : Type} (m : Act α) (f : α → Act β) (s : State) :
    (m >>= f) s = (match m s with | (.ok a, t) => f a t | (.error e, t) => (.error e, t)) := by
  show (ExceptT.bind m f : Act β) s = _
  simp only [ExceptT.bind, ExceptT.mk, bind, StateT.bind]
  rcases m s with ⟨a | a, t⟩ <;> rfl

theorem Act.run_pure {α : Type} (a : α) (s : State) : (pure a : Act α) s = (.ok a, s) := id rfl
theorem Act.run_get (s : State) : (get : Act State) s = (.ok s, s) := id rfl
theorem Act.run_set (t s : State) : (set t : Act PUnit) s = (.ok ⟨⟩, t) := id rfl
theorem Act.run_modify (g : State → State) (s : State) : (modify g : Act PUnit) s = (.ok ⟨⟩, g s) := id rfl
theorem Act.run_fault {α : Type} (c : Nat) (v : Word) (s : State) : (Act.fault c v : Act α) s = (.error (.fault c v), s) := id rfl
theorem Act.run_need (b : Bool) (s : State) : Act.need b s = if b = true then (.ok (), s) else (.error (.wait none), s) := by
  unfold Act.need; split <;> rfl
theorem Act.run_check (b : Bool) (c : Nat) (v : Word) (s : State) : Act.check b c v s = if b = true then (.ok (), s) else (.error (.fault c v), s) := by
  unfold Act.check; split <;> rfl

/-- A fold whose every step only extends what it has folded. -/
theorem Act.run_fold {α β : Type} (f : β → α → Act β) (g : β → α → β) (s : State) (l : List α) (b : β)
    (h : ∀ b, ∀ a ∈ l, f b a s = (.ok (g b a), s)) : l.foldlM f b s = (.ok (l.foldl g b), s) := by
  induction l generalizing b with
  | nil => rfl
  | cons a l ih =>
    rw [List.foldlM_cons, Act.run_bind, h b a (List.mem_cons_self ..)]
    exact ih (g b a) fun b x hx => h b x (List.mem_cons_of_mem _ hx)

/-! ## Reads of clean memory -/

/-- No site refreshes, no block is poisoned or has a latent error, and no atomic or group holds a word. -/
def State.clean (s : State) : Prop :=
  s.sites = [] ∧ s.poison = [] ∧ s.latent = [] ∧ (∀ x ∈ s.cores, x.2.amos = [] ∧ x.2.fwd = []) ∧ s.amoq = [] ∧ s.sealed = [] ∧ s.orphans = []

theorem siteHeld_clean {s : State} (h : s.clean) (pa len : Nat) : s.siteHeld pa len = false := by
  simp [State.siteHeld, h.1, Tab.get, Site.reset]

theorem eccBlock_clean {s : State} (h : s.clean) (b : Nat) : s.eccBlock b = (s, 0) := by
  simp [State.eccBlock, h.2.1, h.2.2.1, Tab.get]

theorem readDev_clean {s : State} (h : s.clean) (pa len : Nat) (v : Word) : readDev pa len v s = (.ok (s.devBytes pa len, false), s) := by
  unfold readDev
  rw [Act.run_bind, Act.run_get]
  simp only [Act.run_bind, Act.run_need, siteHeld_clean h, Bool.not_false, if_true]
  rw [Act.run_fold _ (fun e _ => e)]
  · have hf : ∀ l : List Nat, l.foldl (fun e _ => e) false = false := fun l => by induction l with
      | nil => rfl
      | cons _ _ ih => exact ih
    simp [Act.run_get, Act.run_pure, hf]
  · intro e b _
    simp [Act.run_bind, Act.run_get, Act.run_set, eccBlock_clean h, Act.run_pure]

theorem locked_clean {s : State} (h : s.clean) (t : Target) (len : Nat) : s.locked t len = false := by
  obtain ⟨-, -, -, hc, ha, hs, ho⟩ := h
  simp only [State.locked, ha, hs, ho, List.any_nil, Bool.false_or, List.any_eq_false]
  intro x hx
  simp [hc x hx]

theorem readTarget_clean {s : State} (h : s.clean) (pa len va : Nat) : readTarget (.dev pa) len va s = (.ok (s.devBytes pa len, false, false), s) := by
  unfold readTarget
  simp only [Act.run_bind, Act.run_get, Act.run_need, locked_clean h, Bool.not_false, if_true, readDev_clean h, Act.run_pure]

theorem Act.run_loop {α : Type} (f : α → Act Unit) (s : State) (l : List α) (h : ∀ a ∈ l, f a s = (.ok (), s)) :
    (forIn l PUnit.unit fun a _ => do f a; pure (ForInStep.yield PUnit.unit) : Act PUnit) s = (.ok ⟨⟩, s) := by
  induction l with
  | nil => rfl
  | cons a l ih =>
    rw [List.forIn_cons]
    simp only [Act.run_bind, h a (List.mem_cons_self ..), Act.run_pure]
    exact ih fun x hx => h x (List.mem_cons_of_mem _ hx)

theorem walkReads_clean {s : State} (h : s.clean) (at_ : Nat) (job : BitVec 8) (va : Nat) : walkReads at_ job va s = (.ok (), s) := by
  unfold walkReads
  rw [Act.run_bind, Act.run_get]
  dsimp only
  split
  · rfl
  · refine (congrFun ?_ s).trans (Act.run_loop (fun x => do let _ ← readTarget (.dev x.2.1) 8 va) s (s.walkOf at_ job va) ?_)
    · simp
    · intro x _
      simp only [Act.run_bind, readTarget_clean h, Act.run_pure]

/-- A range of whole blocks, block by block. -/
theorem pieces_blocks (m k va : Nat) (hk : m < k) (hv : va % 64 = 0) : pieces va (64 * m) k = (List.range m).map fun i => (va + 64 * i, 64) := by
  induction m generalizing k va with
  | zero => cases k with
    | zero => rfl
    | succ k => simp [pieces]
  | succ m ih =>
    cases k with
    | zero => omega
    | succ k =>
      have h1 : 64 * (m + 1) ≠ 0 := by omega
      have h2 : Nat.min (64 * (m + 1)) (64 - va % 64) = 64 := by simp only [Nat.min_def]; split <;> omega
      simp only [pieces, h1, if_false, h2]
      rw [show 64 * (m + 1) - 64 = 64 * m by omega, ih k (va + 64) (by omega) (by omega), List.range_succ_eq_map]
      simp only [List.map_cons, List.map_map, Nat.mul_zero, Nat.add_zero, List.cons.injEq, true_and]
      apply List.map_congr_left
      intro i _
      simp only [Function.comp_apply, Prod.mk.injEq, and_true]
      omega

theorem range_append {α : Type} (d : α) (t : Tab α) (n a b : Nat) : Tab.range d t n (a + b) = Tab.range d t n a ++ Tab.range d t (n + a) b := by
  induction a generalizing n with
  | zero => simp [Tab.range]
  | succ a ih => rw [show a + 1 + b = (a + b) + 1 by omega]; simp only [Tab.range, List.cons_append, ih (n + 1)]; congr 3; omega

/-- A job's read of whole blocks that its pages map to the same addresses of clean memory. -/
theorem hwRead_clean {s : State} (h : s.clean) (job : BitVec 8) (va m : Nat) (hv : va % 64 = 0)
    (ht : ∀ a, va ≤ a → a < va + 64 * m → s.translate 256 job a .read = .ok (.dev a)) :
    hwRead job va (64 * m) 256 s = (.ok (s.devBytes va (64 * m)), s) := by
  unfold hwRead
  rw [Act.run_bind, pieces_blocks m _ va (by omega) hv, Act.run_fold _ (fun acc p => s.devBytes p.1 p.2 :: acc)]
  · simp only [Act.run_pure]
    congr 2
    clear ht
    induction m with
    | zero => rfl
    | succ m ih =>
      rw [List.range_succ, List.map_append, List.foldl_append]
      simp only [List.map_cons, List.map_nil, List.foldl_cons, List.foldl_nil, List.reverse_cons, List.flatten_append, ih]
      simp only [State.devBytes, List.flatten_cons, List.flatten_nil, List.append_nil]
      rw [show 64 * (m + 1) = 64 * m + 64 by omega, range_append]
  · intro acc p hp
    obtain ⟨i, hi, rfl⟩ := List.mem_map.mp hp
    have hi := List.mem_range.mp hi
    simp only [Act.run_bind, resolveJ, resolveAt, walkReads_clean h, Act.run_get, ht (va + 64 * i) (by omega) (by omega), Act.run_pure, readTarget_clean h]

/-- A part of memory in which nothing is listed reads as what unlisted bytes read as. -/
theorem range_unlisted {α : Type} (d : α) (t : Tab α) (n len : Nat) (h : ∀ x ∈ t, x.1 < n ∨ n + len ≤ x.1) : Tab.range d t n len = List.replicate len d := by
  induction len generalizing n with
  | zero => rfl
  | succ k ih =>
    rw [Tab.range, ih (n + 1) (fun x hx => by have := h x hx; omega), List.replicate_succ]
    congr 1
    clear ih
    induction t with
    | nil => rfl
    | cons y t iht =>
      have := h y (List.mem_cons_self ..)
      rw [Tab.get, if_neg (by omega), iht fun x hx => h x (List.mem_cons_of_mem _ hx)]

end Sys2Proof.Machine
end

