-- ==== Sys2Proof/Laws/State.lean ====
section
/-! SUPPORT. What each update of State, Core and Seq leaves and what it changes: one lemma per field per update, so that no proof
unfolds a record. -/
namespace Sys2Proof.Machine

/-! ## Cores of a state -/

@[simp] theorem core_setCore_same (s : State) (n : CoreId) (c : Core) : (s.setCore n c).core n = c := Tab.get_put_same _ _ _ _

theorem core_setCore_ne (s : State) (n m : CoreId) (c : Core) (h : m ≠ n) : (s.setCore n c).core m = s.core m :=
  Tab.get_put_ne _ _ _ _ _ (fun e => h (BitVec.eq_of_toNat_eq e))

@[simp] theorem core_modCore_same (s : State) (n : CoreId) (g : Core → Core) : (s.modCore n g).core n = g (s.core n) :=
  core_setCore_same _ _ _

theorem core_modCore_ne (s : State) (n m : CoreId) (g : Core → Core) (h : m ≠ n) : (s.modCore n g).core m = s.core m :=
  core_setCore_ne _ _ _ _ h

@[simp] theorem here_modHere (s : State) (g : Core → Core) : (s.modHere g).here = g s.here := core_modCore_same _ _ _

@[simp] theorem here_modSeq (s : State) (g : Seq → Seq) : (s.modSeq g).here = s.here.setSeq s.cur.2 (g s.seq) := core_modCore_same _ _ _

/-! ## Sequencers of a core -/

@[simp] theorem seq_setSeq_same (c : Core) (q : Ctx) (x : Seq) : (c.setSeq q x).seq q = x := by cases q <;> rfl

theorem seq_setSeq_ne (c : Core) (q r : Ctx) (x : Seq) (h : r ≠ q) : (c.setSeq q x).seq r = c.seq r := by
  cases q <;> cases r <;> first | rfl | exact absurd rfl h

@[simp] theorem setSeq_setSeq (c : Core) (q : Ctx) (x y : Seq) : (c.setSeq q x).setSeq q y = c.setSeq q y := by cases q <;> rfl

@[simp] theorem setSeq_self (c : Core) (q : Ctx) : c.setSeq q (c.seq q) = c := by cases q <;> rfl

@[simp] theorem seq_modSeq (s : State) (g : Seq → Seq) : (s.modSeq g).seq = g s.seq := by
  show ((s.modSeq g).here).seq s.cur.2 = g s.seq
  rw [here_modSeq, seq_setSeq_same]

@[simp] theorem setSeq_supK (c : Core) (q : Ctx) (x : Seq) : (c.setSeq q x).supK = c.supK := by cases q <;> rfl
@[simp] theorem setSeq_supF (c : Core) (q : Ctx) (x : Seq) : (c.setSeq q x).supF = c.supF := by cases q <;> rfl
@[simp] theorem setSeq_mimage (c : Core) (q : Ctx) (x : Seq) : (c.setSeq q x).mimage = c.mimage := by cases q <;> rfl
@[simp] theorem setSeq_mstore (c : Core) (q : Ctx) (x : Seq) : (c.setSeq q x).mstore = c.mstore := by cases q <;> rfl
@[simp] theorem setSeq_q (c : Core) (q : Ctx) (x : Seq) : (c.setSeq q x).q = c.q := by cases q <;> rfl
@[simp] theorem setSeq_iq (c : Core) (q : Ctx) (x : Seq) : (c.setSeq q x).iq = c.iq := by cases q <;> rfl
@[simp] theorem setSeq_oq (c : Core) (q : Ctx) (x : Seq) : (c.setSeq q x).oq = c.oq := by cases q <;> rfl
@[simp] theorem setSeq_tk (c : Core) (q : Ctx) (x : Seq) : (c.setSeq q x).tk = c.tk := by cases q <;> rfl
@[simp] theorem setSeq_fwd (c : Core) (q : Ctx) (x : Seq) : (c.setSeq q x).fwd = c.fwd := by cases q <;> rfl
@[simp] theorem setSeq_storeSeq (c : Core) (q : Ctx) (x : Seq) : (c.setSeq q x).storeSeq = c.storeSeq := by cases q <;> rfl
@[simp] theorem setSeq_xstK (c : Core) (q : Ctx) (x : Seq) : (c.setSeq q x).xstK = c.xstK := by cases q <;> rfl
@[simp] theorem setSeq_kWait (c : Core) (q : Ctx) (x : Seq) : (c.setSeq q x).kWait = c.kWait := by cases q <;> rfl
@[simp] theorem setSeq_divTill (c : Core) (q : Ctx) (x : Seq) : (c.setSeq q x).divTill = c.divTill := by cases q <;> rfl
@[simp] theorem setSeq_group (c : Core) (q : Ctx) (x : Seq) : (c.setSeq q x).group = c.group := by cases q <;> rfl
@[simp] theorem setSeq_amos (c : Core) (q : Ctx) (x : Seq) : (c.setSeq q x).amos = c.amos := by cases q <;> rfl
@[simp] theorem setSeq_vec (c : Core) (q : Ctx) (x : Seq) : (c.setSeq q x).vec = c.vec := by cases q <;> rfl
@[simp] theorem setSeq_mat (c : Core) (q : Ctx) (x : Seq) : (c.setSeq q x).mat = c.mat := by cases q <;> rfl
@[simp] theorem setSeq_cposts (c : Core) (q : Ctx) (x : Seq) : (c.setSeq q x).cposts = c.cposts := by cases q <;> rfl
@[simp] theorem setSeq_tl (c : Core) (q : Ctx) (x : Seq) : (c.setSeq q x).tl = c.tl := by cases q <;> rfl
@[simp] theorem setSeq_ts (c : Core) (q : Ctx) (x : Seq) : (c.setSeq q x).ts = c.ts := by cases q <;> rfl
@[simp] theorem setSeq_ta (c : Core) (q : Ctx) (x : Seq) : (c.setSeq q x).ta = c.ta := by cases q <;> rfl
@[simp] theorem setSeq_pushes (c : Core) (q : Ctx) (x : Seq) : (c.setSeq q x).pushes = c.pushes := by cases q <;> rfl
@[simp] theorem setSeq_nextId (c : Core) (q : Ctx) (x : Seq) : (c.setSeq q x).nextId = c.nextId := by cases q <;> rfl
@[simp] theorem setSeq_rings (c : Core) (q : Ctx) (x : Seq) : (c.setSeq q x).rings = c.rings := by cases q <;> rfl
@[simp] theorem setSeq_cond (c : Core) (q : Ctx) (x : Seq) : (c.setSeq q x).cond = c.cond := by cases q <;> rfl
@[simp] theorem setSeq_prio (c : Core) (q : Ctx) (x : Seq) : (c.setSeq q x).prio = c.prio := by cases q <;> rfl
@[simp] theorem setSeq_fused (c : Core) (q : Ctx) (x : Seq) : (c.setSeq q x).fused = c.fused := by cases q <;> rfl
@[simp] theorem setSeq_fpri (c : Core) (q : Ctx) (x : Seq) : (c.setSeq q x).fpri = c.fpri := by cases q <;> rfl
@[simp] theorem setSeq_quota (c : Core) (q : Ctx) (x : Seq) : (c.setSeq q x).quota = c.quota := by cases q <;> rfl
@[simp] theorem setSeq_slotAt (c : Core) (q : Ctx) (x : Seq) : (c.setSeq q x).slotAt = c.slotAt := by cases q <;> rfl
@[simp] theorem setSeq_wpt (c : Core) (q : Ctx) (x : Seq) : (c.setSeq q x).wpt = c.wpt := by cases q <;> rfl
@[simp] theorem setSeq_snapctl (c : Core) (q : Ctx) (x : Seq) : (c.setSeq q x).snapctl = c.snapctl := by cases q <;> rfl
@[simp] theorem setSeq_csrPend (c : Core) (q : Ctx) (x : Seq) : (c.setSeq q x).csrPend = c.csrPend := by cases q <;> rfl
@[simp] theorem setSeq_ringPend (c : Core) (q : Ctx) (x : Seq) : (c.setSeq q x).ringPend = c.ringPend := by cases q <;> rfl
@[simp] theorem setSeq_slice (c : Core) (q : Ctx) (x : Seq) : (c.setSeq q x).slice = c.slice := by cases q <;> rfl
@[simp] theorem setSeq_recent (c : Core) (q : Ctx) (x : Seq) : (c.setSeq q x).recent = c.recent := by cases q <;> rfl
@[simp] theorem setSeq_code (c : Core) (q : Ctx) (x : Seq) : (c.setSeq q x).code = c.code := by cases q <;> rfl
@[simp] theorem setSeq_unit (c : Core) (q : Ctx) (x : Seq) : (c.setSeq q x).unit = c.unit := by cases q <;> rfl
@[simp] theorem setSeq_prevJob (c : Core) (q : Ctx) (x : Seq) : (c.setSeq q x).prevJob = c.prevJob := by cases q <;> rfl
@[simp] theorem setSeq_prevTask (c : Core) (q : Ctx) (x : Seq) : (c.setSeq q x).prevTask = c.prevTask := by cases q <;> rfl
@[simp] theorem setSeq_cutting (c : Core) (q : Ctx) (x : Seq) : (c.setSeq q x).cutting = c.cutting := by cases q <;> rfl
@[simp] theorem setSeq_cutSeq (c : Core) (q : Ctx) (x : Seq) : (c.setSeq q x).cutSeq = c.cutSeq := by cases q <;> rfl
@[simp] theorem setSeq_fatal (c : Core) (q : Ctx) (x : Seq) : (c.setSeq q x).fatal = c.fatal := by cases q <;> rfl
@[simp] theorem setSeq_frozen (c : Core) (q : Ctx) (x : Seq) : (c.setSeq q x).frozen = c.frozen := by cases q <;> rfl
@[simp] theorem setSeq_quireHeld (c : Core) (q : Ctx) (x : Seq) : (c.setSeq q x).quireHeld = c.quireHeld := by cases q <;> rfl
@[simp] theorem setSeq_wake (c : Core) (q : Ctx) (x : Seq) : (c.setSeq q x).wake = c.wake := by cases q <;> rfl
@[simp] theorem setSeq_late (c : Core) (q : Ctx) (x : Seq) : (c.setSeq q x).late = c.late := by cases q <;> rfl
@[simp] theorem setSeq_starting (c : Core) (q : Ctx) (x : Seq) : (c.setSeq q x).starting = c.starting := by cases q <;> rfl
@[simp] theorem setSeq_newJob (c : Core) (q : Ctx) (x : Seq) : (c.setSeq q x).newJob = c.newJob := by cases q <;> rfl
@[simp] theorem setSeq_debugHalt (c : Core) (q : Ctx) (x : Seq) : (c.setSeq q x).debugHalt = c.debugHalt := by cases q <;> rfl
@[simp] theorem setSeq_lastRetire (c : Core) (q : Ctx) (x : Seq) : (c.setSeq q x).lastRetire = c.lastRetire := by cases q <;> rfl
@[simp] theorem setSeq_watch (c : Core) (q : Ctx) (x : Seq) : (c.setSeq q x).watch = c.watch := by cases q <;> rfl
@[simp] theorem setSeq_snapAt (c : Core) (q : Ctx) (x : Seq) : (c.setSeq q x).snapAt = c.snapAt := by cases q <;> rfl
@[simp] theorem setSeq_snap (c : Core) (q : Ctx) (x : Seq) : (c.setSeq q x).snap = c.snap := by cases q <;> rfl
@[simp] theorem setSeq_att (c : Core) (q : Ctx) (x : Seq) : (c.setSeq q x).att = c.att := by cases q <;> rfl
@[simp] theorem setSeq_staging (c : Core) (q : Ctx) (x : Seq) : (c.setSeq q x).staging = c.staging := by cases q <;> rfl
@[simp] theorem setSeq_coll (c : Core) (q : Ctx) (x : Seq) : (c.setSeq q x).coll = c.coll := by cases q <;> rfl
@[simp] theorem setSeq_planes (c : Core) (q : Ctx) (x : Seq) : (c.setSeq q x).planes = c.planes := by cases q <;> rfl
@[simp] theorem setSeq_fActive (c : Core) (q : Ctx) (x : Seq) : (c.setSeq q x).fActive = c.fActive := by cases q <;> rfl
@[simp] theorem setSeq_events (c : Core) (q : Ctx) (x : Seq) : (c.setSeq q x).events = c.events := by cases q <;> rfl
@[simp] theorem setSeq_evDrops (c : Core) (q : Ctx) (x : Seq) : (c.setSeq q x).evDrops = c.evDrops := by cases q <;> rfl

/-! ## Trap registers of a core -/

@[simp] theorem sup_setSup_same (c : Core) (q : Ctx) (x : Sup) : (c.setSup q x).sup q = x := by cases q <;> rfl
@[simp] theorem seq_setSup (c : Core) (q r : Ctx) (x : Sup) : (c.setSup q x).seq r = c.seq r := by cases q <;> cases r <;> rfl
@[simp] theorem sup_setSeq (c : Core) (q r : Ctx) (x : Seq) : (c.setSeq q x).sup r = c.sup r := by cases q <;> cases r <;> rfl

/-! ## The tables of the state under updates of cores -/

@[simp] theorem setCore_ccount (s : State) (n : CoreId) (c : Core) : (s.setCore n c).ccount = s.ccount := rfl
@[simp] theorem setCore_dies (s : State) (n : CoreId) (c : Core) : (s.setCore n c).dies = s.dies := rfl
@[simp] theorem setCore_dev (s : State) (n : CoreId) (c : Core) : (s.setCore n c).dev = s.dev := rfl
@[simp] theorem setCore_mem (s : State) (n : CoreId) (c : Core) : (s.setCore n c).mem = s.mem := rfl
@[simp] theorem setCore_poison (s : State) (n : CoreId) (c : Core) : (s.setCore n c).poison = s.poison := rfl
@[simp] theorem setCore_latent (s : State) (n : CoreId) (c : Core) : (s.setCore n c).latent = s.latent := rfl
@[simp] theorem setCore_corrected (s : State) (n : CoreId) (c : Core) : (s.setCore n c).corrected = s.corrected := rfl
@[simp] theorem setCore_sites (s : State) (n : CoreId) (c : Core) : (s.setCore n c).sites = s.sites := rfl
@[simp] theorem setCore_jobs (s : State) (n : CoreId) (c : Core) : (s.setCore n c).jobs = s.jobs := rfl
@[simp] theorem setCore_xlate (s : State) (n : CoreId) (c : Core) : (s.setCore n c).xlate = s.xlate := rfl
@[simp] theorem setCore_tcache (s : State) (n : CoreId) (c : Core) : (s.setCore n c).tcache = s.tcache := rfl
@[simp] theorem setCore_keys (s : State) (n : CoreId) (c : Core) : (s.setCore n c).keys = s.keys := rfl
@[simp] theorem setCore_wantKeys (s : State) (n : CoreId) (c : Core) : (s.setCore n c).wantKeys = s.wantKeys := rfl
@[simp] theorem setCore_pool (s : State) (n : CoreId) (c : Core) : (s.setCore n c).pool = s.pool := rfl
@[simp] theorem setCore_parked (s : State) (n : CoreId) (c : Core) : (s.setCore n c).parked = s.parked := rfl
@[simp] theorem setCore_subs (s : State) (n : CoreId) (c : Core) : (s.setCore n c).subs = s.subs := rfl
@[simp] theorem setCore_streams (s : State) (n : CoreId) (c : Core) : (s.setCore n c).streams = s.streams := rfl
@[simp] theorem setCore_landed (s : State) (n : CoreId) (c : Core) : (s.setCore n c).landed = s.landed := rfl
@[simp] theorem setCore_switches (s : State) (n : CoreId) (c : Core) : (s.setCore n c).switches = s.switches := rfl
@[simp] theorem setCore_homeAt (s : State) (n : CoreId) (c : Core) : (s.setCore n c).homeAt = s.homeAt := rfl
@[simp] theorem setCore_far (s : State) (n : CoreId) (c : Core) : (s.setCore n c).far = s.far := rfl
@[simp] theorem setCore_amoq (s : State) (n : CoreId) (c : Core) : (s.setCore n c).amoq = s.amoq := rfl
@[simp] theorem setCore_sealed (s : State) (n : CoreId) (c : Core) : (s.setCore n c).sealed = s.sealed := rfl
@[simp] theorem setCore_orphans (s : State) (n : CoreId) (c : Core) : (s.setCore n c).orphans = s.orphans := rfl
@[simp] theorem setCore_launchSeq (s : State) (n : CoreId) (c : Core) : (s.setCore n c).launchSeq = s.launchSeq := rfl
@[simp] theorem setCore_agenda (s : State) (n : CoreId) (c : Core) : (s.setCore n c).agenda = s.agenda := rfl
@[simp] theorem setCore_cur (s : State) (n : CoreId) (c : Core) : (s.setCore n c).cur = s.cur := rfl
@[simp] theorem setCore_word (s : State) (n : CoreId) (c : Core) : (s.setCore n c).word = s.word := rfl
@[simp] theorem setCore_issued (s : State) (n : CoreId) (c : Core) : (s.setCore n c).issued = s.issued := rfl
@[simp] theorem setCore_reader (s : State) (n : CoreId) (c : Core) : (s.setCore n c).reader = s.reader := rfl
@[simp] theorem setCore_free (s : State) (n : CoreId) (c : Core) : (s.setCore n c).free = s.free := rfl
@[simp] theorem modCore_ccount (s : State) (n : CoreId) (g : Core → Core) : (s.modCore n g).ccount = s.ccount := rfl
@[simp] theorem modCore_dies (s : State) (n : CoreId) (g : Core → Core) : (s.modCore n g).dies = s.dies := rfl
@[simp] theorem modCore_dev (s : State) (n : CoreId) (g : Core → Core) : (s.modCore n g).dev = s.dev := rfl
@[simp] theorem modCore_mem (s : State) (n : CoreId) (g : Core → Core) : (s.modCore n g).mem = s.mem := rfl
@[simp] theorem modCore_poison (s : State) (n : CoreId) (g : Core → Core) : (s.modCore n g).poison = s.poison := rfl
@[simp] theorem modCore_latent (s : State) (n : CoreId) (g : Core → Core) : (s.modCore n g).latent = s.latent := rfl
@[simp] theorem modCore_corrected (s : State) (n : CoreId) (g : Core → Core) : (s.modCore n g).corrected = s.corrected := rfl
@[simp] theorem modCore_sites (s : State) (n : CoreId) (g : Core → Core) : (s.modCore n g).sites = s.sites := rfl
@[simp] theorem modCore_jobs (s : State) (n : CoreId) (g : Core → Core) : (s.modCore n g).jobs = s.jobs := rfl
@[simp] theorem modCore_xlate (s : State) (n : CoreId) (g : Core → Core) : (s.modCore n g).xlate = s.xlate := rfl
@[simp] theorem modCore_tcache (s : State) (n : CoreId) (g : Core → Core) : (s.modCore n g).tcache = s.tcache := rfl
@[simp] theorem modCore_keys (s : State) (n : CoreId) (g : Core → Core) : (s.modCore n g).keys = s.keys := rfl
@[simp] theorem modCore_wantKeys (s : State) (n : CoreId) (g : Core → Core) : (s.modCore n g).wantKeys = s.wantKeys := rfl
@[simp] theorem modCore_pool (s : State) (n : CoreId) (g : Core → Core) : (s.modCore n g).pool = s.pool := rfl
@[simp] theorem modCore_parked (s : State) (n : CoreId) (g : Core → Core) : (s.modCore n g).parked = s.parked := rfl
@[simp] theorem modCore_subs (s : State) (n : CoreId) (g : Core → Core) : (s.modCore n g).subs = s.subs := rfl
@[simp] theorem modCore_streams (s : State) (n : CoreId) (g : Core → Core) : (s.modCore n g).streams = s.streams := rfl
@[simp] theorem modCore_landed (s : State) (n : CoreId) (g : Core → Core) : (s.modCore n g).landed = s.landed := rfl
@[simp] theorem modCore_switches (s : State) (n : CoreId) (g : Core → Core) : (s.modCore n g).switches = s.switches := rfl
@[simp] theorem modCore_homeAt (s : State) (n : CoreId) (g : Core → Core) : (s.modCore n g).homeAt = s.homeAt := rfl
@[simp] theorem modCore_far (s : State) (n : CoreId) (g : Core → Core) : (s.modCore n g).far = s.far := rfl
@[simp] theorem modCore_amoq (s : State) (n : CoreId) (g : Core → Core) : (s.modCore n g).amoq = s.amoq := rfl
@[simp] theorem modCore_sealed (s : State) (n : CoreId) (g : Core → Core) : (s.modCore n g).sealed = s.sealed := rfl
@[simp] theorem modCore_orphans (s : State) (n : CoreId) (g : Core → Core) : (s.modCore n g).orphans = s.orphans := rfl
@[simp] theorem modCore_launchSeq (s : State) (n : CoreId) (g : Core → Core) : (s.modCore n g).launchSeq = s.launchSeq := rfl
@[simp] theorem modCore_agenda (s : State) (n : CoreId) (g : Core → Core) : (s.modCore n g).agenda = s.agenda := rfl
@[simp] theorem modCore_cur (s : State) (n : CoreId) (g : Core → Core) : (s.modCore n g).cur = s.cur := rfl
@[simp] theorem modCore_word (s : State) (n : CoreId) (g : Core → Core) : (s.modCore n g).word = s.word := rfl
@[simp] theorem modCore_issued (s : State) (n : CoreId) (g : Core → Core) : (s.modCore n g).issued = s.issued := rfl
@[simp] theorem modCore_reader (s : State) (n : CoreId) (g : Core → Core) : (s.modCore n g).reader = s.reader := rfl
@[simp] theorem modCore_free (s : State) (n : CoreId) (g : Core → Core) : (s.modCore n g).free = s.free := rfl
@[simp] theorem modHere_ccount (s : State) (g : Core → Core) : (s.modHere g).ccount = s.ccount := rfl
@[simp] theorem modHere_dies (s : State) (g : Core → Core) : (s.modHere g).dies = s.dies := rfl
@[simp] theorem modHere_dev (s : State) (g : Core → Core) : (s.modHere g).dev = s.dev := rfl
@[simp] theorem modHere_mem (s : State) (g : Core → Core) : (s.modHere g).mem = s.mem := rfl
@[simp] theorem modHere_poison (s : State) (g : Core → Core) : (s.modHere g).poison = s.poison := rfl
@[simp] theorem modHere_latent (s : State) (g : Core → Core) : (s.modHere g).latent = s.latent := rfl
@[simp] theorem modHere_corrected (s : State) (g : Core → Core) : (s.modHere g).corrected = s.corrected := rfl
@[simp] theorem modHere_sites (s : State) (g : Core → Core) : (s.modHere g).sites = s.sites := rfl
@[simp] theorem modHere_jobs (s : State) (g : Core → Core) : (s.modHere g).jobs = s.jobs := rfl
@[simp] theorem modHere_xlate (s : State) (g : Core → Core) : (s.modHere g).xlate = s.xlate := rfl
@[simp] theorem modHere_tcache (s : State) (g : Core → Core) : (s.modHere g).tcache = s.tcache := rfl
@[simp] theorem modHere_keys (s : State) (g : Core → Core) : (s.modHere g).keys = s.keys := rfl
@[simp] theorem modHere_wantKeys (s : State) (g : Core → Core) : (s.modHere g).wantKeys = s.wantKeys := rfl
@[simp] theorem modHere_pool (s : State) (g : Core → Core) : (s.modHere g).pool = s.pool := rfl
@[simp] theorem modHere_parked (s : State) (g : Core → Core) : (s.modHere g).parked = s.parked := rfl
@[simp] theorem modHere_subs (s : State) (g : Core → Core) : (s.modHere g).subs = s.subs := rfl
@[simp] theorem modHere_streams (s : State) (g : Core → Core) : (s.modHere g).streams = s.streams := rfl
@[simp] theorem modHere_landed (s : State) (g : Core → Core) : (s.modHere g).landed = s.landed := rfl
@[simp] theorem modHere_switches (s : State) (g : Core → Core) : (s.modHere g).switches = s.switches := rfl
@[simp] theorem modHere_homeAt (s : State) (g : Core → Core) : (s.modHere g).homeAt = s.homeAt := rfl
@[simp] theorem modHere_far (s : State) (g : Core → Core) : (s.modHere g).far = s.far := rfl
@[simp] theorem modHere_amoq (s : State) (g : Core → Core) : (s.modHere g).amoq = s.amoq := rfl
@[simp] theorem modHere_sealed (s : State) (g : Core → Core) : (s.modHere g).sealed = s.sealed := rfl
@[simp] theorem modHere_orphans (s : State) (g : Core → Core) : (s.modHere g).orphans = s.orphans := rfl
@[simp] theorem modHere_launchSeq (s : State) (g : Core → Core) : (s.modHere g).launchSeq = s.launchSeq := rfl
@[simp] theorem modHere_agenda (s : State) (g : Core → Core) : (s.modHere g).agenda = s.agenda := rfl
@[simp] theorem modHere_cur (s : State) (g : Core → Core) : (s.modHere g).cur = s.cur := rfl
@[simp] theorem modHere_word (s : State) (g : Core → Core) : (s.modHere g).word = s.word := rfl
@[simp] theorem modHere_issued (s : State) (g : Core → Core) : (s.modHere g).issued = s.issued := rfl
@[simp] theorem modHere_reader (s : State) (g : Core → Core) : (s.modHere g).reader = s.reader := rfl
@[simp] theorem modHere_free (s : State) (g : Core → Core) : (s.modHere g).free = s.free := rfl
@[simp] theorem modSeq_ccount (s : State) (g : Seq → Seq) : (s.modSeq g).ccount = s.ccount := rfl
@[simp] theorem modSeq_dies (s : State) (g : Seq → Seq) : (s.modSeq g).dies = s.dies := rfl
@[simp] theorem modSeq_dev (s : State) (g : Seq → Seq) : (s.modSeq g).dev = s.dev := rfl
@[simp] theorem modSeq_mem (s : State) (g : Seq → Seq) : (s.modSeq g).mem = s.mem := rfl
@[simp] theorem modSeq_poison (s : State) (g : Seq → Seq) : (s.modSeq g).poison = s.poison := rfl
@[simp] theorem modSeq_latent (s : State) (g : Seq → Seq) : (s.modSeq g).latent = s.latent := rfl
@[simp] theorem modSeq_corrected (s : State) (g : Seq → Seq) : (s.modSeq g).corrected = s.corrected := rfl
@[simp] theorem modSeq_sites (s : State) (g : Seq → Seq) : (s.modSeq g).sites = s.sites := rfl
@[simp] theorem modSeq_jobs (s : State) (g : Seq → Seq) : (s.modSeq g).jobs = s.jobs := rfl
@[simp] theorem modSeq_xlate (s : State) (g : Seq → Seq) : (s.modSeq g).xlate = s.xlate := rfl
@[simp] theorem modSeq_tcache (s : State) (g : Seq → Seq) : (s.modSeq g).tcache = s.tcache := rfl
@[simp] theorem modSeq_keys (s : State) (g : Seq → Seq) : (s.modSeq g).keys = s.keys := rfl
@[simp] theorem modSeq_wantKeys (s : State) (g : Seq → Seq) : (s.modSeq g).wantKeys = s.wantKeys := rfl
@[simp] theorem modSeq_pool (s : State) (g : Seq → Seq) : (s.modSeq g).pool = s.pool := rfl
@[simp] theorem modSeq_parked (s : State) (g : Seq → Seq) : (s.modSeq g).parked = s.parked := rfl
@[simp] theorem modSeq_subs (s : State) (g : Seq → Seq) : (s.modSeq g).subs = s.subs := rfl
@[simp] theorem modSeq_streams (s : State) (g : Seq → Seq) : (s.modSeq g).streams = s.streams := rfl
@[simp] theorem modSeq_landed (s : State) (g : Seq → Seq) : (s.modSeq g).landed = s.landed := rfl
@[simp] theorem modSeq_switches (s : State) (g : Seq → Seq) : (s.modSeq g).switches = s.switches := rfl
@[simp] theorem modSeq_homeAt (s : State) (g : Seq → Seq) : (s.modSeq g).homeAt = s.homeAt := rfl
@[simp] theorem modSeq_far (s : State) (g : Seq → Seq) : (s.modSeq g).far = s.far := rfl
@[simp] theorem modSeq_amoq (s : State) (g : Seq → Seq) : (s.modSeq g).amoq = s.amoq := rfl
@[simp] theorem modSeq_sealed (s : State) (g : Seq → Seq) : (s.modSeq g).sealed = s.sealed := rfl
@[simp] theorem modSeq_orphans (s : State) (g : Seq → Seq) : (s.modSeq g).orphans = s.orphans := rfl
@[simp] theorem modSeq_launchSeq (s : State) (g : Seq → Seq) : (s.modSeq g).launchSeq = s.launchSeq := rfl
@[simp] theorem modSeq_agenda (s : State) (g : Seq → Seq) : (s.modSeq g).agenda = s.agenda := rfl
@[simp] theorem modSeq_cur (s : State) (g : Seq → Seq) : (s.modSeq g).cur = s.cur := rfl
@[simp] theorem modSeq_word (s : State) (g : Seq → Seq) : (s.modSeq g).word = s.word := rfl
@[simp] theorem modSeq_issued (s : State) (g : Seq → Seq) : (s.modSeq g).issued = s.issued := rfl
@[simp] theorem modSeq_reader (s : State) (g : Seq → Seq) : (s.modSeq g).reader = s.reader := rfl
@[simp] theorem modSeq_free (s : State) (g : Seq → Seq) : (s.modSeq g).free = s.free := rfl
@[simp] theorem setReg_ccount (s : State) (r : BitVec 5) (v : Word) (lat : Nat) : (s.setReg r v lat).ccount = s.ccount := rfl
@[simp] theorem setReg_dies (s : State) (r : BitVec 5) (v : Word) (lat : Nat) : (s.setReg r v lat).dies = s.dies := rfl
@[simp] theorem setReg_dev (s : State) (r : BitVec 5) (v : Word) (lat : Nat) : (s.setReg r v lat).dev = s.dev := rfl
@[simp] theorem setReg_mem (s : State) (r : BitVec 5) (v : Word) (lat : Nat) : (s.setReg r v lat).mem = s.mem := rfl
@[simp] theorem setReg_poison (s : State) (r : BitVec 5) (v : Word) (lat : Nat) : (s.setReg r v lat).poison = s.poison := rfl
@[simp] theorem setReg_latent (s : State) (r : BitVec 5) (v : Word) (lat : Nat) : (s.setReg r v lat).latent = s.latent := rfl
@[simp] theorem setReg_corrected (s : State) (r : BitVec 5) (v : Word) (lat : Nat) : (s.setReg r v lat).corrected = s.corrected := rfl
@[simp] theorem setReg_sites (s : State) (r : BitVec 5) (v : Word) (lat : Nat) : (s.setReg r v lat).sites = s.sites := rfl
@[simp] theorem setReg_jobs (s : State) (r : BitVec 5) (v : Word) (lat : Nat) : (s.setReg r v lat).jobs = s.jobs := rfl
@[simp] theorem setReg_xlate (s : State) (r : BitVec 5) (v : Word) (lat : Nat) : (s.setReg r v lat).xlate = s.xlate := rfl
@[simp] theorem setReg_tcache (s : State) (r : BitVec 5) (v : Word) (lat : Nat) : (s.setReg r v lat).tcache = s.tcache := rfl
@[simp] theorem setReg_keys (s : State) (r : BitVec 5) (v : Word) (lat : Nat) : (s.setReg r v lat).keys = s.keys := rfl
@[simp] theorem setReg_wantKeys (s : State) (r : BitVec 5) (v : Word) (lat : Nat) : (s.setReg r v lat).wantKeys = s.wantKeys := rfl
@[simp] theorem setReg_pool (s : State) (r : BitVec 5) (v : Word) (lat : Nat) : (s.setReg r v lat).pool = s.pool := rfl
@[simp] theorem setReg_parked (s : State) (r : BitVec 5) (v : Word) (lat : Nat) : (s.setReg r v lat).parked = s.parked := rfl
@[simp] theorem setReg_subs (s : State) (r : BitVec 5) (v : Word) (lat : Nat) : (s.setReg r v lat).subs = s.subs := rfl
@[simp] theorem setReg_streams (s : State) (r : BitVec 5) (v : Word) (lat : Nat) : (s.setReg r v lat).streams = s.streams := rfl
@[simp] theorem setReg_landed (s : State) (r : BitVec 5) (v : Word) (lat : Nat) : (s.setReg r v lat).landed = s.landed := rfl
@[simp] theorem setReg_switches (s : State) (r : BitVec 5) (v : Word) (lat : Nat) : (s.setReg r v lat).switches = s.switches := rfl
@[simp] theorem setReg_homeAt (s : State) (r : BitVec 5) (v : Word) (lat : Nat) : (s.setReg r v lat).homeAt = s.homeAt := rfl
@[simp] theorem setReg_far (s : State) (r : BitVec 5) (v : Word) (lat : Nat) : (s.setReg r v lat).far = s.far := rfl
@[simp] theorem setReg_amoq (s : State) (r : BitVec 5) (v : Word) (lat : Nat) : (s.setReg r v lat).amoq = s.amoq := rfl
@[simp] theorem setReg_sealed (s : State) (r : BitVec 5) (v : Word) (lat : Nat) : (s.setReg r v lat).sealed = s.sealed := rfl
@[simp] theorem setReg_orphans (s : State) (r : BitVec 5) (v : Word) (lat : Nat) : (s.setReg r v lat).orphans = s.orphans := rfl
@[simp] theorem setReg_launchSeq (s : State) (r : BitVec 5) (v : Word) (lat : Nat) : (s.setReg r v lat).launchSeq = s.launchSeq := rfl
@[simp] theorem setReg_agenda (s : State) (r : BitVec 5) (v : Word) (lat : Nat) : (s.setReg r v lat).agenda = s.agenda := rfl
@[simp] theorem setReg_cur (s : State) (r : BitVec 5) (v : Word) (lat : Nat) : (s.setReg r v lat).cur = s.cur := rfl
@[simp] theorem setReg_word (s : State) (r : BitVec 5) (v : Word) (lat : Nat) : (s.setReg r v lat).word = s.word := rfl
@[simp] theorem setReg_issued (s : State) (r : BitVec 5) (v : Word) (lat : Nat) : (s.setReg r v lat).issued = s.issued := rfl
@[simp] theorem setReg_reader (s : State) (r : BitVec 5) (v : Word) (lat : Nat) : (s.setReg r v lat).reader = s.reader := rfl
@[simp] theorem setReg_free (s : State) (r : BitVec 5) (v : Word) (lat : Nat) : (s.setReg r v lat).free = s.free := rfl
@[simp] theorem mark_ccount (s : State) : (s.mark).ccount = s.ccount := rfl
@[simp] theorem mark_dies (s : State) : (s.mark).dies = s.dies := rfl
@[simp] theorem mark_dev (s : State) : (s.mark).dev = s.dev := rfl
@[simp] theorem mark_mem (s : State) : (s.mark).mem = s.mem := rfl
@[simp] theorem mark_poison (s : State) : (s.mark).poison = s.poison := rfl
@[simp] theorem mark_latent (s : State) : (s.mark).latent = s.latent := rfl
@[simp] theorem mark_corrected (s : State) : (s.mark).corrected = s.corrected := rfl
@[simp] theorem mark_sites (s : State) : (s.mark).sites = s.sites := rfl
@[simp] theorem mark_jobs (s : State) : (s.mark).jobs = s.jobs := rfl
@[simp] theorem mark_xlate (s : State) : (s.mark).xlate = s.xlate := rfl
@[simp] theorem mark_tcache (s : State) : (s.mark).tcache = s.tcache := rfl
@[simp] theorem mark_keys (s : State) : (s.mark).keys = s.keys := rfl
@[simp] theorem mark_wantKeys (s : State) : (s.mark).wantKeys = s.wantKeys := rfl
@[simp] theorem mark_pool (s : State) : (s.mark).pool = s.pool := rfl
@[simp] theorem mark_parked (s : State) : (s.mark).parked = s.parked := rfl
@[simp] theorem mark_subs (s : State) : (s.mark).subs = s.subs := rfl
@[simp] theorem mark_streams (s : State) : (s.mark).streams = s.streams := rfl
@[simp] theorem mark_landed (s : State) : (s.mark).landed = s.landed := rfl
@[simp] theorem mark_switches (s : State) : (s.mark).switches = s.switches := rfl
@[simp] theorem mark_homeAt (s : State) : (s.mark).homeAt = s.homeAt := rfl
@[simp] theorem mark_far (s : State) : (s.mark).far = s.far := rfl
@[simp] theorem mark_amoq (s : State) : (s.mark).amoq = s.amoq := rfl
@[simp] theorem mark_sealed (s : State) : (s.mark).sealed = s.sealed := rfl
@[simp] theorem mark_orphans (s : State) : (s.mark).orphans = s.orphans := rfl
@[simp] theorem mark_launchSeq (s : State) : (s.mark).launchSeq = s.launchSeq := rfl
@[simp] theorem mark_agenda (s : State) : (s.mark).agenda = s.agenda := rfl
@[simp] theorem mark_cur (s : State) : (s.mark).cur = s.cur := rfl
@[simp] theorem mark_word (s : State) : (s.mark).word = s.word := rfl
@[simp] theorem mark_reader (s : State) : (s.mark).reader = s.reader := rfl
@[simp] theorem mark_free (s : State) : (s.mark).free = s.free := rfl
@[simp] theorem advance_ccount (s : State) : (s.advance).ccount = s.ccount := rfl
@[simp] theorem advance_dies (s : State) : (s.advance).dies = s.dies := rfl
@[simp] theorem advance_dev (s : State) : (s.advance).dev = s.dev := rfl
@[simp] theorem advance_mem (s : State) : (s.advance).mem = s.mem := rfl
@[simp] theorem advance_poison (s : State) : (s.advance).poison = s.poison := rfl
@[simp] theorem advance_latent (s : State) : (s.advance).latent = s.latent := rfl
@[simp] theorem advance_corrected (s : State) : (s.advance).corrected = s.corrected := rfl
@[simp] theorem advance_sites (s : State) : (s.advance).sites = s.sites := rfl
@[simp] theorem advance_jobs (s : State) : (s.advance).jobs = s.jobs := rfl
@[simp] theorem advance_xlate (s : State) : (s.advance).xlate = s.xlate := rfl
@[simp] theorem advance_tcache (s : State) : (s.advance).tcache = s.tcache := rfl
@[simp] theorem advance_keys (s : State) : (s.advance).keys = s.keys := rfl
@[simp] theorem advance_wantKeys (s : State) : (s.advance).wantKeys = s.wantKeys := rfl
@[simp] theorem advance_pool (s : State) : (s.advance).pool = s.pool := rfl
@[simp] theorem advance_parked (s : State) : (s.advance).parked = s.parked := rfl
@[simp] theorem advance_subs (s : State) : (s.advance).subs = s.subs := rfl
@[simp] theorem advance_streams (s : State) : (s.advance).streams = s.streams := rfl
@[simp] theorem advance_landed (s : State) : (s.advance).landed = s.landed := rfl
@[simp] theorem advance_switches (s : State) : (s.advance).switches = s.switches := rfl
@[simp] theorem advance_homeAt (s : State) : (s.advance).homeAt = s.homeAt := rfl
@[simp] theorem advance_far (s : State) : (s.advance).far = s.far := rfl
@[simp] theorem advance_amoq (s : State) : (s.advance).amoq = s.amoq := rfl
@[simp] theorem advance_sealed (s : State) : (s.advance).sealed = s.sealed := rfl
@[simp] theorem advance_orphans (s : State) : (s.advance).orphans = s.orphans := rfl
@[simp] theorem advance_launchSeq (s : State) : (s.advance).launchSeq = s.launchSeq := rfl
@[simp] theorem advance_agenda (s : State) : (s.advance).agenda = s.agenda := rfl
@[simp] theorem advance_cur (s : State) : (s.advance).cur = s.cur := rfl
@[simp] theorem advance_word (s : State) : (s.advance).word = s.word := rfl
@[simp] theorem advance_reader (s : State) : (s.advance).reader = s.reader := rfl
@[simp] theorem advance_free (s : State) : (s.advance).free = s.free := rfl
@[simp] theorem transfer_ccount (s : State) (x : Word) : (s.transfer x).ccount = s.ccount := rfl
@[simp] theorem transfer_dies (s : State) (x : Word) : (s.transfer x).dies = s.dies := rfl
@[simp] theorem transfer_dev (s : State) (x : Word) : (s.transfer x).dev = s.dev := rfl
@[simp] theorem transfer_mem (s : State) (x : Word) : (s.transfer x).mem = s.mem := rfl
@[simp] theorem transfer_poison (s : State) (x : Word) : (s.transfer x).poison = s.poison := rfl
@[simp] theorem transfer_latent (s : State) (x : Word) : (s.transfer x).latent = s.latent := rfl
@[simp] theorem transfer_corrected (s : State) (x : Word) : (s.transfer x).corrected = s.corrected := rfl
@[simp] theorem transfer_sites (s : State) (x : Word) : (s.transfer x).sites = s.sites := rfl
@[simp] theorem transfer_jobs (s : State) (x : Word) : (s.transfer x).jobs = s.jobs := rfl
@[simp] theorem transfer_xlate (s : State) (x : Word) : (s.transfer x).xlate = s.xlate := rfl
@[simp] theorem transfer_tcache (s : State) (x : Word) : (s.transfer x).tcache = s.tcache := rfl
@[simp] theorem transfer_keys (s : State) (x : Word) : (s.transfer x).keys = s.keys := rfl
@[simp] theorem transfer_wantKeys (s : State) (x : Word) : (s.transfer x).wantKeys = s.wantKeys := rfl
@[simp] theorem transfer_pool (s : State) (x : Word) : (s.transfer x).pool = s.pool := rfl
@[simp] theorem transfer_parked (s : State) (x : Word) : (s.transfer x).parked = s.parked := rfl
@[simp] theorem transfer_subs (s : State) (x : Word) : (s.transfer x).subs = s.subs := rfl
@[simp] theorem transfer_streams (s : State) (x : Word) : (s.transfer x).streams = s.streams := rfl
@[simp] theorem transfer_landed (s : State) (x : Word) : (s.transfer x).landed = s.landed := rfl
@[simp] theorem transfer_switches (s : State) (x : Word) : (s.transfer x).switches = s.switches := rfl
@[simp] theorem transfer_homeAt (s : State) (x : Word) : (s.transfer x).homeAt = s.homeAt := rfl
@[simp] theorem transfer_far (s : State) (x : Word) : (s.transfer x).far = s.far := rfl
@[simp] theorem transfer_amoq (s : State) (x : Word) : (s.transfer x).amoq = s.amoq := rfl
@[simp] theorem transfer_sealed (s : State) (x : Word) : (s.transfer x).sealed = s.sealed := rfl
@[simp] theorem transfer_orphans (s : State) (x : Word) : (s.transfer x).orphans = s.orphans := rfl
@[simp] theorem transfer_launchSeq (s : State) (x : Word) : (s.transfer x).launchSeq = s.launchSeq := rfl
@[simp] theorem transfer_agenda (s : State) (x : Word) : (s.transfer x).agenda = s.agenda := rfl
@[simp] theorem transfer_cur (s : State) (x : Word) : (s.transfer x).cur = s.cur := rfl
@[simp] theorem transfer_word (s : State) (x : Word) : (s.transfer x).word = s.word := rfl
@[simp] theorem transfer_reader (s : State) (x : Word) : (s.transfer x).reader = s.reader := rfl
@[simp] theorem transfer_free (s : State) (x : Word) : (s.transfer x).free = s.free := rfl
@[simp] theorem blockTill_ccount (s : State) (c : Nat) : (s.blockTill c).ccount = s.ccount := rfl
@[simp] theorem blockTill_dies (s : State) (c : Nat) : (s.blockTill c).dies = s.dies := rfl
@[simp] theorem blockTill_dev (s : State) (c : Nat) : (s.blockTill c).dev = s.dev := rfl
@[simp] theorem blockTill_mem (s : State) (c : Nat) : (s.blockTill c).mem = s.mem := rfl
@[simp] theorem blockTill_poison (s : State) (c : Nat) : (s.blockTill c).poison = s.poison := rfl
@[simp] theorem blockTill_latent (s : State) (c : Nat) : (s.blockTill c).latent = s.latent := rfl
@[simp] theorem blockTill_corrected (s : State) (c : Nat) : (s.blockTill c).corrected = s.corrected := rfl
@[simp] theorem blockTill_sites (s : State) (c : Nat) : (s.blockTill c).sites = s.sites := rfl
@[simp] theorem blockTill_jobs (s : State) (c : Nat) : (s.blockTill c).jobs = s.jobs := rfl
@[simp] theorem blockTill_xlate (s : State) (c : Nat) : (s.blockTill c).xlate = s.xlate := rfl
@[simp] theorem blockTill_tcache (s : State) (c : Nat) : (s.blockTill c).tcache = s.tcache := rfl
@[simp] theorem blockTill_keys (s : State) (c : Nat) : (s.blockTill c).keys = s.keys := rfl
@[simp] theorem blockTill_wantKeys (s : State) (c : Nat) : (s.blockTill c).wantKeys = s.wantKeys := rfl
@[simp] theorem blockTill_pool (s : State) (c : Nat) : (s.blockTill c).pool = s.pool := rfl
@[simp] theorem blockTill_parked (s : State) (c : Nat) : (s.blockTill c).parked = s.parked := rfl
@[simp] theorem blockTill_subs (s : State) (c : Nat) : (s.blockTill c).subs = s.subs := rfl
@[simp] theorem blockTill_streams (s : State) (c : Nat) : (s.blockTill c).streams = s.streams := rfl
@[simp] theorem blockTill_landed (s : State) (c : Nat) : (s.blockTill c).landed = s.landed := rfl
@[simp] theorem blockTill_switches (s : State) (c : Nat) : (s.blockTill c).switches = s.switches := rfl
@[simp] theorem blockTill_homeAt (s : State) (c : Nat) : (s.blockTill c).homeAt = s.homeAt := rfl
@[simp] theorem blockTill_far (s : State) (c : Nat) : (s.blockTill c).far = s.far := rfl
@[simp] theorem blockTill_amoq (s : State) (c : Nat) : (s.blockTill c).amoq = s.amoq := rfl
@[simp] theorem blockTill_sealed (s : State) (c : Nat) : (s.blockTill c).sealed = s.sealed := rfl
@[simp] theorem blockTill_orphans (s : State) (c : Nat) : (s.blockTill c).orphans = s.orphans := rfl
@[simp] theorem blockTill_launchSeq (s : State) (c : Nat) : (s.blockTill c).launchSeq = s.launchSeq := rfl
@[simp] theorem blockTill_agenda (s : State) (c : Nat) : (s.blockTill c).agenda = s.agenda := rfl
@[simp] theorem blockTill_cur (s : State) (c : Nat) : (s.blockTill c).cur = s.cur := rfl
@[simp] theorem blockTill_word (s : State) (c : Nat) : (s.blockTill c).word = s.word := rfl
@[simp] theorem blockTill_issued (s : State) (c : Nat) : (s.blockTill c).issued = s.issued := rfl
@[simp] theorem blockTill_reader (s : State) (c : Nat) : (s.blockTill c).reader = s.reader := rfl
@[simp] theorem blockTill_free (s : State) (c : Nat) : (s.blockTill c).free = s.free := rfl
@[simp] theorem acquire_ccount (s : State) (c : Cover) : (s.acquire c).ccount = s.ccount := rfl
@[simp] theorem acquire_dies (s : State) (c : Cover) : (s.acquire c).dies = s.dies := rfl
@[simp] theorem acquire_dev (s : State) (c : Cover) : (s.acquire c).dev = s.dev := rfl
@[simp] theorem acquire_mem (s : State) (c : Cover) : (s.acquire c).mem = s.mem := rfl
@[simp] theorem acquire_poison (s : State) (c : Cover) : (s.acquire c).poison = s.poison := rfl
@[simp] theorem acquire_latent (s : State) (c : Cover) : (s.acquire c).latent = s.latent := rfl
@[simp] theorem acquire_corrected (s : State) (c : Cover) : (s.acquire c).corrected = s.corrected := rfl
@[simp] theorem acquire_sites (s : State) (c : Cover) : (s.acquire c).sites = s.sites := rfl
@[simp] theorem acquire_jobs (s : State) (c : Cover) : (s.acquire c).jobs = s.jobs := rfl
@[simp] theorem acquire_xlate (s : State) (c : Cover) : (s.acquire c).xlate = s.xlate := rfl
@[simp] theorem acquire_tcache (s : State) (c : Cover) : (s.acquire c).tcache = s.tcache := rfl
@[simp] theorem acquire_keys (s : State) (c : Cover) : (s.acquire c).keys = s.keys := rfl
@[simp] theorem acquire_wantKeys (s : State) (c : Cover) : (s.acquire c).wantKeys = s.wantKeys := rfl
@[simp] theorem acquire_pool (s : State) (c : Cover) : (s.acquire c).pool = s.pool := rfl
@[simp] theorem acquire_parked (s : State) (c : Cover) : (s.acquire c).parked = s.parked := rfl
@[simp] theorem acquire_subs (s : State) (c : Cover) : (s.acquire c).subs = s.subs := rfl
@[simp] theorem acquire_streams (s : State) (c : Cover) : (s.acquire c).streams = s.streams := rfl
@[simp] theorem acquire_landed (s : State) (c : Cover) : (s.acquire c).landed = s.landed := rfl
@[simp] theorem acquire_switches (s : State) (c : Cover) : (s.acquire c).switches = s.switches := rfl
@[simp] theorem acquire_homeAt (s : State) (c : Cover) : (s.acquire c).homeAt = s.homeAt := rfl
@[simp] theorem acquire_far (s : State) (c : Cover) : (s.acquire c).far = s.far := rfl
@[simp] theorem acquire_amoq (s : State) (c : Cover) : (s.acquire c).amoq = s.amoq := rfl
@[simp] theorem acquire_sealed (s : State) (c : Cover) : (s.acquire c).sealed = s.sealed := rfl
@[simp] theorem acquire_orphans (s : State) (c : Cover) : (s.acquire c).orphans = s.orphans := rfl
@[simp] theorem acquire_launchSeq (s : State) (c : Cover) : (s.acquire c).launchSeq = s.launchSeq := rfl
@[simp] theorem acquire_agenda (s : State) (c : Cover) : (s.acquire c).agenda = s.agenda := rfl
@[simp] theorem acquire_cur (s : State) (c : Cover) : (s.acquire c).cur = s.cur := rfl
@[simp] theorem acquire_word (s : State) (c : Cover) : (s.acquire c).word = s.word := rfl
@[simp] theorem acquire_issued (s : State) (c : Cover) : (s.acquire c).issued = s.issued := rfl
@[simp] theorem acquire_reader (s : State) (c : Cover) : (s.acquire c).reader = s.reader := rfl
@[simp] theorem acquire_free (s : State) (c : Cover) : (s.acquire c).free = s.free := rfl
@[simp] theorem finish_ccount (s : State) (d : BitVec 5) (v : Word) (lat : Nat) : (s.finish d v lat).ccount = s.ccount := rfl
@[simp] theorem finish_dies (s : State) (d : BitVec 5) (v : Word) (lat : Nat) : (s.finish d v lat).dies = s.dies := rfl
@[simp] theorem finish_dev (s : State) (d : BitVec 5) (v : Word) (lat : Nat) : (s.finish d v lat).dev = s.dev := rfl
@[simp] theorem finish_mem (s : State) (d : BitVec 5) (v : Word) (lat : Nat) : (s.finish d v lat).mem = s.mem := rfl
@[simp] theorem finish_poison (s : State) (d : BitVec 5) (v : Word) (lat : Nat) : (s.finish d v lat).poison = s.poison := rfl
@[simp] theorem finish_latent (s : State) (d : BitVec 5) (v : Word) (lat : Nat) : (s.finish d v lat).latent = s.latent := rfl
@[simp] theorem finish_corrected (s : State) (d : BitVec 5) (v : Word) (lat : Nat) : (s.finish d v lat).corrected = s.corrected := rfl
@[simp] theorem finish_sites (s : State) (d : BitVec 5) (v : Word) (lat : Nat) : (s.finish d v lat).sites = s.sites := rfl
@[simp] theorem finish_jobs (s : State) (d : BitVec 5) (v : Word) (lat : Nat) : (s.finish d v lat).jobs = s.jobs := rfl
@[simp] theorem finish_xlate (s : State) (d : BitVec 5) (v : Word) (lat : Nat) : (s.finish d v lat).xlate = s.xlate := rfl
@[simp] theorem finish_tcache (s : State) (d : BitVec 5) (v : Word) (lat : Nat) : (s.finish d v lat).tcache = s.tcache := rfl
@[simp] theorem finish_keys (s : State) (d : BitVec 5) (v : Word) (lat : Nat) : (s.finish d v lat).keys = s.keys := rfl
@[simp] theorem finish_wantKeys (s : State) (d : BitVec 5) (v : Word) (lat : Nat) : (s.finish d v lat).wantKeys = s.wantKeys := rfl
@[simp] theorem finish_pool (s : State) (d : BitVec 5) (v : Word) (lat : Nat) : (s.finish d v lat).pool = s.pool := rfl
@[simp] theorem finish_parked (s : State) (d : BitVec 5) (v : Word) (lat : Nat) : (s.finish d v lat).parked = s.parked := rfl
@[simp] theorem finish_subs (s : State) (d : BitVec 5) (v : Word) (lat : Nat) : (s.finish d v lat).subs = s.subs := rfl
@[simp] theorem finish_streams (s : State) (d : BitVec 5) (v : Word) (lat : Nat) : (s.finish d v lat).streams = s.streams := rfl
@[simp] theorem finish_landed (s : State) (d : BitVec 5) (v : Word) (lat : Nat) : (s.finish d v lat).landed = s.landed := rfl
@[simp] theorem finish_switches (s : State) (d : BitVec 5) (v : Word) (lat : Nat) : (s.finish d v lat).switches = s.switches := rfl
@[simp] theorem finish_homeAt (s : State) (d : BitVec 5) (v : Word) (lat : Nat) : (s.finish d v lat).homeAt = s.homeAt := rfl
@[simp] theorem finish_far (s : State) (d : BitVec 5) (v : Word) (lat : Nat) : (s.finish d v lat).far = s.far := rfl
@[simp] theorem finish_amoq (s : State) (d : BitVec 5) (v : Word) (lat : Nat) : (s.finish d v lat).amoq = s.amoq := rfl
@[simp] theorem finish_sealed (s : State) (d : BitVec 5) (v : Word) (lat : Nat) : (s.finish d v lat).sealed = s.sealed := rfl
@[simp] theorem finish_orphans (s : State) (d : BitVec 5) (v : Word) (lat : Nat) : (s.finish d v lat).orphans = s.orphans := rfl
@[simp] theorem finish_launchSeq (s : State) (d : BitVec 5) (v : Word) (lat : Nat) : (s.finish d v lat).launchSeq = s.launchSeq := rfl
@[simp] theorem finish_agenda (s : State) (d : BitVec 5) (v : Word) (lat : Nat) : (s.finish d v lat).agenda = s.agenda := rfl
@[simp] theorem finish_cur (s : State) (d : BitVec 5) (v : Word) (lat : Nat) : (s.finish d v lat).cur = s.cur := rfl
@[simp] theorem finish_word (s : State) (d : BitVec 5) (v : Word) (lat : Nat) : (s.finish d v lat).word = s.word := rfl
@[simp] theorem finish_reader (s : State) (d : BitVec 5) (v : Word) (lat : Nat) : (s.finish d v lat).reader = s.reader := rfl
@[simp] theorem finish_free (s : State) (d : BitVec 5) (v : Word) (lat : Nat) : (s.finish d v lat).free = s.free := rfl
@[simp] theorem setFlags_ccount (s : State) (fl : Flags) (at_ : Nat) : (s.setFlags fl at_).ccount = s.ccount := rfl
@[simp] theorem setFlags_dies (s : State) (fl : Flags) (at_ : Nat) : (s.setFlags fl at_).dies = s.dies := rfl
@[simp] theorem setFlags_dev (s : State) (fl : Flags) (at_ : Nat) : (s.setFlags fl at_).dev = s.dev := rfl
@[simp] theorem setFlags_mem (s : State) (fl : Flags) (at_ : Nat) : (s.setFlags fl at_).mem = s.mem := rfl
@[simp] theorem setFlags_poison (s : State) (fl : Flags) (at_ : Nat) : (s.setFlags fl at_).poison = s.poison := rfl
@[simp] theorem setFlags_latent (s : State) (fl : Flags) (at_ : Nat) : (s.setFlags fl at_).latent = s.latent := rfl
@[simp] theorem setFlags_corrected (s : State) (fl : Flags) (at_ : Nat) : (s.setFlags fl at_).corrected = s.corrected := rfl
@[simp] theorem setFlags_sites (s : State) (fl : Flags) (at_ : Nat) : (s.setFlags fl at_).sites = s.sites := rfl
@[simp] theorem setFlags_jobs (s : State) (fl : Flags) (at_ : Nat) : (s.setFlags fl at_).jobs = s.jobs := rfl
@[simp] theorem setFlags_xlate (s : State) (fl : Flags) (at_ : Nat) : (s.setFlags fl at_).xlate = s.xlate := rfl
@[simp] theorem setFlags_tcache (s : State) (fl : Flags) (at_ : Nat) : (s.setFlags fl at_).tcache = s.tcache := rfl
@[simp] theorem setFlags_keys (s : State) (fl : Flags) (at_ : Nat) : (s.setFlags fl at_).keys = s.keys := rfl
@[simp] theorem setFlags_wantKeys (s : State) (fl : Flags) (at_ : Nat) : (s.setFlags fl at_).wantKeys = s.wantKeys := rfl
@[simp] theorem setFlags_pool (s : State) (fl : Flags) (at_ : Nat) : (s.setFlags fl at_).pool = s.pool := rfl
@[simp] theorem setFlags_parked (s : State) (fl : Flags) (at_ : Nat) : (s.setFlags fl at_).parked = s.parked := rfl
@[simp] theorem setFlags_subs (s : State) (fl : Flags) (at_ : Nat) : (s.setFlags fl at_).subs = s.subs := rfl
@[simp] theorem setFlags_streams (s : State) (fl : Flags) (at_ : Nat) : (s.setFlags fl at_).streams = s.streams := rfl
@[simp] theorem setFlags_landed (s : State) (fl : Flags) (at_ : Nat) : (s.setFlags fl at_).landed = s.landed := rfl
@[simp] theorem setFlags_switches (s : State) (fl : Flags) (at_ : Nat) : (s.setFlags fl at_).switches = s.switches := rfl
@[simp] theorem setFlags_homeAt (s : State) (fl : Flags) (at_ : Nat) : (s.setFlags fl at_).homeAt = s.homeAt := rfl
@[simp] theorem setFlags_far (s : State) (fl : Flags) (at_ : Nat) : (s.setFlags fl at_).far = s.far := rfl
@[simp] theorem setFlags_amoq (s : State) (fl : Flags) (at_ : Nat) : (s.setFlags fl at_).amoq = s.amoq := rfl
@[simp] theorem setFlags_sealed (s : State) (fl : Flags) (at_ : Nat) : (s.setFlags fl at_).sealed = s.sealed := rfl
@[simp] theorem setFlags_orphans (s : State) (fl : Flags) (at_ : Nat) : (s.setFlags fl at_).orphans = s.orphans := rfl
@[simp] theorem setFlags_launchSeq (s : State) (fl : Flags) (at_ : Nat) : (s.setFlags fl at_).launchSeq = s.launchSeq := rfl
@[simp] theorem setFlags_agenda (s : State) (fl : Flags) (at_ : Nat) : (s.setFlags fl at_).agenda = s.agenda := rfl
@[simp] theorem setFlags_cur (s : State) (fl : Flags) (at_ : Nat) : (s.setFlags fl at_).cur = s.cur := rfl
@[simp] theorem setFlags_word (s : State) (fl : Flags) (at_ : Nat) : (s.setFlags fl at_).word = s.word := rfl
@[simp] theorem setFlags_issued (s : State) (fl : Flags) (at_ : Nat) : (s.setFlags fl at_).issued = s.issued := rfl
@[simp] theorem setFlags_reader (s : State) (fl : Flags) (at_ : Nat) : (s.setFlags fl at_).reader = s.reader := rfl
@[simp] theorem setFlags_free (s : State) (fl : Flags) (at_ : Nat) : (s.setFlags fl at_).free = s.free := rfl

end Sys2Proof.Machine
end

