-- ==== Sys2Proof/Laws/Words.lean ====
section
/-! SUPPORT. What the shared endings of a word do: a register written, control going on, a transfer of control, a predicate, flags. -/
namespace Sys2Proof.Machine

/-! ## Registers of a sequencer -/

theorem reg_setReg_same (q : Seq) (d : BitVec 5) (v : Word) (a : Nat) : (q.setReg d v a).reg d = if d = 0 then 0 else v := by
  unfold Seq.reg Seq.setReg
  split
  · rfl
  · exact Tab.get_set_same _ _ _ _

theorem reg_setReg_ne (q : Seq) (d r : BitVec 5) (v : Word) (a : Nat) (h : r ≠ d) : (q.setReg d v a).reg r = q.reg r := by
  unfold Seq.reg Seq.setReg
  by_cases hd : d = 0
  · rw [if_pos hd]
  · rw [if_neg hd, Tab.get_set_ne _ _ _ _ _ (fun e => h (BitVec.eq_of_toNat_eq e))]

theorem regAt_setReg (q : Seq) (d : BitVec 5) (v : Word) (a : Nat) (h : d ≠ 0) : Tab.get 0 (q.setReg d v a).regAt d.toNat = a := by
  unfold Seq.setReg; rw [if_neg h]; exact Tab.get_set_same _ _ _ _

theorem setReg_status (q : Seq) (d : BitVec 5) (v : Word) (a : Nat) :
    { q.setReg d v a with regs := q.regs, regAt := q.regAt } = q := by
  unfold Seq.setReg; split <;> rfl

/-! ## The end of a word -/

@[simp] theorem after_entry (q : Seq) (x : Ctx) (n : Nat) : (q.after x n).entry = q.entry := by
  unfold Seq.after; dsimp only; split <;> (try split) <;> (try split) <;> rfl
@[simp] theorem after_regs (q : Seq) (x : Ctx) (n : Nat) : (q.after x n).regs = q.regs := by
  unfold Seq.after; dsimp only; split <;> (try split) <;> (try split) <;> rfl
@[simp] theorem after_regAt (q : Seq) (x : Ctx) (n : Nat) : (q.after x n).regAt = q.regAt := by
  unfold Seq.after; dsimp only; split <;> (try split) <;> (try split) <;> rfl
@[simp] theorem after_fcsr (q : Seq) (x : Ctx) (n : Nat) : (q.after x n).fcsr = q.fcsr := by
  unfold Seq.after; dsimp only; split <;> (try split) <;> (try split) <;> rfl
@[simp] theorem after_flagPend (q : Seq) (x : Ctx) (n : Nat) : (q.after x n).flagPend = q.flagPend := by
  unfold Seq.after; dsimp only; split <;> (try split) <;> (try split) <;> rfl
@[simp] theorem after_flagAt (q : Seq) (x : Ctx) (n : Nat) : (q.after x n).flagAt = q.flagAt := by
  unfold Seq.after; dsimp only; split <;> (try split) <;> (try split) <;> rfl
@[simp] theorem after_wmask (q : Seq) (x : Ctx) (n : Nat) : (q.after x n).wmask = q.wmask := by
  unfold Seq.after; dsimp only; split <;> (try split) <;> (try split) <;> rfl
@[simp] theorem after_pmask (q : Seq) (x : Ctx) (n : Nat) : (q.after x n).pmask = q.pmask := by
  unfold Seq.after; dsimp only; split <;> (try split) <;> (try split) <;> rfl
@[simp] theorem after_macroQ (q : Seq) (x : Ctx) (n : Nat) : (q.after x n).macroQ = q.macroQ := by
  unfold Seq.after; dsimp only; split <;> (try split) <;> (try split) <;> rfl
@[simp] theorem after_halting (q : Seq) (x : Ctx) (n : Nat) : (q.after x n).halting = q.halting := by
  unfold Seq.after; dsimp only; split <;> (try split) <;> (try split) <;> rfl
@[simp] theorem after_halted (q : Seq) (x : Ctx) (n : Nat) : (q.after x n).halted = q.halted := by
  unfold Seq.after; dsimp only; split <;> (try split) <;> (try split) <;> rfl
@[simp] theorem after_stop (q : Seq) (x : Ctx) (n : Nat) : (q.after x n).stop = q.stop := by
  unfold Seq.after; dsimp only; split <;> (try split) <;> (try split) <;> rfl
@[simp] theorem after_taken (q : Seq) (x : Ctx) (n : Nat) : (q.after x n).taken = q.taken := by
  unfold Seq.after; dsimp only; split <;> (try split) <;> (try split) <;> rfl
@[simp] theorem after_cover (q : Seq) (x : Ctx) (n : Nat) : (q.after x n).cover = q.cover := by
  unfold Seq.after; dsimp only; split <;> (try split) <;> (try split) <;> rfl

theorem after_status (q : Seq) (x : Ctx) (n : Nat) :
    { q.after x n with pc := q.pc, loops := q.loops, mpos := q.mpos, nextIssue := q.nextIssue } = q := by
  unfold Seq.after; dsimp only; split <;> (try split) <;> (try split) <;> rfl

theorem after_pc (q : Seq) (x : Ctx) (n : Nat) (hl : q.loops = []) (hm : q.mpos = none) : (q.after x n).pc = q.pc + 4 := by
  unfold Seq.after; simp [hm, hl, loopNext]

@[simp] theorem here_mark (s : State) :
    s.mark.here = { s.here with
      lastRetire := if s.here.allRetired s.cur.2 then s.ccount else s.here.lastRetire, wake := s.here.wake && decide (s.cur.2 ≠ .k) } := by
  exact here_modHere s (fun c => { c with
    lastRetire := if c.allRetired s.cur.2 then s.ccount else c.lastRetire, wake := c.wake && decide (s.cur.2 ≠ .k) })

/-- An update of the executing sequencer leaves the words in flight. -/
@[simp] theorem setSeq_allRetired (c : Core) (q r : Ctx) (x : Seq) : (c.setSeq q x).allRetired r = c.allRetired r := by cases q <;> cases r <;> rfl

@[simp] theorem seq_mark (s : State) : s.mark.seq = s.seq := by
  show (s.mark.here).seq s.cur.2 = s.here.seq s.cur.2
  rw [here_mark]; cases s.cur.2 <;> rfl

/-- The sequencer after a word that goes on. -/
theorem seq_advance (s : State) : s.advance.seq = s.seq.after s.cur.2 s.ccount := by
  show (s.modSeq _).mark.seq = _
  exact (seq_mark _).trans ((seq_modSeq _ _).trans rfl)

theorem core_ne_modHere (s : State) (g : Core → Core) (m : CoreId) (h : m ≠ s.cur.1) : (s.modHere g).core m = s.core m :=
  core_modCore_ne _ _ _ _ h

/-! ## Frames -/

/-- What an update of the executing sequencer, followed by the mark, keeps. -/
theorem modSeq_mark_outside (s : State) (g : Seq → Seq) : SameOutside s (s.modSeq g).mark := by
  refine ⟨rfl, fun m h => ?_⟩
  show ((s.modSeq g).modHere (fun c => { c with
    lastRetire := if c.allRetired s.cur.2 then s.ccount else c.lastRetire, wake := c.wake && decide (s.cur.2 ≠ .k) })).core m = _
  exact (core_ne_modHere (s.modSeq g) _ m h).trans (core_ne_modHere s _ m h)

theorem modSeq_mark_here (s : State) (g : Seq → Seq) :
    (s.modSeq g).mark.here =
      { s.here.setSeq s.cur.2 (g s.seq) with
        lastRetire := if s.here.allRetired s.cur.2 then s.ccount else s.here.lastRetire, wake := s.here.wake && decide (s.cur.2 ≠ .k) } := by
  rw [here_mark, here_modSeq, setSeq_wake, modSeq_cur, setSeq_allRetired, setSeq_lastRetire]; rfl

theorem setSeq_restore (c : Core) (q : Ctx) (x : Seq) (n : Nat) (b : Bool) :
    { ({ c.setSeq q x with lastRetire := n, wake := b } : Core).setSeq q (c.seq q) with lastRetire := c.lastRetire, wake := c.wake } = c := by
  cases q <;> rfl

theorem modSeq_mark_units (s : State) (g : Seq → Seq) : SameUnits s (s.modSeq g).mark := by
  unfold SameUnits
  rw [modSeq_mark_here]
  exact setSeq_restore s.here s.cur.2 (g s.seq) _ _

theorem modSeq_mark_seq (s : State) (g : Seq → Seq) : (s.modSeq g).mark.seq = g s.seq := by rw [seq_mark, seq_modSeq]

/-- The bytes of memory, when only sequencers and cycles of retirement differ. -/
theorem sameBytes_of (s t : State) (hm : t.mem = s.mem) (h : ∀ m, (t.core m).slice = (s.core m).slice ∧ (t.core m).recent = (s.core m).recent) :
    SameBytes s t := by
  refine ⟨fun pa => by unfold State.devBytes; rw [hm], fun m off => ?_⟩
  unfold sliceByte; rw [(h m).1, (h m).2]

theorem modSeq_mark_bytes (s : State) (g : Seq → Seq) : SameBytes s (s.modSeq g).mark := by
  refine sameBytes_of _ _ rfl fun m => ?_
  by_cases h : m = s.cur.1
  · subst h
    have := modSeq_mark_here s g
    unfold State.here at this
    change ((s.modSeq g).mark.core s.cur.1) = _ at this
    rw [this]
    cases s.cur.2 <;> exact ⟨rfl, rfl⟩
  · rw [(modSeq_mark_outside s g).2 m h]; exact ⟨rfl, rfl⟩

/-- An update of the executing sequencer that keeps its status, followed by the mark: the frame of a register word. -/
theorem modSeq_mark_frame (s : State) (g : Seq → Seq) (ds : List (BitVec 5))
    (hs : { g s.seq with regs := s.seq.regs, regAt := s.seq.regAt, pc := s.seq.pc, loops := s.seq.loops, mpos := s.seq.mpos,
                         nextIssue := s.seq.nextIssue } = s.seq)
    (hr : ∀ r, r ∉ ds → (g s.seq).reg r = s.seq.reg r) : RegFrame ds s (s.modSeq g).mark := by
  refine ⟨modSeq_mark_outside s g, modSeq_mark_units s g, ?_, ?_, modSeq_mark_bytes s g⟩
  · unfold SameStatus; rw [modSeq_mark_seq]; exact hs
  · intro r h
    unfold State.reg; rw [modSeq_mark_seq]; exact hr r h

theorem modSeq_modSeq (s : State) (f g : Seq → Seq) : (s.modSeq f).modSeq g = s.modSeq (fun q => g (f q)) := by
  show (s.modSeq f).modHere (fun c => c.setSeq s.cur.2 (g (c.seq s.cur.2))) = _
  unfold State.modSeq State.modHere State.modCore
  simp only [core_setCore_same, setCore_cur, seq_setSeq_same, setSeq_setSeq]
  unfold State.setCore
  simp only [Tab.put_put]

theorem setReg_cur' (s : State) (d : BitVec 5) (v : Word) (lat : Nat) : (s.setReg d v lat).cur = s.cur := rfl

/-- A sequencer's registers, status and pc once a register is written and control goes on. -/
theorem finish_eq (s : State) (d : BitVec 5) (v : Word) (lat : Nat) :
    s.finish d v lat = (s.modSeq fun q => (q.setReg d v (s.ccount + lat)).after s.cur.2 s.ccount).mark := by
  rw [← modSeq_modSeq s (fun q => q.setReg d v (s.ccount + lat)) (fun q => q.after s.cur.2 s.ccount)]
  rfl

theorem advance_eq (s : State) : s.advance = (s.modSeq fun q => q.after s.cur.2 s.ccount).mark := rfl

theorem holds_of (s t : State) (d : BitVec 5) (v : Word) (lat : Nat)
    (h : t.seq = (s.seq.setReg d v (s.ccount + lat)).after s.cur.2 s.ccount) : Holds d v lat s t := by
  constructor
  · show t.seq.reg d = _
    rw [h]
    show ((s.seq.setReg d v (s.ccount + lat)).after s.cur.2 s.ccount).reg d = _
    unfold Seq.reg; rw [after_regs]
    exact reg_setReg_same s.seq d v (s.ccount + lat)
  · intro hd
    rw [h, after_regAt, regAt_setReg _ _ _ _ hd]

theorem setReg_pc (q : Seq) (d : BitVec 5) (v : Word) (a : Nat) : (q.setReg d v a).pc = q.pc := by unfold Seq.setReg; split <;> rfl
theorem setReg_loops (q : Seq) (d : BitVec 5) (v : Word) (a : Nat) : (q.setReg d v a).loops = q.loops := by unfold Seq.setReg; split <;> rfl
theorem setReg_mpos (q : Seq) (d : BitVec 5) (v : Word) (a : Nat) : (q.setReg d v a).mpos = q.mpos := by unfold Seq.setReg; split <;> rfl

/-- The status of a sequencer whose register is written and which goes on is that of the sequencer before. -/
theorem setReg_after_status (q : Seq) (d : BitVec 5) (v : Word) (a : Nat) (x : Ctx) (n : Nat) :
    { (q.setReg d v a).after x n with regs := q.regs, regAt := q.regAt, pc := q.pc, loops := q.loops, mpos := q.mpos,
                                        nextIssue := q.nextIssue } = q := by
  unfold Seq.after Seq.setReg; dsimp only
  split <;> split <;> (try split) <;> (try split) <;> rfl

theorem setReg_after_reg (q : Seq) (d r : BitVec 5) (v : Word) (a : Nat) (x : Ctx) (n : Nat) (h : r ≠ d) :
    ((q.setReg d v a).after x n).reg r = q.reg r := by
  unfold Seq.reg; rw [after_regs]
  exact reg_setReg_ne q d r v a h

theorem setReg_after_pc (q : Seq) (d : BitVec 5) (v : Word) (a : Nat) (x : Ctx) (n : Nat) (hl : q.loops = []) (hm : q.mpos = none) :
    ((q.setReg d v a).after x n).pc = q.pc + 4 := by
  rw [after_pc _ _ _ (by rw [setReg_loops]; exact hl) (by rw [setReg_mpos]; exact hm), setReg_pc]

/-- What the end of a register-writing word does, whole. -/
theorem finish_spec (s : State) (d : BitVec 5) (v : Word) (lat : Nat) :
    Holds d v lat s (s.finish d v lat) ∧ GoesOn s (s.finish d v lat) ∧ RegFrame [d] s (s.finish d v lat) := by
  rw [finish_eq]
  have hs := modSeq_mark_seq s fun q => (q.setReg d v (s.ccount + lat)).after s.cur.2 s.ccount
  refine ⟨holds_of s _ d v lat hs, ⟨rfl, fun hl hm => ?_⟩, modSeq_mark_frame _ _ _ ?_ ?_⟩
  · rw [hs]; exact setReg_after_pc _ _ _ _ _ _ hl hm
  · exact setReg_after_status _ _ _ _ _ _
  · intro r h
    exact setReg_after_reg _ _ _ _ _ _ _ (fun e => h (e ▸ List.mem_singleton.mpr rfl))

/-- A word that reads registers and writes one, once they are readable. -/
theorem regWord_writes (s : State) (srcs : List (BitVec 5)) (d : BitVec 5) (v : Word) (lat : Nat) (h : s.readyFor srcs = true) :
    ∃ t, regWord s srcs d v lat = .next t ∧ Holds d v lat s t ∧ GoesOn s t ∧ RegFrame [d] s t :=
  ⟨_, by unfold regWord; rw [if_pos h], finish_spec s d v lat⟩

/-- Going on to the next word changes nothing else. -/
theorem advance_spec (s : State) : GoesOn s s.advance ∧ RegFrame [] s s.advance := by
  rw [advance_eq]
  refine ⟨⟨rfl, fun hl hm => ?_⟩, modSeq_mark_frame _ _ _ ?_ ?_⟩
  · rw [modSeq_mark_seq]; exact after_pc _ _ _ hl hm
  · unfold Seq.after; dsimp only; split <;> (try split) <;> (try split) <;> rfl
  · intro r _; unfold Seq.reg; rw [after_regs]

/-- A transfer of control, with a link register written before it. -/
theorem transfer_spec (s : State) (d : BitVec 5) (v : Word) (lat : Nat) (x : Word) :
    ((s.setReg d v lat).transfer x).issued = true ∧ ((s.setReg d v lat).transfer x).seq.pc = x ∧
    ((s.setReg d v lat).transfer x).seq.nextIssue = s.ccount + 2 ∧
    ((s.setReg d v lat).transfer x).seq.loops = loopExit x s.seq.loops ∧
    ((s.setReg d v lat).transfer x).reg d = (if d = 0 then 0 else v) ∧ RegFrame [d] s ((s.setReg d v lat).transfer x) := by
  have e : (s.setReg d v lat).transfer x = (s.modSeq fun q =>
      { (q.setReg d v (s.ccount + lat)) with loops := loopExit x (q.setReg d v (s.ccount + lat)).loops, pc := x, nextIssue := s.ccount + 2 }).mark := by
    show ((s.setReg d v lat).modSeq _).mark = _
    unfold State.setReg
    rw [modSeq_modSeq]
    rfl
  rw [e]
  have hs := modSeq_mark_seq s fun q => { (q.setReg d v (s.ccount + lat)) with loops := loopExit x (q.setReg d v (s.ccount + lat)).loops, pc := x, nextIssue := s.ccount + 2 }
  refine ⟨rfl, by rw [hs], by rw [hs], by rw [hs]; exact congrArg _ (setReg_loops _ _ _ _), ?_, modSeq_mark_frame _ _ _ ?_ ?_⟩
  · unfold State.reg; rw [hs]; exact reg_setReg_same s.seq d v (s.ccount + lat)
  · unfold Seq.setReg; dsimp only; split <;> rfl
  · intro r h
    exact reg_setReg_ne s.seq d r v _ (fun e => h (e ▸ List.mem_singleton.mpr rfl))

end Sys2Proof.Machine
end

