-- ==== Sys2Proof/Tests/Slice0.lean ====
section
/-! SUPPORT. Tests: ill-formed words, decoding, examples of the manual, and for each statement states and operands that meet its
hypotheses. -/
namespace Sys2Proof.Machine
set_option Elab.async false
set_option maxRecDepth 100000
set_option exponentiation.threshold 4096

/-! ## Helpers -/

/-- A unit of job 0 on die 0. -/
def unit0 : UnitInfo := { job := 0, task := 1, die := 0, slot := 0, arrived := [], texit := none }

/-- Core 0 of a test: a unit resident, F active, the registers of every context as listed. -/
def core0 (rs : Tab Word) : Core :=
  let q : Seq := { Seq.reset with regs := rs }
  { Core.reset with unit := some unit0, fActive := true, k := q, l := q, c := q, s := q, f := q }

/-- A state of a test: context `q` of core 0 executes in cycle 100, the part is up, and job 0 maps the first GiB to itself. -/
def st (q : Ctx) (rs : Tab Word) : State :=
  { State.reset with
    ccount := 100, cur := (0, q), reader := deviceAgent, cores := [(0, core0 rs)], xlate := [(0, 1)], dev := { Dev.reset with ready := true, zen := true, zup := 0xFFFF }
    tcache := [{ place := 256, job := 0, base := 0, size := 2 ^ 30, lv := 2, entry := 0xF }] }

/-- Core 0 changed. -/
def State.up (s : State) (g : Core → Core) : State := s.modCore 0 g

/-- A queue with the listed entries. -/
def holding {α : Type} (l : List (Entry α)) : Queue α := { entries := l, pops := 0, freed := 0, freeAt := 0 }

/-- A pending store of K. -/
def pend (t : Target) (b : List Byte) : Store := { seq := 1, va := 0, tgt := t, bytes := b, cover := Cover.none, doneAt := none, src := (0, none), sent := false }

/-- Whether an address leads to a target. -/
def aims (e : Except Nat Target) (t : Target) : Bool :=
  match e with
  | .ok x => decide (x = t)
  | .error _ => false

/-- Whether an address fails with a cause. -/
def misses (e : Except Nat Target) (c : Nat) : Bool :=
  match e with
  | .ok _ => false
  | .error x => decide (x = c)

/-- Whether an outcome is a next state that passes. -/
def ran (o : Out) (p : State → Bool) : Bool :=
  match o with
  | .next t => p t
  | _ => false

/-- Whether an action ends with a value and a state that pass. -/
def ends {α : Type} (m : Act α) (s : State) (p : α → State → Bool) : Bool :=
  match m s with
  | (.ok v, u) => p v u
  | _ => false

theorem ends_exists {α : Type} {m : Act α} {s : State} (h : ends m s (fun _ _ => true) = true) : ∃ v u, Ends m s v u := by
  unfold ends at h
  split at h
  · exact ⟨_, _, by unfold Ends; assumption⟩
  · cases h

/-! ## Ill-formed words (R49 rule 2) -/

theorem test_wf_sel : (Instr.sel 1 2 3 8 0).wf = false := by decide
theorem test_wf_lea : (Instr.lea 1 2 3 4).wf = false := by decide
theorem test_wf_cmp : (Instr.cmp 1 2 3 0 6 0).wf = false := by decide
theorem test_wf_rounding : (Instr.fadd 0 1 2 3 5).wf = false ∧ (Instr.fma 0 1 2 3 6).wf = false ∧ (Instr.fsqrt 0 1 2 5).wf = false := by decide
theorem test_wf_fcmp : (Instr.fcmp 0 1 2 3 4 0).wf = false := by decide
theorem test_wf_fcvt : (Instr.fcvt 1 2 6 0 0).wf = false ∧ (Instr.fcvt 1 2 2 3 0).wf = false ∧ (Instr.fcvt 1 2 1 1 0).wf = false := by decide
theorem test_wf_fsgn : (Instr.fsgn 0 1 2 3 3 0).wf = false := by decide
theorem test_wf_fence : (Instr.fence 0 3).wf = false := by decide
theorem test_wf_formats : (Instr.mma 1 2 0 5 0 0 0 0).wf = false ∧ (Instr.mmaA 1 2 3 0 4 0 0 0 0).wf = false ∧ (Instr.mwin 1 2 0 0 0 0 0 0 0).wf = false ∧
    (Instr.wld 1 5 0 0 0).wf = false ∧ (Instr.accrd 1 2 0 0 0 0 0).wf = false := by decide
theorem test_wf_stamp : (Instr.mma 1 31 0 0 1 0 0 0).wf = false ∧ (Instr.mma 1 30 0 0 1 0 0 0).wf = true := by decide
theorem test_wf_keep : (Instr.tst 1 2 3 4 1 0 0 2).wf = false ∧ (Instr.sct 1 2 3 4 1 0 0 3).wf = false := by decide

/-! ## Decoding -/

/-- Common words (R51, R52): words put together from the opcode table's bits, one for each instruction. -/
theorem test_decode_common_1 :
    decode .kcode 0xE0000000 = some .nop ∧ decode .kcode 0xE0950B00 = some (.add 5 8 11) ∧ decode .kcode 0xE1150B00 = some (.sub 5 8 11) ∧
    decode .kcode 0xE1950B00 = some (.and 5 8 11) ∧ decode .kcode 0xE2150B00 = some (.or 5 8 11) ∧ decode .kcode 0xE2950B00 = some (.xor 5 8 11) ∧
    decode .kcode 0xE3150B00 = some (.shl 5 8 11) ∧ decode .kcode 0xE3950B00 = some (.shr 5 8 11) ∧ decode .kcode 0xE4150B00 = some (.sra 5 8 11) ∧
    decode .kcode 0xE4950B00 = some (.slt 5 8 11) ∧ decode .kcode 0xE5150B00 = some (.sltn 5 8 11) ∧
    decode .kcode 0xE5951003 = some (.addi 5 8 4099) ∧ decode .kcode 0xE6151003 = some (.andi 5 8 4099) ∧
    decode .kcode 0xE6951003 = some (.ori 5 8 4099) ∧ decode .kcode 0xE7151003 = some (.xori 5 8 4099) ∧
    decode .kcode 0xE7950021 = some (.shli 5 8 33) ∧ decode .kcode 0xE8150021 = some (.shri 5 8 33) ∧
    decode .kcode 0xE8950021 = some (.srai 5 8 33) ∧ decode .kcode 0xE9141003 = some (.lui 5 4099) ∧
    decode .kcode 0xE9951003 = some (.beq 5 8 4099) ∧ decode .kcode 0xEA151003 = some (.bne 5 8 4099) ∧
    decode .kcode 0xEA951003 = some (.blt 5 8 4099) := by decide

/-- Common words (R51, R52): words put together from the opcode table's bits, one for each instruction. -/
theorem test_decode_common_2 :
    decode .kcode 0xEB151003 = some (.bge 5 8 4099) ∧ decode .kcode 0xEB951003 = some (.bltn 5 8 4099) ∧
    decode .kcode 0xEC151003 = some (.bgen 5 8 4099) ∧ decode .kcode 0xEC960007 = some (.jal 5 131079) ∧ decode .kcode 0xED150000 = some (.jr 5 8) ∧
    decode .kcode 0xED80B003 = some (.loop 5 4099) ∧ decode .kcode 0xEE150000 = some (.qpush 5 8) ∧ decode .kcode 0xEE950000 = some (.qpop 5 8) ∧
    decode .kcode 0xEF000003 = some (.tkpost 3) ∧ decode .kcode 0xEF800003 = some (.tkwait 3) ∧ decode .kcode 0xF0000034 = some (.tkmask 3 4) ∧
    decode .kcode 0xF0800000 = some .halt := by decide

/-- Class 0 (R56): words put together from the opcode table's bits, one for each instruction. -/
theorem test_decode_k_integer :
    decode .kcode 0x004A8581 = some (.mul 5 8 11 1) ∧ decode .kcode 0x008A8581 = some (.mulh 5 8 11 1) ∧
    decode .kcode 0x00CA8581 = some (.mulhn 5 8 11 1) ∧ decode .kcode 0x010A8581 = some (.div 5 8 11 1) ∧
    decode .kcode 0x014A8581 = some (.divn 5 8 11 1) ∧ decode .kcode 0x018A8581 = some (.rem 5 8 11 1) ∧
    decode .kcode 0x01CA8581 = some (.remn 5 8 11 1) ∧ decode .kcode 0x020A8581 = some (.min 5 8 11 1) ∧
    decode .kcode 0x024A8581 = some (.max 5 8 11 1) ∧ decode .kcode 0x028A8581 = some (.minn 5 8 11 1) ∧
    decode .kcode 0x02CA8581 = some (.maxn 5 8 11 1) ∧ decode .kcode 0x030A8001 = some (.clz 5 8 1) ∧ decode .kcode 0x034A8001 = some (.ctz 5 8 1) ∧
    decode .kcode 0x038A8001 = some (.popc 5 8 1) ∧ decode .kcode 0x03CA858D = some (.sel 5 8 11 3 1) ∧
    decode .kcode 0x040A85D5 = some (.cmp 5 8 11 1 5 1) ∧ decode .kcode 0x044A8580 = some (.pand 5 8 11) ∧
    decode .kcode 0x048A8580 = some (.por 5 8 11) ∧ decode .kcode 0x04CA8000 = some (.pnot 5 8) ∧ decode .kcode 0x050A858C = some (.lea 5 8 11 3) ∧
    decode .kcode 0x054A8581 = some (.bfx 5 8 11 1) ∧ decode .kcode 0x058A8581 = some (.bfi 5 8 11 1) := by decide

/-- Class 1 (R57): words put together from the opcode table's bits, one for each instruction. -/
theorem test_decode_k_memory :
    decode .kcode 0x204A8801 = some (.ldB 5 8 2049) ∧ decode .kcode 0x208A8801 = some (.ldH 5 8 2049) ∧
    decode .kcode 0x20CA8801 = some (.ldW 5 8 2049) ∧ decode .kcode 0x210A8801 = some (.ldD 5 8 2049) ∧
    decode .kcode 0x214A8801 = some (.ldsB 5 8 2049) ∧ decode .kcode 0x218A8801 = some (.ldsH 5 8 2049) ∧
    decode .kcode 0x21CA8801 = some (.ldsW 5 8 2049) ∧ decode .kcode 0x224A8801 = some (.stB 5 8 2049) ∧
    decode .kcode 0x228A8801 = some (.stH 5 8 2049) ∧ decode .kcode 0x22CA8801 = some (.stW 5 8 2049) ∧
    decode .kcode 0x230A8801 = some (.stD 5 8 2049) := by decide

/-- Class 2 (R58): words put together from the opcode table's bits, one for each instruction. -/
theorem test_decode_k_float :
    decode .kcode 0x40D0B702 = some (.fadd 1 8 11 14 2) ∧ decode .kcode 0x4150B702 = some (.fsub 1 8 11 14 2) ∧
    decode .kcode 0x41D0B702 = some (.fmul 1 8 11 14 2) ∧ decode .kcode 0x4250B702 = some (.fdiv 1 8 11 14 2) ∧
    decode .kcode 0x42D0B002 = some (.fsqrt 1 8 11 2) ∧ decode .kcode 0x4350B702 = some (.fma 1 8 11 14 2) ∧
    decode .kcode 0x43D0B702 = some (.fmin 1 8 11 14 2) ∧ decode .kcode 0x4450B702 = some (.fmax 1 8 11 14 2) ∧
    decode .kcode 0x44D0B702 = some (.fminn 1 8 11 14 2) ∧ decode .kcode 0x4550B702 = some (.fmaxn 1 8 11 14 2) ∧
    decode .kcode 0x45D0B712 = some (.fcmp 1 8 11 14 2 2) ∧ decode .kcode 0x4650B002 = some (.fclass 1 8 11 2) ∧
    decode .kcode 0x468A80A2 = some (.fcvt 5 8 1 4 2) ∧ decode .kcode 0x47500801 = some (.fmvi 1 8 2049) ∧
    decode .kcode 0x47D0B712 = some (.fsgn 1 8 11 14 2 2) := by decide

/-- Class 3 (R59): words put together from the opcode table's bits, one for each instruction. -/
theorem test_decode_k_system :
    decode .kcode 0x604A8801 = some (.call 5 8 2049) ∧ decode .kcode 0x60805000 = some (.ret 5) ∧ decode .kcode 0x60CA0801 = some (.csrr 5 2049) ∧
    decode .kcode 0x61005801 = some (.csrw 5 2049) ∧ decode .kcode 0x61405801 = some (.csrs 5 2049) ∧
    decode .kcode 0x61805801 = some (.csrc 5 2049) ∧ decode .kcode 0x61C00005 = some (.fence 1 1) ∧ decode .kcode 0x62000801 = some (.trap 2049) ∧
    decode .kcode 0x62400000 = some .tret ∧ decode .kcode 0x62800000 = some .wfi ∧ decode .kcode 0x62C05061 = some (.mcall 5 1 33) ∧
    decode .kcode 0x63000801 = some (.brk 2049) ∧ decode .kcode 0x63400000 = some .snap := by decide

/-- Class 4 (R60, R61): words put together from the opcode table's bits, one for each instruction. -/
theorem test_decode_k_atomics_1 :
    decode .kcode 0x808A8583 = some (.amoAdd 5 8 11 1) ∧ decode .kcode 0x80C05403 = some (.amoAddNr 5 8 1) ∧
    decode .kcode 0x810A8583 = some (.amoAnd 5 8 11 1) ∧ decode .kcode 0x81405403 = some (.amoAndNr 5 8 1) ∧
    decode .kcode 0x818A8583 = some (.amoOr 5 8 11 1) ∧ decode .kcode 0x81C05403 = some (.amoOrNr 5 8 1) ∧
    decode .kcode 0x820A8583 = some (.amoXor 5 8 11 1) ∧ decode .kcode 0x82405403 = some (.amoXorNr 5 8 1) ∧
    decode .kcode 0x828A8583 = some (.amoMin 5 8 11 1) ∧ decode .kcode 0x82C05403 = some (.amoMinNr 5 8 1) ∧
    decode .kcode 0x830A8583 = some (.amoMax 5 8 11 1) ∧ decode .kcode 0x83405403 = some (.amoMaxNr 5 8 1) ∧
    decode .kcode 0x838A8583 = some (.amoMinn 5 8 11 1) ∧ decode .kcode 0x83C05403 = some (.amoMinnNr 5 8 1) ∧
    decode .kcode 0x840A8583 = some (.amoMaxn 5 8 11 1) ∧ decode .kcode 0x84405403 = some (.amoMaxnNr 5 8 1) ∧
    decode .kcode 0x848A8583 = some (.amoSwap 5 8 11 1) ∧ decode .kcode 0x84C05403 = some (.amoSwapNr 5 8 1) ∧
    decode .kcode 0x850A8583 = some (.amoCas 5 8 11 1) ∧ decode .kcode 0x854A8583 = some (.amoCasNr 5 8 11 1) ∧
    decode .kcode 0x858A8583 = some (.amoInc 5 8 11 1) ∧ decode .kcode 0x85C05403 = some (.amoIncNr 5 8 1) := by decide

/-- Class 4 (R60, R61): words put together from the opcode table's bits, one for each instruction. -/
theorem test_decode_k_atomics_2 :
    decode .kcode 0x860A8583 = some (.amoFadd 5 8 11 1) ∧ decode .kcode 0x86405403 = some (.amoFaddNr 5 8 1) ∧
    decode .kcode 0x868A8583 = some (.amoFmin 5 8 11 1) ∧ decode .kcode 0x86C05403 = some (.amoFminNr 5 8 1) ∧
    decode .kcode 0x870A8583 = some (.amoFmax 5 8 11 1) ∧ decode .kcode 0x87405403 = some (.amoFmaxNr 5 8 1) ∧
    decode .kcode 0x90000000 = some .grpOpen ∧ decode .kcode 0x904A0000 = some (.grpCommit 5) ∧ decode .kcode 0x908A0000 = some (.grpAbort 5) ∧
    decode .kcode 0x90CA0000 = some (.grpStat 5) := by decide

/-- Class 5 (R61): words put together from the opcode table's bits, one for each instruction. -/
theorem test_decode_k_tasks :
    decode .kcode 0xA0405001 = some (.spawn 5 1) ∧ decode .kcode 0xA0805001 = some (.texit 5 1) ∧ decode .kcode 0xA0C05400 = some (.cntAdd 5 8) ∧
    decode .kcode 0xA10A8580 = some (.cntWait 5 8 11) ∧ decode .kcode 0xA1405001 = some (.cancel 5 1) ∧
    decode .kcode 0xA1800001 = some (.barArrive 1) ∧ decode .kcode 0xA1CA0001 = some (.barWait 5 1) ∧ decode .kcode 0xA20A8000 = some (.keyq 5 8) ∧
    decode .kcode 0xA400540B = some (.rgSet 5 8 11) ∧ decode .kcode 0xA44A802E = some (.rgStat 5 8 1 14) ∧
    decode .kcode 0xA4800005 = some (.rgReset 5) ∧ decode .kcode 0xA80A8000 = some (.symAlloc 5 8) ∧ decode .kcode 0xA8405400 = some (.symFree 5 8) ∧
    decode .kcode 0xA88A8000 = some (.symRef 5 8) ∧ decode .kcode 0xA8CA8000 = some (.symUnref 5 8) ∧
    decode .kcode 0xA90A8001 = some (.symStat 5 8 1) ∧ decode .kcode 0xA9405000 = some (.condSet 5) ∧
    decode .kcode 0xA98A8580 = some (.condRun 5 8 11) ∧ decode .kcode 0xA9CA8581 = some (.afAdd 5 8 11 1) := by decide

/-- Class 6 (R61): words put together from the opcode table's bits, one for each instruction. -/
theorem test_decode_k_streams :
    decode .kcode 0xC04A8580 = some (.kvSlot 5 8 11) ∧ decode .kcode 0xC08A8580 = some (.kvAppend 5 8 11) ∧
    decode .kcode 0xC0CA8580 = some (.kvEvict 5 8 11) ∧ decode .kcode 0xC10A8580 = some (.kvTrunc 5 8 11) ∧
    decode .kcode 0xC14A8580 = some (.kvShare 5 8 11) ∧ decode .kcode 0xC40A8001 = some (.dxCur 5 8 0 1) ∧
    decode .kcode 0xC44A8000 = some (.dxTrunc 5 8) ∧ decode .kcode 0xC48A8000 = some (.dxFrame 5 8) ∧
    decode .kcode 0xC4CA8580 = some (.dxEmit 5 8 11) ∧ decode .kcode 0xC50A8000 = some (.dxCkpt 5 8) ∧
    decode .kcode 0xC54A8002 = some (.dxStat 5 8 2) ∧ decode .kcode 0xC8005400 = some (.asLoad 5 8) ∧ decode .kcode 0xC8405000 = some (.asGo 5) ∧
    decode .kcode 0xC88A0001 = some (.asWait 5 1) ∧ decode .kcode 0xCC005000 = some (.bpSend 5) ∧ decode .kcode 0xCC405000 = some (.bpRecv 5) ∧
    decode .kcode 0xCC8A8580 = some (.bpWait 5 8 11) ∧ decode .kcode 0xCCC05400 = some (.bpCancel 5 8) ∧
    decode .kcode 0xCD0A8000 = some (.bpStat 5 8) ∧ decode .kcode 0xCD405000 = some (.collRed 5) := by decide

/-- V-words (R62, R65): words put together from the opcode table's bits, one for each instruction. -/
theorem test_decode_v_words_1 :
    decode .ccode 0x0300003C = some (.vshape 1048579 1 1) ∧ decode .ccode 0x050E245D = some (.vadd 67 68 69 1 1 1) ∧
    decode .ccode 0x070E245D = some (.vsub 67 68 69 1 1 1) ∧ decode .ccode 0x090E245D = some (.vmul 67 68 69 1 1 1) ∧
    decode .ccode 0x0B0E245D = some (.vfma 67 68 69 1 1 1) ∧ decode .ccode 0x0D0E245D = some (.vfms 67 68 69 1 1 1) ∧
    decode .ccode 0x0F0E245D = some (.vdiv 67 68 69 1 1 1) ∧ decode .ccode 0x110E200D = some (.vsqrt 67 68 1 1 1) ∧
    decode .ccode 0x130E200D = some (.vrcp 67 68 1 1 1) ∧ decode .ccode 0x150E245D = some (.vmin 67 68 69 1 1 1) ∧
    decode .ccode 0x170E245D = some (.vmax 67 68 69 1 1 1) ∧ decode .ccode 0x190E245D = some (.vminn 67 68 69 1 1 1) ∧
    decode .ccode 0x1B0E245D = some (.vmaxn 67 68 69 1 1 1) ∧ decode .ccode 0x1D0E200D = some (.vabs 67 68 1 1 1) ∧
    decode .ccode 0x1F0E200D = some (.vneg 67 68 1 1 1) ∧ decode .ccode 0x210E245D = some (.vcmp 67 68 69 1 1 1) ∧
    decode .ccode 0x230E245D = some (.vsel 67 68 69 1 1 1) ∧ decode .ccode 0x250E245D = some (.vand 67 68 69 1 1 1) ∧
    decode .ccode 0x270E245D = some (.vor 67 68 69 1 1 1) ∧ decode .ccode 0x290E245D = some (.vxor 67 68 69 1 1 1) ∧
    decode .ccode 0x2B0E200D = some (.vnot 67 68 1 1 1) ∧ decode .ccode 0x2D0E245D = some (.vshl 67 68 69 1 1 1) := by decide

/-- V-words (R62, R65): words put together from the opcode table's bits, one for each instruction. -/
theorem test_decode_v_words_2 :
    decode .ccode 0x2F0E245D = some (.vshr 67 68 69 1 1 1) ∧ decode .ccode 0x310E245D = some (.vsra 67 68 69 1 1 1) ∧
    decode .ccode 0x330E245D = some (.vcvt 67 68 69 1 1 1) ∧ decode .ccode 0x350E245D = some (.vscale 67 68 69 1 1 1) ∧
    decode .ccode 0x370E200D = some (.vexp2 67 68 1 1 1) ∧ decode .ccode 0x390E200D = some (.vlog2 67 68 1 1 1) ∧
    decode .ccode 0x3B0E200D = some (.vsum 67 68 1 1 1) ∧ decode .ccode 0x3D0E200D = some (.vmaxr 67 68 1 1 1) ∧
    decode .ccode 0x3F0E245D = some (.vperm 67 68 69 1 1 1) ∧ decode .ccode 0x410E200D = some (.vbcast 67 68 1 1 1) ∧
    decode .ccode 0x430E200D = some (.vmov 67 68 1 1 1) ∧ decode .ccode 0x450E200D = some (.vclass 67 68 1 1 1) ∧
    decode .ccode 0x470E200D = some (.vpopc 67 68 1 1 1) ∧ decode .ccode 0x490E200D = some (.vmagsum 67 68 1 1 1) ∧
    decode .ccode 0x4B0E245D = some (.vrelax 67 68 69 1 1 1) ∧ decode .ccode 0x4D0E245D = some (.vrule 67 68 69 1 1 1) ∧
    decode .ccode 0x4F0E005D = some (.mcfg 67 8197 1 1 1) ∧ decode .ccode 0x510C000D = some (.mzero 67 1 1 1) ∧
    decode .ccode 0x530E200D = some (.mtr 67 68 1 1 1) := by decide

/-- M-words (R66, R67): words put together from the opcode table's bits, one for each instruction. -/
theorem test_decode_m_words :
    decode .ccode 0x8202C69D = some (.mma 5 17 1 2 1 1 1 1) ∧ decode .ccode 0x8202C6BD = some (.mmaE 5 17 1 2 1 1 1 1) ∧
    decode .ccode 0x845446BD = some (.mmaA 5 8 17 1 2 1 1 1 1) ∧ decode .ccode 0x8602C69D = some (.mabs 5 17 1 2 1 1 1 1) ∧
    decode .ccode 0x8602C6BD = some (.mabsE 5 17 1 2 1 1 1 1) ∧ decode .ccode 0x8850008D = some (.wld 5 2 1 1 1) ∧
    decode .ccode 0x8A50008D = some (.wstr 5 2 1 1 1) ∧ decode .ccode 0x8C50228D = some (.accrd 5 8 1 2 1 1 1) ∧
    decode .ccode 0x8C542EAD = some (.accrdE 5 8 11 1 2 1 1 1) ∧ decode .ccode 0x8E00028C = some (.acczr 1 2 1 1) ∧
    decode .ccode 0x9002C6BD = some (.mwin 5 17 1 2 1 1 1 1 1) ∧ decode .ccode 0x9202C6BD = some (.mdw 5 17 1 2 1 1 1 1 1) := by decide

/-- T-words (R69, R70): words put together from the opcode table's bits, one for each instruction. -/
theorem test_decode_t_words :
    decode .tcode 0x04A85B9D = some (.tld 5 8 11 14 1 1 1 1) ∧ decode .tcode 0x08A85B8E = some (.tst 5 8 11 14 0 1 1 2) ∧
    decode .tcode 0x0CA802CD = some (.cpy 5 8 11 1 1 1) ∧ decode .tcode 0x10A85B9D = some (.gat 5 8 11 14 1 1 1 1) ∧
    decode .tcode 0x14A85B8E = some (.sct 5 8 11 14 0 1 1 2) ∧ decode .tcode 0x18A85B9D = some (.win 5 8 11 14 1 1 1 1) ∧
    decode .tcode 0x1CA8000C = some (.rclone 5 8 1 1) ∧ decode .tcode 0x20A8000C = some (.rinit 5 8 1 1) ∧
    decode .tcode 0x24A85BBC = some (.wfeed 5 8 11 14 1 1) ∧ decode .tcode 0x2805400C = some (.rgwf 5 8 1 1) ∧
    decode .tcode 0x2C05400C = some (.rgwe 5 8 1 1) ∧ decode .tcode 0x3005400C = some (.rgclaim 5 8 1 1) ∧
    decode .tcode 0x3405400C = some (.rgpush 5 8 1 1) ∧ decode .tcode 0x3805400C = some (.rgpop 5 8 1 1) ∧
    decode .tcode 0x3C00280C = some (.rgend 5 1 1) ∧ decode .tcode 0x40A0020C = some (.tdset 5 8 1 1) := by decide

/-- Words the manual writes out beside their source (its instruction entries and its program of an enclosing layer). -/
theorem test_words_of_the_manual :
    decode .kcode 0xE1186400 = some (.sub 6 3 4) ∧ decode .kcode 0xE79CE003 = some (.shli 7 7 3) ∧ decode .kcode 0xE9240040 = some (.lui 9 0x40) ∧
    decode .kcode 0xECFC0014 = some (.jal 31 20) ∧ decode .kcode 0xED808003 = some (.loop 4 3) ∧ decode .tcode 0xEF800001 = some (.tkwait 1) ∧
    decode .kcode 0x03CA638F = some (.sel 5 6 7 3 3) ∧ decode .kcode 0x050A638C = some (.lea 5 6 7 3) ∧ decode .kcode 0x21924FFE = some (.ldsH 9 4 0xFFE) ∧
    decode .kcode 0x468A6091 = some (.fcvt 5 6 1 2 1) ∧ decode .kcode 0x61C00009 = some (.fence 2 1) ∧ decode .kcode 0xA44A6061 = some (.rgStat 5 6 3 1) ∧
    decode .kcode 0xA816C000 = some (.symAlloc 11 12) := by decide

/-! ## Scalar words: hypotheses that can be met, and one step each -/

/-- ScalarWordsWriteTheirResult. -/
theorem witness_scalar : (st .k [(1, 5)]).readyFor [1, 0] = true ∧ (st .l []).readyFor [31, 2] = true ∧ (st .f []).readyFor [1, 2] = true := by decide
theorem test_add_wraps : ran (exec (.add 5 1 2) (st .k [(1, 0xFFFFFFFFFFFFFFFF), (2, 2)])) (fun t => t.reg 5 == 1 && t.seq.pc == 4) = true := by decide
theorem test_s0_stays_zero : ran (exec (.addi 0 1 1) (st .s [(1, 7)])) (fun t => t.reg 0 == 0 && t.seq.pc == 4) = true := by decide
theorem test_sra_of_a_negative : ran (exec (.sra 3 1 2) (st .c [(1, 0x8000000000000000), (2, 65)])) (fun t => t.reg 3 == 0xC000000000000000) = true := by decide

/-- IntegerWordsWriteTheirResult: the divider free, and busy until after the next cycle. -/
theorem witness_integer : (st .k [(1, 5)]).readyFor [3, 1, 2] = true ∧ (st .k []).here.divTill ≤ 100 ∧
    ((st .k []).up fun c => { c with divTill := 101 }).readyFor [1, 2] = true := by decide
theorem test_div_of_the_least_by_minus_one : ran (exec (.div 5 1 2 2) (st .k [(1, 0x80000000), (2, 0xFFFFFFFFFFFFFFFF)]))
    (fun t => t.reg 5 == 0xFFFFFFFF80000000) = true := by decide
theorem test_remn_by_zero : ran (exec (.remn 5 1 2 0) (st .k [(1, 0x1FF)])) (fun t => t.reg 5 == 0xFF) = true := by decide

/-- PredicateWordsWriteAPredicate: predicates 0, 7 and 8. -/
theorem witness_predicates : (st .k []).canIssue = true ∧ (st .k [(1, 1)]).readyFor [1, 2] = true ∧ (7 : BitVec 5).toNat < 8 ∧ 8 ≤ (8 : BitVec 5).toNat := by
  decide
theorem test_cmp_sign : ran (exec (.cmp 2 1 0 0 2 2) (st .k [(1, 0x80000000)])) (fun t => t.pred 2) = true := by decide
theorem test_p0_stays_one : ran (exec (.pnot 0 0) (st .k [])) (fun t => t.pred 0) = true := by decide

/-- ControlGoesToItsTarget: outside loops and macros, in a macro, at the end of a loop body, and with a misaligned target. -/
theorem witness_control : (st .k [(2, 6)]).readyFor [1, 2] = true ∧ (st .k []).seq.mpos = none ∧ (st .k []).seq.loops = [] ∧
    ((st .k [(2, 6)]).reg 2).toNat % 4 ≠ 0 ∧
    (((st .k []).modSeq fun q => { q with mpos := some { idx := 0, p := some 1, word := 0, last := false } }).seq.mpos.isSome) = true ∧
    (∃ e ∈ ((st .k []).modSeq fun q => { q with loops := [{ start := 0, stop := 0, rem := 2 }] }).seq.loops, e.stop = 0) := by decide
theorem test_bne_back : ran (exec (.bne 5 0 0x1FFD) ((st .l [(5, 1)]).modSeq fun q => { q with pc := 0x100 })) (fun t => t.seq.pc == 0xF4 && t.seq.nextIssue == 102) = true := by
  decide
theorem test_jal_links : ran (exec (.jal 31 20) (st .k [])) (fun t => t.reg 31 == 4 && t.seq.pc == 80) = true := by decide

/-- FloatWordsRoundOnceAndSetFlags: 1/3 is inexact with and without its trap enabled; the divider free and busy. -/
theorem witness_float : let f := fmtP 0
    (st .k [(1, 0x3F800000), (2, 0x40400000)]).readyFor [3, 1, 2] = true ∧
    (fpResult (st .k []) f (fpMode (st .k []) 1) (Fv.div (fpRead (st .k [(1, 0x3F800000)]) f 1).1 (fpRead (st .k [(2, 0x40400000)]) f 2).1) 0).2 &&&
      teOf ((st .k []).modSeq fun q => { q with fcsr := 0x1F000 }).seq.fcsr ≠ 0 ∧ teOf (st .k []).seq.fcsr = 0 := by decide
theorem test_fdiv_down_and_up : ran (exec (.fdiv 0 5 1 2 2) (st .k [(1, 0x3F800000), (2, 0x40400000)])) (fun t => t.reg 5 == 0x3EAAAAAA) = true ∧
    ran (exec (.fdiv 0 5 1 2 3) (st .k [(1, 0x3F800000), (2, 0x40400000)])) (fun t => t.reg 5 == 0x3EAAAAAB) = true := by decide

/-- FloatWordsConvertAndSelect: types 0 to 5, the predicate fields 7 and 8, a signalling NaN whose trap is enabled. -/
theorem witness_conversions : (st .k []).readyFor [1] = true ∧ (st .k []).readyFor [1, 2] = true ∧
    (fpRead (st .k [(1, 0x7FA00000)]) (fmtP 0) 1).2 ||| (Fv.minmax false false (fpRead (st .k [(1, 0x7FA00000)]) (fmtP 0) 1).1 (.fin false 0)).2 = fNV := by decide
theorem test_fcvt_of_minus_two_and_a_half : ran (exec (.fcvt 5 6 1 2 1) (st .k [(6, 0xC004000000000000)]))
    (fun t => t.reg 5 == 0xFFFFFFFFFFFFFFFE && t.seq.fcsr &&& 0x1F == 1) = true := by decide
theorem test_fmin_of_zeros : ran (exec (.fmin 0 5 1 2 0) (st .k [(1, 0), (2, 0x80000000)])) (fun t => t.reg 5 == 0x80000000) = true := by decide

/-- LoopsRunTheirBody: room for a body of 4,095 words, none for one of 0, a count of 0, and a fourth loop. -/
theorem witness_loops : (st .l [(1, 2)]).readyFor [1] = true ∧ (st .l [(1, 2)]).reg 1 ≠ 0 ∧ (st .l []).reg 1 = 0 ∧ (4095 : BitVec 13).toNat ≤ 4095 ∧
    ((st .l []).modSeq fun q => { q with loops := List.replicate 4 { start := 4, stop := 8, rem := 1 } }).seq.loops.length = 4 := by decide
theorem test_loop_pushes : ran (exec (.loop 4 3) (st .k [(4, 5)])) (fun t => t.seq.loops == [{ start := 4, stop := 12, rem := 5 }] && t.seq.pc == 4) = true := by decide
theorem test_loop_of_no_turn : ran (exec (.loop 4 3) (st .k [])) (fun t => t.seq.loops == [] && t.seq.pc == 16) = true := by decide

/-- CsrsAreReadAndWritten: a CSR of K's own, one of C, a read-only one, a reserved value, and `fwshare` in K. -/
theorem witness_csrs : (st .k []).readyFor [] = true ∧ (st .k []).seq.flagAt ≤ 100 ∧ csrRead (st .k []) 0x010 = some 0 ∧ csrRead (st .k []) 0x003 = some 0 ∧
    csrOk 0x010 6 = true ∧ csrOk 0x020 0 = true ∧ csrRO 0x030 = true ∧ csrRO 0x010 = false ∧ csrOk 0x078 0x40 = false ∧
    csrRead (st .k []) 0x030 = some 100 ∧ csrRead (st .k []) 0x060 = some 16 ∧
    (st .f []).readyFor [] = true ∧ (st .f []).here.events = [] ∧ (st .f []).here.evDrops = 0 ∧
    100 < ((st .k []).modSeq fun q => { q with flagAt := 101 }).seq.flagAt := by decide
theorem test_csrr_ccount : ran (exec (.csrr 5 0x030) (st .k [])) (fun t => t.reg 5 == 100) = true := by decide
theorem test_csrw_of_c_acts_at_the_next_cycle : ran (exec (.csrw 1 0x021) (st .k [(1, 0x203)])) (fun t => t.here.vec.tix == 0 && (t.tick.core 0).vec.tix == 0x203) = true := by
  decide

/-! ## Traps -/

/-- K or F with a handler at depth `d`. -/
def handled (q : Ctx) (d : Nat) : State := (st q [(1, 5)]).up fun c => c.setSup q { Sup.reset with tvec := 0x1000, hdepth := d }

/-- TrapWordsTakeTheTrap: codes 1, 0x13, 0 and 0x14, in K and F, depths 0 and 3, and DBGH. -/
theorem witness_trap_words : (handled .k 0).canIssue = true ∧ (handled .f 3).canIssue = true ∧ ((handled .f 3).here.sup .f).hdepth < 4 ∧
    ((handled .k 3).here.sup .k).tvec ≠ 0 ∧ ((handled .k 0).here.snapctl.getLsbD 3) = false ∧
    ((handled .k 0).up fun c => { c with snapctl := 8 }).here.snapctl.getLsbD 3 = true := by decide
theorem test_brk_enters : ran (exec (.brk 7) (handled .k 0)) (fun t => t.here.supK.tval == 7 && t.here.supK.tcause &&& 0xFF == 0x12 && t.here.supK.hdepth == 1 &&
    t.seq.pc == 0x1000 && t.here.supK.tepc == 0) = true := by decide

/-- RaisedCausesAreTaken: with a handler, without one, and at depth 4. -/
theorem witness_causes : (handled .k 3).here.supK.hdepth < 4 ∧ (st .k []).here.supK.tvec = 0 ∧ 4 ≤ (handled .k 4).here.supK.hdepth ∧ (handled .f 0).cur.2 = .f := by decide
theorem test_fatal_at_depth_four : ran (exec (.trap 1) (handled .k 4)) (fun t => t.here.fatal == some (1, 0) && t.here.supK.hdepth == 4) = true := by decide

/-- L has stopped with a fault and K is at a boundary. -/
def stopped : State := (handled .k 0).up fun c => { c with l := { c.l with stop := some { code := 4, val := 9, off := 2, mac := none, late := false, held := none } } }

/-- SequencerFaultsReachK. -/
theorem witness_sequencer_faults : (st .c []).cur.2 = .c ∧ stopped.trapDue 0 = true ∧ (stopped.core 0).supK.tvec ≠ 0 ∧ (stopped.core 0).k.loops.length ≤ 4 ∧
    (stopped.core 0).nextTrap = some (.l, { code := 4, val := 9, off := 2, mac := none, late := false, held := none }) := by decide
theorem test_stop_names_l : ran (exec (.trapTake 0) stopped) (fun t => (t.core 0).supK.tsw == 0x100000 && (t.core 0).supK.tval == 9) = true := by decide

/-- TretRestoresWhatEntrySaved: depth 1, depth 0, a `tsw` with 5 loops or a reserved bit, a misaligned `tepc`, FATAL. -/
theorem witness_tret : (handled .k 1).canIssue = true ∧ (handled .k 1).seq.mpos = none ∧ (handled .k 1).here.supK.hdepth ≠ 0 ∧ (handled .k 1).here.supK.tepc.toNat % 4 = 0 ∧
    (handled .k 1).here.supK.tsw &&& tswReserved = 0 ∧ (handled .k 0).here.supK.hdepth = 0 ∧ (8 : Word) &&& tswReserved ≠ 0 ∧
    (2 ^ 24 : Word) &&& tswReserved = 0 ∧ (2 ^ 24 : Word).getLsbD 24 = true ∧ (0x2100000 : Word) &&& tswReserved = 0 ∧
    (0x2100000 : Word).getLsbD (19 + ctxNum .l) = true ∧ (0x2100000 : Word).getLsbD 25 = true ∧ stopped.here.l.stop.map StopRec.held = some none := by decide
theorem test_tret_goes_back : ran (exec .tret ((handled .k 1).up fun c => { c with supK := { c.supK with tepc := 0x40 } }))
    (fun t => t.seq.pc == 0x40 && t.here.supK.hdepth == 0) = true := by decide
theorem test_tret_skips_the_word_of_l : ran (exec .tret (stopped.up fun c => { c with supK := { c.supK with hdepth := 1, tsw := 0x2100000, tcause := 0x104 } }))
    (fun t => t.here.l.stop == none && t.here.l.pc == 4) = true := by decide

/-- UnallocatedWordsAreIllegal. -/
theorem witness_unallocated : (handled .k 0).canIssue = true ∧ decode .kcode 0 = none := by decide

/-! ## Queues, waits and memory words -/

/-- DataQueueWordsMoveEntries: q0 of K has room and holds 8, q5 of K holds an entry and none, q4 is not K's; F may issue. -/
theorem witness_data_queues : (st .k [(1, 5)]).canIssue = true ∧ (st .f []).canIssue = true ∧ (st .f []).cur.2 = .f ∧ (st .k []).readable 1 = true ∧ ((st .k []).here.dq 0).canPush 8 100 = true ∧
    (holding (List.replicate 8 { val := some (1 : Word), vis := 0, cov := Cover.none })).canPush 8 100 = false ∧
    (holding [{ val := some (7 : Word), vis := 100, cov := Cover.none }]).front 100 = some (7, Cover.none) ∧
    ((st .k []).here.dq 5).front 100 = none := by decide
theorem test_qpush_is_visible_next_cycle : ran (exec (.qpush 0 1) (st .k [(1, 9)])) (fun t => (t.here.dq 0).entries == [{ val := some 9, vis := 101, cov := t.covering }]) = true := by
  decide

/-- TokenWordsMoveTokens: K to L with room and full, a token visible and none, a queue of another pair, masks with and without K's own bit; F may issue. -/
theorem witness_tokens : (st .k []).canIssue = true ∧ (st .f []).canIssue = true ∧ (st .f []).cur.2 = .f ∧ ctxNum (st .k []).cur.2 = 0 ∧ ((st .k []).here.tkOf 1).canPush 15 100 = true ∧
    (holding (List.replicate 15 { val := some (), vis := 0, cov := Cover.none })).canPush 15 100 = false ∧
    (holding [{ val := some (), vis := 100, cov := Cover.none }]).front 100 = some ((), Cover.none) ∧
    ((st .k []).here.tkOf 4).front 100 = none ∧ (14 : BitVec 4).getLsbD 0 = false := by decide
theorem test_tkmask : ran (exec (.tkmask 4 6) (st .k [])) (fun t => t.seq.wmask == 6 && t.seq.pmask == 4) = true := by decide

/-- HaltsWaitAndRetire: outside loops and macros, in K with an open group, in F, and L at rest with its halt issued. -/
theorem witness_halts : (st .k []).canIssue = true ∧ (st .l []).noTransfer = false ∧ (st .k []).seq.macroQ = [] ∧ (st .k []).here.group.isOpen = false ∧
    ((st .k []).up fun c => { c with group := { Group.reset with isOpen := true } }).here.group.isOpen = true ∧ (st .f []).cur.2 = .f ∧
    (((st .l []).up fun c => { c with l := { c.l with halting := true } }).core 0).l.halting = true ∧ ((st .l []).core 0).tl.flight = [] := by decide
theorem test_halt_of_l_retires : ran (exec (.sequencerHaltRetire 0 .l) ((st .l []).up fun c => { c with l := { c.l with halting := true } }))
    (fun t => (t.core 0).l.halted) = true := by decide

/-- WaitsAndCallsOfK: everything performed, a store pending, an event for `wfi`, snapshots on, a macro whose image reads as empty words. -/
theorem witness_waits : (st .k []).covered (st .k []).seq.cover = true ∧ (st .k []).released = true ∧
    ((st .k []).up fun c => { c with storeSeq := 1, fwd := [pend (.dev 0) [1]] }).released = false ∧
    (st .k []).wfiReady = false ∧ ((st .k []).up fun c => c.setDq 5 (holding [{ val := some 7, vis := 0, cov := Cover.none }])).wfiReady = true ∧
    ((st .k []).up fun c => { c with snapctl := 1 }).here.snapctl.getLsbD 0 = true ∧ (1 : BitVec 5).toNat ≤ 28 ∧
    ends (fetchMacro 0 1 63) (st .k []) (fun _ u => decide (u.cur = (0, Ctx.k)) && (u.here.seq .l).macroQ.isEmpty) = true ∧
    ((st .k []).up fun c => { c with l := { c.l with macroQ := List.replicate 4 { idx := 0, p := 1, vis := 0 } } }).here.l.macroQ.length = 4 ∧
    ((st .k []).up fun c => { c with l := { c.l with halted := true } }).here.l.halted = true ∧
    (st .k []).covered { stores := [], till := 101 } = false := by decide
theorem test_mcall_of_k : ran (exec (.mcall 5 0 2) (st .k [])) (fun t => t.seq.mpos == some { idx := 2, p := some 5, word := 0, last := false }) = true := by decide

/-- A stored word: 0x11223344 at 0x40. -/
def stored : State := { st .k [(1, 0x40), (2, 0x55667788)] with mem := [(0x40, 0x44), (0x41, 0x33), (0x42, 0x22), (0x43, 0xF1)] }

/-- LoadsReadTheirBytes: an address past 2^57, a misaligned one, an unmapped one, device memory, host-tier memory, F's device memory and BAR0. -/
theorem witness_loads : ends (walkReads 0 0 0x40) stored (fun _ u => decide (u = stored)) = true ∧ ends (walkReads 0 0 0x40000000) stored (fun _ u => decide (u = stored)) = true ∧
    stored.linked (.remote 1 0) = true ∧ ({ stored with dev := { stored.dev with zen := false } } : State).linked (.remote 1 0) = false ∧ stored.readyFor [1] = true ∧ stored.covered stored.seq.cover = true ∧ 2 ^ 57 ≤ (0x200000000000000 : Word).toNat ∧
    aims (stored.targetOf 0 .k 0x40 .read) (.dev 0x40) ∧ misses (stored.targetOf 0 .k 0x40000000 .read) 5 ∧ stored.here.watchHit 0x40 4 false = none ∧
    (stored.up fun c => { c with wpt := [(0, 0x42)] }).here.watchHit 0x40 4 false = some 0x40 ∧
    aims (({ stored with tcache := [{ place := 256, job := 0, base := 0, size := 2 ^ 30, lv := 2, entry := 0x400000000000000F }] } : State).targetOf 0 .k 0x40 .read) (.host 0x40) ∧
    ends (kRead 0 (.dev 0x40) 0x40 4) stored (fun b _ => b == [0x44, 0x33, 0x22, 0xF1]) = true ∧ aims (stored.targetOf 0 .f 0x40 .read) (.dev 0x40) ∧
    aims (stored.targetOf 0 .f 0x1000000000008 .read) (.bar 8) ∧ ends (readTarget (.dev 0x40) 4 0x40) stored (fun _ _ => true) = true := by decide
theorem test_lds_extends : ran (exec (.ldsW 5 1 0) stored) (fun t => t.reg 5 == 0xFFFFFFFFF1223344) = true := by decide
theorem test_ld_misaligned : ran (exec (.ldW 5 1 2) (handled .k 0)) (fun t => decide (t = (handled .k 0).raise 0x04 7)) = true := by decide

/-- StoresAreForwardedAndPerformed: a free entry and 16 pending, and a pending store at the end of its block. -/
theorem witness_stores : stored.readyFor [2, 1] = true ∧ aims (stored.targetOf 0 .k 0x40 .write) (.dev 0x40) ∧ stored.here.watchHit 0x40 8 true = none ∧
    stored.here.fwdFree 100 = true ∧ stored.here.capturing = false ∧
    (stored.up fun c => { c with fwd := List.replicate 16 (pend (.dev 0) [1]) }).here.fwdFree 100 = false ∧
    stored.inOrder 0 1 stored.seq.cover (.slice 0 8) = true ∧ stored.locked (.slice 0 8) 4 = false ∧ stored.inOrder 0 1 Cover.none (.dev 0x40) = true ∧
    (stored.up fun c => { c with fwd := [pend (.dev 0) [1]] }).inOrder 0 2 Cover.none
      (.slice 0 8) = false ∧ (captureAll 1 [] 0x40 [1, 2]).isSome = true ∧
    stored.siteHeld 0x78 8 = false ∧ 0x78 % 64 + 8 ≤ 64 ∧ Tab.get false stored.poison 1 = false ∧ Tab.get 0 stored.latent 1 < 2 := by decide
theorem test_store_forwards_then_lands : ran (exec (.stH 2 1 2) stored) (fun t => (fwdByte (t.here.liveFwd 100) 0x43).map (·.2) == some 0x77 && t.devBytes 0x43 1 == [0xF1] &&
    ran (exec (.writePerformed 0) t) (fun u => u.devBytes 0x40 5 == [0x44, 0x33, 0x88, 0x77, 0])) = true := by decide

/-! ## Atomics, rings and groups -/

/-- The request of an `amo.min.w` at 0x40. -/
def minReq : AmoReq := { id := 1, seq := 1, pres := none, op := 5, dbl := false, ret := some 7, va := 0x40, tgt := .dev 0x40, opnd := 5, cmp := 0, fcsr := 0, cover := Cover.none, src := (0, none) }

/-- AtomicWordsSendTheirRequest. -/
theorem witness_atomic_words : stored.readyFor [1, 2, 3] = true ∧ stored.covered stored.seq.cover = true ∧ aims (stored.targetOf 0 .k 0x40 .atomic) (.dev 0x40) ∧
    stored.here.capturing = false ∧ stored.here.watchHit 0x40 8 false = none ∧ stored.here.watchHit 0x40 8 true = none ∧
    (stored.up fun c => { c with group := { Group.reset with isOpen := true } }).here.capturing = true ∧ misses (stored.targetOf 0 .k 0x40000000 .atomic) 5 ∧
    stored.amoMay 0 { minReq with seq := 1, tgt := .slice 0 8 } = true ∧
    (stored.up fun c => { c with amos := [minReq] }).amoMay 0 { minReq with seq := 2, tgt := .slice 0 8 } = false ∧ aims (physTarget 0x40) (.dev 0x40) ∧
    stored.locked (.dev 0x40) 8 = false ∧ stored.siteHeld 0x40 8 = false := by decide

/-- The same, presented ten cycles ago. -/
def waiting : AmoReq := { minReq with pres := some (90, 0) }

/-- AtomicsActAtTheirHome. -/
theorem witness_atomics : ((stored.up fun c => { c with amos := [minReq] }).core 0).amos = [minReq] ∧ stored.amoMay 0 minReq = true ∧
    (stored.up fun c => { c with amos := [waiting] }).amoDue 0 waiting = true ∧ stored.amoMay 0 { minReq with cover := { stores := [], till := 200 } } = false ∧
    stored.amoDue 0 { minReq with pres := some (95, 0) } = false ∧
    stored.siteHeld 0x40 4 = false ∧ Tab.get 0 stored.latent 1 = 0 ∧ (0xFFFFFFFF : Nat) < 2 ^ 32 := by decide
theorem test_amo_min_is_signed : ran (exec (.atomicApply 0) (stored.up fun c => { c with amos := [waiting], kWait := some (.atomic 1) }))
    (fun t => (t.core 0).k.reg 7 == 0xF1223344 && t.devBytes 0x40 4 == [0x44, 0x33, 0x22, 0xF1]) = true := by decide

/-- Ring 2 of core 0, its home: 4 entries of 4 KiB at the start of the slice window, with its claim, tail and head; `colo` says that the last
claimed position is the colophon. -/
def ring2 (q : Ctx) (claim tail head : Nat) (colo : Bool) : State :=
  { st q [(1, 2), (5, 0x4000000000), (6, 0x1006280000), (7, 0x4000001000)] with jobs := [(0, { JobRec.none with j0 := 0x4000000000, made := true })] }.up fun c =>
    c.setRing 2 { Ring.reset with base := 0x4000000000, ctl := 0x1006280000, claim := claim, tail := tail, head := head, colo := colo
                                  pushed := (List.range (tail - head)).map (· + head) }

/-- RingWordsOfKTakeEffect: words that pass and a reserved bit, a proxy, the ring named by a word in flight, a selector with operand 0. -/
theorem witness_ring_words_of_k : (ring2 .k 0 0 0 false).readyFor [5, 6] = true ∧ (ring2 .k 0 0 0 false).ringOk 0 0 2 0x4000000000 0x1006280000 = true ∧
    (ring2 .k 0 0 0 false).ringOk 0 0 2 0x4000000000 0x1006280001 = false ∧ (ring2 .k 0 0 0 false).ringNamed 0 2 = false ∧
    ((ring2 .k 0 0 0 false).up fun c => { c with tl := { c.tl with flight := [{ TFlight.blank (st .l []) with kind := .ringWord, op := 0x0D, target := 2 }] } }).ringNamed 0 2 = true ∧
    ({ Ring.reset with ctl := 0x400000000 } : Ring).proxy = true ∧ ((ring2 .k 0 0 0 false).here.ring 2).proxy = false ∧ (ring2 .k 0 0 0 false).here.ringPend = [] ∧
    (ring2 .k 0 0 0 false).reg 0 = 0 ∧ (ring2 .k 0 0 0 false).covered (ring2 .k 0 0 0 false).seq.cover = true := by decide
theorem test_rg_set_acts_next_cycle : ran (exec (.rgSet 7 6 2) (ring2 .k 3 2 1 false))
    (fun t => (t.here.ring 2).claim == 3 && ((t.tick.core 0).ring 2).base == 0x4000001000 && ((t.tick.core 0).ring 2).claim == 0) = true := by decide

/-- RingHomesGrantAndPop: a claim with an entry free, with none, and behind a colophon; a pop at HEAD and before its turn. -/
theorem witness_ring_homes : ((ring2 .l 3 3 0 false).here.ring 2).valid = true ∧ 1 ≤ ((ring2 .l 3 3 0 false).here.ring 2).free ∧
    ((ring2 .l 4 4 0 false).here.ring 2).free = 0 ∧ ((ring2 .l 4 4 0 true).here.ring 2).colo = true ∧
    ((ring2 .l 4 4 0 false).here.ring 2).head ≤ 2 ∧ 0 ∉ ((ring2 .l 4 4 0 false).here.ring 2).marks := by decide
theorem test_pops_out_of_order : ((((ring2 .l 4 4 0 false).here.ring 2).pop 1).pop 0).head = 2 := by decide

/-- K's group: open, of one line at 0x40 with bytes 0 and 63 valid. -/
def grouped : State := stored.up fun c => { c with group := { Group.reset with isOpen := true, lines := [{ blk := 0x40, seq := 1, mask := 0x8000000000000001, data := 0x99 }] } }

/-- GroupsOpenCloseAndPerform: closed, open and unbound, bound; a line in device memory. -/
theorem witness_groups : (st .k []).here.group.isOpen = false ∧ grouped.here.group.isOpen = true ∧ grouped.here.group.bound = none ∧ grouped.canIssue = true ∧
    ends (commitGroup 0 id) grouped (fun k u => decide (u.cur = grouped.cur) && decide (k = 1)) = true ∧ aims (grouped.targetOf 0 .k 0x40 .write) (.dev 0x40) ∧
    grouped.siteHeld 0x40 64 = false ∧ grouped.locked (.dev 0x40) 64 = false ∧ grouped.storesDone 0 = true ∧ ends (abortGroup 0) grouped (fun k u => decide (u.cur = grouped.cur) && decide (k = 1)) = true ∧
    ends (resolve 0 .k 0x40 .write) grouped (fun t u => decide (t = .dev 0x40) && decide (u = grouped)) = true ∧ ends (performLine 0 { blk := 0x40, seq := 1, mask := 1, data := 0x99 }) grouped (fun _ _ => true) = true ∧
    (grouped.up fun c => { c with group := { c.group with bound := some 1 } }).here.group.bound.isSome = true := by decide
theorem test_commit_performs_the_valid_bytes : ran (exec (.grpCommit 5) grouped) (fun t => t.reg 5 == 1 && t.devBytes 0x40 2 == [0x99, 0x33] && !t.here.group.isOpen) = true := by
  decide

/-! ## T-words -/

/-- A descriptor of 16 elements of 4 bytes (R180). -/
def td16 : BitVec 512 := 0x2000100001000100

/-- L or S with descriptor 0 loaded and register 8 at 0x1000; the words 0 to 15 stand there. -/
def copying (q : Ctx) (claim tail head : Nat) (colo : Bool) : State :=
  { (((ring2 q claim tail head colo).up fun c => { c with tl := { c.tl with td := [(0, td16)] }, ts := { c.ts with td := [(0, td16)] } }).modSeq
      fun s => { s with regs := [(1, 2), (5, 0x4000000000), (8, 0x1000), (9, 0x2000)] }) with
    mem := (List.range 15).map fun i => (0x1004 + 4 * i, BitVec.ofNat 8 (i + 1)) }

/-- A word in flight of the executing sequencer. -/
def flightOf (s : State) (k : TKind) (op target : Nat) : TFlight := { TFlight.blank s with id := 1, kind := k, op := op, target := target }

/-- TransferWordsIssue: a ring with its home, `iq` and `oq`, `q4`, a weight buffer, a target that does not exist, no free slot; rows outside the
window, a buffer in use, a descriptor image. -/
theorem witness_transfers : (copying .l 0 0 0 false).readyFor [8, 0] = true ∧ (copying .l 0 0 0 false).tokensReady 0 0 = true ∧ slotsUsed (copying .l 0 0 0 false).here.tl < 16 ∧
    ((copying .l 0 0 0 false).here.ring 2).valid = true ∧ ((copying .s 1 1 0 false).homeRing 0 2).valid = true ∧ ((copying .l 0 0 0 false).here.iqOf 0).canPush 4 100 = true ∧
    ((holding [{ val := some (5 : Vec), vis := 9, cov := Cover.none }]).front 100).isSome = true ∧ ((copying .l 0 0 0 false).here.dq 4).entries.length + 0 + 8 ≤ 8 ∧
    (copying .l 0 0 0 false).here.bufRead 1 100 = false ∧
    ends (tCheck 0 1 0 td16 0x1000 0 4096) ((copying .l 0 0 0 false).tookTokens 0 0) (fun _ u => decide (u = (copying .l 0 0 0 false).tookTokens 0 0)) = true ∧
    slotsUsed { (copying .l 0 0 0 false).here.tl with flight := List.replicate 16 (flightOf (st .l []) .move 1 2) } = 16 ∧
    ends (rowCheck 0x1000 .write) ((copying .l 0 0 0 false).tookTokens 0 0) (fun _ u => decide (u = (copying .l 0 0 0 false).tookTokens 0 0)) = true ∧
    (copying .l 0 0 0 false).inWindow 0x1000 = false ∧ tdCvt td16 = 0 ∧ tdOk td16 = true ∧ (copying .l 0 0 0 false).covered (copying .l 0 0 0 false).seq.cover = true ∧
    ends (tReadBy false 0 .l 0x1000 64) (copying .l 0 0 0 false) (fun _ v => decide (v.cur = (0, Ctx.l))) = true ∧ (copying .l 0 0 0 false).here.tl.flight = [] := by decide
theorem test_tld_issues : ran (exec (.tld 8 0 2 0 0 0 0 0) (copying .l 0 0 0 false)) (fun t => (t.here.tl.flight.map fun f => (f.op, f.a, f.cursor)) == [(1, 0x1000, 0)]) = true := by
  decide
theorem test_tst_in_l_is_illegal : ran (exec (.tst 8 0 2 0 0 0 0 0) (copying .l 0 0 0 false)) (fun t => (t.seq.stop.map StopRec.code) == some 1) = true := by decide

/-- A block of a `tld` into an `iq` entry moves before the retirement (R174, R179), and no block is left after it. -/
theorem test_a_block_moves : ran (exec (.tld 8 0 0 0 1 0 0 0) (copying .l 0 0 0 false)) (fun t =>
    ran (blockMove 0 .l 0 t) (fun u => u.here.tl.flight.map (fun f => (f.cursor, (f.pvec.getD 0).toNat % 2 ^ 64)) == [(1, 2 ^ 32)] &&
      ran (blockMove 0 .l 0 u) (fun v => v == u))) = true := by decide +kernel

/-- RingWordsIssue: n free, filled and claimed entries, a count above the ring's, a claim behind none, a colophon. -/
theorem witness_ring_words : (copying .l 4 3 0 false).readyFor [1] = true ∧ ((copying .l 4 3 0 false).reg 1).toNat = 2 ∧ 2 ≤ ((copying .l 4 3 0 false).here.ring 2).count ∧
    2 ≤ ((copying .l 4 3 0 false).homeRing 0 2).filled 100 ∧ ((copying .l 4 3 0 false).homeRing 0 2).claimed = 1 ∧ ((copying .l 4 3 0 false).homeRing 0 2).free < 2 ∧
    2 ≤ ((copying .l 2 2 0 false).homeRing 0 2).free ∧ ((copying .l 2 2 0 false).homeRing 0 2).waits = [] ∧ ((copying .l 2 2 0 true).homeRing 0 2).colo = true ∧
    ((copying .l 1 1 0 false).homeRing 0 2).filled 100 < 2 ∧ ((copying .l 1 1 0 false).here.ring 3).valid = false ∧ ((copying .l 1 1 0 false).here.ring 2).count < 5 := by decide
theorem test_rgclaim_claims : ran (exec (.rgclaim 1 2 0 0) (copying .l 2 2 0 false)) (fun t => (t.homeRing 0 2).claim == 4) = true := by decide
theorem test_rgpop_of_too_many : ran (exec (.rgpop 5 2 0 0) (copying .l 2 2 0 false)) (fun t => (t.seq.stop.map StopRec.code) == some 2) = true := by decide

/-- L with one word in flight. -/
def flying (s : State) (f : TFlight) : State := s.up fun c => { c with tl := { c.tl with flight := [f] } }

/-- TransfersRetireInOrder: a popped word, a queued push, a ring push of 2 and a ring pop of filled and unfilled positions; a pop that holds a
colophon. -/
theorem witness_retirement : ((flying (copying .l 4 2 0 false) (flightOf (st .l []) .popped 0 0)).core 0).tl.flight = [flightOf (st .l []) .popped 0 0] ∧
    ((copying .l 4 2 0 false).core 0).l.stop = none ∧ ((copying .l 4 2 0 false).core 0).cutting = .running ∧ ((copying .l 4 2 0 false).core 0).debugHalt = .running ∧
    [0, 1].all (((copying .l 4 2 0 false).homeRing 0 2).isFilled 100) = true ∧ [2].all (((copying .l 4 2 0 false).homeRing 0 2).isFilled 100) = false ∧
    [0, 1].any ((copying .l 4 2 0 false).homeRing 0 2).isColophon = false ∧ ((copying .l 4 4 0 true).homeRing 0 2).isColophon 3 = true ∧
    ((copying .l 4 4 0 true).here.ring 2).fwdEn = false ∧ ({ flightOf (st .l []) .ringWord 0x0E 2 with taken := [3] } : TFlight).reads = [3] := by decide
theorem test_push_retires : ran (exec (.transferRetire 0 .l) (flying (copying .l 4 2 0 false) { flightOf (st .l []) .ringWord 0x0D 2 with l := 2 }))
    (fun t => (t.homeRing 0 2).tail == 4 && (t.core 0).tl.flight == []) = true := by decide
theorem test_colophon_ends_l : ran (exec (.colophonMeet 0 .l) (flying (copying .l 4 4 3 true) { flightOf (copying .l 4 4 3 true) .ringWord 0x0E 2 with taken := [3] }))
    (fun t => (t.core 0).l.halting && !(t.homeRing 0 2).colo && (t.homeRing 0 2).head == 4) = true := by decide

/-! ## The matrix engine and the vector side -/

/-- C with w0 full of BF16 zeros and one pushed entry of B in ring 2; register 3 holds 16 columns, register 4 a stamp. -/
def matrixing (stamp : Word) : State :=
  ((ring2 .c 1 1 0 false).up fun c => { c with mat := { MUnit.reset with w0 := { st := 2, esize := 2, img := [] } } }).modSeq fun q => { q with regs := [(3, 16), (4, stamp)] }

/-- The step `mma.bf16 a0, w0, rg2, s3`. -/
def mmaArgs : MArgs := { op := 1, ra := 0, rb := 2, acc := 0, fmt := 2, e := false, buf := 0, n := 16, rnd := 0 }

/-- MatrixWordsIssue: ready, an entry too small, late with slack 0, early, on time with slack 4,095. -/
theorem witness_matrix : (matrixing 100).readyFor [3, 4] = true ∧ mGroup1 (matrixing 100) 0 mmaArgs = true ∧ mReady (matrixing 100) 0 mmaArgs false = true ∧
    mGroup3 (matrixing 100) 0 mmaArgs = none ∧ mMeets (matrixing 100).here mmaArgs = none ∧ attStepReady (matrixing 100) 0 = false ∧ (matrixing 100).tokensReady 0 0 = true ∧
    mGroup1 (matrixing 100) 0 { mmaArgs with n := 48 } = false ∧ mReady (matrixing 100) 0 { mmaArgs with buf := 1 } false = false ∧
    mGroup3 (matrixing 100) 0 { mmaArgs with fmt := 3 } = some 2 ∧ sextNat (100 % 2 ^ 52 + (2 ^ 52 - 99)) 52 = 1 ∧ sextNat (100 % 2 ^ 52 + (2 ^ 52 - 101)) 52 = -1 ∧
    (0xFFF0000000000063 : Word).toNat / 2 ^ 52 = 4095 := by decide
theorem test_mma_due : ran (exec (.mma 2 3 0 2 0 0 0 0) (matrixing 0)) (fun t => (t.here.mat.flight.map MFlight.due) == [139] && t.here.mat.arrayTill == 116) = true := by decide
theorem test_late_step_misses : ran (exec (.mma 2 3 0 2 1 0 0 0) (matrixing 99)) (fun t => (t.seq.stop.map fun r => (r.code, r.val)) == some (7, 99)) = true := by decide
theorem test_early_step_waits : ran (exec (.mma 2 3 0 2 1 0 0 0) (matrixing 101)) (fun t => !t.issued && t.here.mat.flight == []) = true := by decide

/-- An M flight of an operation that is due. -/
def mflight (op : Nat) : MFlight := { MFlight.blank 0 0 none false with id := 1, op := op, due := 100, ringA := 2, ringB := 2, n := 16, fmt := 2, buf := 0, posA := some 0 }

/-- MatrixWordsRetire: each kind of word, alone in flight and due. -/
theorem witness_matrix_retirement : ∀ op ∈ [1, 4, 5, 6, 7], ((matrixing 0).core 0).cutting ≠ .stopped ∧ ((matrixing 0).core 0).debugHalt ≠ .stopped ∧
    nextM 100 (fun g => (isStep g.op == decide (op = 1)) && !((matrixing 0).core 0).holdsM g.id) [] [mflight op] = some (mflight op) ∧ (mflight op).failed = none ∧
    (mflight op).cut = none := by decide
theorem test_acczr_retires : ran (exec (.mWordRetire 0) ((matrixing 0).up fun c => { c with mat := { c.mat with flight := [mflight 7], a0 := { afmt := 2, el := [(0, 1, 0)] } } }))
    (fun t => (t.core 0).mat.a0 == { afmt := 0, el := [] } && (t.core 0).mat.flight == []) = true := by decide

/-- C with FP32 lanes and bound tracking, in the manual's example of R170: v1, v2 and v6 hold 1.0, 1.5 * 2^-24 and 0.25 in lane 0. -/
def lanes : State := (st .c []).up fun c => { c with vec := { VUnit.reset with shape := 0x11, v := [(1, 0x3F800000), (2, 0x33C00000), (6, 0x3E800000)] } }

/-- LaneWordsIssue and OtherVectorWordsIssue: no word in flight, and one that writes v1. -/
theorem witness_vector : lanes.canIssue = true ∧ lanes.vReady (VForm.lanes lanes.here.vec [1, 2] 3 true 4) = true ∧
    lanes.slicesOk (VForm.lanes lanes.here.vec [1, 2] 3 true 4) = true ∧ lanes.slicesOk (VForm.lanes lanes.here.vec [41, 2] 3 true 4) = true ∧
    (lanes.up fun c => { c with vec := { c.vec with tix := 64 } }).slicesOk (VForm.lanes lanes.here.vec [41, 2] 3 true 4) = false ∧ lanes.here.vec.ty = 1 := by decide
theorem test_vadd_of_the_manual : ran (exec (.vadd 3 1 2 0 0 1) lanes) (fun t => t.here.vec.flight.map (fun f => (f.due, f.flags, f.dst.map fun x => (x.2.1.extractLsb' 0 32))) ==
    [(103, 1, [0x3F800001])]) = true := by decide

/-- The vector state after `vadd.rne v3, v1, v2` has issued. -/
def vadding : State := match exec (.vadd 3 1 2 0 0 1) lanes with | .next t => { t with ccount := 103 } | _ => lanes

/-- VectorWordsRetireInOrder and LanesWrapClampOrKeep: a word due in this cycle and one not yet due; lanes of `.s32` and an inactive lane. -/
theorem witness_vector_retirement : (vadding.core 0).vec.flight.length = 1 ∧ (vadding.core 0).vec.flight.all (fun f => decide (f.due ≤ 103)) = true ∧
    ((vadding.core 0).vec.flight.all fun f => decide (102 < f.due)) = true ∧ (vadding.core 0).cutting ≠ .stopped ∧ laneRsv 10 = false ∧ laneW 10 = 32 ∧ 0 < laneL 10 := by decide
theorem test_vadd_retires : ran (exec (.vwordRetire 0) vadding) (fun t => (Tab.get 0 (t.core 0).vec.v 3).extractLsb' 0 32 == 0x3F800001 &&
    Tab.get 0 (t.core 0).vec.eb 0 == 0x33000000 && (t.tick.core 0).c.fcsr == 1) = true := by decide

/-! ## Streams -/

/-- Doublewords at ascending addresses as memory. -/
def cells (l : List (Nat × Nat)) : List Host.Cell :=
  l.flatMap fun x => (List.range 8).filterMap fun i => if x.2 / 2 ^ (8 * i) % 256 = 0 then none else some (x.1 + i, BitVec.ofNat 8 (x.2 / 2 ^ (8 * i)))

/-- Stream 3 of job 0: 2 layers, 2 blocks, G = 2, P = 1, a block table at 0x3000, a pool at 0x3800, one frame slot of 64 bytes at 0x3900, the
recurrent state at 0x3B00; layer 0 holds positions 0 and 1 in a block with its header at 0x10000. `s1` holds 3, `s2` and `s3` as given. -/
def streaming (x y : Word) : State :=
  { st .k [(1, 3), (2, x), (3, y)] with
    streams := [(3, [(0, 0x8000002000020000), (1, 0x200000001), (3, 0x3000), (4, 0x3800), (5, 0x3900), (6, 0x3A00), (10, 0x3B00), (11, 0x3C00), (12, 0x10000020000), (15, 0x3D00)]),
      (4, [(0, 0x8000002000020000), (3, 0x3400), (4, 0x3800)])]
    mem := cells [(0x3000, 0x10000), (0x3800, 0x400000001), (0x3808, 0x3880), (0x3880, 0x10040), (0x3908, 5),
      (0x10000, 3), (0x10008, 0x100300000), (0x10010, 0x20000), (0x10018, 2), (0x10050, 0x20080)] }

/-- The same in a group that is bound to the stream and has all its layers. -/
def emitting (x y : Word) : State :=
  (streaming x y).up fun c => { c with group := { Group.reset with isOpen := true, bound := some 3, layers := [0, 1] } }

/-- KvWordsTakeEffect: a slot read, past the end, a zero entry; a pool that holds a block; a position kept and one dropped; cuts to 1 and past G;
a stream to share with. -/
theorem witness_kv : (streaming 1 1).covered (streaming 1 1).seq.cover = true ∧ (streaming 1 1).storesDone 0 = true ∧ (streaming 1 1).here.amos = [] ∧
    ((streaming 1 1).sd 3 0).getLsbD 63 = true ∧ bitsOf ((streaming 1 1).sd 3 0) 48 8 = 0 ∧ (streaming 1 1).readyFor [1, 2, 3] = true ∧ (streaming 1 1).nlayer 3 = 2 ∧
    (streaming 1 1).maxb 3 = 2 ∧ (streaming 1 1).curG 3 = 2 ∧ ends (kViewW 0 0x3000) (streaming 1 1) (fun e _ => e == 0x10000) = true ∧
    ends (kViewW 0 0x3010) (streaming 1 1) (fun e _ => e == 0) = true ∧ ends (kvHdr 0 0x10000) (streaming 1 1) (fun h _ => decide (h.surv = 3) && decide (h.ref = 1)) = true ∧
    (emitting 1 1).here.capturing = true ∧ (streaming 1 1).here.boundTo 3 = false ∧ ends (kvTake 0 true 0x3800 3 1) (emitting 1 1) (fun e _ => e == some 0x10040) = true ∧
    ends (kvTruncate (streaming 1 1) 3 1) (streaming 1 1) (fun r _ => r) = true ∧ ((streaming 4 1).sd 4 0).getLsbD 63 = true ∧ (streaming 1 1).curG 4 = 0 ∧
    ends (shareEmpty (streaming 3 1) 4) (streaming 3 1) (fun _ _ => true) = true ∧ ends (shareBlocks (streaming 3 1) 4 3 1) (streaming 3 1) (fun _ _ => true) = true := by decide +kernel
theorem test_kv_slot : ran (exec (.kvSlot 5 1 2) (streaming 1 0)) (fun t => t.reg 5 == 0x20040) = true ∧
    ran (exec (.kvSlot 5 1 2) (streaming 2 0)) (fun t => t.reg 5 == 0) = true := by decide +kernel
theorem test_kv_evict_compacts : ran (exec (.kvEvict 3 1 2) (streaming 0 1)) (fun t => t.reg 3 == 1 && t.devBytes 0x10000 1 == [2]) = true := by decide +kernel

/-- DuplexWordsTakeEffect and StreamWordsCheckTheirStream: a frame slot to register, a position to move to, one checkpoint at position 0, a group
with all its layers, a number that is no stream. -/
theorem witness_duplex : ends (kRegister (streaming 1 1) 3) (streaming 1 1) (fun _ u => decide (bitsOf (u.sd 3 7) 32 32 = 1)) = true ∧ (streaming 1 1).curP 3 = 1 ∧
    bestCk (streaming 1 1) 3 = some 1 ∧ (emitting 1 1).here.boundTo 3 = true ∧ ends (kRegister (emitting 1 1) 3) (emitting 1 1) (fun _ u => decide (u.tseq 3 = 0)) = true ∧
    ends (kvTruncate (streaming 1 1) 3 1) (streaming 1 1) (fun r _ => r) = true ∧ (streaming 1 1).rsz 3 = 1 ∧
    ends (kCapture 0 0x3D08 [1, 2, 3, 4]) (emitting 1 1) (fun _ _ => true) = true ∧ ((streaming 1 1).sd 5 0).getLsbD 63 = false ∧
    ends (copyBlocks 0 0x3C40 0x3B00 1) (streaming 1 1) (fun _ _ => true) = true ∧ ends (abortGroup 0) (emitting 1 1) (fun _ _ => true) = true := by decide +kernel
theorem test_dx_frame : ran (exec (.dxFrame 5 1) (streaming 1 1)) (fun t => t.reg 5 == 0x3900 && t.devBytes 0x3A00 1 == [2] && bitsOf (t.sd 3 7) 0 32 == 1) = true := by decide +kernel
theorem test_dx_emit : ran (exec (.dxEmit 5 1 2) (emitting 0x99 0)) (fun t => t.reg 5 == 0 && t.devBytes 0x3D08 1 == [0x99] && t.curG 3 == 3) = true := by decide +kernel

/-! ## Symbols -/

/-- Job 0 with an allowance of 8; an affine tensor of one `.f32` element at 0x1000 with symbol 4 in its list; `s1` holds its address, `s2` that of a
change of 1.0. -/
def affine (x y : Word) : State :=
  { st .k [(1, x), (2, y)] with
    jobs := [(0, { JobRec.none with j0 := 0x4000000008, made := true })], dies := [(0, { Die.reset with syms := [(0, 4, 1)], next := [(0, 2)] })]
    mem := cells [(0x1000, 0x2000), (0x1008, 0x2100), (0x1010, 0x2200), (0x1018, 0x2300), (0x1020, 0x2400), (0x1028, 0x100000001), (0x1030, 64), (0x1038, 0x0004000000000003),
      (0x2000, 0x3F800000), (0x2100, 0x3F800000), (0x2300, 4), (0x3000, 0x3F800000)] }

/-- SymbolWordsTakeEffect and AffineAddMints: room for a symbol and none, a live symbol and none, a tensor, its slab and remainder, a condensation to 0. -/
theorem witness_symbols : (affine 0x1000 0x3000).released = true ∧ (affine 0x1000 0x3000).readyFor [1, 2] = true ∧ (affine 0x1000 0).symCount 0 4 = some 1 ∧
    (affine 0x1000 0).symCount 0 8 = none ∧ ((affine 0x1000 0).die 0).nextOf 0 = 2 ∧ 2 ^ 22 < 2 + (2 ^ 22 - 1) ∧
    ends (readAffine 0 0x1000) (affine 0x1000 0x3000) (fun t u => decide (t.gens = 1) && ends (readSlabs 0 t) u (fun b _ => b.length == 1) &&
      ends (readVirt 0 .k 0x3000 4) u (fun b _ => b.length == 4) && ends (readRem 0 t [(0, some 1)]) u (fun r _ => r.length == 1)) = true ∧
    (affine 0x1000 0).allowance 0 = 8 := by decide +kernel
theorem test_af_add_mints_one : ran (exec (.afAdd 5 1 2 0) (affine 0x1000 0x3000)) (fun t => t.reg 5 == 1 && (t.die 0).syms == [(0, 4, 1), (0, 8, 1)] &&
    t.devBytes 0x2400 8 == [8, 0, 0, 0, 0, 0, 0, 0]) = true := by decide +kernel
theorem test_cond_run_to_none : ran (exec (.condRun 5 1 2) (affine 0x1000 0)) (fun t => t.reg 5 == 1 && (t.die 0).syms == []) = true := by decide +kernel

/-! ## Tasks -/

/-- The loop-nest record of one unit on core 0 with its image at 0x9000, and the control blocks of tasks 1 (running) and 5 (idle). -/
def rec8 : List Nat := [0x9000, 0, 0, 0, 0x10001, 0, 0, 0]
def tcb1 : List Nat := [1, 0x8000, 0x200000000000, 0x3000000000]
def tcb5 : List Nat := [5, 0x8000, 0x200000000000, 0]

/-- Job 0: control blocks at 0x10000, counters at 0x20000, levels at 0x30000 (record 0 the job, 1 a phase, 2 a graph); task 1 is launched in slot 0
of die 0, its unit started or not; `s1` and `s2` as given. -/
def tasking (started : Nat) (x y : Word) : State :=
  { st .k [(1, x), (2, y)] with
    jobs := [(0, { j0 := 0x4000000008, j1 := 0x10000, j2 := 0x20000, j3 := 0x30000, made := true })]
    dies := [(0, { Die.reset with launches := [(0, { newLaunch 0 1 tcb1 rec8 0 with started := started })] })], launchSeq := 1
    mem := cells (((rec8.zipIdx).map fun w => (0x8000 + 8 * w.2, w.1)) ++ ((tcb1.zipIdx).map fun w => (0x10080 + 8 * w.2, w.1)) ++
      ((tcb5.zipIdx).map fun w => (0x10280 + 8 * w.2, w.1)) ++ [(0x20008, 7), (0x30000, 2 ^ 61), (0x30008, 1), (0x30010, 2 ^ 60), (0x30018, 1), (0x30020, 2 ^ 20), (0x30028, 2)]) }

/-- The same with a quire, and with its unit in barrier 1 since episode 0. -/
def quiring (e : Nat) : State :=
  ((tasking 1 5 1).modLaunch 0 0 fun l => { l with words := [0x9008, 0, 0, 0, 0x10001, 0, 0, 0] }).up fun c => { c with unit := some { unit0 with arrived := [(1, e)] } }

/-- TaskWordsTakeEffect: an idle task, a launch of one unit and of two, a counter at 7, a task and a graph to cancel, quires before and after an
arrival, a key that is free, held and reserved. -/
theorem witness_tasks : (tasking 1 5 1).here.unit = some unit0 ∧ (tasking 1 5 1).released = true ∧ (tasking 1 5 1).readyFor [1, 2] = true ∧
    ends (wordCheck 0 5) (tasking 1 5 1) (fun _ u => ends (readTcb 0 1) u fun t _ => decide (tf t 3 32 4 < 8)) = true ∧ (tasking 1 5 1).pool = [] ∧
    ends (tcbField 0 5 3 32 4 1) (tasking 1 5 1) (fun _ _ => true) = true ∧ ends (addMember 0 tcb5) (tasking 1 5 1) (fun _ _ => true) = true ∧
    ((tasking 1 5 1).launchAt 0 0).map Launch.total = some 1 ∧ (tasking 1 5 1).here.group.isOpen = false ∧
    (((tasking 1 5 1).modLaunch 0 0 fun l => { l with total := 2 }).launchAt 0 0).map Launch.total = some 2 ∧
    aims ((tasking 1 1 1).targetOf 0 .k ((tasking 1 1 1).ctrAt 0 1) .atomic) (.dev 0x20008) ∧
    ends (readWord 0 .k 0x20008) (tasking 1 1 7) (fun y _ => decide (y.toNat = 7)) = true ∧
    ends (cancelTask 0 5) (tasking 1 5 1) (fun _ u => u.here.unit.isSome) = true ∧ ends (cancelTask 0 1) (tasking 1 1 1) (fun _ u => u.here.unit.isNone) = true ∧
    ends (levelV0 0 2) (tasking 1 2 1) (fun g _ => decide (lvKind g = 0)) = true ∧ ends (markCancelled 0 2) (tasking 1 2 1) (fun _ u => u.here.unit.isNone) = true ∧
    ((quiring 0).launchAt 0 0).map Launch.quire = some true ∧ (tasking 1 3 1).keyAt 0 3 = none ∧
    ({ tasking 1 3 1 with keys := [{ job := 0, key := 3, ex := some 9, sh := [] }], wantKeys := [(0, 5, 3)] } : State).reserver 0 3 = some 5 := by decide +kernel
theorem test_spawn_pools : ran (exec (.spawn 1 1) (tasking 1 5 1)) (fun t => (t.pool.map fun p => (p.job, p.task)) == [(0, 5)] && t.devBytes 0x30028 1 == [3] &&
    t.devBytes 0x1029C 1 == [1]) = true := by decide +kernel
theorem test_barrier_closes : ran (exec (.barArrive 1) (quiring 0)) (fun t => (t.launchAt 0 0).map (fun l => (Tab.get Barrier.start l.bars 1).episode) == some 1 &&
    t.here.unit.map (fun u => Tab.get 0 u.arrived 1) == some 1) = true := by decide +kernel
theorem test_cnt_wait : ran (exec (.cntWait 5 1 2) (tasking 1 1 7)) (fun t => t.reg 5 == 7) = true ∧ ran (exec (.cntWait 5 1 2) (tasking 1 1 8)) (fun t => !t.issued) = true := by decide +kernel

/-- A ready task 5 and no launch; core 0 free. -/
def readied : State :=
  ({ tasking 0 0 0 with
    dies := [(0, { Die.reset with ready := [(0, [{ job := 0, task := 5, since := 10, reserving := false, pooled := false }])] })], ccount := 70000
    pool := [{ job := 0, task := 5, overflow := false, since := 0 }, { job := 0, task := 1, overflow := true, since := 0 }] } : State).up fun c => { c with unit := none, prevJob := some 0 }

/-- DispatchStepsTakeEffect: an entry to submit, one that overflowed, a task to reserve for, one to dispatch, a cancelled one, one that fails. -/
theorem witness_dispatch : ends (firstPoolEntry readied.pool) readied (fun p _ => p == some { job := 0, task := 5, overflow := false, since := 0 }) = true ∧
    ends (submitChecked 0 5) readied (fun r _ => r) = true ∧ ends (firstPoolEntry readied.pool.tail) readied (fun p _ => p.map PoolEnt.task == some 1) = true ∧
    (readied.readyOf 0 5).isSome = true ∧ (readied.regrip.die 0).freeSlot = some 0 ∧
    ends (firstEligible (readied.regrip.die 0).considered) readied.regrip (fun x _ => x.map (fun y => y.1.task) == some 5) = true ∧
    ends (levelsCancelled 0 tcb5) readied.regrip (fun c _ => !c) = true ∧ ends (soft none (checkTask 0 5)) readied.regrip (fun r _ => r == some (tcb5 ++ List.replicate 12 0, rec8)) = true ∧
    ends (soft none (checkTask 0 6)) readied.regrip (fun r _ => r == none) = true ∧ ends (setTaskState 0 5 3) readied.regrip (fun _ _ => true) = true ∧
    ends (soft [] (readTcb 0 5)) readied (fun _ _ => true) = true ∧ (readied.regrip.die 0).fqFull = false := by decide +kernel
theorem test_dispatch_launches : ran (exec (.taskDispatch 0) readied) (fun t => (t.launchAt 0 0).map (fun l => (l.task, l.total)) == some (5, 1) && t.devBytes 0x1029C 1 == [0x30] &&
    (t.die 0).queue 0 == []) = true := by decide +kernel

/-- A launch of task 1 whose unit has not started, core 0 free; and one whose unit has halted on core 0. -/
def starting : State := (tasking 0 0 0).up fun c => { c with unit := none, prevJob := some 0 }
def halting : State := (tasking 1 0 0).up fun c => { c with k := { c.k with halting := true }, l := { c.l with halted := true }, c := { c.c with halted := true }, s := { c.s with halted := true } }

/-- UnitsStartAndEnd: a core without a launch, one that starts a unit, a quire with all its cores, a unit whose halt may retire. -/
theorem witness_units : starting.regrip.best 1 = none ∧ (starting.regrip.best 0).map (fun x => (x.1, x.2.1, x.2.2.gathers)) = some (0, 0, false) ∧ starting.regrip.coreFree 0 = true ∧
    ends (startUnit 0 0 0 0 false) starting.regrip (fun _ _ => true) = true ∧ ends (hwWords 0 0x9000 128) starting (fun im _ => regImageOk starting 0 0 im []) = true ∧
    halting.haltReady 0 = true ∧ (tasking 1 0 0).haltReady 0 = false ∧ ends (finishLaunch 0 0 0) (halting.modCore 0 Core.noUnit) (fun _ _ => true) = true ∧
    (((starting.modLaunch 0 0 fun l => { l with words := [0x9008, 0, 0, 0, 0x10001, 0, 0, 0] }).regrip.launchAt 0 0).map fun l => (l.gathers, l.held)) = some (true, [0]) := by
  decide +kernel
theorem test_unit_starts : ran (exec (.unitStart 0) starting) (fun t => (t.core 0).unit == some unit0 && (t.core 0).k.pc == 0x8000) = true := by decide +kernel
theorem test_task_retires : ran (exec (.unitHaltRetire 0) halting) (fun t => (t.core 0).unit == none && (t.launchAt 0 0).isNone && t.devBytes 0x1009C 1 == [0x40] &&
    t.devBytes 0x30028 1 == [1]) = true := by decide +kernel

/-- Core 0 asked to stop, with nothing in flight. -/
def stopping : State := (tasking 1 0 0).up fun c => { c with cutting := .stopping, debugHalt := .stopping, snapAt := [100] }

/-- CutsAndHaltsTakeEffect: a running task and none, a core at rest, a halted core and one that runs, a capture due. -/
theorem witness_cuts : ((tasking 1 0 0).launchOf 0 1).map (fun x => (x.1, x.2.1)) = some (0, 0) ∧ (tasking 1 0 0).launchOf 0 7 = none ∧ (tasking 1 0 0).unitCores 0 0 = [0] ∧
    starting.unitCores 0 0 = [] ∧ stopping.atRest 0 = true ∧ stopping.storesDone 0 = true ∧
    (stopping.core 0).debugHalt = .stopping ∧ 100 ∈ (stopping.core 0).snapAt := by decide +kernel
theorem test_preempt_node_stops_the_walk : ran (exec (.preemptNode 1) (tasking 1 0 0)) (fun t => ((t.launchAt 0 0).map fun l => (l.stopWalk, l.node)) == some (true, true)) = true := by
  decide +kernel
theorem test_debug_halt : ran (exec (.debugHaltComplete 0) stopping) (fun t => (t.core 0).debugHalt == .stopped) = true := by decide +kernel

/-! ## Save blocks -/

theorem ends_spec {α : Type} {m : Act α} {s : State} {p : α → State → Bool} (h : ends m s p = true) : ∃ v u, Ends m s v u ∧ p v u = true := by
  unfold ends at h
  split at h
  · exact ⟨_, _, by unfold Ends; assumption, h⟩
  · cases h

theorem misses_spec {e : Except Nat Target} {c : Nat} (h : misses e c = true) : e = .error c := by
  unfold misses at h
  split at h
  · cases h
  · rw [of_decide_eq_true h]

/-- Whether nothing stands in the way of a read of device memory. -/
def isClean (s : State) : Bool := s.sites.isEmpty && s.poison.isEmpty && s.latent.isEmpty && (s.cores.all fun x => x.2.amos.isEmpty && x.2.fwd.isEmpty) && s.amoq.isEmpty && s.sealed.isEmpty && s.orphans.isEmpty
theorem isClean_clean {s : State} (h : isClean s = true) : s.clean := by
  simpa [isClean, State.clean, and_assoc] using h

/-- A write of no page faults before it writes. -/
theorem writeJob_unmapped {s : State} {job : BitVec 8} {va c : Nat} (hs : s.clean) (w : Writer) (b : Byte) (bytes : List Byte)
    (h : s.translate (if w.rank = 0 then 256 else w.core.toNat) job va .write = .error c) :
    writeJob job w va (b :: bytes) s = (.error (.fault c (w64 va)), s) := by
  unfold writeJob
  simp only [pieces, List.length_cons, Nat.add_one_ne_zero, if_false, List.foldlM_cons, Act.run_bind, resolveJ, resolveAt, walkReads_clean hs, Act.run_get, h,
    Act.run_fault]

theorem writeSave_unmapped {s : State} {job : BitVec 8} {n : CoreId} {va c : Nat} (hs : s.clean) (h : s.translate n.toNat job va .write = .error c) :
    writeSave job n va s = (.error (.fault c (w64 va)), s) := by
  unfold writeSave
  have hp : ∃ rest, saveParts (s.core n) = (0, 0x200000) :: rest := ⟨_, rfl⟩
  obtain ⟨rest, hp⟩ := hp
  have hb : ∃ b l, imgBytes (saveImage s n) 0 0x200000 = b :: l := by
    unfold imgBytes
    have hl : ∀ (t : Tab Byte) (k : Nat) (ks : List Nat), ∃ b l, Tab.pick 0 t (k :: ks) = b :: l := fun t k ks => ⟨_, _, rfl⟩
    have hr : (List.range 0x200000).map (· + 0) = 0 :: (List.range 0x1FFFFF).map (fun i => i + 1) := by
      rw [show (0x200000 : Nat) = 0x1FFFFF + 1 from rfl, List.range_succ_eq_map]
      simp
    rw [hr]
    exact hl _ _ _
  obtain ⟨b, l, hb⟩ := hb
  simp only [Act.run_bind, Act.run_get, hp, List.forIn_cons, Nat.add_zero, hb, writeJob_unmapped hs (engine n) b l h]

theorem attempt_fault {m : Act Unit} {s t : State} {c : Nat} {v : Word} (h : m s = (.error (.fault c v), t)) : attempt m s = (.ok (some (c, v)), t) := by
  unfold attempt; rw [h]

theorem Act.run_then_modify {α : Type} {m : Act α} {g : α → State → State} {s t : State} {a : α} (h : m s = (.ok a, t)) :
    (m >>= fun a => (modify (g a) : Act PUnit)) s = (.ok ⟨⟩, g a t) := by
  rw [Act.run_bind, h]
  rfl

/-- A save whose block has no page. -/
theorem saveUnit_unmapped {s x y : State} {n : CoreId} {die slot : Nat} {l : Launch} {t : List Nat} (h1 : s.launchAt die slot = some l)
    (h2 : Ends (soft [] (readTcb l.job l.task.toNat)) s t x) (h3 : l.fatalPark = false) (hy : x.countCut n = y) (hc : y.clean)
    (h4 : y.translate n.toNat l.job (y.saveAt n die slot l t) .write = .error 5) :
    Ends (saveUnit n die slot) s () (y.leaveSaved n die slot (l.rankOf (y.unitCores die slot) n) (some (5, w64 (y.saveAt n die slot l t)))) := by
  unfold Ends at *
  unfold saveUnit
  have hw := attempt_fault (writeSave_unmapped (n := n) hc h4)
  simp only [Act.run_bind, Act.run_get, h1]
  generalize writeSave l.job n = m at hw ⊢
  simp only [h2, h3, Bool.false_eq_true, false_and, if_false]
  rw [Act.run_bind, Act.run_modify]
  simp only [hy]
  rw [Act.run_bind, Act.run_get]
  simp only []
  exact Act.run_then_modify hw

/-- Two units of a launch, one of them on core 0 that stops; their task has its save area at 2 GiB, where nothing is mapped. -/
def launch2 : Launch := { newLaunch 0 1 tcb1 rec8 0 with total := 2, started := 2 }
def cutting : State :=
  let s := stopping
  { s with
    cores := [(0, s.core 0), (1, { Core.reset with unit := some unit0 })], dies := [(0, { Die.reset with launches := [(0, launch2)] })]
    mem := s.mem.takeWhile (fun x => x.1 < 0x100BA) ++ [(0x100BB, 0x80)] ++ s.mem.dropWhile fun x => x.1 < 0x100BC }

/-- CutsAndHaltsTakeEffect: core 0 is saved and core 1 is still to come. -/
theorem witness_cut_complete : ∃ w, Ends (saveUnit 0 0 0) (cutting.settleCore 0) () w ∧ ∃ m ∈ w.unitCores 0 0, (w.core m).frozen = false ∨ (w.core m).cutting ≠ .stopped := by
  obtain ⟨t, x, h, hp⟩ := ends_spec (m := soft [] (readTcb 0 1)) (s := cutting.settleCore 0)
    (p := fun t x => let y := x.countCut 0
      let w := y.leaveSaved 0 0 0 (launch2.rankOf (y.unitCores 0 0) 0) (some (5, w64 (y.saveAt 0 0 0 launch2 t)))
      (misses (y.translate 0 0 (y.saveAt 0 0 0 launch2 t) .write) 5 && isClean y) && decide (∃ m ∈ w.unitCores 0 0, (w.core m).frozen = false ∨ (w.core m).cutting ≠ .stopped))
    (by decide +kernel)
  simp only [Bool.and_eq_true] at hp
  exact ⟨_, saveUnit_unmapped (l := launch2) (by decide +kernel) h rfl rfl (isClean_clean hp.1.2) (misses_spec hp.1.1), of_decide_eq_true hp.2⟩

/-! A save block at 256 MiB with its cut record and nothing else. -/

/-- The address of the block, and the doublewords of its cut record. -/
def saveAt : Nat := 0x10000000
def cutRec : List (Nat × Nat) :=
  (saveAt + 0x3A5000, 72) :: ((cutEntries Core.reset).zipIdx.map fun x => (saveAt + 0x3A5010 + 8 * x.2, x.1))

/-- Task 1 with a cut unit to resume on core 0. -/
def launchR : Launch := { newLaunch 0 1 tcb1 rec8 0 with started := 1, resume := [{ core := 0, rank := 0, kept := Core.reset }] }
def resuming : State :=
  let s := starting
  { s with
    dies := [(0, { Die.reset with launches := [(0, launchR)] })]
    mem := s.mem.takeWhile (fun x => x.1 < 0x100BA) ++ [(0x100BB, 0x10)] ++ s.mem.dropWhile (fun x => x.1 < 0x100BC) ++ cells cutRec }

/-- The translation of the first GiB. -/
theorem resuming_translate (a : Nat) (h : a < 2 ^ 30) : resuming.translate 256 0 a .read = .ok (.dev a) := by
  have h1 : ¬(2 ^ 57 ≤ a) := by omega
  have h2 : resuming.swin 0 = 0x4000000000 := by decide +kernel
  have hl : resuming.leafOf 256 0 a = some (2 ^ 30, 0xF) := by
    have h3 : resuming.xlate = [(0, 1)] := by decide +kernel
    have h4 : resuming.tcache = [{ place := 256, job := 0, base := 0, size := 2 ^ 30, lv := 2, entry := 0xF }] := by decide +kernel
    unfold State.leafOf
    have h5 : a < 1073741824 := by omega
    simp [h3, Tab.get, State.cachedAt, h4, h5]
  have h5 : resuming.dev.badPages = [] := by decide +kernel
  have h6 : a % 1073741824 = a := by omega
  have h7 : ¬(0x4000000000 ≤ a) := by omega
  have h8 : ¬(devSize ≤ a) := by unfold devSize; omega
  simp only [State.translate, h1, if_false, h2, h7, false_and, hl]
  simp [bitsOf, h5, h6, h8]

theorem resuming_clean : resuming.clean := by unfold State.clean; decide +kernel

theorem place_zeros (off k : Nat) : place off (List.replicate k 0) = [] := by
  unfold place
  have h : ∀ (k i : Nat), ((List.replicate k (0 : Byte)).zipIdx i).filter (fun x => x.1 ≠ 0) = [] := by
    intro k
    induction k with
    | zero => intro i; rfl
    | succ k ih => intro i; rw [List.replicate_succ, List.zipIdx_cons, List.filter_cons]; simpa using ih (i + 1)
  rw [h]; rfl

theorem place_append_zeros (off k : Nat) (l : List Byte) : place off (l ++ List.replicate k 0) = place off l := by
  unfold place
  have h : ∀ (k i : Nat), ((List.replicate k (0 : Byte)).zipIdx i).filter (fun x => x.1 ≠ 0) = [] := by
    intro k
    induction k with
    | zero => intro i; rfl
    | succ k ih => intro i; rw [List.replicate_succ, List.zipIdx_cons, List.filter_cons]; simpa using ih (i + 1)
  rw [List.zipIdx_append, List.filter_append, h, List.append_nil]

/-- A part of the block in which nothing is listed adds nothing to the image. -/
theorem part_zero (off len : Nat) (h : ∀ x ∈ resuming.mem, x.1 < saveAt + off ∨ saveAt + off + len ≤ x.1) : place off (resuming.devBytes (saveAt + off) len) = [] := by
  unfold State.devBytes
  rw [range_unlisted _ _ _ _ h]
  exact place_zeros off len

/-- The image of the block. -/
def imageR : Tab Byte := Tab.merge 0 [] (place 0x3A5000 (resuming.devBytes (saveAt + 0x3A5000) 640))

/-- The parts in which the block holds nothing. -/
def zeroParts : List (Nat × Nat) := [(0, 0x200000), (0x340000, 0x20000), (0x398000, 0x2000), (0x39A000, 0x2000), (0x39C000, 0x1000), (0x39D000, 0x8000)]

theorem parts_reset : alwaysParts ++ attPart Core.reset = zeroParts ++ [(0x3A5000, 640 + 15744)] := by decide +kernel

theorem fold_last {α : Type} (f : α → Tab Byte) (l : List α) (x : α) (h : ∀ p ∈ l, f p = []) : (l ++ [x]).foldl (fun img p => Tab.merge 0 img (f p)) [] = Tab.merge 0 [] (f x) := by
  have hl : l.foldl (fun img p => Tab.merge 0 img (f p)) [] = [] := by
    induction l with
    | nil => rfl
    | cons y l ih => rw [List.foldl_cons, h y (List.mem_cons_self ..)]; exact ih fun p hp => h p (List.mem_cons_of_mem _ hp)
  rw [List.foldl_append, hl]
  rfl

theorem tryAct_ok {α : Type} {m : Act α} {s t : State} {a : α} (h : m s = (.ok a, t)) : Ends (tryAct m) s (.ok a) t := by
  unfold Ends tryAct
  rw [h]

/-- Reads of parts of a block of clean memory. -/
theorem readSave_clean {s : State} (h : s.clean) (job : BitVec 8) (va : Nat) (parts : List (Nat × Nat))
    (hp : ∀ p ∈ parts, (va + p.1) % 64 = 0 ∧ p.2 % 64 = 0 ∧ ∀ a, va + p.1 ≤ a → a < va + p.1 + p.2 → s.translate 256 job a .read = .ok (.dev a)) :
    readSave job va parts s = (.ok (parts.foldl (fun img p => Tab.merge 0 img (place p.1 (s.devBytes (va + p.1) p.2))) []), s) := by
  unfold readSave
  rw [Act.run_fold _ (fun img p => Tab.merge 0 img (place p.1 (s.devBytes (va + p.1) p.2)))]
  intro img p hm
  obtain ⟨h1, h2, h3⟩ := hp p hm
  have h4 : p.2 = 64 * (p.2 / 64) := by omega
  rw [h4] at h3 ⊢
  rw [Act.run_bind, hwRead_clean h job (va + p.1) (p.2 / 64) h1 h3]
  exact Act.run_pure _ _

theorem imageR_eq (k : Nat) (h : ∀ x ∈ resuming.mem, x.1 < saveAt + 0x3A5000 + 640 ∨ saveAt + 0x3A5000 + 640 + k ≤ x.1) :
    Tab.merge 0 [] (place 0x3A5000 (resuming.devBytes (saveAt + 0x3A5000) (640 + k))) = imageR := by
  unfold imageR State.devBytes
  rw [range_append, range_unlisted _ _ _ k h]
  exact congrArg (Tab.merge 0 []) (place_append_zeros _ _ _)

theorem readSave_resuming : readSave 0 saveAt (alwaysParts ++ attPart Core.reset) resuming = (.ok imageR, resuming) := by
  rw [readSave_clean resuming_clean 0 saveAt (alwaysParts ++ attPart Core.reset) (by
    intro p hm
    have hq : ∀ p ∈ alwaysParts ++ attPart Core.reset, p.1 % 64 = 0 ∧ p.2 % 64 = 0 ∧ p.1 + p.2 ≤ 0x400000 := by decide +kernel
    obtain ⟨h1, h2, h3⟩ := hq p hm
    exact ⟨by unfold saveAt; omega, h2, fun a h4 h5 => resuming_translate a (by unfold saveAt at *; omega)⟩), parts_reset]
  have hz : ∀ p ∈ zeroParts, ∀ x ∈ resuming.mem, x.1 < saveAt + p.1 ∨ saveAt + p.1 + p.2 ≤ x.1 := by decide +kernel
  have hf : (zeroParts ++ [(0x3A5000, 640 + 15744)]).foldl (fun (img : Tab Byte) (p : Nat × Nat) => Tab.merge 0 img (place p.1 (resuming.devBytes (saveAt + p.1) p.2))) [] =
      Tab.merge 0 [] (place 0x3A5000 (resuming.devBytes (saveAt + 0x3A5000) (640 + 15744))) :=
    fold_last (fun p => place p.1 (resuming.devBytes (saveAt + p.1) p.2)) zeroParts (0x3A5000, 640 + 15744) fun p hp => part_zero p.1 p.2 (hz p hp)
  exact congrArg (fun i => ((Except.ok i : Except Stop (Tab Byte)), resuming)) (hf.trans (imageR_eq 15744 (by decide +kernel)))

/-- A save block whose first parts name no others. -/
theorem readBlockOf_plain {job : BitVec 8} {a : Nat} {kept : Core} {s : State} {i : Tab Byte} (h1 : readSave job a (alwaysParts ++ attPart kept) s = (.ok i, s))
    (h : stateParts (partsFrom s i kept) = []) : readBlockOf job a kept s = (.ok i, s) := by
  unfold readBlockOf
  rw [Act.run_bind, h1]
  dsimp only
  rw [Act.run_bind, Act.run_get]
  dsimp only
  rw [h, Act.run_bind, show readSave job a [] s = (.ok [], s) from rfl]
  exact (Act.run_pure _ _).trans (by cases i <;> rfl)

theorem readBlock_resuming : readBlockOf 0 saveAt Core.reset resuming = (.ok imageR, resuming) :=
  readBlockOf_plain readSave_resuming (by decide +kernel)

/-- CutsAndHaltsTakeEffect: a unit that resumes from its save block. -/
theorem witness_cut_resume : ∃ l u t x img y c, resuming.regrip.best 0 = some (0, 0, l) ∧ resuming.regrip.coreFree 0 = true ∧ resuming.regrip.mayResume 0 l = true ∧
    (l.resume.find? fun u => decide (u.core = 0)) = some u ∧ Ends (soft [] (readTcb l.job l.task.toNat)) resuming.regrip.asDevice t x ∧
    Ends (tryAct (readBlockOf l.job (saveOf t + u.rank * 2 ^ 22) u.kept)) x (.ok img) y ∧ coreFrom resuming.regrip l.job 0 img (resuming.regrip.core 0) u.kept = some c := by
  have hs : resuming.regrip = resuming := by decide +kernel
  rw [hs]
  obtain ⟨t, x, h, hp⟩ := ends_spec (m := soft [] (readTcb 0 1)) (s := resuming.asDevice) (p := fun t x => decide (saveOf t = saveAt) && decide (x = resuming)) (by decide +kernel)
  simp only [Bool.and_eq_true, decide_eq_true_eq] at hp
  obtain ⟨ht, rfl⟩ := hp
  have hc : (coreFrom resuming 0 0 imageR (resuming.core 0) Core.reset).isSome = true := by decide +kernel
  obtain ⟨c, hc⟩ := Option.isSome_iff_exists.mp hc
  refine ⟨launchR, { core := 0, rank := 0, kept := Core.reset }, t, resuming, imageR, resuming, c, by decide +kernel, by decide +kernel, by decide +kernel, by decide +kernel, h, ?_, hc⟩
  rw [ht]
  exact tryAct_ok readBlock_resuming

/-! ## Engines -/

/-- Core 0 with `s1` and `s2`, job 0 with its counters, and doublewords in memory. -/
def engined (x y : Word) (m : List (Nat × Nat)) : State :=
  { st .k [(1, x), (2, y)] with jobs := [(0, { j0 := 0x4000000008, j1 := 0x10000, j2 := 0x20000, j3 := 0x30000, made := true })], mem := cells m
                                dev := { Dev.reset with ready := true, zen := true, zup := 2, route := [(1, 0x8000000000000001)] } }

/-- A request of `coll.red`: 64 `.f32` elements from 0x2000 to a window at 0x10000000000 of device 1, whose pages the job maps. -/
def collecting : State :=
  { engined 0x1000 0 [(0x1000, 0x2000), (0x1008, 0x10000000000), (0x1010, 64), (0x1018, 3), (0x2000, 0x3F800000)] with
    tcache := [{ place := 256, job := 0, base := 0, size := 2 ^ 30, lv := 2, entry := 0xF }, { place := 256, job := 0, base := 2 ^ 30, size := 2 ^ 30, lv := 2, entry := 0x802000000000000F }] }

/-- AttentionAndCollectiveWords: an idle engine and a busy one, a store of one word, an entry, a fault noted, a request that passes. -/
theorem witness_attention_words : (engined 0x1000 1 []).readyFor [1, 2] = true ∧ (engined 0x1000 1 []).here.att.busy = false ∧
    (engined 0x1000 1 []).covered (engined 0x1000 1 []).seq.cover = true ∧ ends (kfView 0 .k 0x1000 8) (engined 0x1000 1 [(0x1000, 9)]) (fun b _ => b.length == 8) = true ∧
    ends (kfView 0 .k 0x1000 128) (engined 0x1000 1 [(0x1000, 9)]) (fun b _ => b.length == 128) = true ∧
    ((engined 0 0 []).up fun c => { c with att := { c.att with busy := true } }).here.att.busy = true ∧
    ((engined 0 0 []).up fun c => { c with att := { c.att with fault := true, cause := 2 } }).here.att.fault = true ∧ collecting.released = true ∧ collecting.here.capturing = false := by
  decide +kernel
theorem test_as_go_starts : ran (exec (.asGo 1) (engined 0x1000 0 [(0x1000, 9), (0x1008, 5)])) (fun t => t.here.att.busy && t.here.att.upc == 9 && Tab.get 0 t.here.att.ar 1 == 5) = true := by
  decide +kernel
theorem witness_coll_red : ends (kfView 0 .k 0x1000 64) collecting (fun b u => collOk ((dwords b).map w64) && ends (rangeCheck 0 .k 0x2000 256 .read) u (fun _ y =>
    decide (y.ccount = 100))) = true := by decide +kernel

/-- A request of `bp.recv`: 1 tile of `.bf16` (FMT 2) at 0x2000, counters at 0x3000, TAG 7, no child, from the record at 0x1000. -/
def receiving : State := engined 0x1000 0 [(0x1000, 0x2000), (0x1008, 0x3000), (0x1010, 0x7020001)]
/-- A request of `bp.send`: the same with child 1 and no counters. -/
def sending : State := engined 0x1000 0 [(0x1000, 0x2000), (0x1010, 0x7020001), (0x1018, 1), (0x1020, 1)]

/-- The request of a posted receive and of a send. -/
def posted (r : List Nat) (send : Bool) : PlaneReq :=
  { addr := 0x1000, job := 0, isSend := send, words := r.map w64, answers := [(0, 1)], openAt := [(0, 50)], parent := some 1, tiles := [], nextPlane := 0, nextTile := 0
    err := 0, cnt := 0, done := false, cover := Cover.none, out := [], owes := [], zeroAt := 0 }
def recv1 : List Nat := [0x2000, 0x3000, 0x7020001, 0, 0, 0, 0, 0]
def send1 : List Nat := [0x2000, 0, 0x7020001, 1, 1, 0, 0, 0]
def planing (r : List Nat) (send : Bool) : State := (engined 0x1000 0 []).up fun c => { c with planes := [posted r send] }

/-- PlaneWordsTakeEffect: a send and a receive that pass, a second receive of its TAG, a posted receive with a tile to come and one cancelled. -/
theorem witness_plane_words : receiving.released = true ∧ receiving.here.capturing = false ∧
    ends (kView 0 0x1000 64) receiving (fun b u => planeOk receiving false ((dwords b).map w64) && ends (rangeCheck 0 .k 0x2000 512 .write) u (fun _ x =>
      ends (rangeCheck 0 .k 0x3000 1 .write) x fun _ y => ends (writeVirt 0 .k (engine 0) 0x3000 [0]) y fun _ _ => true)) = true ∧
    ends (kView 0 0x1000 64) sending (fun b u => planeOk sending true ((dwords b).map w64) && ends (rangeCheck 0 .k 0x2000 512 .read) u (fun _ _ => true)) = true ∧
    receiving.receiveOf 0 7 = none ∧ ((planing recv1 false).receiveOf 0 7).isSome = true ∧ (planing recv1 false).postedAt 0 0x1000 = some (0, 0, posted recv1 false) ∧
    receiving.postedAt 0 0x1000 = none ∧ (posted recv1 false).nt = 1 ∧ (posted recv1 false).fw = 7 ∧ ends (kView 0 0x3000 1) (planing recv1 false) (fun b _ => b == [0]) = true ∧
    ends (cancelTile (0, 0) 0 false) (planing recv1 false) (fun _ u => ends (planeSettle 0 0) u fun _ _ => true) = true ∧ ends (kViewW 0 0x1018) receiving (fun _ _ => true) = true := by
  decide +kernel
theorem test_bp_cancel : ran (exec (.bpCancel 1 2) (planing recv1 false)) (fun t => t.devBytes 0x3000 1 == [0x40]) = true := by decide +kernel

/-! ## The attention sequencer -/

/-- The sequencer of core 0 runs at UPC 4 with `ar1` = 2 and `ar2` = 0x4000000000; ring 2 has free entries. -/
def sequencing : State := (copying .k 0 0 0 false).up fun c => { c with att := { Att.reset with upc := 4, busy := true, ar := [(1, 0x1000), (2, 16)], started := true }
                                                                        tl := { c.tl with td := [(0, td16)] } }

/-- A microword's fields, all zero but those given. -/
def mword (x y : BitVec 4) (ra rb : BitVec 5) (imm : BitVec 32) : Micro := { ctl := 0, x := x, y := y, ra := ra, rb := rb, imm := imm }

/-- The stream state with its sequencer running and the stream, the layer and position in `ar1` and `ar2`, and a ring 2 and 3. -/
def gathering : State := (streaming 0 0).up fun c =>
  { c with
    att := { Att.reset with busy := true, ar := [(1, 3)], started := true }
    rings := [(2, { Ring.reset with base := 0x4000000000, ctl := 0x1006280000 })] }

/-- MicrowordsTakeEffect and StagingLands: the sequencer may issue, a zero register, a drained core, a move's ring and checks, a stream's block. -/
theorem witness_microwords : sequencing.attIssues 0 = true ∧ (sequencing.core 0).att.reg 0 = 0 ∧ (sequencing.core 0).att.reg 1 ≠ 0 ∧ (sequencing.core 0).mat.flight = [] ∧
    (sequencing.core 0).att.exp = none ∧ sequencing.covered (sequencing.core 0).att.cover = true ∧ ((sequencing.core 0).ring 2).valid = true ∧
    ((sequencing.core 0).ring 3).valid = false ∧ ends (tCheck 0 1 0 td16 0x1000 16 ((sequencing.core 0).ring 2).size) sequencing (fun _ _ => true) = true ∧
    gathering.attIssues 0 = true ∧ ends (attRead 0 0x3000 8) gathering (fun b u => decide (ofBytes b = 0x10000) && ends (attRead 0 0x10000 64) u fun hb v =>
      ends (kvHdrOf 0x10000 hb) v fun h _ => decide (h.tier ≠ 1)) = true ∧ (gathering.sd 3 0).getLsbD 63 = true := by decide +kernel
theorem test_as_loop_goes_round : ran (exec (.asLoop 0 (mword 1 0 0 0 9)) sequencing) (fun t => (t.core 0).att.upc == 9 && Tab.get 0 (t.core 0).att.ar 1 == 0xFFF) = true := by
  decide +kernel

/-- A staging copy in flight of layer 0 of stream 3, whose tag names it; the block's tier is 1. -/
def staged : State := (({ streaming 0 0 with mem := cells [(0x3000, 0x10000), (0x10000, 3), (0x10008, 0x100300050), (0x10010, 0x20000), (0x10018, 2)] } : State).setSd 3 17 0x8000).up fun c =>
  { c with staging := [{ stream := 3, layer := 0, blk := 0, hdr := 0x10000, parked := none }] }
theorem witness_staging : (staged.core 0).staging[0]? = some { stream := 3, layer := 0, blk := 0, hdr := 0x10000, parked := none } ∧
    ends (readJob 0 (staged.tableAt 3 0 0) 8) staged (fun z u => decide (ofBytes z = 0x10000) && ends (readJob 0 0x10000 64) u fun hb v =>
      ends (kvHdrOf 0x10000 hb) v fun h w => ends (readJob 0 h.data (64 * h.slot)) w fun _ x => decide (x.ccount = 100)) = true ∧ staged.stgTag 3 0 = 2 ^ 15 := by decide +kernel
theorem test_unwanted_staging_is_counted : ran (exec (.stageLanding 0 0) (staged.setSd 3 17 0x8001)) (fun t => (t.core 0).staging == [] && bitsOf (t.sd 3 16) 0 32 == 1) = true := by
  decide +kernel

/-! ## The host -/

/-- Submission ring 0 of job 0 at physical 0x40000, 8 entries, with one entry at CONS = 0 of an OP and ID, being consumed. -/
def submitting (op id : Nat) : State :=
  { tasking 0 0 0 with
    subs := [(0, { SubRing.reset with h0 := 0x40003, h1 := 0x50000, h2 := 1, active := true })]
    mem := (tasking 0 0 0).mem ++ cells [(0x40000, op * 2 ^ 24 + id)] }

/-- SubmissionRingsAreConsumed: a ring that is enabled and being consumed, entries of each OP, a record that is there and one of another kind. -/
theorem witness_submission : (submitting 0 5).dev.ready = true ∧ ((submitting 0 5).sub 0).h2.getLsbD 0 = true ∧ ((submitting 0 5).sub 0).active = true ∧ ((tasking 0 0 0).sub 0).active = false ∧
    ends (subEntry 0) (submitting 0 5) (fun e u => e == some 5 && ends (submitChecked 0 5) u fun r w => r && ends (settleRing 0 4097) (w.consume 0 none) fun _ _ => true) = true ∧
    ends (subEntry 0) (submitting 1 5) (fun e u => e == some 0x1000005 && ends (soft [] (readTcb 0 5)) u fun t w => decide (tf t 0 0 24 = 5) && ends (cancelTask 0 5) w fun _ _ => true) = true ∧
    ends (subEntry 0) (submitting 2 2) (fun e u => e == some 0x2000002 && ends (soft none (do pure (some (← levelV0 0 2)))) u fun g w => g == some 0x100000 &&
      ends (markCancelled 0 2) w fun _ _ => true) = true ∧
    ends (subEntry 0) (submitting 2 1) (fun _ u => ends (soft none (do pure (some (← levelV0 0 1)))) u fun g _ => (g.map lvKind) == some 1) = true ∧
    ends (settleRing 0 4097) (submitting 7 0) (fun _ w => bitsOf ((w.sub 0).h3) 44 4 == 2) = true := by decide +kernel
theorem test_submit : ran (exec (.submit 0) (submitting 0 5)) (fun t => bitsOf (t.sub 0).h2 32 32 == 1 && !(t.sub 0).active && (t.die 0).queue 0 ==
    [{ job := 0, task := 5, since := 100, reserving := false, pooled := false }] && t.dev.hostOut == [(0x50000, toBytes 8 9)]) = true := by decide +kernel
theorem test_cancel_of_no_task : ran (exec (.cancelTask 0) (submitting 1 0)) (fun t => bitsOf (t.sub 0).h3 44 4 == 3) = true := by decide +kernel

/-- RegisterWritesAreTaken: values that pass and with a reserved bit, a stream in use, each limit of a descriptor met and missed, an index behind
PROD, a fault queue with a unit that waits. -/
theorem witness_register_writes : (submitting 0 5).dev.ready = true ∧ State.reset.dev.ready = false ∧ (0x10000 : Word) &&& jobReserved 0 ≠ 0 ∧ (8 : Word) &&& jobReserved 0 = 0 ∧
    (submitting 0 5).subOk 2 1 = true ∧ (submitting 0 5).subOk 2 0x101 = false ∧ (1 : Word).toNat / 4 % 2 ^ 10 = 0 ∧ (4 : Word).toNat / 4 % 2 ^ 10 ≠ 0 ∧
    (0x8000001000010000 : Word) &&& sdReserved 0 = 0 ∧ (1 : Word) &&& sdReserved 0 ≠ 0 ∧ sdLimits 0x8000001000010000 0x10000000000 = true ∧ sdLimits 0x8000001000010000 0 = false ∧
    ((streaming 0 0).sd 3 0).getLsbD 63 = true ∧ ((streaming 0 0).sd 5 0).getLsbD 63 = false ∧
    ends (attempt (registerFrames 3 (fun a => readJob 0 a 16) 4097)) (streaming 0 0) (fun _ u => bitsOf (u.sd 3 7) 32 32 == 1) = true ∧
    consAfter 3 7 7 = 7 ∧ consAfter 3 7 8 = 3 ∧ ownRow 0x1400 1 = false := by decide +kernel
theorem witness_settle : ends (settleRing 0 4097) ((submitting 7 0).modSub 0 fun x => { x with h1 := 0x60000 }) (fun _ _ => true) = true := by decide +kernel
theorem test_evcons : ran (exec (.evconsWrite 2) { submitting 0 5 with dev := { (submitting 0 5).dev with evProd := 3 } }) (fun t => t.dev.evCons == 2) = true := by decide +kernel

/-- Job 0 with a page table at 0x5000 of five levels that maps 64 KiB at 0 and the leaf at 0x10000, and nothing cached. -/
def walking : State :=
  { tasking 0 0 0 with
    xlate := [(0, 0x5001)], tcache := []
    mem := cells [(0x5000, 0x6001), (0x6000, 0x7001), (0x7000, 0x10003)], dev := { (tasking 0 0 0).dev with inv0 := 0x8000000000000000, invs := [(0, 0x10, 1)] } }

/-- A word of L stopped on page 5, with its replay entry. -/
def replaying : State :=
  { walking with dies := [(0, { Die.reset with replay := [{ job := 0, core := 0, ctx := .l, va := 0x50008, write := false }] })] }.up fun c =>
    { c with tl := { c.tl with flight := [{ flightOf (st .l []) .move 1 2 with parked := some 5 }] } }

/-- TranslationsAreCachedAndDropped: a walk that fails, an invalidation that can complete and one that waits for a store, a word stopped on a page. -/
theorem witness_translation : (walking.core 0).unit.isSome = true ∧ (Tab.get 0 walking.xlate 0).getLsbD 0 = true ∧ walking.tcache = [] ∧ walking.leafOf 0 0 (2 ^ 56) = none ∧ walkLeaf (walking.walkOf 0 0 0) = none ∧
    ends (walkReads 0 0 0) walking (fun _ u => decide (u = walking)) = true ∧ ends (walkReads 0 0 (2 ^ 56)) walking (fun _ u => decide (u = walking)) = true ∧
    walking.dev.invs = [(0, 0x10, 1)] ∧ walking.pendingIn 0 0 65536 = false ∧
    (walking.up fun c => { c with fwd := [{ seq := 1, va := 8, tgt := .dev 8, bytes := [1], cover := Cover.none, doneAt := none, src := (0, none), sent := false }] }).pendingIn 0 0 65536 = true ∧
    replaying.jobOf 0 = 0 ∧ (replaying.core 0).unit.isSome = true ∧ ((replaying.core 0).tl.flight.map TFlight.parked) = [some 5] := by decide +kernel
theorem test_replay_fail : ran (exec (.replayFail 0x8000000000050000) replaying) (fun t => ((t.core 0).tl.flight.map fun f => (f.parked, f.failed)) == [(none, some (5, 0x50008))] &&
    (t.die 0).replay == []) = true := by decide +kernel

/-- HostReachesDeviceMemory: inside and outside the memory, a site held, a poisoned block. -/
theorem witness_host : stored.dev.ready = true ∧ 0x40 + 8 ≤ devSize ∧ devSize < devSize - 4 + 8 ∧ stored.siteHeld 0x40 8 = false ∧
    ({ stored with sites := [(siteOf 0, { refresh := true, since := 0, stalled := false, temp := 0 })] } : State).siteHeld 0x40 8 = true ∧
    ends (readDev 0x40 8 (w64 0x40)) stored (fun x _ => x.1.length == 8) = true ∧ Tab.get false ({ stored with poison := [(1, true)] } : State).poison 1 = true := by decide +kernel
theorem test_bar2_fetchadd : ran (exec (.fetchadd false 0x40 1) stored) (fun t => t.hostBusy && ({ t with ccount := 101 } : State).locked (.dev 0x40) 4 && t.devBytes 0x40 1 == [0x44] &&
    ran (applyHome 0 { t with ccount := 106 }) (fun u => u.devBytes 0x40 4 == [0x45, 0x33, 0x22, 0xF1] && u.dev.reply == .data [0x44, 0x33, 0x22, 0xF1] && !u.hostBusy)) = true := by
  decide +kernel

/-- A request of agent `a` of core 0 over a link, sent in cycle 10. -/
def farReq (k : FarKind) (t : Target) (a : Nat) : FarReq :=
  { core := 0, agent := a, id := 0, kind := k, tgt := t, len := 4, va := 0x40, since := 10, src := (0, none), old := false, retried := false, got := none, failed := false }
/-- K waits for a far load of a word into `s5`. -/
def faring (t : Target) : State := ({ stored with far := [farReq .load t 0] } : State).up fun c => { c with kWait := some (.load 5 4 true t 0x40) }

/-- LinksCarryRequests: Zuore off and on, a load, an atomic, K's waits with their timeouts, an atomic sent to another device. -/
theorem witness_links : stored.dev.ready = true ∧ stored.dev.zen = true ∧ State.reset.dev.zen = false ∧ 0x40 + 4 ≤ devSize ∧ stored.siteHeld 0x40 4 = false ∧
    ends (readDev 0x40 4 (w64 0x40)) stored (fun _ _ => true) = true ∧ ((faring (.host 0x40)).core 0).kWait = some (.load 5 4 true (.host 0x40) 0x40) ∧
    ((faring (.remote 1 0x40)).core 0).kWait = some (.load 5 4 true (.remote 1 0x40) 0x40) ∧ ((faring (.remote 1 0x40)).core 0).k.mpos = none ∧
    ((stored.up fun c => { c with amos := [{ minReq with tgt := .remote 1 0x40 }] }).core 0).amos = [{ minReq with tgt := .remote 1 0x40 }] ∧
    ({ minReq with tgt := .remote 1 0x40 } : AmoReq).tgt.isRemote = true ∧ stored.covered minReq.cover = true := by decide +kernel
theorem test_far_load_ends : ran (exec (.hostTierCompletion 0 true [1, 0, 0, 0x80]) (faring (.host 0x40))) (fun t => (t.core 0).k.reg 5 == 0xFFFFFFFF80000001 && (t.core 0).kWait == none) = true := by
  decide +kernel

/-! ## Firmware and resets -/

/-- FirmwareStepsTakeEffect: before and after READY, an event for F, its event list full, a site in self-refresh for long, a unit that hangs; a late step. -/
theorem witness_firmware : State.reset.dev.ready = false ∧ State.reset.dev.fail = false ∧ State.reset.dev.power ≠ 3 ∧ stored.dev.ready = true ∧
    ((stored.up fun c => { c with fActive := false, events := [5] }).core 0).events ≠ [] ∧ ((stored.up fun c => { c with events := List.replicate 16 5 }).core 0).events.length = 16 ∧
    ((stored.up fun c => { c with unit := some unit0, lastRetire := 0 }).core 0).lastRetire + 0 ≤ 100 ∧ 256 % 256 = 0 ∧ 100 % 256 ≠ 0 ∧ stored.dev.power = 0 ∧
    (({ stored with ccount := 3600000, sites := [(3, { refresh := true, since := 0, stalled := false, temp := 0 })] } : State).site 3).refresh = true ∧
    ((2001 : Nat) > 2000) := by decide +kernel
/-- C of `matrixing`, one cycle late, with `mma.bf16` with a stamp at its pc. -/
def missing : State := { (matrixing 99).up fun c => { c with code := [(0, 0x82010C90)] } with cur := (0, .c), issued := false }
theorem witness_schedule_miss : missing.canIssue = true ∧ decode .ccode 0x82010C90 = some (.mma 2 3 0 2 1 0 0 0) ∧ ends (fetchWord 0 .c) missing (fun w u => decide (w = 0x82010C90) &&
    ran (exec (.mma 2 3 0 2 1 0 0 0) { u with word := w }) (fun t => decide (t = ({ u with word := w } : State).raise 7 99))) = true := by decide +kernel
theorem test_site_refresh : ran (exec (.selfRefreshEnter 3) { stored with sites := [(3, { Site.reset with temp := 105 })] }) (fun t => (t.site 3).refresh && (t.dev.evq.length == 1 || !(t.core 0).events.isEmpty)) = true := by decide +kernel

/-- QuotesAndBadPagesAreAnswered: a request that passes and one that waits, no leaf left, a page to list. -/
theorem witness_quotes : stored.dev.ready = true ∧ (0x8000000000000000 : Word).toNat % 2 ^ 61 = 0 ∧ (stored.dev.quoteRegs false).go = false ∧
    ({ stored.dev with quotes := [(false, 9)] } : Dev).quotes = [(false, 9)] ∧ stored.dev.leafNext = stored.dev.leafEnd ∧ stored.dev.sigCounter < 2 ^ 40 ∧
    ¬((0x8000000000000005 : Word).toNat / 2 ^ 57 % 2 ^ 4 ≠ 0) ∧ stored.dev.badGo = false ∧ stored.dev.badPage ∉ stored.dev.badPages ∧ stored.dev.badPages.length < 4096 := by decide +kernel
theorem test_badpage : ran (exec .badpageAnswer { stored with dev := { stored.dev with badGo := true, badPage := 5 } }) (fun t => t.dev.badPages == [5] && t.dev.badCount == 1 && !t.dev.badGo) = true := by
  decide +kernel

/-- ResetRungsTakeEffect: rungs of each number that are accepted, a core that is debug-halted, a rung that waits and one that absorbs. -/
theorem witness_resets : ((stored.up fun c => { c with debugHalt := .stopped }).cutOrHalted 0) = true ∧ stored.cutOrHalted 0 = false ∧ (0x1000000000000000 : Word).toNat / 2 ^ 60 = 1 ∧
    ({ num := 3, first := 0, cnt := 4, qid := 0 } : Rung).covers { num := 2, first := 1, cnt := 1, qid := 0x40 } = true ∧
    ({ num := 3, first := 0, cnt := 4, qid := 0 } : Rung).overlaps { num := 2, first := 4, cnt := 1, qid := 0x40 } = false ∧
    ends (applyRung { num := 3, first := 0, cnt := 2, qid := 0 }) stored (fun _ t => (t.core 0).unit.isNone) = true ∧ stored.storesDone 0 = true ∧
    (∀ n ∈ ({ num := 3, first := 0, cnt := 2, qid := 0 } : Rung).cores, ((stored.up fun c => { c with unit := none }).core n).unit = none) := by decide +kernel
theorem test_reset_of_a_queue : ran (exec (.resetQueue (.firmware 1) 0x1010000000000000) (stored.up fun c => (c.setDq 0 (holding [{ val := some 7, vis := 0, cov := Cover.none }])).clearQueue 99))
    (fun t => t.dev.refused && (t.here.dq 0).entries.length == 1) = true ∧
    ran (exec (.resetQueue (.firmware 1) 0x1010000000000000) (stored.up fun c => { (c.setDq 0 (holding [{ val := some 7, vis := 0, cov := Cover.none }])) with debugHalt := .stopped }))
      (fun t => !t.dev.refused && (t.here.dq 0).entries.isEmpty) = true := by decide +kernel

/-! ## Windows, planes and the step -/

/-- A window entry of two `.f32` blocks from port 1 alone, of depth 1, at device 0's own memory; a contribution to it, and a request of core 0. -/
def window : List Word := [0x2000, 0x20300, 2, 0x10001]
def contrib (port : BitVec 6) : Contribution := { sw := 1, port := port, addr := 0x2000, blk := 0, fmt := 3, scale := 0, flags := 0, elems := List.replicate 64 0x3F800000, cores := [] }
def switching : State :=
  { engined 0x1000 0 [(0x2000, 0x3F800000)] with switches := [(1, { Switch.reset with win := [(0, window)] })] }.up fun c =>
    { c with coll := [{ addr := 0x1000, job := 0, phys := false, words := [0x2000, 0x10000000000, 64, 3, 0, 0, 0, 0], started := false, sent := 0, ended := 0, err := 0, flags := 0, parked := none, cover := Cover.none }] }

/-- ContributionsCombineInWindows: an entry that matches and none, a port met and one waiting, a request with a block to send, one ended, a reply. -/
theorem witness_windows : (switching.sw 1).matching (contrib 1) = some (0, 0) ∧ (switching.sw 1).matching (contrib 2) = none ∧ (switching.sw 1).waiting = [] ∧
    winDepth window = 1 ∧ (∀ p ∈ winPorts window, ∃ x ∈ [contrib 1], x.port.toNat = p) ∧ switching.portTo 1 = some 1 ∧ switching.portTo 2 = none ∧
    (∀ r ∈ (switching.core 0).coll, r.sent < rq r.words 2 0 32 / 64 ∧ ends (readBlock 0 r r.sent) switching (fun b _ => b.1.length == 64) = true ∧ rq r.words 3 40 1 = 0) ∧
    ends (soft () (hwPut 0 0x1020 (2 ^ 63))) switching (fun _ _ => true) = true ∧ winOk (switching.sw 1) 1 [0x4000, 0x10300, 2, 0x10001] = true ∧
    winOk (switching.sw 1) 1 window = false := by decide +kernel
theorem witness_waiting : (({ switching with switches := [(1, { Switch.reset with win := [(0, window)], waiting := [contrib 1] })] } : State).waitingAll[0]?).isSome = true := by decide +kernel
theorem test_swcfg_needs_a_port : ran (exec (.swcfgGo 0x8000000000000003) switching) (fun t => bitsOf (Tab.get 0 t.dev.swcfg 0) 61 3 == 4 && bitsOf (Tab.get 0 t.tick.dev.swcfg 0) 61 3 == 2) = true := by decide +kernel

/-- PlanesMove: a send with a plane to go, a receive whose tile expects plane 0, opens and prunes of known and unknown transfers. -/
theorem witness_planes : ((planing send1 true).core 0).planes[0]? = some (posted send1 true) ∧ (posted send1 true).toSend.head? = some (0, 0) ∧
    ((planing send1 true).portTo ((posted send1 true).child 0)).isSome = true ∧ ends (hwRead 0 0x2000 512) (planing send1 true) (fun b u => b.length == 512 &&
      ends (planeSettle 0 0) u fun _ _ => true) = true ∧ (planing recv1 false).receiveOf 0 7 = some (0, 0, posted recv1 false) ∧ (planing recv1 false).receiveOf 0 8 = none ∧
    ((posted recv1 false).tile 0).sent = 0 ∧ ctrCanc ((posted recv1 false).tile 0).ctr = false ∧ (posted recv1 false).parent ≠ none ∧
    ends (writeJob 0 (engine 0) 0x2000 [1, 2]) (planing recv1 false) (fun _ u => ends (writeJob 0 (engine 0) 0x3000 [0x80]) u fun _ _ => true) = true ∧ (posted recv1 false).fmt = 2 := by
  decide +kernel
theorem test_plane_of_a_cancelled_tile_is_counted : ran (exec (.planeArrival { job := 0, tag := 7, tile := 0, plane := 0, bad := false, bits := [] })
    ((planing recv1 false).modPlane 0 0 fun r => r.setTile 0 { ctr := 0x40, pruned := [], sent := 0, ended := false, elems := [], readyAt := 0 }))
    (fun t => ((t.core 0).planes.map fun r => (r.cnt, (r.tile 0).sent)) == [(1, 1)] && t.devBytes 0x2000 2 == [0, 0]) = true := by decide +kernel

/-- StepRunsTheDecodedInstruction: the issue slots of K and of L, with words in the code store; `test_step_runs_add` runs `add s5, s1, s2`. -/
def stepping (q : Ctx) (w : BitVec 32) (l : List Move) : State := { (st q [(1, 2), (2, 3)]).up fun c => { c with code := [(0, w)], fActive := false } with agenda := l }
theorem witness_step : (stepping .k 0xE0942200 [.issue 0 .k]).agenda = [.issue 0 .k] ∧ ({ stepping .k 0xE0942200 [] with cur := (0, .k), issued := false } : State).canIssue = true ∧
    ends (fetchWord 0 .k) (stepping .k 0xE0942200 []) (fun w _ => decode .kcode w == some (.add 5 1 2)) = true ∧ (stepping .k 0 []).trapDue 0 = false ∧
    ((stepping .k 0 []).core 0).slotAt ≠ 101 ∧ isEvent (.poolSubmit) = true ∧ (stepping .k 0 []).dev.power ≠ 3 ∧
    (stepping .k 0 [.dropWord 0 0]).agenda = [.dropWord 0 0] ∧ (stepping .k 0 [.dropLeaf 0]).agenda = [.dropLeaf 0] := by decide +kernel
theorem test_step_runs_add : ran (step (stepping .k 0xE0942200 [.issue 0 .k])) (fun t => (t.core 0).k.reg 5 == 5 && (t.core 0).slotAt == 101 && t.agenda == []) = true := by decide +kernel
theorem test_step_takes_an_unallocated_word : ran (step (stepping .l 0xFFFFFFFF [.issue 0 .l])) (fun t => (t.core 0).l.stop.map (fun r => r.code) == some 1) = true := by decide +kernel
theorem test_with_fetch_word : ran (step (State.reset.withFetchWord 32 0xE0942200)) (fun t => (t.core 0).k.pc == 4) = true := by decide +kernel

/-- DecodeAndEncodeAgree and MemoryStaysCanonical: words of each section, and memories in their form. -/
theorem witness_encode : (Instr.add 5 1 2).wf = true ∧ (Instr.add 5 1 2).fits .kcode = true ∧ encode (.add 5 1 2) = some 0xE0942200 ∧ (encode .poolSubmit) = none := by decide +kernel
theorem witness_memory : Memory.wf State.reset.mem = true ∧ Memory.wf stored.mem = true ∧ ran (step (stepping .k 0xE0942200 [.issue 0 .k])) (fun t => Memory.wf t.mem) = true := by decide +kernel

/-! ## Further clauses of the statements above -/

theorem test_wf_dx_cur : (Instr.dxCur 5 8 11 1).wf = false ∧ (Instr.dxCur 5 8 11 2).wf = true := by decide

/-- WaitsAndCallsOfK: what K has acquired is not yet readable. -/
theorem witness_fence_waits : let s := (st .k []).modSeq fun q => { q with cover := { stores := [], till := 101 } }
    s.covered s.seq.cover = false ∧ s.canIssue = true := by decide

/-- RingWordsIssue: a reader whose turn it is and one that comes too late, a colophon at HEAD, one that is claimed and not pushed. -/
theorem witness_ring_places : ((copying .s 4 3 0 false).homeRing 0 2).mayTake 100 (readerRank ((copying .s 4 3 0 false).ringHome 0 2).1 0 .s) = true ∧
    ({ Ring.reset with takeAt := (101, 2) } : Ring).mayTake 100 (readerRank 0 0 .l) = false ∧
    ((copying .l 4 4 3 true).homeRing 0 2).isColophon ((copying .l 4 4 3 true).homeRing 0 2).head = true ∧
    ((copying .l 4 4 3 true).homeRing 0 2).tail = ((copying .l 4 4 3 true).homeRing 0 2).claim ∧
    ((copying .l 4 3 3 true).homeRing 0 2).filled 100 < 2 ∧ ((copying .l 4 3 3 true).homeRing 0 2).tail ≠ ((copying .l 4 3 3 true).homeRing 0 2).claim := by decide

/-- A `tld` in flight with its position and its one block moved, or not yet. -/
def moved (cursor : Nat) : TFlight := { flightOf (copying .l 4 2 0 false) .move 1 2 with claimed := some 2, td := td16, cursor := cursor }

/-- TransfersRetireInOrder: a home that is VALID and one that is not, a move whose block is done, one of no ring. -/
theorem witness_move_retirement : ((copying .l 4 2 0 false).homeRing 0 2).valid = true ∧ ((copying .l 4 2 0 false).homeRing 0 5).valid = false ∧
    (moved 1).accessed = true ∧ (moved 0).accessed = false ∧ (moved 1).fillsRing = true ∧ (moved 1).namesRing = true ∧ (moved 1).emptyWin = false ∧
    (flightOf (copying .l 4 2 0 false) .move 3 0).namesRing = false := by decide
theorem test_move_retires : ran (exec (.transferRetire 0 .l) (flying (copying .l 4 2 0 false) (moved 1))) (fun t => (t.core 0).tl.flight == [] && (t.homeRing 0 2).tail == 3) = true := by
  decide

/-- MatrixWordsRetire: the entry written to is free, and a word of it is locked by an atomic; a read-out with its codes. -/
theorem witness_matrix_locks : (matrixing 0).outLocked 0 (mflight 5) = false ∧
    ((matrixing 0).up fun c => { c with amos := [{ minReq with tgt := .slice 0 8, pres := some (95, 0) }] }).outLocked 0 (mflight 5) = true ∧
    (mflight 5).from_ = 0 ∧ (mflight 6).from_ < (mflight 6).slotsOf ∧ ({ mflight 6 with enc := true, ringB := 3, posB := some 0 } : MFlight).enc = true := by decide

/-- The stream with its first block shared, its group as in `emitting`, and a pool that holds `pool` blocks. -/
def sharing (pool : Nat) : State :=
  { emitting 0 1 with mem := cells [(0x3000, 0x10000), (0x3800, 0x400000000 + pool), (0x3808, 0x3880), (0x3880, 0x10040), (0x3908, 5),
      (0x10000, 3), (0x10008, 0x200300000), (0x10010, 0x20000), (0x10018, 2), (0x10050, 0x20080)] }
/-- K's group without its lines. -/
def bareOf (s : State) : State := s.modCore 0 fun c => { c with group := { c.group with lines := [] } }

/-- KvWordsTakeEffect: a shared block, copied from a pool with a block and from one without, its eviction, cuts that need a copy. -/
theorem witness_kv_shared : ends (kViewW 0 0x3000) (bareOf (sharing 1)) (fun e _ => e == 0x10000) = true ∧
    ends (kvHdr 0 0x10000) (bareOf (sharing 1)) (fun h _ => decide (h.ref = 2)) = true ∧
    ends (do kvCopy (sharing 1) true 3 0 0 2 (← kvHdr 0 0x10000)) (bareOf (sharing 1)) (fun r _ => r.isSome) = true ∧
    ends (do kvCopy (sharing 0) true 3 0 0 2 (← kvHdr 0 0x10000)) (bareOf (sharing 0)) (fun r _ => r == none) = true ∧
    ends (kvTake 0 true 0x3800 3 1) (bareOf (sharing 0)) (fun r _ => r == none) = true ∧
    ends (do match ← kvCopy (sharing 1) false 3 0 0 2 (← kvHdr 0 0x10000) with
             | some h => do kPutW 0 0x3000 h.va; kvRelease 0 3 0x10000; kvCompact 0 h 2; kPutW 0 h.va 2
             | none => Act.fault 0 0) (bareOf (sharing 1)) (fun _ _ => true) = true ∧
    ends (kvTruncate (sharing 0) 3 1) (sharing 0) (fun r _ => !r) = true ∧ ends (kvTruncate (sharing 1) 3 1) (sharing 1) (fun r _ => r) = true ∧
    ends (do shareEmpty (streaming 3 1) 4; shareBlocks (streaming 3 1) 4 3 1) (bareOf (streaming 3 1)) (fun _ _ => true) = true ∧
    ((sharing 1).up fun c => { c with group := { c.group with layers := [0] } }).here.boundTo 3 = true := by decide +kernel

/-- DuplexWordsTakeEffect: a slot with no new frame, a frame before its deadline (with and without the trap), a commit, and a stale one. -/
theorem witness_duplex_frames : ends (kRegister { streaming 1 1 with mem := cells [(0x3900, 0x100000000)] } 3) { streaming 1 1 with mem := cells [(0x3900, 0x100000000)] }
      (fun _ u => bitsOf (u.sd 3 7) 32 32 == bitsOf (u.sd 3 7) 0 32) = true ∧
    ends (do kRegister ((streaming 1 1).setSd 3 2 10) 3; kPutW 0 0x3A00 2; kViewW 0 0x3908) ((streaming 1 1).setSd 3 2 10) (fun x u => decide (x = 5) && decide (x < (u.sd 3 2).toNat)) = true ∧
    (((streaming 1 1).setSd 3 0 0xC000002000020000).sd 3 0).getLsbD 62 = true ∧
    ends (do kCapture 0 0x3D08 [1, 2, 3, 4]; commitGroup 0 fun x => x.setCur 3 (x.curG 3 + 1) (x.curP 3)) (emitting 1 1) (fun _ u => u.curG 3 == 3) = true ∧
    (((emitting 1 1).setSd 3 9 0x8000000000000000).sd 3 9).getLsbD 63 = true ∧ (((emitting 1 1).setSd 3 9 0x8000000000000000).sd 3 8).toNat ≤ 100 ∧
    ends (abortGroup 0) ((emitting 1 1).setSd 3 9 0x8000000000000000) (fun _ _ => true) = true := by decide +kernel

/-- SymbolWordsTakeEffect: a list whose symbol is live and one whose symbol is missing, an address past the last ID. -/
theorem witness_symbol_lists : ends (readAffine 0 0x1000) (affine 0x1000 0x3000) (fun t u => t.ids == [4] && t.diag == [] && u.symCount 0 4 == some 1) = true ∧
    ends (readAffine 0 0x1000) { affine 0x1000 0x3000 with dies := [] } (fun t u => t.ids == [4] && u.symCount 0 4 == none) = true ∧ 2 ^ 24 ≤ ((0x1000000 : Word) + w64 0).toNat := by
  decide +kernel

/-- The counters of job 0 in the slice of core 0. -/
def counting : State := { tasking 1 1 1 with jobs := [(0, { j0 := 0x4000000008, j1 := 0x10000, j2 := 0x4000000000, j3 := 0x30000, made := true })] }

/-- TaskWordsTakeEffect: a store pending, a counter in the own slice (its request in order and behind another), a barrier waited for, and one that closed. -/
theorem witness_task_waits : ((tasking 1 5 1).up fun c => { c with
      storeSeq := 1, fwd := [pend (.dev 0) [1]] }).released = false ∧
    aims (counting.targetOf 0 .k (counting.ctrAt 0 1) .atomic) (.slice 0 8) = true ∧ counting.amoMay 0 { minReq with seq := 1, tgt := .slice 0 8 } = true ∧
    (counting.up fun c => { c with amos := [minReq] }).amoMay 0 { minReq with seq := 2, tgt := .slice 0 8 } = false ∧
    ((quiring 1).launchAt 0 0).map (fun l => decide ((Tab.get Barrier.start l.bars 1).episode < 1)) = some true ∧
    (((quiring 1).modLaunch 0 0 fun l => { l with bars := [(1, { Barrier.start with episode := 1, past := [(0, Cover.none)] })] }).launchAt 0 0).map
      (fun l => decide (1 ≤ (Tab.get Barrier.start l.bars 1).episode)) = some true := by decide +kernel

/-- The same with a dispatch that its die owes in this cycle. -/
def owing : State := { readied with dies := readied.dies.map fun x => (x.1, { x.2 with owed := 70001 }) }

/-- DispatchStepsTakeEffect and StepRunsTheDecodedInstruction: a die that owes a dispatch and one that has dispatched, a fault queue that is full, a task whose keys go. -/
theorem witness_dispatch_turns : owing.owes 0 = true ∧ owing.dispatchDue = true ∧ (∀ x ∈ readied.regrip.dies, x.2.dispAt ≠ readied.regrip.ccount + 1) ∧
    (({ owing with dies := owing.dies.map fun x => (x.1, { x.2 with dispAt := 70001 }) } : State).die 0).dispAt = owing.ccount + 1 ∧
    ends (do submitTask 0 5 (← soft [] (readTcb 0 5))) readied (fun _ _ => true) = true ∧ ends (do queueOf 0 (← soft [] (readTcb 0 5))) readied (fun _ _ => true) = true ∧
    (({ readied with dies := [(0, { Die.reset with fqProd := 1024 })] } : State).die 0).fqFull = true ∧ ends (soft () (tcbField 0 5 3 19 1 0)) readied (fun _ _ => true) = true ∧
    ends (setTaskState 0 5 5) readied (fun _ _ => true) = true ∧ (stepping .k 0 [.tick]).dispatchDue = false := by decide +kernel

/-- AttentionAndCollectiveWords and PlaneWordsTakeEffect: an engine with room, and one that holds 16 requests. -/
theorem witness_full_engines : (engined 0x1000 0 []).here.planes.length < 16 ∧ (engined 0x1000 0 []).here.coll.length < 16 ∧
    (((engined 0x1000 0 []).up fun c => { c with planes := List.replicate 16 (posted recv1 false) }).here.planes.filter fun r => !r.done).length = 16 ∧
    ((switching.up fun c => { c with coll := c.coll.flatMap (List.replicate 16) }).here.coll).length = 16 := by decide +kernel

/-- The sequencer with an entry in ring 2 and room in ring 3. -/
def expo : State := sequencing.up fun c => { c with
  rings := [(2, { Ring.reset with base := 0x4000000000, ctl := 0x1006280000, claim := 1, tail := 1, pushed := [0] }), (3, { Ring.reset with base := 0x4000004000, ctl := 0x1006280000 })] }

/-- MicrowordsTakeEffect: an EXP that is ready, a copy and a gather with a free slot. -/
theorem witness_exp : (expo.core 0).att.exp = none ∧ (expo.homeRing 0 2).valid = true ∧ (expo.homeRing 0 2).isFilled 100 (expo.homeRing 0 2).nextRead = true ∧
    (expo.homeRing 0 2).mayTake 100 (readerRank (expo.ringHome 0 2).1 0 .f) = true ∧ (expo.homeRing 0 2).isColophon 0 = false ∧ expo.covered (expo.homeRing 0 2).cov = true ∧
    (expo.homeRing 0 3).valid = true ∧ 1 ≤ (expo.homeRing 0 3).free ∧ (expo.homeRing 0 3).waits = [] ∧ ends (attRead 0 (((expo.core 0).ring 2).addr 0) 256) expo (fun b _ => b.length == 256) = true ∧
    (sequencing.core 0).ta.flight = [] ∧ (gathering.core 0).ta.flight = [] := by decide +kernel
theorem test_exp_retires_nine_cycles_later : ran (exec (.exp 0 (mword 0 0 2 3 64)) expo) (fun t => (t.core 0).att.exp.isSome && (t.homeRing 0 3).claim == 1 && (t.homeRing 0 3).tail == 0 &&
    ran (attRetire 0 { t with ccount := 109 }) (fun u => (u.core 0).att.exp.isNone && (u.homeRing 0 3).tail == 1 && (u.homeRing 0 2).head == 1)) = true := by decide +kernel
theorem test_kvg_counts_its_survivors : ran (exec (.kvg 0 (mword 1 2 2 3 0)) gathering) (fun t => (t.core 0).ta.flight.length == 1 && Tab.get 0 (t.core 0).att.ar 3 == 2) = true := by
  decide +kernel

/-- An atomic has locked the word at 0x40. -/
def locking : State := stored.up fun c => { c with amos := [{ minReq with pres := some (95, 0) }] }
/-- An atomic of K on its way to device 1. -/
def sent : State := ({ stored with far := [farReq (.amo 1 (.amo 1 0x40 5 false 5 0 0)) (.remote 1 0x40) 0] } : State).up fun c => { c with amos := [{ minReq with ret := none, tgt := .remote 1 0x40, pres := some (90, 0) }] }

/-- HostReachesDeviceMemory and LinksCarryRequests: a locked word and one beside it, a record whose writers are covered and not, the answer to an atomic. -/
theorem witness_locks : locking.locked (.dev 0x40) 8 = true ∧ locking.locked (.dev 0x48) 8 = false ∧ stored.covered stored.dev.recCover = true ∧
    ({ stored with dev := { stored.dev with recCover := { stores := [], till := 101 } } } : State).covered { stores := [], till := 101 } = false ∧
    (sent.core 0).kWait = none ∧ (sent.core 0).amos.all (fun r => r.pres.isSome && r.tgt.isRemote) = true := by decide
theorem test_answer_ends_an_atomic : ran (exec (.remoteResponse 0 [7, 0, 0, 0]) sent) (fun t => (t.core 0).amos == []) = true := by decide

/-- ContributionsCombineInWindows: a home that is free and one that is busy, a request whose block is on its way, one that is ended, its completion. -/
theorem witness_engine_requests : switching.homeBusy 0x2000 256 = false ∧
    ({ switching with sites := [(siteOf 0x2000, { refresh := true, since := 0, stalled := false, temp := 0 })] } : State).homeBusy 0x2000 256 = true ∧
    ((switching.core 0).coll.all fun r => decide (r.sent ≤ r.ended) && r.parked == none && switching.covered r.cover && !r.started) = true ∧
    (switching.core 0).cutting = .running ∧ (switching.core 0).debugHalt = .running ∧
    ((switching.core 0).coll.all fun r => let r := { r with sent := 1, started := true }; decide (r.ended < r.sent)) = true ∧
    ((switching.core 0).coll.all fun r => let r := { r with sent := 1, ended := 1, started := true }; decide (r.ended = rq r.words 2 0 32 / 64)) = true ∧
    ends (do writeJob 0 (engine 0) 0x1020 (toBytes 8 (2 ^ 63)); ctrAdd 0 0 1) switching (fun _ _ => true) = true ∧
    switching.siteHeld 0x1020 8 = false ∧ switching.locked (.dev 0x1020) 8 = false := by decide +kernel

/-- PlanesMove: what a send waits for, readable and not, the reads and writes of the engine, ports that carry nothing. -/
theorem witness_plane_engine : ends (do let b ← engRead 0 0 0x2000 512; planeSettle 0 0; pure b.length) (planing send1 true) (fun k _ => k == 512) = true ∧
    (planing send1 true).covered (posted send1 true).cover = true ∧ (planing send1 true).covered { stores := [], till := 200 } = false ∧
    ({ planing recv1 false with dev := { (planing recv1 false).dev with zen := false } } : State).dev.zen = false ∧
    ends (do writeJob 0 (planeWriter 0) 0x2000 [1, 2]; writeJob 0 (planeWriter 0) 0x3000 [0x80]) (planing recv1 false) (fun _ _ => true) = true := by decide +kernel

/-- `lanes` with a rule that has one segment in slot 0, and its image in v3. -/
def ruling : State := lanes.up fun c => { c with vec := { c.vec with rule := [(0, 0xFF80000000000001)], v := c.vec.v ++ [(3, 0xFF80000000000001)] } }
/-- A claim that waits at the home of ring 2. -/
def claiming : State := (ring2 .l 1 0 0 false).up fun c => c.setRing 2 { c.ring 2 with waits := [{ core := 0, ctx := .l, id := 1, colo := false }] }

/-- WordsAndStepsComplete, its scalar words: a loop with three outside it, CSRs, K with a handler at depth 1 and no stop, stores to free entries. -/
theorem witness_complete_words : let s := (st .l [(1, 2)]).modSeq fun q => { q with loops := List.replicate 3 { start := 4, stop := 0x10000, rem := 1 } }
    s.readyFor [1] = true ∧ s.seq.mpos = none ∧ s.seq.loops.length < 4 ∧ (∀ e ∈ s.seq.loops, e.stop ≠ s.seq.pc ∧ (s.seq.pc + 4 * (4095 : BitVec 13).setWidth 64).toNat ≤ e.stop.toNat) ∧
    (st .k [(1, 6)]).readyFor [1] = true ∧ csrRead (st .k [(1, 6)]) 0x010 = some 0 ∧ csrOk 0x010 (0 ||| 6) = true ∧ csrOk 0x010 (0 &&& ~~~6) = true ∧
    (handled .k 1).canIssue = true ∧ (∀ q ∈ [Ctx.k, .l, .c, .s, .f], ((handled .k 1).here.seq q).stop = none) ∧ (handled .k 1).here.supK.tsw.toNat % 8 ≤ 4 ∧
    stored.readyFor [2, 1] = true ∧ stored.here.capturing = false ∧ stored.here.fwdFree 100 = true := by decide

/-- WordsAndStepsComplete, its V-words: the forms that it names, ready, with registers as operands; a segment in the rule, an image that passes. -/
theorem witness_complete_vectors : ruling.canIssue = true ∧ teOf ruling.seq.fcsr = 0 ∧ ruling.tokensReady 0 0 = true ∧ laneRsv 2 = false ∧ (2 : Nat) ≠ ruling.here.vec.ty ∧
    cfgLegal 0x672 = true ∧ (∀ j, j < 64 → usedSegs (Tab.get 0 ruling.here.vec.rule (laneAt 32 (ruling.vOperand 4) j % 16)) ≠ []) ∧ imageOk (ruling.vOperand 3) = true ∧
    ([{ VForm.lanes ruling.here.vec [1, 2] 3 true 2 with masks := 0 :: ruling.here.vec.maskRead }, { VForm.lanes ruling.here.vec [1, 2] 0 true 2 with dst := none },
      VForm.lanes ruling.here.vec [1] 3 true 4, VForm.lanes ruling.here.vec [1] 3 true (4 + 2 * Nat.log2 (laneL 1)), VForm.bare true 2 [], VForm.bare true 2 [1], VForm.bare true 34 [1],
      { VForm.lanes ruling.here.vec [1, 4] 3 true 8 with eb := true, ruleTab := true }, { VForm.bare true 2 [] with srcs := [3, 4], dst := some 72, ruleTab := true }].all
        fun x => ruling.vReady x && ruling.slicesOk x) = true := by decide +kernel

/-- WordsAndStepsComplete, its steps: a store to perform, a claim with a free entry, a push and a colophon to retire, a trap to take. -/
theorem witness_complete_steps : let s := stored.up fun c => { c with storeSeq := 1, fwd := [{ seq := 1, va := 0x40, tgt := .dev 0x40, bytes := [1], cover := Cover.none, doneAt := none, src := (0, none), sent := false }] }
    s.inOrder 0 1 Cover.none (.dev 0x40) = true ∧ s.locked (.dev 0x40) 1 = false ∧ s.siteHeld 0x40 1 = false ∧
    (claiming.here.ring 2).waits ≠ [] ∧ (claiming.here.ring 2).valid = true ∧ 1 ≤ (claiming.here.ring 2).free ∧
    ((copying .l 4 2 0 false).homeRing 0 2).valid = true ∧ ((copying .l 4 4 3 true).homeRing 0 2).isColophon 3 = true ∧ ((copying .l 4 4 3 true).here.ring 2).fwdEn = false ∧
    stopped.trapDue 0 = true ∧ (stopped.core 0).nextTrap.isSome = true ∧ (stopped.core 0).supK.tvec ≠ 0 := by decide
theorem test_claim_is_granted : ran (exec (.ringClaimGrant 0 2) claiming) (fun t => (t.here.ring 2).claim == 2 && (t.here.ring 2).waits == []) = true := by decide

/-! ## Each clause of the statements above: states that meet its conditions -/

/-- CsrsAreReadAndWritten, SequencerFaultsReachK, DataQueueWordsMoveEntries, TokenWordsMoveTokens: an event in F's list; a stop and nothing late; a
store to host memory that a push would release. -/
theorem witness_first_words : ((st .f []).up fun c => { c with events := [5] }).readyFor [] = true ∧ ((st .f []).up fun c => { c with events := [5] }).here.events = [5] ∧
    (stopped.core 0).late = [] ∧ (st .k []).mayRelease = true ∧
    ((st .k []).up fun c => { c with storeSeq := 1, fwd := [pend (.host 0) [1]] }).mayRelease = false := by decide

/-- A pending store of K of two bytes. -/
def pending (t : Target) : State := stored.up fun c => { c with storeSeq := 1, fwd := [pend t [1, 2]] }

/-- LoadsReadTheirBytes and StoresAreForwardedAndPerformed: a page of device 1 and the slice window, a far load behind K's store to it and behind none;
the pending store of each home, one sent, the frozen slice. -/
theorem witness_homes : aims (collecting.targetOf 0 .k (2 ^ 30) .read) (.remote 1 0) = true ∧ aims ((ring2 .k 0 0 0 false).targetOf 0 .k 0x4000000008 .read) (.slice 0 8) = true ∧
    ends (kRead 0 (.slice 0 8) 0x4000000008 4) stored (fun b _ => b == [0, 0, 0, 0]) = true ∧
    stored.farClear 0 (.remote 1 0) = true ∧ (pending (.remote 1 0)).farClear 0 (.host 0x40) = false ∧ (stored.core 0).frozen = false ∧
    ([Target.dev 0x40, .slice 0 8, .host 0x40, .remote 1 0].all fun t => ((pending t).core 0).fwd.find? (fun x => x.doneAt.isNone) == some (pend t [1, 2]) &&
      (pending t).inOrder 0 1 Cover.none t && !(pending t).locked t 2 && (pending t).linked t && ((pending t).core 0).recent.isEmpty) = true ∧
    ((pending (.slice 0 8)).up fun c => { c with frozen := true }).locked (.slice 0 8) 2 = false ∧
    (((pending (.slice 0 8)).up fun c => { c with frozen := true }).core 0).frozen = true ∧ ({ pend (.host 0) [1] with sent := true } : Store).sent = true := by decide +kernel

/-- AtomicWordsSendTheirRequest and AtomicsActAtTheirHome: F on device memory and on a register; an atomic of the host six cycles after its presentation
and before. -/
def homing (c : Nat) : State :=
  { stored with ccount := c, amoq := [{ who := .host, pres := (100, 0), op := 1, dbl := false, va := 0x40, tgt := .dev 0x40, opnd := 1, cmp := 0, fcsr := 0, applied := false }] }
theorem witness_home_atomics : (st .f [(1, 0x40)]).readyFor [1, 2, 3] = true ∧ (st .f []).covered (st .f []).seq.cover = true ∧ aims (physTarget 0x40) (.dev 0x40) = true ∧
    aims (physTarget 0x1000000000008) (.bar 8) = true ∧ ((homing 106).amoq.all fun r => (homing 106).homeDue r && !(homing 100).homeDue r) = true ∧
    (homing 106).siteHeld 0x40 4 = false ∧ Tab.get false (homing 106).poison 1 = false ∧ Tab.get 0 (homing 106).latent 1 = 0 ∧ (st .f []).canIssue = true := by decide +kernel

/-- RingWordsIssue: three entries wanted, two filled, and the colophon the last one. -/
theorem witness_rgwf_short : let s := (copying .l 4 4 2 true).modSeq fun q => { q with regs := [(1, 3)] }
    s.readyFor [1] = true ∧ (s.homeRing 0 2).filled 100 < 3 ∧ (s.homeRing 0 2).colo = true ∧ (s.homeRing 0 2).tail = (s.homeRing 0 2).claim ∧
    (s.homeRing 0 2).isColophon (s.homeRing 0 2).head = false ∧ 3 ≤ (s.here.ring 2).count ∧ stepFirst s 0 1 = false := by decide

/-- TransfersRetireInOrder: moves of each mode that are done, a `wfeed` whose rows pass, a row word with its effect and one that repeats it. -/
theorem witness_move_modes : ([1, 2, 3].all fun m => ({ moved 1 with mode := m, claimed := none, target := if m = 2 then 4 else 0 } : TFlight).accessed) = true ∧
    ({ moved 1 with mode := 1, claimed := none } : TFlight).fillsRing = false ∧ (copying .l 4 2 0 false).farWrites (0, 1, 1) = false ∧
    (unpackRows 1 (List.replicate 1024 0) 128 0 []).2 = none ∧
    ends (rowsEffect 0 .l { flightOf (copying .l 4 2 0 false) .rows 8 0 with a := 0x1000 }) (copying .l 4 2 0 false) (fun _ u => !u.farWrites (0, 1, 1)) = true := by decide +kernel

/-- A state with one core and nothing that stands in the way of a copy side. -/
theorem plain_of {s : State} {c : Core} (n : CoreId) (q : Ctx) (hc : s.clean) (h : s.cores = [(0, c)]) (hp : s.poison = []) (hl : s.latent = [])
    (hf : c.frozen = false) (hw : c.wpt = []) (hs : c.snapctl.getLsbD 1 = false) (ht : (c.tu q).wrTill = 0) (hr : c.recent = []) : s.plain n q := by
  have hk : ∀ m, s.core m = Core.reset ∨ s.core m = c := fun m => by
    unfold State.core Tab.get
    rw [h]
    dsimp only
    split
    · exact .inr rfl
    · exact .inl rfl
  refine ⟨fun t len => locked_clean hc t len, fun pa len => siteHeld_clean hc pa len, fun b => by rw [hp]; rfl, fun b => by rw [hl]; rfl, fun m => ?_, fun a len w => ?_, ?_, ?_,
    fun m w hm => ?_⟩
  · rcases hk m with e | e <;> rw [e]
    · rfl
    · exact hf
  · rcases hk n with e | e <;> rw [e]
    · simp [Core.watchHit, Core.reset, Tab.get]
    · simp [Core.watchHit, hw, Tab.get]
  · rcases hk n with e | e <;> rw [e]
    · rfl
    · exact hs
  · rcases hk n with e | e <;> rw [e]
    · cases q <;> exact Nat.zero_le _
    · rw [ht]; exact Nat.zero_le _
  · rcases hk m with e | e <;> rw [e] at hm
    · cases hm
    · rw [hr] at hm; cases hm

/-- TransfersMoveTheirBytes: a `tld` into an `iq` entry, and a row of device memory written. -/
def loading : State := copying .l 0 0 0 false
def load16 : TFlight := { flightOf loading .move 1 0 with mode := 1, td := td16, a := 0x1000 }
theorem witness_plain : loading.plain 0 .l :=
  plain_of 0 .l (isClean_clean (by decide)) (by rfl) rfl rfl rfl rfl rfl rfl rfl
theorem direct_of {n : CoreId} {acc : Access} {a : Nat} (h : (aims (loading.translate n.toNat (loading.jobOf n) a acc) (.dev a) &&
    (loading.cachedAt n.toNat (loading.jobOf n) a).any fun c => c.entry.getLsbD 1) = true) : loading.direct n acc a (.dev a) := by
  rw [Bool.and_eq_true] at h
  refine ⟨?_, .inr ⟨⟨a, rfl⟩, h.2⟩⟩
  have h1 := h.1
  unfold aims at h1
  split at h1
  · rename_i x e; rw [e, of_decide_eq_true h1]
  · cases h1
theorem witness_bytes_read : 0 < load16.blocks ∧ load16.ahead = [] ∧ (cvtSizes load16.op load16.td).1 = tdSize load16.td ∧ (loading.core 0).tl.flight = [] ∧
    ∀ a ∈ ((load16.elems 0).map fun i => (patAddr (tBase load16.op load16.a load16.l (tdW load16.td 3)) load16.td i, tdSize load16.td)).flatMap
      (fun x => (List.range x.2).map fun j => x.1 + j), loading.direct 0 .read a (.dev a) := by
  refine ⟨by decide, by decide, by decide, by decide, fun a h => direct_of ?_⟩
  exact List.all_eq_true.mp (show (List.all _ fun a => aims (loading.translate 0 (loading.jobOf 0) a .read) (.dev a) &&
    (loading.cachedAt 0 (loading.jobOf 0) a).any fun c => c.entry.getLsbD 1) = true by decide +kernel) a h
theorem witness_row_written : 0x1000 % 1024 = 0 ∧ ∀ i, i < 1024 → loading.direct 0 .write (0x1000 + i) (.dev (0x1000 + i)) := by
  refine ⟨by decide, fun i h => direct_of ?_⟩
  exact List.all_eq_true.mp (show ((List.range 1024).all fun i => aims (loading.translate 0 (loading.jobOf 0) (0x1000 + i) .write) (.dev (0x1000 + i)) &&
    (loading.cachedAt 0 (loading.jobOf 0) (0x1000 + i)).any fun c => c.entry.getLsbD 1) = true by decide +kernel) i (List.mem_range.mpr h)

/-- MatrixWordsRetire, OtherVectorWordsIssue and VectorWordsRetireInOrder: a slice without a write of this cycle, entries apart; active and inactive
lanes, elements of a tile; words in flight that write `shape` and a rule slot. -/
theorem witness_engines_retire : ((matrixing 0).core 0).recent = [] ∧ (mflight 6).enc = false ∧ 1 ≤ (mflight 6).fmt ∧ (mflight 5).img.length ≤ 4096 ∧
    (mflight 6).n.toNat % 2 ^ 10 / 16 = 1 ∧ lanes.here.vec.active 0 = true ∧ (lanes.up fun c => { c with vec := { c.vec with shape := 0x111 } }).here.vec.active 0 = false ∧
    0 < cfgCols (lanes.here.vec.cfgOf 0) ∧ 0 < cfgRows (lanes.here.vec.cfgOf 0) ∧ cfgW (lanes.here.vec.cfgOf 0) ≤ 131072 ∧ laneAt 32 (ruling.vOperand 4) 0 < 2 ^ 31 ∧
    ran (exec (.vshape 0x13 0 0) lanes) (fun t => (t.here.vec.flight.map fun f => (f.shape, f.rshp)) == [(some 0x13, false)]) = true ∧
    ran (exec (.vrule 72 3 4 0 0 0) ruling) (fun t => (t.here.vec.flight.map fun f => f.dst.map fun x => decide (x.2.2 = allBits)) == [[true]]) = true := by decide +kernel

/-- K with a store to host memory that is not performed, and with one that it has acquired too. -/
def releasing (s : State) : State := s.up fun c => { c with storeSeq := 1, fwd := [pend (.host 0) [1]] }
def behindCover (s : State) : State := s.modSeq fun q => { q with cover := { stores := [], till := 101 } }

/-- TaskWordsTakeEffect, AttentionAndCollectiveWords, PlaneWordsTakeEffect: a word that waits to release or to read, a counter read. -/
theorem witness_words_that_wait : (releasing (tasking 1 1 1)).mayRelease = false ∧ (releasing collecting).mayRelease = false ∧ (releasing collecting).canIssue = true ∧
    (behindCover (tasking 1 1 1)).covered (behindCover (tasking 1 1 1)).seq.cover = false ∧ (behindCover (tasking 1 1 1)).canIssue = true ∧
    (behindCover receiving).covered (behindCover receiving).seq.cover = false ∧ (behindCover receiving).canIssue = true ∧ (releasing receiving).mayRelease = false ∧
    ends (kViewW 0 ((tasking 1 1 7).ctrAt 0 1)) (tasking 1 1 7) (fun y _ => y == 7) = true ∧ ends (wordCheck 0 5) (tasking 5 0 0) (fun _ _ => true) = true := by decide +kernel

/-- PlaneWordsTakeEffect: a child with a port and one without, zeros still under way, words the engine cannot take. -/
theorem witness_plane_opens : ((planing send1 true).portTo ((posted send1 true).child 0)).isSome = true ∧ (planing send1 true).portTo 2 = none ∧
    ({ posted recv1 false with zeroAt := 106 } : PlaneReq).zeroAt > 100 ∧ ((planing recv1 false).up fun c => { c with planes := List.replicate 16 (posted recv1 false) }).canIssue = true := by
  decide +kernel

/-- MicrowordsTakeEffect and StagingLands: reads that wait for a write over a link, copies without a slot, a walk's failure, an EXP that is not ready
and one to retire; a landing. -/
def waitingAtt : State := { sequencing with far := [{ core := 0, agent := 4, id := 0, kind := .back, tgt := .host 0x40, len := 4, va := 0x40, since := 10, src := (0, none), old := false, retried := false, got := none, failed := false }] }
theorem witness_microwords_wait : waitingAtt.farWrites (0, 4, 0) = true ∧ waitingAtt.attIssues 0 = true ∧
    ((gathering.up fun c => { c with ta := { c.ta with flight := List.replicate 4 (TFlight.blank gathering) } }).core 0).ta.flight.length = 4 ∧
    (match kvgRead 0 3 0 0 { gathering with mem := cells [(0x3000, 2 ^ 40)] } with | (.error (.fault _ _), _) => true | _ => false) = true ∧
    ((expo.core 0).tl.flight.isEmpty && (sequencing.homeRing 0 2).isFilled 100 (sequencing.homeRing 0 2).nextRead == false) = true ∧
    ends (do let _ ← readJob 0 (staged.tableAt 3 0 0) 8 0; readJob 0 0x10000 64 0) { staged with reader := (0, 10, 1) } (fun b _ => b.length == 64) = true := by decide +kernel

/-- UnitsStartAndEnd and CutsAndHaltsTakeEffect: a core that changes its job, one that is being cleared, a slice that is still and one that is not,
stores and atomics that a cut sets aside. -/
def clearing (c : Nat) : State := { (tasking 1 0 0).up (fun c => { c with starting := some (100, false) }) with ccount := c }
theorem witness_clearing : ((tasking 0 0 0).up fun c => { c with unit := none, prevJob := some 1 }).here.prevJob ≠ some 0 ∧
    ((starting.up fun c => { c with newJob := true }).core 0).newJob = true ∧ (starting.core 0).newJob = false ∧ (starting.core 0).prevJob = some 0 ∧
    ((starting.launchAt 0 0).map fun l => (l.fromNode, l.startAt, l.toResume 0, l.gathers)) = some (false, 0, false, false) ∧ (starting.core 0).starting = none ∧
    ((clearing 100).core 0).starting = some (100, false) ∧ ((clearing 99).core 0).starting = some (100, false) ∧
    (match (clearing 100).launchAt 0 0 with | some l => ends (readImage 0 l false) (clearing 100).asDevice (fun _ _ => true) | none => false) = true ∧
    (stopping.settleCore 0).sliceStill 0 = true ∧ (stopping.core 0).frozen = false ∧ (cutting.settleCore 0).setAside 0 = cutting.settleCore 0 ∧ cutting.atRest 0 = true ∧
    ((stopping.up fun c => { c with recent := [{ cyc := 100, rank := 0, off := 0, val := 1 }] }).settleCore 0).sliceStill 0 = false := by decide +kernel

/-- An atomic of the host on its way, an access made with an old record, K with a store to device 1, a transfer's read. -/
def awaiting (k : FarKind) (t : Target) (a : Nat) (since : Nat) (old retried : Bool) : State :=
  ({ pending t with far := [{ farReq k t a with since := since, old := old, retried := retried }], ccount := 2 ^ 24 + 10 } : State)

/-- HostReachesDeviceMemory and LinksCarryRequests: each kind of request, answered, late for the first and for the second time, and with the ports off. -/
theorem witness_far : (homing 100).hostBusy = true ∧ stored.hostBusy = false ∧ stored.oldDone = true ∧ (awaiting .read (.host 0x40) 1 10 true false).oldDone = false ∧
    ([FarKind.load, .read, .write [1], .back, .store 1 [1, 2], .amo 1 (.amo 1 0x40 5 false 5 0 0)].all fun k => [Target.host 0x40, .remote 1 0x40].all fun t =>
      decide ((awaiting k t 0 10 false false).far[0]? = some { farReq k t 0 with since := 10 })) = true ∧
    10 + 2 ^ 24 ≤ (awaiting .read (.remote 1 0x40) 1 10 false true).ccount ∧ (awaiting .read (.remote 1 0x40) 1 11 false false).ccount < 11 + 2 ^ 24 ∧
    (faring (.remote 1 0x40)).dev.zen = true ∧ ({ faring (.remote 1 0x40) with dev := Dev.reset } : State).dev.zen = false ∧ (sent.core 0).fwd = [] ∧
    ((sent.core 0).amos.find? fun a => a.id = 1) = some { minReq with ret := none, tgt := .remote 1 0x40, pres := some (90, 0) } ∧ 0x40 % 4 = 0 := by decide +kernel

/-- FirmwareStepsTakeEffect, QuotesAndBadPagesAreAnswered and ResetRungsTakeEffect: a stamped step late and one early, a word that is none; a hot site
and a cool one; a full list of pages; the rungs that wait, absorb, clear a saved unit or end. -/
def timed (stamp : Word) : State := { (matrixing stamp).up fun c => { c with code := [(0, 0x82010C90)] } with cur := (0, .c), issued := false, reader := (0, 2, 0) }
theorem witness_timed : (timed 99).canIssue = true ∧ ((timed 99).up fun c => { c with c := { c.c with halted := true } }).canIssue = false ∧
    ([99, 101].all fun x => ends (fetchWord 0 .c) (timed x) fun w u => (match decode .ccode w with
      | some i => (match stepWord i with
        | some (a, r, st, _) => let v : State := { u with word := w }
          decide (st = 1) && v.readyFor [r, r + 1] && mGroup1 v 0 { a with n := v.reg r } && (stampDiff v.ccount (v.reg (r + 1)) == 100 - (x.toNat : Int)) && bitsOf (v.reg (r + 1)) 52 12 == 0
        | none => false)
      | none => false)) = true := by decide +kernel
/-- Rungs of a device. -/
def rungs (l : List Rung) : State := { stored with dev := { stored.dev with rungs := l } }
def r34 : Rung := { num := 3, first := 0, cnt := 4, qid := 0 }
theorem witness_rungs : r34.covers { num := 2, first := 1, cnt := 1, qid := 0x40 } = true ∧ (2 : Nat) < 3 ∧
    r34.overlaps { num := 6, first := 0, cnt := 256, qid := 0 } = true ∧ runningRungs [] (rungs [r34]).dev.rungs = [r34] ∧ (∀ n ∈ r34.cores, (rungs [r34]).writesOut n = true) ∧
    ends (applyRung { num := 5, first := 0, cnt := 256, qid := 0 }) stored (fun _ t => t.jobs.isEmpty) = true ∧
    ends (applyRung { num := 6, first := 0, cnt := 256, qid := 0 }) stored (fun _ t => t.mem.isEmpty) = true ∧ (pending (.dev 0x40)).writesOut 0 = false ∧
    (resuming.savedOn 0).length = 1 ∧ resuming.cutOrHalted 0 = true ∧ (resuming.core 0).unit = none ∧ (resuming.core 0).debugHalt ≠ .stopped ∧
    (List.range 4096).length = 4096 ∧ stored.dev.critT ≤ 105 ∧ (0 : Nat) < stored.dev.relT ∧ (stored.site 3).refresh = false ∧ (stored.core 0).lastRetire + Nat.max 1 stored.dev.hungt ≤ 2 ^ 40 := by
  decide +kernel

/-- A cut unit whose save area nothing maps, so that a rung leaves its block as it is. -/
def unmapped : State := { resuming with mem := resuming.mem.map fun c => if c.1 = 0x100BB then (c.1, 0x80) else c }
theorem witness_saved_unit : (match unmapped.savedOn 0 with
    | [x] => ends (changeSaved 0 (fun y => y.modCore 0 fun c => c.clearQueue 0x10) x) (unmapped.modCore 0 fun c => { c with code := [] }) (fun _ _ => true)
    | _ => false) = true := by decide +kernel

/-- A message of a plane. -/
def plane0 (k t : Nat) : PlaneMsg := { job := 0, tag := 7, tile := t, plane := k, bad := false, bits := [] }
/-- The receive of `posted recv1` with a child that has accepted, a plane to forward and a prune to pay. -/
def relaying : PlaneReq := { posted ((recv1.set 3 1).set 4 1) false with out := [plane0 0 0], owes := [0] }

/-- ContributionsCombineInWindows and PlanesMove: a round that a port waits for, requests that are written or counted, planes in turn, out of turn and
early, a child that answers, a plane and a prune that go up and down. -/
theorem witness_windows_and_planes : (posted recv1 false).inTurn (plane0 0 0) = true ∧ (posted recv1 false).inTurn (plane0 1 0) = false ∧
    100 < ({ posted recv1 false with zeroAt := 106 } : PlaneReq).zeroAt ∧ relaying.out = [plane0 0 0] ∧ relaying.nch = 1 ∧ relaying.owes = [0] ∧
    Tab.get 9 relaying.answers 0 = 1 ∧ ((planing send1 true).portTo (relaying.child 0)).isSome = true ∧ ((planing send1 true).portTo 1).isSome = true ∧
    (posted send1 true).prunedBy 0 0 = false ∧ (posted recv1 false).nt = 1 ∧ noRecord ≠ 0x1000 ∧ (1 : Nat) ≤ (posted send1 true).fmt ∧ (posted send1 true).fmt ≤ 4 ∧
    ({ posted send1 true with answers := [(0, 2)] } : PlaneReq).openAt = [(0, 50)] ∧ 50 + 1023 ≤ ({ planing send1 true with ccount := 1100 } : State).ccount ∧
    ({ posted send1 true with answers := [(0, 0)] } : PlaneReq).done = false ∧ ((planing send1 true).planeReqs.filter fun y => !y.2.2.done &&
      (List.range y.2.2.nch).any fun c => decide (y.2.2.child c = 1)).length = 1 := by decide +kernel

/-- StepRunsTheDecodedInstruction: what keeps the clock from going on, and the moves beside the words. -/
theorem witness_step_moves : (stepping .k 0 [.tick]).cycleDue = false ∧ stepping .k 0 [] = { stepping .k 0 [.tick] with agenda := [] } ∧
    ({ stepping .k 0 [.tick] with sites := [(3, { Site.reset with temp := 105 })] } : State).cycleDue = true ∧
    ((stepping .k 0 [.tick]).up fun c => { c with events := [5] }).cycleDue = true ∧ hostRequest (.bar2Read 0x40 4) = true ∧ (homing 100).hostBusy = true ∧
    hostRequest .poolSubmit = false ∧ (stepping .k 0 []).farWrites (0, 0, 0) = false ∧ (missing.agenda = []) ∧ ((stepping .k 0 []).core 0).fpri = false := by decide +kernel

/-- An image whose signature has not 2,820 bytes fails (R434). -/
theorem test_unsigned_image_fails :
    ran (exec (.firmwareImageVerify [1] [] 0) State.reset) (fun t => t.dev.fail && !t.dev.ready) = true := by decide +kernel

end Sys2Proof.Machine
end

section
/-! PROOFS. The reset ladder and the machine after device reset (O51, O57): how an event of the device ends, how a rung starts, what a write of
RESET does, and what each rung leaves. -/
namespace Sys2Proof.Machine

/-! ## Actions and events of the device -/

theorem Ends.bind {α β : Type} {m : Act α} {f : α → Act β} {s t u : State} {a : α} {b : β} (hm : Ends m s a t) (hf : Ends (f a) t b u) :
    Ends (m >>= f) s b u := by
  unfold Ends at *
  rw [Act.run_bind, hm]
  exact hf

/-- An action that ends has first ended its first part. -/
theorem Ends.of_bind {α β : Type} {m : Act α} {f : α → Act β} {s u : State} {b : β} (h : Ends (m >>= f) s b u) :
    ∃ a t, Ends m s a t ∧ Ends (f a) t b u := by
  unfold Ends at h
  rw [Act.run_bind] at h
  cases hm : m s with
  | mk x t =>
    rw [hm] at h
    cases x with
    | error e => exact absurd (congrArg Prod.fst h) (by simp)
    | ok a => exact ⟨a, t, hm, h⟩

/-- A loop over one element is its body. -/
theorem ends_forIn_singleton {α : Type} {f : α → Act Unit} {a : α} {s t : State} (h : Ends (f a) s () t) :
    Ends (do for x in [a] do f x) s () t := by
  unfold Ends at *
  simp only [List.forIn_cons, List.forIn_nil, Act.run_bind, h, Act.run_pure]

theorem ends_modify (g : State → State) (s : State) : Ends (modify g : Act Unit) s () (g s) := Act.run_modify g s

/-- An event whose action ends takes place. -/
theorem becomes_of_ends {i : Instr} {s t : State} {m : Act Unit} (hi : exec i s = runEvent s m) (h : Ends m s.asDevice () t) : Becomes i s t := by
  unfold Becomes
  rw [hi]
  unfold runEvent
  rw [show m.run { s with reader := deviceAgent } = (.ok (), t) from h]

/-- What an event becomes does not tell whose accesses were made last. -/
theorem becomes_asDevice {i : Instr} {s t : State} (h : Becomes i s t.asDevice) : Becomes i s t := h

/-! ## How rungs overlap -/

theorem Rung.overlaps_comm (a b : Rung) : a.overlaps b = b.overlaps a := Bool.and_comm _ _

theorem runningRungs_singleton (r : Rung) : runningRungs [] [r] = [r] := rfl

/-- Of two rungs that overlap the first runs. -/
theorem runningRungs_pair {r q : Rung} (h : r.overlaps q = true) : runningRungs [] [r, q] = [r] := by
  simp [runningRungs, Rung.overlaps_comm q r, h]

/-! ## A rung starts (R429) -/

/-- The state with its rungs replaced. -/
def State.setRungs (s : State) (l : List Rung) : State := { s with dev := { s.dev with rungs := l } }

/-- The rungs beside which a rung starts: all but the waiting ones that it absorbs. -/
def State.rungsBeside (s : State) (r : Rung) : List Rung :=
  s.dev.rungs.filter fun x => decide (x ∈ runningRungs [] s.dev.rungs) || !(decide (x.num < r.num) && r.covers x)

/-- Whether a higher rung that covers it absorbs a rung. -/
def State.absorbs (s : State) (r : Rung) : Prop := ∃ h ∈ s.dev.rungs, r.num < h.num ∧ h.covers r = true

theorem startRung_absorbed {s : State} {r : Rung} (h : s.absorbs r) : Ends (startRung r) s () s := by
  have ha : (s.dev.rungs.any fun h => decide (r.num < h.num) && h.covers r) = true := by simpa [State.absorbs] using h
  unfold Ends startRung
  rw [Act.run_bind, Act.run_get]
  simp only [ha, if_true, Act.run_pure]

/-- A rung that is not absorbed joins the others, and acts where it overlaps none of them. -/
theorem startRung_joins {s : State} {r : Rung} (h : ¬s.absorbs r) :
    startRung r s = (if (s.rungsBeside r).any r.overlaps then (pure () : Act Unit) else applyRung r) (s.setRungs (s.rungsBeside r ++ [r])) := by
  have ha : (s.dev.rungs.any fun h => decide (r.num < h.num) && h.covers r) = false := by simpa [State.absorbs] using h
  unfold startRung
  rw [Act.run_bind, Act.run_get]
  simp only [ha, List.contains_eq_mem]
  cases hb : (s.rungsBeside r).any r.overlaps <;> (unfold State.rungsBeside at hb; simp only [hb]; rfl)

/-- What O51 says of a write or event that starts a rung, from `s0` on: it is absorbed, waits, or acts. -/
def Starts (s : State) (i : Instr) (s0 : State) (r : Rung) : Prop :=
  (s.absorbs r → Becomes i s s0) ∧
  ((∀ h ∈ s.dev.rungs, ¬(r.num < h.num ∧ h.covers r = true)) →
    ((∃ x ∈ s.rungsBeside r, x.overlaps r = true) → Becomes i s (s0.setRungs (s.rungsBeside r ++ [r]))) ∧
    ((∀ x ∈ s.rungsBeside r, x.overlaps r = false) → ∀ t, Ends (applyRung r) (s0.setRungs (s.rungsBeside r ++ [r])).asDevice () t → Becomes i s t))

/-- An event that runs `startRung` from a state with the same rungs starts the rung. -/
theorem starts_of_exec {s s0 : State} {i : Instr} {r : Rung} {m : Act Unit} (hi : exec i s = runEvent s m)
    (hm : m s.asDevice = startRung r s0.asDevice) (h0 : s0.dev.rungs = s.dev.rungs) : Starts s i s0 r := by
  have hl : s0.asDevice.dev.rungs = s.dev.rungs := h0
  have ha : s0.asDevice.absorbs r ↔ s.absorbs r := by unfold State.absorbs; rw [hl]
  have hb : s0.asDevice.rungsBeside r = s.rungsBeside r := by unfold State.rungsBeside; rw [hl]
  refine ⟨fun h => ?absorbed, fun h => ?joins⟩
  case absorbed => exact becomes_asDevice (becomes_of_ends hi (hm.trans (startRung_absorbed (ha.mpr h))))
  case joins =>
    have hn : ¬s0.asDevice.absorbs r := fun hs => (ha.mp hs).elim fun x hx => h x hx.1 hx.2
    have hj := hm.trans (startRung_joins hn)
    rw [hb] at hj
    refine ⟨fun hx => ?waits, fun hx t ht => ?acts⟩
    case waits =>
      rw [if_pos (by simpa only [List.any_eq_true, Rung.overlaps_comm r] using hx)] at hj
      exact becomes_asDevice (becomes_of_ends hi hj)
    case acts =>
      rw [if_neg (by simpa [Rung.overlaps_comm r] using hx)] at hj
      exact becomes_of_ends hi (hj.trans ht)

/-! ## A write of RESET (R432) -/

theorem beginReset_starts {s : State} {i : Instr} {r : Rung} (hi : exec i s = beginReset s r) :
    Starts s i { s with dev := { s.dev with refused := false } } r :=
  starts_of_exec hi (by rw [Act.run_bind, Act.run_modify]; rfl) rfl

/-- What O51 says of a write of RESET: it waits for READY, is refused, or starts its rung. -/
def WritesReset (s : State) (i : Instr) (ok : Prop) (r : Rung) : Prop :=
  (s.dev.ready = false → exec i s = .next s) ∧
  (s.dev.ready = true → ¬ok → exec i s = .next { s with dev := { s.dev with refused := true } }) ∧
  (s.dev.ready = true → ok → Starts s i { s with dev := { s.dev with refused := false } } r)

theorem writesReset_of_exec {s : State} {i : Instr} {ok bad : Prop} [Decidable bad] {r : Rung} (hbad : bad ↔ ¬ok)
    (hi : exec i s = barWrite s (if bad then refuseReset s else beginReset s r)) : WritesReset s i ok r := by
  unfold barWrite at hi
  refine ⟨fun hr => ?_, fun hr hok => ?_, fun hr hok => beginReset_starts ?_⟩
  · rw [hi, hr]; rfl
  · rw [hi, hr, if_pos rfl, if_pos (hbad.mpr hok)]; rfl
  · rw [hi, hr, if_pos rfl, if_neg fun h => hbad.mp h hok]

theorem bitsOf_top (v : Word) : bitsOf v 60 4 = v.toNat / 2 ^ 60 := by
  unfold bitsOf; have := v.isLt; omega

theorem resetReserved_iff (v : Word) : resetReserved v = true ↔
    v.toNat / 2 ^ 56 % 2 ^ 4 ≠ 0 ∨ v.toNat / 2 ^ 24 % 2 ^ 24 ≠ 0 ∨ v.toNat / 2 ^ 2 % 2 ^ 6 ≠ 0 := by
  simp only [resetReserved, Bool.or_eq_true, decide_eq_true_eq, or_assoc]
  exact Iff.rfl

theorem isF_iff (who : Requester) : Requester.isF who = true ↔ ∃ n, who = .firmware n := by
  cases who <;> simp [Requester.isF]

/-- The core that bits 15:8 of a word name. -/
theorem ofNat_bitsOf_core (v : Word) : BitVec.ofNat 8 (bitsOf v 8 8) = (BitVec.ofNat 8 (v.toNat / 2 ^ 8) : CoreId) := by
  apply BitVec.eq_of_toNat_eq; simp [bitsOf]

theorem queueQid_iff (q : Nat) : queueQid q = true ↔ (q < 0x40 ∧ q ∉ [0, 5, 10, 15]) ∨ (0x48 ≤ q ∧ q < 0x4C) := by
  have ht : q ∈ tokenQueues ↔ q < 16 ∧ q ∉ [0, 5, 10, 15] := by simp [tokenQueues, tokenCode]; omega
  simp only [queueQid, List.contains_eq_mem, Bool.or_eq_true, Bool.and_eq_true, decide_eq_true_eq, ht, List.mem_cons, List.not_mem_nil, or_false]
  omega

theorem exec_resetQueue (who : Requester) (v : Word) (s : State) : exec (.resetQueue who v) s = queueReset 1 who v s (queueQid (bitsOf v 48 8)) := rfl
theorem exec_resetEngine (who : Requester) (v : Word) (s : State) :
    exec (.resetEngine who v) s = queueReset 2 who v s (decide (0x40 ≤ bitsOf v 48 8) && decide (bitsOf v 48 8 < 0x48)) := rfl
theorem exec_resetPartition (who : Requester) (v : Word) (s : State) : exec (.resetPartition who v) s = execResetPartition who v s := rfl
theorem exec_resetDie (who : Requester) (v : Word) (s : State) : exec (.resetDie who v) s = execResetDie who v s := rfl
theorem exec_resetFunctionLevel (s : State) : exec .resetFunctionLevel s = runEvent s (startRung { num := 5, first := 0, cnt := 256, qid := 0 }) := rfl
theorem exec_resetDevice (s : State) : exec .resetDevice s = runEvent s (startRung { num := 6, first := 0, cnt := 256, qid := 0 }) := rfl
theorem exec_resetRungComplete (s : State) : exec .resetRungComplete s = execResetRungComplete s := rfl

/-- Rungs 1 and 2 are taken from F, for a core that is cut or debug-halted, with a QID of theirs. -/
theorem queueReset_writes {s : State} {who : Requester} {v : Word} {i : Instr} {num : Nat} {qidOk : Bool} {ok reserved : Prop} {n : CoreId}
    (hnum : v.toNat / 2 ^ 60 = num) (hi : exec i s = queueReset num who v s qidOk) (hn : n = BitVec.ofNat 8 (v.toNat / 2 ^ 8))
    (hr : resetReserved v = true ↔ reserved) (hq : qidOk = true ↔ ok) :
    WritesReset s i ((¬reserved ∧ (∃ m, who = .firmware m) ∧ s.cutOrHalted n = true) ∧ ok) { num := num, first := n.toNat, cnt := 1, qid := bitsOf v 48 8 } := by
  subst hn
  rw [← hr, ← hq, ← isF_iff]
  refine writesReset_of_exec (bad := (resetReserved v || !Requester.isF who || !qidOk || !s.cutOrHalted (BitVec.ofNat 8 (v.toNat / 2 ^ 8))) = true) ?_ ?_
  · grind
  · rw [hi, queueReset, bitsOf_top, if_neg fun h => h hnum, ofNat_bitsOf_core]

theorem resetPartition_writes {s : State} (who : Requester) {v : Word} {reserved : Prop} (hnum : v.toNat / 2 ^ 60 = 3) (hr : resetReserved v = true ↔ reserved) :
    WritesReset s (.resetPartition who v) (¬reserved ∧ v.toNat / 2 ^ 8 % 2 ^ 8 + v.toNat / 2 ^ 16 % 2 ^ 8 < 256)
      { num := 3, first := v.toNat / 2 ^ 8 % 2 ^ 8, cnt := v.toNat / 2 ^ 16 % 2 ^ 8 + 1, qid := 0 } := by
  rw [← hr]
  refine writesReset_of_exec (bad := bitsOf v 60 4 ≠ 3 ∨ resetReserved v ∨ 255 < bitsOf v 8 8 + bitsOf v 16 8) ?_ ?_
  · rw [bitsOf_top, hnum]; unfold bitsOf; grind
  · rw [exec_resetPartition, execResetPartition, bitsOf_top, if_neg (by omega)]; rfl

/-- A write of RESET with no rung's number is refused. -/
theorem resetPartition_refuses {s : State} (who : Requester) {v : Word} (hnum : v.toNat / 2 ^ 60 = 0 ∨ 5 ≤ v.toNat / 2 ^ 60) (hr : s.dev.ready = true) :
    exec (.resetPartition who v) s = .next { s with dev := { s.dev with refused := true } } := by
  have hn : v.toNat / 2 ^ 60 ≠ 3 := by omega
  rw [exec_resetPartition, execResetPartition, bitsOf_top, if_neg (by omega), barWrite, if_pos hr, if_pos (Or.inl hn)]
  rfl

/-- Whether a requester is F of a die. -/
def Requester.onDie (who : Requester) (d : Nat) : Bool := match who with
  | .driver => false
  | .firmware n => decide (dieOf n = d)

theorem onDie_iff (who : Requester) (d : Nat) : Requester.onDie who d = true ↔ ∃ n : CoreId, who = .firmware n ∧ dieOf n = d := by
  cases who <;> simp [Requester.onDie]

/-- F may not reset its own die. -/
theorem resetDie_writes {s : State} {who : Requester} {v : Word} {reserved : Prop} (hnum : v.toNat / 2 ^ 60 = 4) (hr : resetReserved v = true ↔ reserved) :
    WritesReset s (.resetDie who v) (¬reserved ∧ ¬∃ n : CoreId, who = .firmware n ∧ dieOf n = v.toNat % 4)
      { num := 4, first := 64 * (v.toNat % 4), cnt := 64, qid := 0 } := by
  have hd : bitsOf v 0 2 = v.toNat % 4 := by simp [bitsOf]
  rw [← hr, ← onDie_iff, ← hd]
  refine writesReset_of_exec (bad := (resetReserved v || Requester.onDie who (bitsOf v 0 2)) = true) ?_ ?_
  · grind
  · rw [exec_resetDie, execResetDie, bitsOf_top, if_neg fun h => h hnum]; rfl

/-! ## What every rung does first: the code stores of its cores are emptied (R439) -/

/-- A fold keeps what each of its steps keeps. -/
theorem foldl_keeps {σ α β : Type} {f : σ → β} {g : σ → α → σ} (l : List α) (h : ∀ s, ∀ a ∈ l, f (g s a) = f s) (s : σ) : f (l.foldl g s) = f s :=
  List.foldlRecOn (motive := fun t => f t = f s) l g rfl fun t ht a ha => (h t a ha).trans ht

/-- The code stores of cores emptied. -/
def State.emptyCode (s : State) (cs : List CoreId) : State := cs.foldl (fun s n => s.modCore n fun c => { c with code := [] }) s

/-- Emptying code stores keeps what tells no cores. -/
theorem emptyCode_keeps {α : Type} (f : State → α) (hf : ∀ s l, f { s with cores := l } = f s) (s : State) (cs : List CoreId) : f (s.emptyCode cs) = f s :=
  foldl_keeps cs (fun s _ _ => hf s _) s

/-- Emptying code stores keeps what tells no code of a core. -/
theorem emptyCode_keeps_core {α : Type} (f : Core → α) (hf : ∀ c, f { c with code := [] } = f c) (s : State) (cs : List CoreId) (n : CoreId) :
    f ((s.emptyCode cs).core n) = f (s.core n) := by
  refine foldl_keeps (f := fun s : State => f (s.core n)) cs (fun s m _ => ?_) s
  by_cases h : n = m
  · subst h; rw [core_modCore_same, hf]
  · rw [core_modCore_ne _ _ _ _ h]

theorem cutOrHalted_emptyCode (s : State) (cs : List CoreId) (n : CoreId) : (s.emptyCode cs).cutOrHalted n = s.cutOrHalted n := by
  simp only [State.cutOrHalted, emptyCode_keeps_core Core.debugHalt (fun _ => rfl), emptyCode_keeps_core Core.cutting (fun _ => rfl),
    emptyCode_keeps_core Core.unit (fun _ => rfl), emptyCode_keeps State.dies (fun _ _ => rfl), emptyCode_keeps State.parked (fun _ _ => rfl)]

/-! ## Rungs 1 and 2: a queue or an engine of a core -/

/-- The core of a rung that reaches one. -/
abbrev Rung.core (r : Rung) : CoreId := BitVec.ofNat 8 r.first

theorem cores_of_cnt_one {r : Rung} (h : r.cnt = 1) : r.cores = [r.core] := by
  simp [Rung.cores, h, List.range_succ]

theorem applyRung_queue {r : Rung} {s : State} (h : r.num = 1) (hc : s.cutOrHalted r.core = true) :
    applyRung r s = changeCut r.core (fun t => t.modCore r.core fun c => c.clearQueue r.qid) (s.emptyCode r.cores) := by
  rw [← cutOrHalted_emptyCode s r.cores] at hc
  unfold State.emptyCode at *
  simp only [applyRung, Act.run_bind, Act.run_modify, Act.run_get, h, hc, Nat.reduceEqDiff, if_true, if_false]

theorem applyRung_engine {r : Rung} {s : State} (h : r.num = 2) (hc : s.cutOrHalted r.core = true) :
    applyRung r s = changeCut r.core (fun t => t.clearEngine r.core r.qid) (s.emptyCode r.cores) := by
  rw [← cutOrHalted_emptyCode s r.cores] at hc
  unfold State.emptyCode at *
  simp only [applyRung, Act.run_bind, Act.run_modify, Act.run_get, h, hc, Nat.reduceEqDiff, if_true, if_false]

/-- A unit that stands on its core is changed there. -/
theorem changeCut_standing {s : State} {n : CoreId} (g : State → State) (h : (s.core n).unit ≠ none ∨ (s.core n).debugHalt = .stopped) :
    Ends (changeCut n g) s () (g s) := by
  have hs : ((s.core n).unit.isSome || decide ((s.core n).debugHalt = .stopped)) = true := by simpa [Option.isSome_iff_ne_none] using h
  unfold Ends changeCut
  rw [Act.run_bind, Act.run_get]
  simp only [hs, if_true]
  rfl

/-- The one cut unit that waits for a core is changed in its save block. -/
theorem changeCut_saved {s t : State} {n : CoreId} {g : State → State} {x : BitVec 8 × BitVec 24 × CutUnit} (hu : (s.core n).unit = none)
    (hd : (s.core n).debugHalt ≠ .stopped) (hx : s.savedOn n = [x]) (ht : Ends (changeSaved n g x) s () t) : Ends (changeCut n g) s () t := by
  have hs : ((s.core n).unit.isSome || decide ((s.core n).debugHalt = .stopped)) = false := by simp [hu, hd]
  unfold Ends changeCut
  rw [Act.run_bind, Act.run_get]
  simp only [hs, hx, Bool.false_eq_true, if_false]
  exact ends_forIn_singleton ht

theorem clearQueue_tokens (c : Core) {k : Nat} (h : k < 16) : ((c.clearQueue k).tkOf k).entries = [] := by
  rw [Core.clearQueue, if_pos h, Core.setTk, Core.tkOf, Tab.get_put_same]

theorem clearQueue_data (c : Core) {k : Nat} (h : k < 8) :
    ((c.clearQueue (0x10 + k)).dq k).entries = [] ∧ ((c.clearQueue (0x10 + k)).dq k).pops = (c.dq k).pops := by
  rw [Core.clearQueue, if_neg (by omega), if_pos (by omega), Nat.add_sub_cancel_left, Core.setDq, Core.dq, Tab.get_put_same]
  exact ⟨rfl, rfl⟩

theorem clearQueue_ring (c : Core) {k : Nat} (h : k < 32) : (c.clearQueue (0x20 + k)).ring k =
    { c.ring k with claim := (c.ring k).head, tail := (c.ring k).head, pushed := [], marks := [], holders := [], fill := [] } := by
  rw [Core.clearQueue, if_neg (by omega), if_neg (by omega), if_neg (by omega), if_neg (by omega), if_pos (by omega), Nat.add_sub_cancel_left]
  dsimp only
  rw [Core.setRing, Core.ring, Tab.get_put_same]

/-! ## Rung 3: the cores of a partition -/

theorem Tab.get_map_values {α : Type} (d : α) (f : α → α) (hd : f d = d) (t : Tab α) (n : Nat) :
    Tab.get d (t.map fun x => (x.1, f x.2)) n = f (Tab.get d t n) := by
  induction t with
  | nil => exact hd.symm
  | cons x t ih => simp only [List.map_cons, Tab.get, ih, apply_ite f]

/-- Claims withdrawn from the rings of a core. -/
def Core.withoutClaims (n : CoreId) (c : Core) : Core :=
  { c with rings := c.rings.map fun r => (r.1, { r.2 with waits := r.2.waits.filter fun w => decide (w.core ≠ n) }) }

theorem withdrawClaims_core (s : State) (n m : CoreId) : (s.withdrawClaims n).core m = (s.core m).withoutClaims n :=
  Tab.get_map_values Core.reset (Core.withoutClaims n) rfl s.cores m.toNat

/-- One core of a partition reset. -/
def State.resetCore (s : State) (n : CoreId) : State :=
  (((s.withdrawClaims n).dropLoads n).clearCodes n).modCore n fun c => c.rungReset s.dev.ready s.ccount

theorem resetCore_core_same (s : State) (n : CoreId) : (s.resetCore n).core n = ((s.core n).withoutClaims n).rungReset s.dev.ready s.ccount := by
  rw [← withdrawClaims_core]; exact core_modCore_same _ _ _

theorem resetCore_core_ne (s : State) {n m : CoreId} (h : m ≠ n) : (s.resetCore n).core m = (s.core m).withoutClaims n := by
  rw [← withdrawClaims_core]; exact core_modCore_ne _ _ _ _ h

/-- What rung 3 leaves in a core at its reset value. -/
def Core.Cleared (c : Core) : Prop :=
  c.k = Seq.reset ∧ c.l = Seq.reset ∧ c.c = Seq.reset ∧ c.s = Seq.reset ∧ c.supK = Sup.reset ∧ c.slice = [] ∧ c.code = [] ∧ c.q = [] ∧ c.tk = [] ∧
  c.unit = none ∧ c.vec = VUnit.reset ∧ c.mat = MUnit.reset ∧ c.group = Group.reset

theorem rungReset_cleared (c : Core) (ready : Bool) (now : Nat) : (c.rungReset ready now).Cleared := by
  cases ready <;> exact ⟨rfl, rfl, rfl, rfl, rfl, rfl, rfl, rfl, rfl, rfl, rfl, rfl, rfl⟩

theorem rungReset_events (c : Core) (ready : Bool) (now : Nat) : (c.rungReset ready now).events = c.events := by cases ready <;> rfl
theorem rungReset_f_regs (c : Core) (ready : Bool) (now : Nat) : (c.rungReset ready now).f.regs = c.f.regs := by cases ready <;> rfl

/-- A core once reset stays so while others are. -/
theorem Core.Cleared.resetCore {s : State} {m : CoreId} (h : (s.core m).Cleared) (n : CoreId) : ((s.resetCore n).core m).Cleared := by
  by_cases hm : m = n
  · subst hm; rw [resetCore_core_same]; exact rungReset_cleared _ _ _
  · rw [resetCore_core_ne _ hm]; exact h

theorem foldl_resetCore_cleared (s : State) {cs : List CoreId} {n : CoreId} (h : n ∈ cs) :
    ((cs.foldl State.resetCore s).core n).Cleared := by
  induction cs generalizing s with
  | nil => exact absurd h List.not_mem_nil
  | cons m cs ih =>
    by_cases hn : n ∈ cs
    · exact ih _ hn
    · obtain rfl : n = m := (List.mem_cons.mp h).resolve_right hn
      refine List.foldlRecOn (motive := fun t : State => (t.core n).Cleared) cs _ ?_ fun t ht m _ => ht.resetCore m
      rw [resetCore_core_same]; exact rungReset_cleared _ _ _

/-- What the reset of a core keeps stands in every core as before. -/
theorem foldl_resetCore_keeps {α : Type} (f : Core → α) (hw : ∀ c n, f (Core.withoutClaims n c) = f c) (hr : ∀ c ready now, f (Core.rungReset c ready now) = f c)
    (s : State) (cs : List CoreId) (n : CoreId) : f ((cs.foldl State.resetCore s).core n) = f (s.core n) := by
  refine foldl_keeps (f := fun s : State => f (s.core n)) cs (fun s m _ => ?_) s
  by_cases h : n = m
  · subst h; exact (congrArg f (resetCore_core_same ..)).trans ((hr ..).trans (hw ..))
  · exact (congrArg f (resetCore_core_ne _ h)).trans (hw ..)

/-- A core outside the partition keeps all but the claims at its rings. -/
theorem foldl_resetCore_outside {α : Type} (f : Core → α) (hw : ∀ c n, f (Core.withoutClaims n c) = f c) (s : State)
    {cs : List CoreId} {n : CoreId} (h : n ∉ cs) : f ((cs.foldl State.resetCore s).core n) = f (s.core n) :=
  foldl_keeps (f := fun s : State => f (s.core n)) (g := State.resetCore) cs
    (fun _ _ hm => (congrArg f (resetCore_core_ne _ (ne_of_mem_of_not_mem hm h).symm)).trans (hw ..)) s

/-- A partition without units is reset core by core, memory left as it is. -/
theorem resetCores_ends {s : State} {cs : List CoreId} (h : ∀ n ∈ cs, (s.core n).unit = none) :
    ∃ t, Ends (resetCores cs) s () t ∧ t.mem = s.mem ∧ t.cores = (cs.foldl State.resetCore s).cores := by
  have hu : (cs.filterMap fun n => (s.core n).unit.map fun u => (u.job, u.task)) = [] :=
    List.filterMap_eq_nil_iff.mpr fun n hn => by rw [h n hn]; rfl
  unfold Ends resetCores
  rw [Act.run_bind, Act.run_get]
  simp only [hu, List.eraseDups_nil, List.forIn_nil]
  rw [Act.run_bind, Act.run_pure]
  exact ⟨_, Act.run_modify _ _, foldl_keeps (f := State.mem) (g := State.resetCore) cs (fun _ _ _ => rfl) s, rfl⟩

theorem applyRung_partition {r : Rung} {s : State} (h : r.num = 3) : applyRung r s = resetCores r.cores (s.emptyCode r.cores) := by
  unfold State.emptyCode
  simp only [applyRung, Act.run_bind, Act.run_modify, Act.run_get, h, Nat.reduceEqDiff, if_true, if_false]

/-- Rung 3 on cores without units: what it leaves in them, and that it leaves the others alone. -/
theorem partitionRung_leaves {r : Rung} {s : State} (h : r.num = 3) (hu : ∀ n ∈ r.cores, (s.core n).unit = none) :
    ∃ t, Ends (applyRung r) s () t ∧ t.mem = s.mem ∧
      (∀ n ∈ r.cores, (t.core n).Cleared) ∧ (∀ n, (t.core n).events = (s.core n).events ∧ (t.core n).f.regs = (s.core n).f.regs) ∧
      (∀ n, n ∉ r.cores → (t.core n).k = (s.core n).k ∧ (t.core n).slice = (s.core n).slice) := by
  let u := s.emptyCode r.cores
  obtain ⟨t, ht, hmem, hcores⟩ := resetCores_ends (s := u) (cs := r.cores)
    fun n hn => (emptyCode_keeps_core Core.unit (fun _ => rfl) s r.cores n).trans (hu n hn)
  have hcore (n : CoreId) : t.core n = (r.cores.foldl State.resetCore u).core n := by unfold State.core; rw [hcores]
  refine ⟨t, (applyRung_partition h).trans ht, hmem.trans (emptyCode_keeps State.mem (fun _ _ => rfl) s r.cores), fun n hn => ?_, fun n => ?_, fun n hn => ?_⟩
  · rw [hcore]; exact foldl_resetCore_cleared _ hn
  · rw [hcore]
    exact ⟨(foldl_resetCore_keeps Core.events (fun _ _ => rfl) rungReset_events u r.cores n).trans (emptyCode_keeps_core Core.events (fun _ => rfl) s _ n),
      (foldl_resetCore_keeps (fun c => c.f.regs) (fun _ _ => rfl) rungReset_f_regs u r.cores n).trans (emptyCode_keeps_core (fun c => c.f.regs) (fun _ => rfl) s _ n)⟩
  · rw [hcore]
    exact ⟨(foldl_resetCore_outside Core.k (fun _ _ => rfl) u hn).trans (emptyCode_keeps_core Core.k (fun _ => rfl) s _ n),
      (foldl_resetCore_outside Core.slice (fun _ _ => rfl) u hn).trans (emptyCode_keeps_core Core.slice (fun _ => rfl) s _ n)⟩

/-! ## Rungs 5 and 6: the function and the device -/

theorem applyRung_function {r : Rung} {s : State} (h : r.num = 5) : applyRung r s = resetFunction (s.emptyCode r.cores) := by
  unfold State.emptyCode
  simp only [applyRung, Act.run_bind, Act.run_modify, Act.run_get, h, Nat.reduceEqDiff, if_false]

theorem resetFunction_leaves {s t : State} (h : Ends resetFunction s () t) : t.jobs = [] ∧ t.subs = [] ∧ t.streams = [] ∧ t.dev.evq = [] ∧
    t.dev.zen = false ∧ t.dev.fwfp = 0 ∧ t.dev.leafNext = 0 ∧ t.dev.leafEnd = 0 := by
  obtain ⟨-, u, -, hu⟩ := Ends.of_bind h
  obtain rfl := congrArg Prod.snd hu
  exact ⟨rfl, rfl, rfl, rfl, rfl, rfl, rfl, rfl⟩

theorem applyRung_device {r : Rung} {s : State} (h : r.num = 6) : Ends (applyRung r) s () (s.emptyCode r.cores).cold := by
  unfold State.emptyCode Ends
  simp only [applyRung, Act.run_bind, Act.run_modify, Act.run_get, h, Nat.reduceEqDiff, if_true, if_false]
  rfl

/-! ## What rungs 1 and 2 leave -/

/-- Rung 1 on a core whose unit stands on it. -/
theorem queueRung_leaves {r : Rung} {s : State} (h : r.num = 1) (hc : s.cutOrHalted r.core = true)
    (hu : (s.core r.core).unit ≠ none ∨ (s.core r.core).debugHalt = .stopped) :
    ∃ t, Ends (applyRung r) s () t ∧ t.mem = s.mem ∧
      t.core r.core = ((s.emptyCode r.cores).core r.core).clearQueue r.qid := by
  rw [← emptyCode_keeps_core Core.unit (fun _ => rfl) s r.cores, ← emptyCode_keeps_core Core.debugHalt (fun _ => rfl) s r.cores] at hu
  exact ⟨_, (applyRung_queue h hc).trans (changeCut_standing _ hu), emptyCode_keeps State.mem (fun _ _ => rfl) s r.cores, core_modCore_same ..⟩

/-- Rungs 1 and 2 on a core for which one cut unit waits. -/
theorem savedRung_ends {r : Rung} {s t : State} {x : BitVec 8 × BitVec 24 × CutUnit} (h : r.num = 1 ∨ r.num = 2) (hcnt : r.cnt = 1)
    (hc : s.cutOrHalted r.core = true) (hu : (s.core r.core).unit = none)
    (hd : (s.core r.core).debugHalt ≠ .stopped) (hx : s.savedOn r.core = [x])
    (ht : Ends (changeSaved r.core (if r.num = 1 then fun y => y.modCore r.core fun c => c.clearQueue r.qid
      else fun y => y.clearEngine r.core r.qid) x) (s.modCore r.core fun c => { c with code := [] }) () t) :
    Ends (applyRung r) s () t := by
  have he : (s.modCore r.core fun c => { c with code := [] }) = s.emptyCode r.cores := by rw [cores_of_cnt_one hcnt]; rfl
  rw [← emptyCode_keeps_core Core.unit (fun _ => rfl) s r.cores] at hu
  rw [← emptyCode_keeps_core Core.debugHalt (fun _ => rfl) s r.cores] at hd
  rw [← emptyCode_keeps (fun s => s.savedOn r.core) (fun _ _ => rfl) s r.cores] at hx
  rw [he] at ht
  rcases h with h | h
  · rw [if_pos h] at ht
    exact (applyRung_queue h hc).trans (changeCut_saved hu hd hx ht)
  · rw [if_neg (by omega)] at ht
    exact (applyRung_engine h hc).trans (changeCut_saved hu hd hx ht)

/-! ## A rung completes (R429) -/

/-- Whether the writes that keep a rung from its completion are performed: rungs 3 and 4 wait for those of their cores. -/
def State.rungQuiet (s : State) (r : Rung) : Prop := r.num < 3 ∨ 4 < r.num ∨ ∀ n ∈ r.cores, s.writesOut n = true

theorem rungQuiet_iff (s : State) (r : Rung) : (decide (r.num < 3) || decide (4 < r.num) || r.cores.all s.writesOut) = true ↔ s.rungQuiet r := by
  simp [State.rungQuiet, or_assoc]

theorem rungComplete_waits {s : State} (h : ∀ r ∈ runningRungs [] s.dev.rungs, ¬s.rungQuiet r) : Waits .resetRungComplete s := by
  have hn := List.find?_eq_none.mpr fun r hr => mt (rungQuiet_iff s r).mp (h r hr)
  unfold Waits
  rw [exec_resetRungComplete, execResetRungComplete]
  simp only [hn]
  rfl

/-- The one rung that runs completes, and the rungs that nothing overlaps any more start. -/
theorem rungComplete_becomes {s t : State} {r : Rung} (hrun : runningRungs [] s.dev.rungs = [r]) (hq : s.rungQuiet r)
    (ht : Ends (do for x in runningRungs [] (s.dev.rungs.erase r) do applyRung x) (s.setRungs (s.dev.rungs.erase r)).asDevice () t) :
    Becomes .resetRungComplete s t := by
  have hf := (rungQuiet_iff s r).mpr hq
  refine becomes_of_ends (m := do
    modify fun s => s.modDev fun d => { d with rungs := d.rungs.erase r }
    for x in runningRungs [] (← get).dev.rungs do applyRung x) ?_ ?_
  · rw [exec_resetRungComplete, execResetRungComplete]
    simp only [hrun, List.find?_cons, hf, List.erase_cons_head, List.contains_nil, Bool.not_false, List.filter_eq_self.mpr fun _ _ => rfl]
  · exact Ends.bind (ends_modify _ _) (Ends.bind (Act.run_get _) ht)

/-! ## The obligations -/

/-- Settles O51: a write of RESET by the requester's checks, the start of a rung by its place among the running ones, and each rung by what it runs. -/
theorem resetRungsTakeEffect : Obligations.ResetRungsTakeEffect := by
  unfold Obligations.ResetRungsTakeEffect
  intro s who v
  refine ⟨fun h => queueReset_writes h (exec_resetQueue who v s) rfl (resetReserved_iff v) (queueQid_iff _),
    fun h => queueReset_writes h (exec_resetEngine who v s) rfl (resetReserved_iff v) (by rw [Bool.and_eq_true, decide_eq_true_eq, decide_eq_true_eq]; rfl),
    fun h => resetPartition_writes who h (resetReserved_iff v), fun h => resetDie_writes h (resetReserved_iff v),
    fun h hr => resetPartition_refuses who h hr, starts_of_exec (exec_resetFunctionLevel s) rfl rfl, starts_of_exec (exec_resetDevice s) rfl rfl,
    ?queueRung, ?savedRung, ?partitionRung, ?functionRung, ?deviceRung, ?waits, ?ends, ?startsNext⟩
  case queueRung =>
    intro r h _ _ hc hu
    obtain ⟨t, ht, hm, hcore⟩ := queueRung_leaves h hc hu
    refine ⟨t, ht, hm, fun k hk hq => ?tokens, fun k hk hq => ?data, fun k hk hq => ?ring⟩
    case tokens => rw [hcore, hq]; exact clearQueue_tokens _ hk
    case data =>
      rw [hcore, hq, ← emptyCode_keeps_core (fun c => c.dq k) (fun _ => rfl) s r.cores]
      exact clearQueue_data _ hk
    case ring =>
      rw [hcore, hq, ← emptyCode_keeps_core (fun c => c.ring k) (fun _ => rfl) s r.cores, clearQueue_ring _ hk]
      exact ⟨rfl, rfl, rfl, rfl, rfl⟩
  case savedRung => exact fun r x h hcnt _ hc hu hd hx t ht => savedRung_ends h hcnt hc hu hd hx ht
  case partitionRung =>
    intro r h hu
    obtain ⟨t, ht, hm, hin, hkept, hout⟩ := partitionRung_leaves h hu
    refine ⟨t, ht, hm, fun n hn => ?_, hout⟩
    obtain ⟨hk, hl, hC, hs, hsup, hslice, hcode, hq, htk, hunit, hvec, hmat, hgroup⟩ := hin n hn
    exact ⟨hk, hl, hC, hs, hsup, hslice, hcode, hq, htk, hunit, hvec, hmat, hgroup, hkept n⟩
  case functionRung => exact fun r t h ht => resetFunction_leaves ((applyRung_function h).symm.trans ht)
  case deviceRung =>
    intro r h
    refine ⟨_, applyRung_device h, rfl, rfl, rfl, rfl, rfl, rfl, rfl, rfl, rfl, ?_, ?_, ?_, rfl⟩
    · exact emptyCode_keeps (fun s => s.dev.badPages) (fun _ _ => rfl) s r.cores
    · exact emptyCode_keeps (fun s => s.dev.sigCounter) (fun _ _ => rfl) s r.cores
    · exact emptyCode_keeps (fun s => s.dev.minVersion) (fun _ _ => rfl) s r.cores
  case waits => exact rungComplete_waits
  case ends =>
    intro r hl hq
    refine becomes_asDevice (rungComplete_becomes (r := r) (by rw [hl]; rfl) hq ?_)
    rw [hl, List.erase_cons_head]
    rfl
  case startsNext =>
    intro r q hl ho hq t ht
    refine rungComplete_becomes (r := r) (by rw [hl]; exact runningRungs_pair ho) hq ?_
    rw [hl, List.erase_cons_head, runningRungs_singleton]
    exact ends_forIn_singleton ht

/-- Settles O57: no core, register or byte of memory is listed at reset, so that each reads as its reset value. -/
theorem resetLeavesTheReset : Obligations.ResetLeavesTheReset := by
  have hreg (r : BitVec 5) : Seq.reset.reg r = 0 := ite_self 0
  refine ⟨rfl, reset_mem_wf, fun _ => rfl, fun _ r => ⟨hreg r, hreg r, hreg r, hreg r, hreg r⟩, fun _ => ?core, ?device⟩
  case core => exact ⟨rfl, rfl, rfl, rfl, rfl, rfl, rfl, rfl, rfl, rfl, rfl, rfl, rfl, rfl, rfl, rfl, rfl, rfl, rfl, rfl⟩
  case device => exact ⟨rfl, rfl, rfl, rfl, rfl, rfl, rfl, rfl, rfl, rfl, rfl, rfl, rfl, rfl⟩

end Sys2Proof.Machine
end
